-- ==== Sys2Proof/Word.lean ====
section
/-! DEFINITION. The words of NECORE: the 32-bit port word, which is also the carrier of a binary32 value, and the byte. -/

namespace Sys2Proof

/-- A 32-bit word of the register port (20_memory R100). -/
abbrev Word := BitVec 32

/-- A byte; byte `k` of a word is its bits `8k+7 .. 8k` (20_memory R103). -/
abbrev Byte := BitVec 8

/-- A word read as an IEEE 754 binary32 value: sign 31, exponent 30:23, fraction 22:0 (00_scope R15, 20_memory R103).
`f32` and `bits` of the spec are the identity on the word, so copies keep it bit for bit (00_scope R18). -/
abbrev F32 := BitVec 32

end Sys2Proof
end

