-- ==== Sys2Proof/Machine/Sparse.lean ====
section
/-! DEFINITION. Sparse arrays in one canonical form: a list of (index, word) pairs with strictly rising indices in which no entry
is 0; an index that is not listed reads 0. The port memory (bytes) and the f32 arrays of the units (words) are of this form. -/

namespace Sys2Proof.Machine

/-- A sparse array of `w`-bit words. -/
abbrev Sparse (w : Nat) := List (Nat × BitVec w)

/-- The f32 arrays of the units; an unlisted element reads +0.0, the reset and clear value of all of them (10_state R57, R60 to R63). -/
abbrev Samples := Sparse 32

/-- The memory of the register port that holds data, the IN and OUT windows, by port byte address (20_memory R102, R103). -/
abbrev Memory := List Host.Cell

/-- What index `a` reads as. -/
def sparseGet {w : Nat} : Sparse w → Nat → BitVec w
  | [], _ => 0#w
  | (b, v) :: rest, a => if b = a then v else sparseGet rest a

/-- The array without any entry at `a`. -/
def sparseErase {w : Nat} : Sparse w → Nat → Sparse w
  | [], _ => []
  | (b, v) :: rest, a => if b = a then sparseErase rest a else (b, v) :: sparseErase rest a

/-- Put an entry in its place among rising indices. -/
def sparsePut {w : Nat} : Sparse w → Nat → BitVec w → Sparse w
  | [], a, v => [(a, v)]
  | (b, x) :: rest, a, v => if b < a then (b, x) :: sparsePut rest a v else (a, v) :: (b, x) :: rest

/-- Write `v` at `a`. Writing 0 removes the entry, so the canonical form is kept. -/
def sparseSet {w : Nat} (m : Sparse w) (a : Nat) (v : BitVec w) : Sparse w :=
  if v = 0#w then sparseErase m a else sparsePut (sparseErase m a) a v

/-- Rising indices above `lo`, no zero entry. -/
def sparseRising {w : Nat} : Nat → Sparse w → Bool
  | _, [] => true
  | lo, (a, v) :: rest => decide (lo ≤ a) && decide (v ≠ 0#w) && sparseRising (a + 1) rest

/-- The canonical form. -/
def sparseWf {w : Nat} (m : Sparse w) : Bool := sparseRising 0 m

/-- Every listed index is below `n`: the array has no element at `n` or above. -/
def sparseBelow {w : Nat} (n : Nat) (m : Sparse w) : Bool := m.all fun c => decide (c.1 < n)

/-- The canonical form of the port memory: addresses strictly rising, no entry that reads as an unlisted address does. -/
def Memory.wf (m : Memory) : Bool := sparseWf m

/-- The sparse form of the words `l`, whose first stands at index `i`. -/
def sparseFrom {w : Nat} : Nat → List (BitVec w) → Sparse w
  | _, [] => []
  | i, v :: rest => if v = 0#w then sparseFrom (i + 1) rest else (i, v) :: sparseFrom (i + 1) rest

/-- The sparse form of a list of words that starts at index 0. -/
def sparseOfList {w : Nat} (l : List (BitVec w)) : Sparse w := sparseFrom 0 l

/-- The first `n` elements as a dense array. -/
def sparseToArray {w : Nat} (n : Nat) (m : Sparse w) : Array (BitVec w) :=
  m.foldl (fun arr c => arr.setIfInBounds c.1 c.2) (Array.replicate n 0#w)

end Sys2Proof.Machine
end

