-- ==== Sys2Proof/Machine/Float.lean ====
section
/-! DEFINITION. IEEE 754 binary32 on words (00_scope R17 to R20): round to nearest, ties to even, no fused operation, subnormals
kept, one canonical NaN, no exception flag. A finite value is an exact integer number of units of 2^-149, so every operation
is exact integer arithmetic followed by ONE rounding (`F32.round`). -/

namespace Sys2Proof.Machine

/-- The canonical quiet NaN (00_scope R18). -/
def F32.qNaN : F32 := 0x7FC00000#32

/-- +0.0. -/
def F32.zero : F32 := 0x00000000#32

/-- The sign bit of a value (20_memory R103). -/
def F32.sign (a : F32) : Bool := a.getLsbD 31

/-- The biased exponent, bits 30:23 (20_memory R103). -/
def F32.exponent (a : F32) : Nat := (a.toNat / 2 ^ 23) % 2 ^ 8

/-- The fraction, bits 22:0 (20_memory R103). -/
def F32.fraction (a : F32) : Nat := a.toNat % 2 ^ 23

/-- Bits 30:0, which order the magnitudes of the values that are not NaN. -/
def F32.magBits (a : F32) : Nat := a.toNat % 2 ^ 31

/-- A NaN of either sign and any payload. -/
def F32.isNaN (a : F32) : Bool := decide (0x7F800000 < F32.magBits a)

/-- An infinity of either sign. -/
def F32.isInf (a : F32) : Bool := F32.magBits a == 0x7F800000

/-- A zero of either sign. -/
def F32.isZero (a : F32) : Bool := F32.magBits a == 0

/-- Neither a NaN nor an infinity. -/
def F32.isFinite (a : F32) : Bool := decide (F32.magBits a < 0x7F800000)

/-- The magnitude of a finite value in units of 2^-149 (exact; subnormals included). -/
def F32.mag (a : F32) : Nat :=
  if F32.exponent a = 0 then F32.fraction a else (2 ^ 23 + F32.fraction a) * 2 ^ (F32.exponent a - 1)

/-- The value of a finite word in units of 2^-149. -/
def F32.fix (a : F32) : Int := if F32.sign a then -(F32.mag a : Int) else (F32.mag a : Int)

/-- The word with the given sign bit and the given bits 30:0. -/
def F32.pack (neg : Bool) (bits : Nat) : F32 := BitVec.ofNat 32 ((if neg then 2 ^ 31 else 0) + bits)

/-- `num / den` to the nearest integer, ties to even. -/
def roundHalfEven (num den : Nat) : Nat :=
  let q := num / den
  let r := num % den
  if 2 * r < den then q else if den < 2 * r then q + 1 else q + q % 2

/-- The binary32 value nearest to ±(num / den) · 2^-149, ties to even, overflow to infinity (00_scope R17, R20). The unit in the
last place is 2^j units, where `j` is 0 in the subnormal range; a carry out of the fraction runs into the exponent field. -/
def F32.round (neg : Bool) (num den : Nat) : F32 :=
  let j := Nat.log2 (num / den) - 23
  let bits := j * 2 ^ 23 + roundHalfEven num (den * 2 ^ j)
  F32.pack neg (if bits < 0x7F800000 then bits else 0x7F800000)

/-- `rnd32` of the non-negative rational num / den (00_scope R20). -/
def F32.rnd32 (num den : Nat) : F32 := F32.round false (num * 2 ^ 149) den

/-- `float(n)` (00_scope R20; exact for n < 2^24). -/
def F32.ofNat (n : Nat) : F32 := F32.round false (n * 2 ^ 149) 1

/-- `−a`: the sign bit flips, exactly (00_scope R17). -/
def F32.neg (a : F32) : F32 := a ^^^ 0x80000000#32

/-- `a + b` (00_scope R17). An exact zero sum is +0.0 unless both operands are negative zeros. -/
def F32.add (a b : F32) : F32 :=
  if F32.isNaN a || F32.isNaN b then F32.qNaN
  else if F32.isInf a then (if F32.isInf b && F32.sign a != F32.sign b then F32.qNaN else a)
  else if F32.isInf b then b
  else
    let v := F32.fix a + F32.fix b
    if v = 0 then F32.pack (F32.sign a && F32.sign b) 0 else F32.round (decide (v < 0)) v.natAbs 1

/-- `a − b` (00_scope R17): the sum with the negated operand. -/
def F32.sub (a b : F32) : F32 := F32.add a (F32.neg b)

/-- `a × b` (00_scope R17). -/
def F32.mul (a b : F32) : F32 :=
  let neg := F32.sign a != F32.sign b
  if F32.isNaN a || F32.isNaN b then F32.qNaN
  else if F32.isInf a || F32.isInf b then
    (if F32.isZero a || F32.isZero b then F32.qNaN else F32.pack neg 0x7F800000)
  else F32.round neg (F32.mag a * F32.mag b) (2 ^ 149)

/-- `a / b` (00_scope R17). No command divides; R17 defines the operation all the same. -/
def F32.div (a b : F32) : F32 :=
  let neg := F32.sign a != F32.sign b
  if F32.isNaN a || F32.isNaN b then F32.qNaN
  else if F32.isInf a then (if F32.isInf b then F32.qNaN else F32.pack neg 0x7F800000)
  else if F32.isInf b then F32.pack neg 0
  else if F32.isZero b then (if F32.isZero a then F32.qNaN else F32.pack neg 0x7F800000)
  else F32.round neg (F32.mag a * 2 ^ 149) (F32.mag b)

/-- The place of a value that is not NaN in the order of the binary32 values; the two zeros share one place. -/
def F32.key (a : F32) : Int := if F32.sign a then -(F32.magBits a : Int) else (F32.magBits a : Int)

/-- `a < b`, false if either is NaN. -/
def F32.lt (a b : F32) : Bool := !F32.isNaN a && !F32.isNaN b && decide (F32.key a < F32.key b)

/-- `a ≥ b`, false if either is NaN. -/
def F32.ge (a b : F32) : Bool := !F32.isNaN a && !F32.isNaN b && decide (F32.key b ≤ F32.key a)

/-- `clamp(x, lo, hi)` (00_scope R19): a NaN gives lo; a zero inside the range passes with its sign. -/
def F32.clamp (x lo hi : F32) : F32 :=
  if F32.isNaN x then lo else if F32.lt x lo then lo else if F32.lt hi x then hi else x

/-- `trunc(x)` for a finite x ≥ 0 (00_scope R20). The spec gives it no other argument; on a negative value or a NaN the model
answers 0 and on +∞ the exponent's formula, and no state that a run reaches asks for one (log 7). -/
def F32.trunc (x : F32) : Nat := if F32.sign x || F32.isNaN x then 0 else F32.mag x / 2 ^ 149

/-- `clampi(n, lo, hi)` (00_scope R19). -/
def clampi (n lo hi : Int) : Int := min (max n lo) hi

end Sys2Proof.Machine
end

