-- ==== Sys2Proof/Machine/Trig.lean ====
section
/-! DEFINITION. The constant tables: the FFT twiddles (45_convolution R381) and the Hann window (44_pitch_shifter R341), each entry
`rnd32` of an exact real. The real is computed in fixed point with 128 fraction bits after an exact reduction of the angle to the
first eighth of a turn, so that the special angles come out exact (92_eei_decisions D50), and is rounded once (log 6). -/

namespace Sys2Proof.Machine

/-- The number of fraction bits of the fixed-point values in this file. -/
def trigBits : Nat := 128

/-- π in units of 2^-128, rounded down. -/
def piFix : Nat := 0x3243f6a8885a308d313198a2e03707344

/-- An alternating Taylor sum `t − t·xx/((n+1)(n+2)) + …` in fixed point. From `n = 0, t = 1` it is cos x, from `n = 1, t = x` it is
sin x, with `xx = x²`. For x in [0, π/4] the terms fall, and the 20 terms kept leave a rest below 2^-128. -/
def taylorAlt (xx : Nat) : Nat → Nat → Nat → Nat
  | 0, _, t => t
  | fuel + 1, n, t => t - taylorAlt xx fuel (n + 2) (t * xx / ((n + 1) * (n + 2) * 2 ^ trigBits))

/-- The angle of `num / den` turns, in fixed point. -/
def angleFix (num den : Nat) : Nat := 2 * piFix * num / den

/-- cos of `num / den` turns for num / den in [0, 1/8]. -/
def cosEighth (num den : Nat) : Nat :=
  let x := angleFix num den
  taylorAlt (x * x / 2 ^ trigBits) 20 0 (2 ^ trigBits)

/-- sin of `num / den` turns for num / den in [0, 1/8]. -/
def sinEighth (num den : Nat) : Nat :=
  let x := angleFix num den
  taylorAlt (x * x / 2 ^ trigBits) 20 1 x

/-- cos of `num / den` turns for num / den in [0, 1/4]: beyond an eighth it is the sine of the rest of the quarter, so that the
cosine of a quarter turn is exactly 0. -/
def cosQuarter (num den : Nat) : Nat :=
  if 8 * num ≤ den then cosEighth num den else sinEighth (den - 4 * num) (4 * den)

/-- cos of `num / den` turns for num / den in [0, 1/2]. -/
def cosHalf (num den : Nat) : Int :=
  if 4 * num ≤ den then (cosQuarter num den : Int) else -(cosQuarter (den - 2 * num) (2 * den) : Int)

/-- cos of `num / den` turns for num / den in [0, 1]. -/
def cosTurns (num den : Nat) : Int := if 2 * num ≤ den then cosHalf num den else cosHalf (den - num) den

/-- sin of `num / den` turns for num / den in [0, 1/2], the cosine of the angle less a quarter turn. -/
def sinTurns (num den : Nat) : Int := cosTurns (4 * num - den + (den - 4 * num)) (4 * den)

/-- `rnd32` of a fixed-point value. -/
def rndFix (v : Int) : F32 := F32.round (decide (v < 0)) (v.natAbs * 2 ^ 149) (2 ^ trigBits)

/-- COS_N[t] (45_convolution R381). -/
def twiddleCos (n t : Nat) : F32 := rndFix (cosTurns t n)

/-- SIN_N[t] (45_convolution R381). -/
def twiddleSin (n t : Nat) : F32 := rndFix (sinTurns t n)

/-- WIN[n] for the grain length `g`: `rnd32(0.5 · (1 − cos(2πn/g)))` (44_pitch_shifter R341). -/
def hannEntry (g n : Nat) : F32 :=
  let v := (2 ^ trigBits : Int) - cosTurns n g
  F32.round (decide (v < 0)) (v.natAbs * 2 ^ 149) (2 ^ (trigBits + 1))

/-- The window table of length `g` (44_pitch_shifter R341). -/
def hannTable (g : Nat) : List F32 := (List.range g).map (hannEntry g)

/-- COS_N as an array (45_convolution R381). -/
def cosTable (n : Nat) : Array F32 := ((List.range (n / 2)).map (twiddleCos n)).toArray

/-- SIN_N as an array (45_convolution R381). -/
def sinTable (n : Nat) : Array F32 := ((List.range (n / 2)).map (twiddleSin n)).toArray

end Sys2Proof.Machine
end

