-- ==== Sys2Proof/Machine/Fft.lean ====
section
/-! DEFINITION. The radix-2 decimation-in-time FFT on binary32 pairs, with every operation rounded (45_convolution R381 to R383). -/

namespace Sys2Proof.Machine

/-- A complex binary32 value: real part, imaginary part (10_state R62). -/
abbrev Cplx := F32 × F32

/-- (+0.0, +0.0). -/
def cZero : Cplx := (0#32, 0#32)

/-- `CMUL(a, b)` (45_convolution R383). -/
def cMul (a b : Cplx) : Cplx :=
  (F32.sub (F32.mul a.1 b.1) (F32.mul a.2 b.2), F32.add (F32.mul a.1 b.2) (F32.mul a.2 b.1))

/-- `bitreverse_L(i)` (45_convolution R382). -/
def bitReverse : Nat → Nat → Nat
  | 0, _ => 0
  | l + 1, i => i % 2 * 2 ^ l + bitReverse l (i / 2)

/-- The bit-reversal permutation: for each i < N, swap with j = bitreverse(i) when i < j (45_convolution R382). -/
def bitReversed (l n : Nat) (a : Array Cplx) : Array Cplx :=
  (List.range n).foldl (fun a i => if i < bitReverse l i then a.swapIfInBounds i (bitReverse l i) else a) a

/-- One butterfly on elements `p` and `q` with the twiddle (wr, wi) (45_convolution R382). -/
def butterfly (wr wi : F32) (p q : Nat) (a : Array Cplx) : Array Cplx :=
  let u := a.getD p cZero
  let v := a.getD q cZero
  let tr := F32.sub (F32.mul v.1 wr) (F32.mul v.2 wi)
  let ti := F32.add (F32.mul v.1 wi) (F32.mul v.2 wr)
  (a.setIfInBounds p (F32.add u.1 tr, F32.add u.2 ti)).setIfInBounds q (F32.sub u.1 tr, F32.sub u.2 ti)

/-- The stage of length `len`: blocks s = 0, len, 2·len, …, and in each the butterflies k < len / 2 in order, with the twiddle
index k · (N / len); the sine is negated for the forward transform (45_convolution R382). -/
def fftStage (cosT sinT : Array F32) (inverse : Bool) (n len : Nat) (a : Array Cplx) : Array Cplx :=
  (List.range (n / len)).foldl (fun a blk =>
    (List.range (len / 2)).foldl (fun a k =>
      let wr := cosT.getD (k * (n / len)) 0#32
      let sn := sinT.getD (k * (n / len)) 0#32
      butterfly wr (if inverse then sn else F32.neg sn) (blk * len + k) (blk * len + k + len / 2) a) a) a

/-- `FFT(a, N, dir)`, `inverse` for dir = +1 (45_convolution R382): bit reversal, then stages of length 2, 4, …, N. -/
def fft (inverse : Bool) (n : Nat) (a : Array Cplx) : Array Cplx :=
  let l := Nat.log2 n
  let cosT := cosTable n
  let sinT := sinTable n
  (List.range l).foldl (fun a st => fftStage cosT sinT inverse n (2 ^ (st + 1)) a) (bitReversed l n a)

/-- Real words followed by zeros up to `n` elements, with imaginary parts +0.0 (45_convolution R384, R385). -/
def zeroPadded (n : Nat) (l : List F32) : Array Cplx :=
  (l.map (fun v => (v, 0#32)) ++ List.replicate (n - l.length) cZero).toArray

/-- The elements of a complex array held as two sparse arrays. -/
def cplxArray (n : Nat) (re im : Samples) : Array Cplx :=
  (List.zip (sparseToArray n re).toList (sparseToArray n im).toList).toArray

end Sys2Proof.Machine
end

