-- ==== Sys2Proof/Config.lean ====
section
/-! DEFINITION. What an implementation of NECORE fixes: the synthesis parameters of 00_scope R10, the constraints on them,
the reference instance, and the one free value of the model. -/

namespace Sys2Proof

/-- The synthesis parameters of 00_scope R10. `N_DLY` is no field: R10 fixes it to `MAX_CH`. -/
structure Params where
  /-- MAX_CH, the largest channel count and the number of per-channel unit instances. -/
  maxCh : Nat
  /-- FS_MAX, the largest sample rate in Hz. -/
  fsMax : Nat
  /-- DLY_CAP_MAX, the largest delay-line capacity in samples. -/
  dlyCapMax : Nat
  /-- PRE_CAP, the capacity of each pre-delay ring. -/
  preCap : Nat
  /-- REV_CAP_MAX, the largest comb or allpass length. -/
  revCapMax : Nat
  /-- COMB_BASE[0..7]. -/
  combBase : List Nat
  /-- AP_BASE[0..3]. -/
  apBase : List Nat
  /-- SPREAD, the length offset added per channel index. -/
  spread : Nat
  /-- REF_RATE, the sample rate at which the base lengths hold. -/
  refRate : Nat
  /-- GPS_G_MAX, the largest grain length. -/
  gpsGMax : Nat
  /-- CONV_N_MAX, the largest FFT size. -/
  convNMax : Nat
  /-- IR_RAW_MAX, the largest raw impulse-response length. -/
  irRawMax : Nat
  /-- IOBUF_LEN, the number of words of each of the IN and OUT windows. -/
  iobufLen : Nat
  /-- P_MAX, the number of parameter-store entries. -/
  pMax : Nat
  deriving DecidableEq, Repr

/-- N_DLY = MAX_CH (00_scope R10). -/
def Params.nDly (p : Params) : Nat := p.maxCh

/-- The constraints of 00_scope R10 on the parameters. -/
structure Params.Valid (p : Params) : Prop where
  maxCh : 1 ≤ p.maxCh ∧ p.maxCh ≤ 16
  fsMax : 1 ≤ p.fsMax ∧ p.fsMax ≤ 2 ^ 20
  dlyCapMax : 1 ≤ p.dlyCapMax ∧ p.dlyCapMax ≤ 2 ^ 24
  preCap : 1 ≤ p.preCap ∧ p.preCap ≤ 2 ^ 24
  revCapMax : 1 ≤ p.revCapMax ∧ p.revCapMax ≤ 2 ^ 24
  combCount : p.combBase.length = 8
  combBase : ∀ b ∈ p.combBase, 1 ≤ b
  apCount : p.apBase.length = 4
  apBase : ∀ b ∈ p.apBase, 1 ≤ b
  refRate : 1 ≤ p.refRate
  gpsGMax : p.gpsGMax % 2 = 0 ∧ 8 ≤ p.gpsGMax ∧ p.gpsGMax ≤ 2 ^ 13
  convNMax : 2 ≤ p.convNMax ∧ p.convNMax ≤ 2 ^ 20 ∧ p.convNMax = 2 ^ Nat.log2 p.convNMax
  irRawMax : 1 ≤ p.irRawMax ∧ p.irRawMax ≤ 2 ^ 24
  iobufLen : 1 ≤ p.iobufLen ∧ p.iobufLen ≤ 4096
  pMax : 8 ≤ p.pMax ∧ p.pMax ≤ 256

/-- The reference instance: the "suggested" column of 00_scope R10 (DESIGN CHOICE, log 1: the instance of `State.reset`). -/
def Params.reference : Params where
  maxCh := 2
  fsMax := 192000
  dlyCapMax := 262144
  preCap := 65536
  revCapMax := 16384
  combBase := [1116, 1188, 1277, 1356, 1422, 1491, 1557, 1617]
  apBase := [556, 441, 341, 225]
  spread := 23
  refRate := 44100
  gpsGMax := 8192
  convNMax := 65536
  irRawMax := 262144
  iobufLen := 4096
  pMax := 32

/-- FREE VALUE (log 5): the word that a port read cut short by `rst_n` returns, "any value" by 93_implementation_defined I5
(70_reset_and_hazards R530). It has no body; the argument is the counter `State.freeCount`, so each use is a value of its own. -/
opaque Config.interruptedRead : Nat → BitVec 32

end Sys2Proof
end

