-- ==== Sys2Proof/Machine/Builtins.lean ====
section
/-! DEFINITION. The built-in parameters of the parameter store (46_parameter_store R431) and the comparison of names (R432). -/

namespace Sys2Proof.Machine

/-- A name: a byte string (10_state R49, R64). -/
abbrev Name8 := List Byte

/-- A row of the table of 46_parameter_store R431. -/
structure Builtin where
  /-- The fixed name. -/
  name : Name8
  /-- The lower end of the range. -/
  lo : F32
  /-- The upper end of the range. -/
  hi : F32
  /-- The reset value, of both VALUE and DFLT. -/
  rst : F32
  deriving DecidableEq, Repr

/-- The built-in parameters, indices 0 to 7 (46_parameter_store R431). -/
def builtinTable (p : Params) : List Builtin :=
  -- 0: "mix", 0.0, 1.0, reset 0.5
  [⟨[0x6D#8, 0x69#8, 0x78#8], 0x00000000#32, 0x3F800000#32, 0x3F000000#32⟩,
  -- 1: "roomsize", 0.0, 1.0, reset 0.5
   ⟨[0x72#8, 0x6F#8, 0x6F#8, 0x6D#8, 0x73#8, 0x69#8, 0x7A#8, 0x65#8], 0x00000000#32, 0x3F800000#32, 0x3F000000#32⟩,
  -- 2: "damping", 0.0, 1.0, reset 0.5
   ⟨[0x64#8, 0x61#8, 0x6D#8, 0x70#8, 0x69#8, 0x6E#8, 0x67#8], 0x00000000#32, 0x3F800000#32, 0x3F000000#32⟩,
  -- 3: "decay", 0.0, 2.0, reset 1.0
   ⟨[0x64#8, 0x65#8, 0x63#8, 0x61#8, 0x79#8], 0x00000000#32, 0x40000000#32, 0x3F800000#32⟩,
  -- 4: "pitch", 0.25, 4.0, reset 1.0
   ⟨[0x70#8, 0x69#8, 0x74#8, 0x63#8, 0x68#8], 0x3E800000#32, 0x40800000#32, 0x3F800000#32⟩,
  -- 5: "predelay", 0.0, float(PRE_CAP − 1), reset 0.0
   ⟨[0x70#8, 0x72#8, 0x65#8, 0x64#8, 0x65#8, 0x6C#8, 0x61#8, 0x79#8], 0x00000000#32, F32.ofNat (p.preCap - 1), 0x00000000#32⟩,
  -- 6: "delaytime", 0.0, 16777215.0, reset 0.0
   ⟨[0x64#8, 0x65#8, 0x6C#8, 0x61#8, 0x79#8, 0x74#8, 0x69#8, 0x6D#8, 0x65#8], 0x00000000#32, 0x4B7FFFFF#32, 0x00000000#32⟩,
  -- 7: "wetgain", −16.0, 16.0, reset 1.0
   ⟨[0x77#8, 0x65#8, 0x74#8, 0x67#8, 0x61#8, 0x69#8, 0x6E#8], 0xC1800000#32, 0x41800000#32, 0x3F800000#32⟩]

/-- `fold` of a byte: 'A' to 'Z' become 'a' to 'z' (46_parameter_store R432). -/
def foldByte (b : Byte) : Byte := if 0x41#8 ≤ b ∧ b ≤ 0x5A#8 then b + 0x20#8 else b

/-- Two names match: the same length and equal folded bytes (46_parameter_store R432). -/
def namesMatch (a b : Name8) : Bool := a.map foldByte == b.map foldByte

end Sys2Proof.Machine
end

