-- ==== Sys2Proof/Machine/State.lean ====
section
/-! DEFINITION. The state of NECORE as plain data: every piece of state of spec/10_state.md, the reset state (70_reset R511), and
the reasons a step could stop. Four fields are the model's own: `inst`, `schedule`, `reads` and `freeCount`. -/

namespace Sys2Proof.Machine

/-- Why the machine stops. NO CONSTRUCTOR: nothing stops NECORE (60_exceptions R488: no trap, "No error ... stops the Engine";
R473: a refused command is "a defined step of the hardware"; R104: an unmapped access is harmless). Nobody raises a fault; log 12. -/
inductive Fault where
  deriving DecidableEq, Repr

/-- Why a step has no meaning. Nobody raises one in this model: every command of the table has its meaning. -/
inductive Refusal where
  /-- The arm of a command that has no meaning yet; no arm of `exec` is one. Safe: nothing is claimed of such a command. -/
  | notModelled (mnemonic : String)
  deriving DecidableEq, Repr

/-- Four words: ARG0 to ARG3, NAME0 to NAME3, or their latched copies (10_state R45, R49, R55). -/
structure Quad where
  w0 : Word
  w1 : Word
  w2 : Word
  w3 : Word
  deriving DecidableEq, Repr

/-- Four words of 0. -/
def Quad.zero : Quad := ⟨0#32, 0#32, 0#32, 0#32⟩

/-- A delay buffer (10_state R57): its capacity, its samples (unlisted: +0.0) and its write cursor. Capacity 0 says "no capacity",
the state of a buffer before CONFIG (10_state R58, R60). -/
structure DelayBuf where
  cap : Nat
  buf : Samples
  w : Nat
  deriving DecidableEq, Repr

/-- An empty delay buffer: every word +0.0, cursor 0 (10_state R57, 42_delay_buffer R263). -/
def DelayBuf.empty (cap : Nat) : DelayBuf := ⟨cap, [], 0⟩

/-- A comb filter: its delay buffer, whose capacity is LC, and its damping store FST (10_state R60). -/
structure Comb where
  db : DelayBuf
  fst : F32
  deriving DecidableEq, Repr

/-- An empty comb of length `cap`: an empty buffer and FST = +0.0. -/
def Comb.empty (cap : Nat) : Comb := ⟨DelayBuf.empty cap, 0#32⟩

/-- The reverb of one channel: eight combs and four allpass buffers, whose capacities are LA (10_state R60). -/
structure RevCh where
  combs : List Comb
  aps : List DelayBuf
  deriving DecidableEq, Repr

/-- The pitch shifter of one channel (10_state R61). -/
structure GpsCh where
  /-- The ring GR, of B samples. -/
  ring : Samples
  /-- The write cursor GW. -/
  gw : Nat
  rp1 : F32
  rp2 : F32
  ph1 : F32
  ph2 : F32
  deriving DecidableEq, Repr

/-- The convolution engine of one channel (10_state R62). -/
structure ConvCh where
  /-- The real parts of the IR spectrum S. -/
  specRe : Samples
  /-- The imaginary parts of the IR spectrum S. -/
  specIm : Samples
  /-- The input block INB. -/
  inb : Samples
  /-- The fill count IP. -/
  ip : Nat
  /-- The output overlap-add ring OR. -/
  out : Samples
  /-- The read cursor RD. -/
  rd : Nat
  /-- The write position WR. -/
  wr : Nat
  deriving DecidableEq, Repr

/-- The raw impulse response of one channel in a load session (10_state R63). -/
structure IrCh where
  raw : Samples
  cnt : Nat
  deriving DecidableEq, Repr

/-- An entry of the parameter store (10_state R64). -/
structure PEntry where
  valid : Bool
  name : Name8
  value : F32
  dflt : F32
  deriving DecidableEq, Repr

/-- One move of the interleaving of Host and Engine (00_scope R13, R14). -/
inductive Turn where
  /-- The Engine has the turn (60_exceptions R484). -/
  | engine
  /-- The Host writes a word (20_memory R101, `MemWrite`). -/
  | write (addr : BitVec 16) (v : Word)
  /-- The Host reads a word (20_memory R101, `MemRead`). -/
  | read (addr : BitVec 16)
  /-- `rst_n` goes low between accesses (70_reset R510). -/
  | rstLow
  /-- `rst_n` returns to 1 (70_reset R510). -/
  | rstHigh
  /-- `rst_n` goes low in the middle of a write (70_reset R530, 93_implementation_defined I5). -/
  | cutWrite (addr : BitVec 16) (v : Word)
  /-- `rst_n` goes low in the middle of a read (70_reset R530, 93_implementation_defined I5). -/
  | cutRead (addr : BitVec 16)
  deriving DecidableEq, Repr

/-- The state of the machine. -/
structure State where
  /-- The model's own: the synthesis parameters of the instance (00_scope R10; log 1). No step changes them. -/
  inst : Params
  /-- STATUS.BUSY (10_state R42). -/
  busy : Bool
  /-- STATUS.CFG (10_state R42, R56). -/
  cfg : Bool
  /-- STATUS.DONE (10_state R42). -/
  done : Bool
  /-- STATUS.ERR (10_state R42). -/
  err : Bool
  /-- STATUS.PCHG (10_state R42). -/
  pchg : Bool
  /-- STATUS.IRSESS (10_state R42, R63). -/
  irsess : Bool
  /-- STATUS.IRVALID (10_state R42, R62). -/
  irvalid : Bool
  /-- CTRL (10_state R43). -/
  ctrl : Word
  /-- ARG0 to ARG3 (10_state R45). -/
  arg : Quad
  /-- RES0 (10_state R46). -/
  res0 : Word
  /-- RES1 (10_state R46). -/
  res1 : Word
  /-- ERRCODE (10_state R47). -/
  errcode : Word
  /-- PCHG_IDX[7:0] (10_state R48). -/
  pchgIdx : Byte
  /-- NAME0 to NAME3 (10_state R49). -/
  name : Quad
  /-- LCMD (10_state R55). -/
  lcmd : Word
  /-- LARG (10_state R55). -/
  larg : Quad
  /-- LNAME (10_state R55). -/
  lname : Quad
  /-- LCTRL (10_state R55). -/
  lctrl : Word
  /-- FS (10_state R56). -/
  fs : Nat
  /-- C, the channel count (10_state R56). -/
  nch : Nat
  /-- DLYCAP (10_state R56). -/
  dlycap : Nat
  /-- G, the grain length (10_state R56). -/
  grain : Nat
  /-- B, the ring length of the pitch shifter (10_state R56). -/
  ringB : Nat
  /-- The IN and OUT windows by port byte address (10_state R53, R54; log 9). -/
  mem : Memory
  /-- DLYL (10_state R58). -/
  dlyl : List DelayBuf
  /-- PRER (10_state R59). -/
  prer : List DelayBuf
  /-- COMB, FST and AP (10_state R60). -/
  rev : List RevCh
  /-- GR, GW, RP1, RP2, PH1, PH2 (10_state R61). -/
  gps : List GpsCh
  /-- WIN (10_state R61). -/
  win : Samples
  /-- N, the FFT size (10_state R62). -/
  convN : Nat
  /-- H, the hop (10_state R62). -/
  convH : Nat
  /-- M, the resampled length (10_state R62). -/
  irLen : Nat
  /-- S, INB, IP, OR, RD, WR (10_state R62). -/
  conv : List ConvCh
  /-- LSRC (10_state R63). -/
  lsrc : Nat
  /-- FSSRC (10_state R63). -/
  fssrc : Nat
  /-- RAW, CNT (10_state R63). -/
  ir : List IrCh
  /-- PE (10_state R64). -/
  pst : List PEntry
  /-- `rst_n` is low (20_memory R100, 70_reset R510; log 4). -/
  inReset : Bool
  /-- The model's own: the moves still to come (00_scope R14; log 2). -/
  schedule : List Turn
  /-- The model's own: the words the Host's reads returned, newest first; the head is the port's `rdata` (20_memory R100; log 3). -/
  reads : List Word
  /-- The model's own: how many free values were taken (log 5). -/
  freeCount : Nat
  deriving DecidableEq, Repr

/-- The reset contents of the parameter store of the instance `p` (10_state R64, 46_parameter_store R431). -/
def resetStore (p : Params) : List PEntry :=
  (builtinTable p).map (fun b => ⟨true, b.name, b.rst, b.rst⟩) ++ List.replicate (p.pMax - 8) ⟨false, [], 0#32, 0#32⟩

/-- The reset state of the instance `p` (70_reset R511), every row of that table, with the model's own fields empty. -/
def State.resetOf (p : Params) : State where
  inst := p
  busy := false
  cfg := false
  done := false
  err := false
  pchg := false
  irsess := false
  irvalid := false
  ctrl := 0x00000001#32
  arg := Quad.zero
  res0 := 0#32
  res1 := 0#32
  errcode := 0#32
  pchgIdx := 0#8
  name := Quad.zero
  lcmd := 0#32
  larg := Quad.zero
  lname := Quad.zero
  lctrl := 0#32
  fs := 0
  nch := 0
  dlycap := 0
  grain := 0
  ringB := 0
  mem := []
  dlyl := List.replicate p.nDly (DelayBuf.empty 0)
  prer := List.replicate p.maxCh (DelayBuf.empty p.preCap)
  rev := List.replicate p.maxCh ⟨List.replicate 8 (Comb.empty 0), List.replicate 4 (DelayBuf.empty 0)⟩
  gps := List.replicate p.maxCh ⟨[], 0, 0#32, 0#32, 0#32, 0#32⟩
  win := []
  convN := 0
  convH := 0
  irLen := 0
  conv := List.replicate p.maxCh ⟨[], [], [], 0, [], 0, 0⟩
  lsrc := 0
  fssrc := 0
  ir := List.replicate p.maxCh ⟨[], 0⟩
  pst := resetStore p
  inReset := false
  schedule := []
  reads := []
  freeCount := 0

/-- The machine right after reset: the reference instance at the values of 70_reset R511 (log 1). -/
def State.reset : State := State.resetOf Params.reference

end Sys2Proof.Machine
end

