-- ==== Sys2Proof/Machine/Flags.lean ====
section
/-! DEFINITION. Flags: the STATUS word and its W1C bits, the fields of CTRL, the error codes and the ERRCODE word, and the interrupt
line (10_state R42, R43, R47; 60_exceptions R470, R486). -/

namespace Sys2Proof.Machine

/-- The error codes of 60_exceptions R470. -/
inductive ErrCode where
  | illegalCmd
  | badUnit
  | notConfigured
  | badConfig
  | sequence
  | cmdOverrun
  | busyAccess
  | countAdjusted
  | paramFull
  | irBad
  | irOverflow
  | irShort
  | irTrunc
  | lenClamped
  deriving DecidableEq, Repr

/-- The code recorded in ERRCODE.CODE (60_exceptions R470). -/
def errNumber : ErrCode → Byte
  | .illegalCmd => 0x01#8
  | .badUnit => 0x02#8
  | .notConfigured => 0x03#8
  | .badConfig => 0x04#8
  | .sequence => 0x05#8
  | .cmdOverrun => 0x06#8
  | .busyAccess => 0x07#8
  | .countAdjusted => 0x08#8
  | .paramFull => 0x09#8
  | .irBad => 0x0A#8
  | .irOverflow => 0x0B#8
  | .irShort => 0x0C#8
  | .irTrunc => 0x0D#8
  | .lenClamped => 0x0E#8

/-- `{15'b0, 1'b0, o[7:0], E[7:0]}`: ERRCODE at the first error (60_exceptions R483). -/
def errWord (e : ErrCode) (o : Byte) : Word := 0#16 ++ (o ++ errNumber e)

/-- ERRCODE.OVF, bit 16 (10_state R47). -/
def ovfMask : Word := 0x00010000#32

/-- ERRCODE after recording `e` caused by opcode `o` (60_exceptions R483): the first error is kept, a later one sets OVF. -/
def errcodeAfter (err : Bool) (old : Word) (e : ErrCode) (o : Byte) : Word := if err then old ||| ovfMask else errWord e o

/-- The STATUS word (10_state R42): BUSY 0, CFG 1, DONE 2, ERR 3, PCHG 4, IRSESS 5, IRVALID 6, bits 31:7 read 0. -/
def statusWord (s : State) : Word :=
  BitVec.ofNat 32 (s.busy.toNat + 2 * s.cfg.toNat + 4 * s.done.toNat + 8 * s.err.toNat + 16 * s.pchg.toNat
    + 32 * s.irsess.toNat + 64 * s.irvalid.toNat)

/-- A Host write to STATUS (10_state R42, R47): a 1 in DONE, ERR or PCHG clears that bit; ERR clears the whole of ERRCODE too. -/
def statusWrite (v : Word) (s : State) : State :=
  { s with
    done := s.done && !v.getLsbD 2
    err := s.err && !v.getLsbD 3
    errcode := if v.getLsbD 3 then 0#32 else s.errcode
    pchg := s.pchg && !v.getLsbD 4 }

/-- CTRL.EN, bit 0 (10_state R43). -/
def ctrlEn (c : Word) : Bool := c.getLsbD 0

/-- CTRL.WETSEL, bits 3:1 (10_state R43). -/
def ctrlWetsel (c : Word) : Nat := (c.extractLsb' 1 3).toNat

/-- CTRL.DAMPK, bit 4 (10_state R43). -/
def ctrlDampk (c : Word) : Bool := c.getLsbD 4

/-- CTRL after a Host write of `v` (10_state R43, 41_effect_contract R226): reserved bits stay 0, and a WETSEL of 6 or 7 leaves
WETSEL as it was while the other fields are written. -/
def ctrlAfter (old v : Word) : Word :=
  (v &&& 0x00000711#32) ||| ((if ctrlWetsel v < 6 then v else old) &&& 0x0000000E#32)

/-- The interrupt line (60_exceptions R486): level-sensitive, on the live STATUS and CTRL. -/
def irq (s : State) : Bool :=
  (s.done && s.ctrl.getLsbD 8) || (s.err && s.ctrl.getLsbD 9) || (s.pchg && s.ctrl.getLsbD 10)

end Sys2Proof.Machine
end

