-- ==== Sys2Proof/Syntax.lean ====
section
/-! DEFINITION. The commands of NECORE, one constructor per row of spec/opcode_table.json (30_encoding R145). -/

namespace Sys2Proof

/-- A command. `line` and `ch` are the UNIT field read as an unsigned integer (30_encoding R142), `mask` is IMM[4:0] of CLEAR
(30_encoding R143). Every other operand comes from the latch (30_encoding R144). -/
inductive Instr where
  /-- NOP (40_control R180). -/
  | nop
  /-- SOFT_RESET (40_control R181). -/
  | softReset
  /-- CONFIG (40_control R184). -/
  | config
  /-- CLEAR with its unit mask (40_control R188). -/
  | clear (mask : BitVec 5)
  /-- DLY_WRITE on a delay line (42_delay_buffer R264). -/
  | dlyWrite (line : Nat)
  /-- DLY_READ on a delay line (42_delay_buffer R265). -/
  | dlyRead (line : Nat)
  /-- DLY_READI on a delay line (42_delay_buffer R266). -/
  | dlyReadi (line : Nat)
  /-- REV_STEP on a channel (43_reverb R310). -/
  | revStep (ch : Nat)
  /-- GPS_STEP on a channel (44_pitch_shifter R345). -/
  | gpsStep (ch : Nat)
  /-- CONV_STEP on a channel (45_convolution R395). -/
  | convStep (ch : Nat)
  /-- IR_BEGIN (45_convolution R391). -/
  | irBegin
  /-- IR_PUSH on a channel (45_convolution R392). -/
  | irPush (ch : Nat)
  /-- IR_COMMIT (45_convolution R393). -/
  | irCommit
  /-- P_REGISTER (46_parameter_store R440). -/
  | pRegister
  /-- P_SET (46_parameter_store R441). -/
  | pSet
  /-- P_GET (46_parameter_store R442). -/
  | pGet
  /-- PROC_BLOCK (41_effect_contract R222). -/
  | procBlock
  deriving DecidableEq, Repr

end Sys2Proof
end

