-- ==== Sys2Proof/WellFormed.lean ====
section
/-! DEFINITION. Which commands an encoding exists for: the UNIT field has 4 bits (30_encoding R140, R142). -/

namespace Sys2Proof

/-- A unit index the UNIT field can hold (30_encoding R142: `u` in [0, 15]). -/
def unitFits (u : Nat) : Bool := decide (u < 16)

/-- The command has an encoding: its unit index fits the UNIT field. `mask` is typed with its five bits, so it always fits. -/
def Instr.wellFormed : Instr → Bool
  | .nop => true
  | .softReset => true
  | .config => true
  | .clear _ => true
  | .dlyWrite u => unitFits u
  | .dlyRead u => unitFits u
  | .dlyReadi u => unitFits u
  | .revStep u => unitFits u
  | .gpsStep u => unitFits u
  | .convStep u => unitFits u
  | .irBegin => true
  | .irPush u => unitFits u
  | .irCommit => true
  | .pRegister => true
  | .pSet => true
  | .pGet => true
  | .procBlock => true

end Sys2Proof
end

