-- ==== Sys2Proof/Decode.lean ====
section
/-! DEFINITION. The decoder of the command word CMDW, total on every 32-bit word and rejecting by name, and the encoder
(30_encoding R140 to R148). -/

namespace Sys2Proof

/-- Why a command word is illegal (30_encoding R146). All of them are refused with the one code ILLEGAL_CMD. -/
inductive IllegalWord where
  /-- OPC is not in the table of R145. -/
  | reservedOpcode
  /-- RSV is not 0. -/
  | reservedField
  /-- UNIT is not 0 for a command that takes no unit. -/
  | unitNotZero
  /-- IMM (for CLEAR, IMM[15:5]) is not 0. -/
  | immNotZero
  deriving DecidableEq, Repr

/-- OPC, bits 31:24 (R140). -/
def fieldOpc (w : Word) : BitVec 8 := w.extractLsb' 24 8

/-- RSV, bits 23:20 (R140). -/
def fieldRsv (w : Word) : BitVec 4 := w.extractLsb' 20 4

/-- UNIT, bits 19:16 (R140). -/
def fieldUnit (w : Word) : BitVec 4 := w.extractLsb' 16 4

/-- IMM, bits 15:0 (R140). -/
def fieldImm (w : Word) : BitVec 16 := w.extractLsb' 0 16

/-- The word `(OPC << 24) | (RSV << 20) | (UNIT << 16) | IMM` with RSV = 0 (R140). -/
def cmdw (opc : BitVec 8) (unit : BitVec 4) (imm : BitVec 16) : Word := opc ++ (0#4 ++ (unit ++ imm))

/-- A command that takes neither UNIT nor IMM (R145, R146). -/
def decodePlain (w : Word) (i : Instr) : Except IllegalWord Instr :=
  if fieldUnit w ≠ 0#4 then .error .unitNotZero
  else if fieldImm w ≠ 0#16 then .error .immNotZero
  else .ok i

/-- A command whose UNIT is an operand and whose IMM must be 0 (R142, R145, R146). -/
def decodeUnit (w : Word) (mk : Nat → Instr) : Except IllegalWord Instr :=
  if fieldImm w ≠ 0#16 then .error .immNotZero else .ok (mk (fieldUnit w).toNat)

/-- CLEAR: UNIT must be 0, IMM[15:5] must be 0, IMM[4:0] is the mask (R143, R145, R146). -/
def decodeClear (w : Word) : Except IllegalWord Instr :=
  if fieldUnit w ≠ 0#4 then .error .unitNotZero
  else if (fieldImm w).extractLsb' 5 11 ≠ 0#11 then .error .immNotZero
  else .ok (.clear ((fieldImm w).extractLsb' 0 5))

/-- The opcode map of R145, on the natural value of OPC. -/
def decodeOpc (w : Word) : Nat → Except IllegalWord Instr
  | 0x00 => decodePlain w .nop
  | 0x01 => decodePlain w .softReset
  | 0x02 => decodePlain w .config
  | 0x03 => decodeClear w
  | 0x10 => decodeUnit w .dlyWrite
  | 0x11 => decodeUnit w .dlyRead
  | 0x12 => decodeUnit w .dlyReadi
  | 0x20 => decodeUnit w .revStep
  | 0x30 => decodeUnit w .gpsStep
  | 0x40 => decodeUnit w .convStep
  | 0x41 => decodePlain w .irBegin
  | 0x42 => decodeUnit w .irPush
  | 0x43 => decodePlain w .irCommit
  | 0x50 => decodePlain w .pRegister
  | 0x51 => decodePlain w .pSet
  | 0x52 => decodePlain w .pGet
  | 0x60 => decodePlain w .procBlock
  | _ => .error .reservedOpcode

/-- The decoder: every 32-bit word selects exactly one row with legal fields or is illegal (R146, R148). -/
def decode (w : Word) : Except IllegalWord Instr :=
  if fieldRsv w ≠ 0#4 then .error .reservedField else decodeOpc w (fieldOpc w).toNat

/-- The opcode of a command (R145). -/
def Instr.opcode : Instr → BitVec 8
  | .nop => 0x00#8
  | .softReset => 0x01#8
  | .config => 0x02#8
  | .clear _ => 0x03#8
  | .dlyWrite _ => 0x10#8
  | .dlyRead _ => 0x11#8
  | .dlyReadi _ => 0x12#8
  | .revStep _ => 0x20#8
  | .gpsStep _ => 0x30#8
  | .convStep _ => 0x40#8
  | .irBegin => 0x41#8
  | .irPush _ => 0x42#8
  | .irCommit => 0x43#8
  | .pRegister => 0x50#8
  | .pSet => 0x51#8
  | .pGet => 0x52#8
  | .procBlock => 0x60#8

/-- The UNIT field of a command's word (R142; 0 where the command takes none). -/
def Instr.unitField : Instr → BitVec 4
  | .dlyWrite u | .dlyRead u | .dlyReadi u | .revStep u | .gpsStep u | .convStep u | .irPush u => BitVec.ofNat 4 u
  | .nop | .softReset | .config | .clear _ | .irBegin | .irCommit | .pRegister | .pSet | .pGet | .procBlock => 0#4

/-- The IMM field of a command's word (R143; only CLEAR gives it a meaning). -/
def Instr.immField : Instr → BitVec 16
  | .clear m => m.setWidth 16
  | .nop | .softReset | .config | .dlyWrite _ | .dlyRead _ | .dlyReadi _ | .revStep _ | .gpsStep _ | .convStep _ | .irBegin
  | .irPush _ | .irCommit | .pRegister | .pSet | .pGet | .procBlock => 0#16

/-- The encoder: the command word of a well-formed command (R140, R145). -/
def encode (i : Instr) : Word := cmdw i.opcode i.unitField i.immField

/-- The decoder on the table's numbering of an instruction's bits. A command is one 32-bit word (R140, R141), written to CMD
whole, so its bits are numbered as they stand; bits from `nbits` up are 0. -/
def decodeTableWord (nbits w : Nat) : Option Instr :=
  match decode (BitVec.ofNat 32 (w % 2 ^ nbits)) with
  | .ok i => some i
  | .error _ => none

end Sys2Proof
end

