-- ==== Sys2Proof/Machine/Operands.lean ====
section
/-! DEFINITION. The operand forms of the commands: a latched word as u32 or s32 (f32 is the word itself), and the latched name
(00_scope R15, 30_encoding R144, 10_state R49, R55). -/

namespace Sys2Proof.Machine

/-- `u32(w)` (00_scope R15). -/
def u32 (w : Word) : Nat := w.toNat

/-- `s32(w)` (00_scope R15). -/
def s32 (w : Word) : Int := w.toInt

/-- The bytes of a word, byte 0 first (20_memory R103). -/
def wordBytes (w : Word) : List Byte := [w.extractLsb' 0 8, w.extractLsb' 8 8, w.extractLsb' 16 8, w.extractLsb' 24 8]

/-- The name that NAME0 to NAME3 hold: the bytes before the first 0x00, 16 of them if there is none (10_state R49). -/
def nameOf (q : Quad) : Name8 :=
  (wordBytes q.w0 ++ wordBytes q.w1 ++ wordBytes q.w2 ++ wordBytes q.w3).takeWhile fun b => b != 0#8

/-- LCMD[31:24], the opcode that an error of the running command records (60_exceptions R483). -/
def cmdOpc (s : State) : Byte := fieldOpc s.lcmd

end Sys2Proof.Machine
end

