-- ==== Sys2Proof/Machine/Ops.lean ====
section
/-! DEFINITION. The operations every command shares: the memory of the IN and OUT windows, the command latch, the recording of an
error (what this hardware has in place of taking an exception: 60_exceptions R483, R488), completion (R484), the result registers,
reset (70_reset R511) and the control fields (10_state R65). -/

namespace Sys2Proof.Machine

/-- One byte of the port memory; an unlisted address reads 0, its reset contents (10_state R53, R54). -/
def readByte (m : Memory) (a : Nat) : Byte := sparseGet m a

/-- Write one byte of the port memory. -/
def writeByte (m : Memory) (a : Nat) (v : Byte) : Memory := sparseSet m a v

/-- The word at byte address `a`, little-endian (20_memory R103). -/
def readWord (m : Memory) (a : Nat) : Word :=
  readByte m (a + 3) ++ (readByte m (a + 2) ++ (readByte m (a + 1) ++ readByte m a))

/-- Write the word at byte address `a`, little-endian (20_memory R103). -/
def writeWord (m : Memory) (a : Nat) (v : Word) : Memory :=
  writeByte (writeByte (writeByte (writeByte m a (v.extractLsb' 0 8)) (a + 1) (v.extractLsb' 8 8))
    (a + 2) (v.extractLsb' 16 8)) (a + 3) (v.extractLsb' 24 8)

/-- The port address of IN[i] (10_state R40). -/
def inAddr (i : Nat) : Nat := 0x4000 + 4 * i

/-- The port address of OUT[i] (10_state R40). -/
def outAddr (i : Nat) : Nat := 0x8000 + 4 * i

/-- IN[i]. -/
def inWord (s : State) (i : Nat) : Word := readWord s.mem (inAddr i)

/-- OUT[i]. -/
def outWord (s : State) (i : Nat) : Word := readWord s.mem (outAddr i)

/-- `OUT[i] <- v`. -/
def setOut (i : Nat) (v : Word) (s : State) : State := { s with mem := writeWord s.mem (outAddr i) v }

/-- An accepted CMD write of `w` (10_state R44, R55): LCMD takes the word, the latch takes ARG, NAME and CTRL, BUSY becomes 1. -/
def latchCommand (w : Word) (s : State) : State :=
  { s with lcmd := w, larg := s.arg, lname := s.name, lctrl := s.ctrl, busy := true }

/-- Record the error `e` caused by opcode `o` (60_exceptions R483). -/
def recordError (e : ErrCode) (o : Byte) (s : State) : State :=
  { s with err := true, errcode := errcodeAfter s.err s.errcode e o }

/-- Completion (60_exceptions R484): BUSY becomes 0 and DONE 1. -/
def complete (s : State) : State := { s with busy := false, done := true }

/-- The command ends here. -/
def finish (s : State) : Host.Outcome State Fault Refusal := .next (complete s)

/-- `refuse E` (00_scope R21, 60_exceptions R473): the error is recorded, the command completes, nothing else changes. -/
def refuse (e : ErrCode) (s : State) : Host.Outcome State Fault Refusal := finish (recordError e (cmdOpc s) s)

/-- `if b then warn E` (00_scope R21, 60_exceptions R474). -/
def warnIf (b : Bool) (e : ErrCode) (s : State) : State := if b then recordError e (cmdOpc s) s else s

/-- `RES0 <- v`. -/
def setRes0 (v : Word) (s : State) : State := { s with res0 := v }

/-- `RES0 <- v ; RES1 <- v'`. -/
def setRes (v v' : Word) (s : State) : State := { s with res0 := v, res1 := v' }

/-- Every piece of state of the spec at its reset value (70_reset R511); the instance's parameters and the model's own fields stay. -/
def resetAll (s : State) : State :=
  { State.resetOf s.inst with schedule := s.schedule, reads := s.reads, freeCount := s.freeCount }

/-- The value of parameter-store entry `k`. -/
def paramValue (s : State) (k : Nat) : F32 := (s.pst.getD k ⟨false, [], 0#32, 0#32⟩).value

/-- MIX (10_state R65). -/
def mixOf (s : State) : F32 := paramValue s 0

/-- ROOM (10_state R65). -/
def roomOf (s : State) : F32 := paramValue s 1

/-- DAMP (10_state R65). -/
def dampOf (s : State) : F32 := paramValue s 2

/-- DECAY (10_state R65). -/
def decayOf (s : State) : F32 := paramValue s 3

/-- PITCH (10_state R65). -/
def pitchOf (s : State) : F32 := paramValue s 4

/-- PREDLY (10_state R65). -/
def predlyOf (s : State) : F32 := paramValue s 5

/-- DTIME (10_state R65). -/
def dtimeOf (s : State) : F32 := paramValue s 6

/-- WGAIN (10_state R65). -/
def wgainOf (s : State) : F32 := paramValue s 7

/-- DLYL[k]. -/
def lineAt (s : State) (k : Nat) : DelayBuf := s.dlyl.getD k (DelayBuf.empty 0)

/-- PRER[c]. -/
def preAt (s : State) (c : Nat) : DelayBuf := s.prer.getD c (DelayBuf.empty 0)

/-- The reverb of channel `c`. -/
def revAt (s : State) (c : Nat) : RevCh := s.rev.getD c ⟨[], []⟩

/-- The pitch shifter of channel `c`. -/
def gpsAt (s : State) (c : Nat) : GpsCh := s.gps.getD c ⟨[], 0, 0#32, 0#32, 0#32, 0#32⟩

/-- The convolution engine of channel `c`. -/
def convAt (s : State) (c : Nat) : ConvCh := s.conv.getD c ⟨[], [], [], 0, [], 0, 0⟩

/-- The raw impulse response of channel `c`. -/
def irAt (s : State) (c : Nat) : IrCh := s.ir.getD c ⟨[], 0⟩

/-- DLYL[k] becomes `d`. -/
def setLine (k : Nat) (d : DelayBuf) (s : State) : State := { s with dlyl := s.dlyl.set k d }

/-- PRER[c] becomes `d`. -/
def setPre (c : Nat) (d : DelayBuf) (s : State) : State := { s with prer := s.prer.set c d }

/-- The reverb of channel `c` becomes `r`. -/
def setRev (c : Nat) (r : RevCh) (s : State) : State := { s with rev := s.rev.set c r }

/-- The pitch shifter of channel `c` becomes `g`. -/
def setGps (c : Nat) (g : GpsCh) (s : State) : State := { s with gps := s.gps.set c g }

/-- The convolution engine of channel `c` becomes `v`. -/
def setConv (c : Nat) (v : ConvCh) (s : State) : State := { s with conv := s.conv.set c v }

/-- The raw impulse response of channel `c` becomes `r`. -/
def setIr (c : Nat) (r : IrCh) (s : State) : State := { s with ir := s.ir.set c r }

end Sys2Proof.Machine
end

