-- ==== Sys2Proof/Machine/Conv.lean ====
section
/-! DEFINITION. The block convolution engine, the impulse-response load session, and CONV_STEP, IR_BEGIN, IR_PUSH and IR_COMMIT
(45_convolution). -/

namespace Sys2Proof.Machine

/-- The smallest power of two that is at least `x`, for `x ≥ 2` (45_convolution R380). -/
def powerOfTwoFrom (x : Nat) : Nat := 2 ^ (Nat.log2 (x - 1) + 1)

/-- The FFT size for a resampled length `m`: the smallest power of two ≥ max(2, 2·m) (45_convolution R380, R393). -/
def fftSize (m : Nat) : Nat := powerOfTwoFrom (max 2 (2 * m))

/-- The convolution rings of a channel emptied for the hop `h` (45_convolution R387); the spectrum stays. -/
def ringsEmptied (h : Nat) (c : ConvCh) : ConvCh := { c with inb := [], ip := 0, out := [], rd := 0, wr := h }

/-- The block transform of `CONV_BLOCK` (45_convolution R385): zero-pad, transform, multiply by the spectrum, transform back. -/
def convTransform (n h : Nat) (c : ConvCh) : Array Cplx :=
  let a := fft false n (zeroPadded n (sparseToArray h c.inb).toList)
  fft true n (List.zipWith cMul a.toList (cplxArray n c.specRe c.specIm).toList).toArray

/-- The overlap-add of `CONV_BLOCK`: for j in order, `OR[(WR + j) mod 2N] += re(a[j]) × invN` (45_convolution R383, R385). -/
def overlapAdd (n wr : Nat) (a : Array Cplx) (out : Samples) : Samples :=
  let invN := F32.rnd32 1 n
  let ring := (List.range n).foldl (fun r j =>
    let q := (wr + j) % (2 * n)
    r.setIfInBounds q (F32.add (r.getD q 0#32) (F32.mul (a.getD j cZero).1 invN))) (sparseToArray (2 * n) out)
  sparseOfList ring.toList

/-- `CONV_BLOCK(c)` (45_convolution R385). -/
def convBlock (n h : Nat) (c : ConvCh) : ConvCh :=
  { c with out := overlapAdd n c.wr (convTransform n h c) c.out, wr := (c.wr + h) % (2 * n), ip := 0 }

/-- `CONV_SAMPLE(c, x)` on the engine of one channel (45_convolution R394, R396): the output and the engine after the sample. -/
def convSample (irvalid : Bool) (n h : Nat) (c : ConvCh) (x : F32) : F32 × ConvCh :=
  if irvalid = false then (F32.zero, c)
  else
    let y := sparseGet c.out c.rd
    let c1 := { c with out := sparseSet c.out c.rd F32.zero, rd := (c.rd + 1) % (2 * n), inb := sparseSet c.inb c.ip x, ip := c.ip + 1 }
    (y, if c1.ip = h then convBlock n h c1 else c1)

/-- CONV_STEP (45_convolution R395). -/
def execConvStep (ch : Nat) (s : State) : Host.Outcome State Fault Refusal :=
  if s.cfg = false then refuse .notConfigured s
  else if s.nch ≤ ch then refuse .badUnit s
  else
    let o := convSample s.irvalid s.convN s.convH (convAt s ch) s.larg.w0
    finish (setRes0 o.1 (setConv ch o.2 s))

/-- IR_BEGIN (45_convolution R391). -/
def execIrBegin (s : State) : Host.Outcome State Fault Refusal :=
  let l := u32 s.larg.w0
  let r := u32 s.larg.w1
  if s.cfg = false then refuse .notConfigured s
  else if l < 1 ∨ s.inst.irRawMax < l ∨ r < 1 ∨ s.inst.fsMax < r then refuse .irBad s
  else finish { s with lsrc := l, fssrc := r, ir := List.replicate s.inst.maxCh ⟨[], 0⟩, irsess := true }

/-- IR_PUSH (45_convolution R392). -/
def execIrPush (ch : Nat) (s : State) : Host.Outcome State Fault Refusal :=
  if s.cfg = false then refuse .notConfigured s
  else if s.nch ≤ ch then refuse .badUnit s
  else if s.irsess = false then refuse .sequence s
  else
    let c := irAt s ch
    if s.lsrc ≤ c.cnt then finish (recordError .irOverflow (cmdOpc s) s)
    else finish (setIr ch ⟨sparseSet c.raw c.cnt s.larg.w0, c.cnt + 1⟩ s)

/-- M0, the length after resampling `lsrc` samples from rate `fssrc` to rate `fs` (45_convolution R390). -/
def resampledLength (lsrc fssrc fs : Nat) : Nat := (lsrc - 1) * fs / fssrc + 1

/-- `ir[c][j]`, one resampled sample of the raw samples (45_convolution R390). -/
def resampleAt (raw : Array F32) (lsrc fssrc fs j : Nat) : F32 :=
  let num := j * fssrc
  let i := num / fs
  let frac := F32.rnd32 (num % fs) fs
  let a := raw.getD i 0#32
  if F32.isZero frac then a
  else
    let b := raw.getD (min (i + 1) (lsrc - 1)) 0#32
    F32.add a (F32.mul (F32.sub b a) frac)

/-- The resampled impulse response of a channel, `m` samples (45_convolution R390). -/
def resampled (lsrc fssrc fs m : Nat) (raw : Samples) : List F32 :=
  let arr := sparseToArray lsrc raw
  (List.range m).map (resampleAt arr lsrc fssrc fs)

/-- The IR spectrum of a resampled impulse response (45_convolution R384). -/
def irSpectrum (n : Nat) (ir : List F32) : Array Cplx := fft false n (zeroPadded n ir)

/-- The engine of channel `c` after a commit (45_convolution R387, R393): its spectrum, all zero for c ≥ C, and empty rings. -/
def committedCh (s : State) (n m c : Nat) : ConvCh :=
  let spec := if c < s.nch then irSpectrum n (resampled s.lsrc s.fssrc s.fs m (irAt s c).raw) else #[]
  ⟨sparseOfList (spec.toList.map Prod.fst), sparseOfList (spec.toList.map Prod.snd), [], 0, [], 0, n / 2⟩

/-- IR_COMMIT (45_convolution R393). -/
def execIrCommit (s : State) : Host.Outcome State Fault Refusal :=
  if s.cfg = false then refuse .notConfigured s
  else if s.irsess = false then refuse .sequence s
  else
    let short := (List.range s.nch).any fun c => decide ((irAt s c).cnt < s.lsrc)
    let m0 := resampledLength s.lsrc s.fssrc s.fs
    let m := min m0 (s.inst.convNMax / 2)
    let n := fftSize m
    let w := warnIf (decide (m < m0)) .irTrunc (warnIf short .irShort s)
    finish { w with
      convN := n
      convH := n / 2
      irLen := m
      conv := (List.range s.inst.maxCh).map (committedCh s n m)
      irvalid := true
      irsess := false
      res0 := BitVec.ofNat 32 n
      res1 := BitVec.ofNat 32 m }

end Sys2Proof.Machine
end

