-- ==== Sys2Proof/Machine/Pitch.lean ====
section
/-! DEFINITION. The granular pitch shifter and GPS_STEP (44_pitch_shifter). -/

namespace Sys2Proof.Machine

/-- The start state of a channel for grain length `g` and ring length `b` (44_pitch_shifter R342). -/
def gpsStart (g b : Nat) : GpsCh := ⟨[], 0, F32.ofNat (b - g), F32.ofNat (b - g), F32.zero, F32.ofNat (g / 2)⟩

/-- WIN for the grain length `g` (44_pitch_shifter R341). -/
def windowTable (g : Nat) : Samples := sparseOfList (hannTable g)

/-- A read position after its advance by `r`: reduced by `b` once it reaches `b` (44_pitch_shifter R344). -/
def advance (pos r : F32) (b : Nat) : F32 :=
  let p := F32.add pos r
  if F32.ge p (F32.ofNat b) then F32.sub p (F32.ofNat b) else p

/-- The phase has reached the grain length after its advance by `r` (44_pitch_shifter R344). -/
def phaseWraps (ph r : F32) (g : Nat) : Bool := F32.ge (F32.add ph r) (F32.ofNat g)

/-- `GPS_SAMPLE(ch, x, r)` on the pitch shifter of one channel (44_pitch_shifter R344): the output and the state after it. -/
def gpsSample (g b : Nat) (win : Samples) (c : GpsCh) (x r : F32) : F32 × GpsCh :=
  let ring := sparseSet c.ring c.gw x
  let gw := (c.gw + 1) % b
  let s1 := F32.mul (sparseGet ring (F32.trunc c.rp1)) (sparseGet win (F32.trunc c.ph1))
  let s2 := F32.mul (sparseGet ring (F32.trunc c.rp2)) (sparseGet win (F32.trunc c.ph2))
  let y := F32.mul (F32.add s1 s2) (F32.rnd32 5 10)
  let anchor := F32.ofNat ((gw + b - g) % b)
  (y, { ring := ring
        gw := gw
        rp1 := if phaseWraps c.ph1 r g then anchor else advance c.rp1 r b
        rp2 := if phaseWraps c.ph2 r g then anchor else advance c.rp2 r b
        ph1 := advance c.ph1 r g
        ph2 := advance c.ph2 r g })

/-- GPS_STEP (44_pitch_shifter R345). -/
def execGpsStep (ch : Nat) (s : State) : Host.Outcome State Fault Refusal :=
  if s.cfg = false then refuse .notConfigured s
  else if s.nch ≤ ch then refuse .badUnit s
  else
    let o := gpsSample s.grain s.ringB s.win (gpsAt s ch) s.larg.w0 (pitchOf s)
    finish (setRes0 o.1 (setGps ch o.2 s))

end Sys2Proof.Machine
end

