-- ==== Sys2Proof/Machine/Delay.lean ====
section
/-! DEFINITION. The circular delay buffer and the DLY commands (42_delay_buffer). -/

namespace Sys2Proof.Machine

/-- `DB_Write(db, x)` (42_delay_buffer R260). -/
def dbWrite (db : DelayBuf) (x : F32) : DelayBuf :=
  { db with buf := sparseSet db.buf db.w x, w := (db.w + 1) % db.cap }

/-- The slot that `DB_Read(db, d)` reads: `(w − 1 − clampi(d, 0, cap − 1)) mod cap` (42_delay_buffer R261). -/
def dbSlot (db : DelayBuf) (d : Int) : Nat :=
  (((db.w : Int) - 1 - clampi d 0 ((db.cap : Int) - 1)) % (db.cap : Int)).toNat

/-- `DB_Read(db, d)` (42_delay_buffer R261). -/
def dbRead (db : DelayBuf) (d : Int) : F32 := sparseGet db.buf (dbSlot db d)

/-- `DB_ReadI(db, d)` (42_delay_buffer R262). -/
def dbReadI (db : DelayBuf) (d : F32) : F32 :=
  let dc := F32.clamp d F32.zero (F32.ofNat (db.cap - 1))
  let i := F32.trunc dc
  let f := F32.sub dc (F32.ofNat i)
  let a := dbRead db i
  if F32.isZero f then a
  else
    let b := dbRead db (i + 1)
    F32.add a (F32.mul (F32.sub b a) f)

/-- DLY_WRITE (42_delay_buffer R264). -/
def execDlyWrite (line : Nat) (s : State) : Host.Outcome State Fault Refusal :=
  if s.cfg = false then refuse .notConfigured s
  else if s.inst.nDly ≤ line then refuse .badUnit s
  else finish (setLine line (dbWrite (lineAt s line) s.larg.w0) s)

/-- DLY_READ (42_delay_buffer R265). -/
def execDlyRead (line : Nat) (s : State) : Host.Outcome State Fault Refusal :=
  if s.cfg = false then refuse .notConfigured s
  else if s.inst.nDly ≤ line then refuse .badUnit s
  else finish (setRes0 (dbRead (lineAt s line) (s32 s.larg.w0)) s)

/-- DLY_READI (42_delay_buffer R266). -/
def execDlyReadi (line : Nat) (s : State) : Host.Outcome State Fault Refusal :=
  if s.cfg = false then refuse .notConfigured s
  else if s.inst.nDly ≤ line then refuse .badUnit s
  else finish (setRes0 (dbReadI (lineAt s line) s.larg.w0) s)

end Sys2Proof.Machine
end

