-- ==== Sys2Proof/Machine/Reverb.lean ====
section
/-! DEFINITION. The comb/allpass reverb network and REV_STEP (43_reverb). -/

namespace Sys2Proof.Machine

/-- `rl(b)`: a base length scaled to the sample rate, rounded half up (43_reverb R300). -/
def scaledLength (p : Params) (fs b : Nat) : Nat := (2 * b * fs + p.refRate) / (2 * p.refRate)

/-- The `rl` value of the base length `b` on channel `c` (43_reverb R300). -/
def revLengthRaw (p : Params) (fs c b : Nat) : Nat := scaledLength p fs (b + c * p.spread)

/-- LC or LA: the `rl` value clamped to [1, REV_CAP_MAX] (43_reverb R300). -/
def revLength (p : Params) (fs c b : Nat) : Nat := min (max (revLengthRaw p fs c b) 1) p.revCapMax

/-- An `rl` value of the base length `b` on channel `c` lies outside [1, REV_CAP_MAX] (43_reverb R300). -/
def revLengthClamped (p : Params) (fs c b : Nat) : Bool :=
  decide (revLengthRaw p fs c b < 1) || decide (p.revCapMax < revLengthRaw p fs c b)

/-- The flag `clamped` of CONFIG: over every channel c < C, comb and allpass (40_control R184, 43_reverb R300). -/
def anyLengthClamped (p : Params) (fs nch : Nat) : Bool :=
  (List.range nch).any fun c => (p.combBase ++ p.apBase).any fun b => revLengthClamped p fs c b

/-- The empty reverb of channel `c` (40_control R184). -/
def revEmpty (p : Params) (fs c : Nat) : RevCh :=
  ⟨p.combBase.map fun b => Comb.empty (revLength p fs c b), p.apBase.map fun b => DelayBuf.empty (revLength p fs c b)⟩

/-- The reverb coefficients of a command (43_reverb R308). -/
structure RevCoeffs where
  fb : F32
  dk : F32
  odk : F32
  deriving DecidableEq, Repr

/-- `fb`, the comb feedback (43_reverb R306). -/
def combFeedback (room decay : F32) : F32 :=
  F32.clamp (F32.mul (F32.add (F32.rnd32 28 100) (F32.mul room (F32.rnd32 7 10))) decay) (F32.rnd32 1 10) (F32.rnd32 98 100)

/-- `dk`, the damping coefficient: DAMP × 0.4f, or × 0.5f when DAMPK = 1 (43_reverb R307). -/
def dampCoeff (damp : F32) (dampk : Bool) : F32 := F32.mul damp (if dampk then F32.rnd32 5 10 else F32.rnd32 4 10)

/-- `(fb, dk, odk)` from the current parameters and the latched DAMPK (43_reverb R306 to R308). -/
def revCoeffs (s : State) : RevCoeffs :=
  let dk := dampCoeff (dampOf s) (ctrlDampk s.lctrl)
  ⟨combFeedback (roomOf s) (decayOf s), dk, F32.sub (F32.ofNat 1) dk⟩

/-- `COMB_STEP(cb, st, x)` (43_reverb R302): the output and the comb after the step. -/
def combStep (k : RevCoeffs) (cb : Comb) (x : F32) : F32 × Comb :=
  let d := dbRead cb.db ((cb.db.cap : Int) - 1)
  let filt := F32.add (F32.mul d k.odk) (F32.mul cb.fst k.dk)
  (d, ⟨dbWrite cb.db (F32.add x (F32.mul filt k.fb)), filt⟩)

/-- `AP_STEP(ab, y)` (43_reverb R303): the output and the buffer after the step. -/
def apStep (ab : DelayBuf) (y : F32) : F32 × DelayBuf :=
  let half := F32.rnd32 5 10
  let d := dbRead ab ((ab.cap : Int) - 1)
  (F32.add (F32.mul (F32.neg y) half) d, dbWrite ab (F32.add y (F32.mul d half)))

/-- The combs in index order, all on the same input, their outputs added to `acc` one after another (43_reverb R304, R309). -/
def combBank (k : RevCoeffs) (x : F32) : List Comb → F32 → F32 × List Comb
  | [], acc => (acc, [])
  | cb :: rest, acc =>
    let o := combStep k cb x
    let r := combBank k x rest (F32.add acc o.1)
    (r.1, o.2 :: r.2)

/-- The allpass filters in series, index rising (43_reverb R309). -/
def apChain : List DelayBuf → F32 → F32 × List DelayBuf
  | [], y => (y, [])
  | ab :: rest, y =>
    let o := apStep ab y
    let r := apChain rest o.1
    (r.1, o.2 :: r.2)

/-- `REV_SAMPLE(ch, x)` on the reverb of one channel (43_reverb R309): the output and the reverb after the sample. -/
def revSample (k : RevCoeffs) (r : RevCh) (x : F32) : F32 × RevCh :=
  let bank := combBank k x r.combs F32.zero
  let chain := apChain r.aps (F32.mul bank.1 (F32.rnd32 125 1000))
  (chain.1, ⟨bank.2, chain.2⟩)

/-- REV_STEP (43_reverb R310). -/
def execRevStep (ch : Nat) (s : State) : Host.Outcome State Fault Refusal :=
  if s.cfg = false then refuse .notConfigured s
  else if s.nch ≤ ch then refuse .badUnit s
  else
    let o := revSample (revCoeffs s) (revAt s ch) s.larg.w0
    finish (setRes0 o.1 (setRev ch o.2 s))

end Sys2Proof.Machine
end

