-- ==== Sys2Proof/Machine/Control.lean ====
section
/-! DEFINITION. The control commands NOP, SOFT_RESET, CONFIG and CLEAR (40_control). -/

namespace Sys2Proof.Machine

/-- NOP (40_control R180). -/
def execNop (s : State) : Host.Outcome State Fault Refusal := finish s

/-- SOFT_RESET (40_control R181, 70_reset R510): the reset values, then DONE = 1. -/
def execSoftReset (s : State) : Host.Outcome State Fault Refusal := finish (resetAll s)

/-- The validity of CONFIG's arguments (40_control R183). -/
def configValid (p : Params) (fs c cap g : Nat) : Bool :=
  decide (1 ≤ fs) && decide (fs ≤ p.fsMax) && decide (1 ≤ c) && decide (c ≤ p.maxCh) && decide (1 ≤ cap) && decide (cap ≤ p.dlyCapMax)
    && decide (g % 2 = 0) && decide (8 ≤ g) && decide (g ≤ p.gpsGMax)

/-- The state changes of a CONFIG that is accepted (40_control R184), before its warning. -/
def configured (fs c cap g : Nat) (s : State) : State :=
  { s with
    fs := fs
    nch := c
    dlycap := cap
    grain := g
    ringB := 8 * g
    dlyl := List.replicate s.inst.nDly (DelayBuf.empty cap)
    prer := List.replicate s.inst.maxCh (DelayBuf.empty s.inst.preCap)
    rev := s.rev.mapIdx fun ch r => if ch < c then revEmpty s.inst fs ch else r
    win := windowTable g
    gps := List.replicate s.inst.maxCh (gpsStart g (8 * g))
    cfg := true }

/-- CONFIG (40_control R184). -/
def execConfig (s : State) : Host.Outcome State Fault Refusal :=
  let fs := u32 s.larg.w0
  let c := u32 s.larg.w1
  let cap := u32 s.larg.w2
  let g := u32 s.larg.w3
  if s.cfg = true then refuse .sequence s
  else if configValid s.inst fs c cap g = false then refuse .badConfig s
  else finish (warnIf (anyLengthClamped s.inst fs c) .lenClamped (configured fs c cap g s))

/-- A delay buffer emptied (42_delay_buffer R263). -/
def emptied (d : DelayBuf) : DelayBuf := DelayBuf.empty d.cap

/-- Row 0 of 40_control R187: every delay line emptied, if CFG. -/
def clearDly (s : State) : State := if s.cfg then { s with dlyl := s.dlyl.map emptied } else s

/-- Row 1 of 40_control R187: every pre-delay ring emptied. -/
def clearPre (s : State) : State := { s with prer := s.prer.map emptied }

/-- The reverb of a channel emptied. -/
def revCleared (r : RevCh) : RevCh := ⟨r.combs.map fun cb => ⟨emptied cb.db, F32.zero⟩, r.aps.map emptied⟩

/-- Row 2 of 40_control R187: the reverb of every channel c < C emptied, if CFG. -/
def clearRev (s : State) : State :=
  if s.cfg then { s with rev := s.rev.mapIdx fun ch r => if ch < s.nch then revCleared r else r } else s

/-- Row 3 of 40_control R187: the pitch shifter of every channel at its start state, if CFG. -/
def clearGps (s : State) : State := if s.cfg then { s with gps := s.gps.map fun _ => gpsStart s.grain s.ringB } else s

/-- Row 4 of 40_control R187: the convolution rings of every channel emptied, if IRVALID. -/
def clearConv (s : State) : State := if s.irvalid then { s with conv := s.conv.map (ringsEmptied s.convH) } else s

/-- The rows of 40_control R187 that the mask selects, in increasing bit order (40_control R188). -/
def clearUnits (mask : BitVec 5) (s : State) : State :=
  let s := if mask.getLsbD 0 then clearDly s else s
  let s := if mask.getLsbD 1 then clearPre s else s
  let s := if mask.getLsbD 2 then clearRev s else s
  let s := if mask.getLsbD 3 then clearGps s else s
  if mask.getLsbD 4 then clearConv s else s

/-- CLEAR (40_control R188). -/
def execClear (mask : BitVec 5) (s : State) : Host.Outcome State Fault Refusal := finish (clearUnits mask s)

end Sys2Proof.Machine
end

