-- ==== Sys2Proof/Machine/Param.lean ====
section
/-! DEFINITION. The parameter store and its commands (46_parameter_store). -/

namespace Sys2Proof.Machine

/-- `LOOKUP(s)`: the index of the VALID entry whose NAME matches (46_parameter_store R432). -/
def lookupName (pst : List PEntry) (n : Name8) : Option Nat := pst.findIdx? fun e => e.valid && namesMatch e.name n

/-- The index that `ALLOC(s)` picks: the lowest e ≥ 8 with VALID = false (46_parameter_store R435). -/
def freeIndex (pst : List PEntry) : Option Nat := ((pst.drop 8).findIdx? fun e => !e.valid).map (· + 8)

/-- The value that storing `v` in entry `e` leaves: clamped to the range of a built-in, bit for bit otherwise
(46_parameter_store R434). -/
def storedValue (p : Params) (e : Nat) (v : F32) : F32 :=
  match (builtinTable p)[e]? with
  | some b => F32.clamp v b.lo b.hi
  | none => v

/-- The status word of RES1 with FOUND = 1 (46_parameter_store R436). -/
def paramStatus (created : Bool) (e : Nat) : Word := BitVec.ofNat 32 (1 + 2 * created.toNat + 256 * e)

/-- Entry `e`, or an invalid one where the table has none. -/
def entryAt (s : State) (e : Nat) : PEntry := s.pst.getD e ⟨false, [], 0#32, 0#32⟩

/-- Entry `e` becomes `x`. -/
def setEntry (e : Nat) (x : PEntry) (s : State) : State := { s with pst := s.pst.set e x }

/-- The change notification of entry `e` (46_parameter_store R437). -/
def notify (e : Nat) (s : State) : State := { s with pchg := true, pchgIdx := BitVec.ofNat 8 e }

/-- `ALLOC(s)` at the free index `e` (46_parameter_store R435). -/
def allocEntry (e : Nat) (n : Name8) (s : State) : State := setEntry e { entryAt s e with valid := true, name := n } s

/-- Store, notify and report entry `e` (46_parameter_store R440, R441): `register` also makes the stored value the default, and a
P_SET that created the entry gives it the default +0.0. -/
def storeEntry (register created : Bool) (e : Nat) (v : F32) (s : State) : State :=
  let x := entryAt s e
  let value := storedValue s.inst e v
  let dflt := if register then value else if created then F32.zero else x.dflt
  setRes value (paramStatus created e) (notify e (setEntry e { x with value := value, dflt := dflt } s))

/-- The common text of P_REGISTER and P_SET (46_parameter_store R440, R441). -/
def writeParam (register : Bool) (s : State) : Host.Outcome State Fault Refusal :=
  let n := nameOf s.lname
  let v := s.larg.w0
  if n = [] then finish (setRes 0#32 0#32 s)
  else
    match lookupName s.pst n with
    | some e => finish (storeEntry register false e v s)
    | none =>
      match freeIndex s.pst with
      | some e => finish (storeEntry register true e v (allocEntry e n s))
      | none => finish (setRes 0#32 0#32 (recordError .paramFull (cmdOpc s) s))

/-- P_REGISTER (46_parameter_store R440). -/
def execPRegister (s : State) : Host.Outcome State Fault Refusal := writeParam true s

/-- P_SET (46_parameter_store R441). -/
def execPSet (s : State) : Host.Outcome State Fault Refusal := writeParam false s

/-- P_GET (46_parameter_store R442). -/
def execPGet (s : State) : Host.Outcome State Fault Refusal :=
  let n := nameOf s.lname
  match (if n = [] then none else lookupName s.pst n) with
  | some e => finish (setRes (paramValue s e) (paramStatus false e) s)
  | none => finish (setRes 0#32 0#32 s)

end Sys2Proof.Machine
end

