-- ==== Sys2Proof/Machine/Proc.lean ====
section
/-! DEFINITION. The effect processing path PROC_BLOCK and its wet stages (41_effect_contract). -/

namespace Sys2Proof.Machine

/-- The coefficients of a block (41_effect_contract R221). -/
structure BlockCoeffs where
  mix : F32
  om : F32
  rev : RevCoeffs
  r : F32
  pd : Nat
  dt : F32
  wg : F32
  ws : Nat
  deriving DecidableEq, Repr

/-- The coefficients, derived once at the start of a block from the current parameters and the latched CTRL
(41_effect_contract R221). -/
def blockCoeffs (s : State) : BlockCoeffs where
  mix := mixOf s
  om := F32.sub (F32.ofNat 1) (mixOf s)
  rev := revCoeffs s
  r := pitchOf s
  pd := F32.trunc (predlyOf s)
  dt := dtimeOf s
  wg := wgainOf s
  ws := ctrlWetsel s.lctrl

/-- n of the range adjustment (41_effect_contract R223). -/
def adjustedCount (iobufLen nch off cnt : Nat) : Nat :=
  if iobufLen ≤ off then 0
  else
    let n0 := min cnt (iobufLen - off)
    n0 - n0 % nch

/-- `DELAY_STAGE(ch, x)` (41_effect_contract R228). -/
def delayStage (dt : F32) (ch : Nat) (x : F32) (s : State) : F32 × State :=
  let d := dbWrite (lineAt s ch) x
  (dbReadI d dt, setLine ch d s)

/-- `PRE_STAGE(ch, x)` (41_effect_contract R229). -/
def preStage (pd ch : Nat) (x : F32) (s : State) : F32 × State :=
  let d := dbWrite (preAt s ch) x
  (dbRead d pd, setPre ch d s)

/-- The REV wet path of a channel: pre-delay, then the reverb (41_effect_contract R227). -/
def revStage (k : BlockCoeffs) (ch : Nat) (x : F32) (s : State) : F32 × State :=
  let p := preStage k.pd ch x s
  let o := revSample k.rev (revAt p.2 ch) p.1
  (o.1, setRev ch o.2 p.2)

/-- The GPS wet path of a channel (41_effect_contract R227). -/
def gpsStage (k : BlockCoeffs) (ch : Nat) (x : F32) (s : State) : F32 × State :=
  let o := gpsSample s.grain s.ringB s.win (gpsAt s ch) x k.r
  (o.1, setGps ch o.2 s)

/-- The CONV wet path of a channel: pre-delay, then the convolution engine (41_effect_contract R227, 45_convolution R396). -/
def convStage (k : BlockCoeffs) (ch : Nat) (x : F32) (s : State) : F32 × State :=
  let p := preStage k.pd ch x s
  let o := convSample p.2.irvalid p.2.convN p.2.convH (convAt p.2 ch) p.1
  (o.1, setConv ch o.2 p.2)

/-- `WET(ch, x)` (41_effect_contract R227). WETSEL never holds 6 or 7 (41_effect_contract R226); a state no run reaches that does
is given IDENT (log 7). -/
def wetStage (k : BlockCoeffs) (ch : Nat) (x : F32) (s : State) : F32 × State :=
  match k.ws with
  | 1 => (F32.mul x k.wg, s)
  | 2 => delayStage k.dt ch x s
  | 3 => revStage k ch x s
  | 4 => gpsStage k ch x s
  | 5 => convStage k ch x s
  | _ => (x, s)

/-- The mix law `(x × om) + (w × mix)` (41_effect_contract R225). DESIGN CHOICE (log 16): at mix = −0.0, where the arithmetic of R225 and the
words of R233 differ on the sign of a zero, the arithmetic is followed. -/
def mixSample (k : BlockCoeffs) (x w : F32) : F32 := F32.add (F32.mul x k.om) (F32.mul w k.mix)

/-- One sample of a block: IN[i] in, OUT[i] out, the selected stage of channel `ch` advanced once (41_effect_contract R222). -/
def procSample (k : BlockCoeffs) (i ch : Nat) (s : State) : State :=
  let x := inWord s i
  let w := wetStage k ch x s
  setOut i (mixSample k x w.1) w.2

/-- Frames in order, channels in order within a frame (41_effect_contract R222). -/
def procFrames (k : BlockCoeffs) (off n : Nat) (s : State) : State :=
  (List.range (n / s.nch)).foldl (fun t f =>
    (List.range s.nch).foldl (fun t ch => procSample k (off + f * s.nch + ch) ch t) t) s

/-- The bypass copy of `n` words from `off` (41_effect_contract R224). -/
def procBypass (off n : Nat) (s : State) : State :=
  (List.range n).foldl (fun t j => setOut (off + j) (inWord t (off + j)) t) s

/-- PROC_BLOCK (41_effect_contract R222). -/
def execProcBlock (s : State) : Host.Outcome State Fault Refusal :=
  if s.cfg = false then refuse .notConfigured s
  else
    let off := u32 s.larg.w0
    let cnt := u32 s.larg.w1
    let n := adjustedCount s.inst.iobufLen s.nch off cnt
    let w := warnIf (decide (n ≠ cnt)) .countAdjusted s
    let t := if ctrlEn s.lctrl then procFrames (blockCoeffs s) off n w else procBypass off n w
    finish (setRes0 (BitVec.ofNat 32 n) t)

end Sys2Proof.Machine
end

