-- ==== Sys2Proof/Machine/Dispatch.lean ====
section
/-! DEFINITION. The Engine step of each command (60_exceptions R484): one arm per constructor of Instr. -/

namespace Sys2Proof.Machine

def exec (i : Instr) (s : State) : Host.Outcome State Fault Refusal :=
  match i with
  | .nop => Sys2Proof.Machine.execNop s
  | .softReset => Sys2Proof.Machine.execSoftReset s
  | .config => Sys2Proof.Machine.execConfig s
  | .clear mask => Sys2Proof.Machine.execClear mask s
  | .dlyWrite line => Sys2Proof.Machine.execDlyWrite line s
  | .dlyRead line => Sys2Proof.Machine.execDlyRead line s
  | .dlyReadi line => Sys2Proof.Machine.execDlyReadi line s
  | .revStep ch => Sys2Proof.Machine.execRevStep ch s
  | .gpsStep ch => Sys2Proof.Machine.execGpsStep ch s
  | .convStep ch => Sys2Proof.Machine.execConvStep ch s
  | .irBegin => Sys2Proof.Machine.execIrBegin s
  | .irPush ch => Sys2Proof.Machine.execIrPush ch s
  | .irCommit => Sys2Proof.Machine.execIrCommit s
  | .pRegister => Sys2Proof.Machine.execPRegister s
  | .pSet => Sys2Proof.Machine.execPSet s
  | .pGet => Sys2Proof.Machine.execPGet s
  | .procBlock => Sys2Proof.Machine.execProcBlock s

end Sys2Proof.Machine
end

