-- ==== Sys2Proof/Machine/Port.lean ====
section
/-! DEFINITION. The register port: the effect of a Host read and of a Host write (10_state R40 to R54, 20_memory R101 to R107,
60_exceptions R471, R472), and of `rst_n` (70_reset R510, R530). -/

namespace Sys2Proof.Machine

/-- The byte offset of the word that an access reaches: addr[1:0] is ignored (20_memory R101). -/
def portOffset (addr : BitVec 16) : Nat := 4 * (addr.toNat / 4)

/-- The offset lies in the IN window (10_state R40, R53). -/
def inWindow (p : Params) (o : Nat) : Bool := decide (inAddr 0 ≤ o) && decide (o < inAddr p.iobufLen)

/-- The offset lies in the OUT window (10_state R40, R54). -/
def outWindow (p : Params) (o : Nat) : Bool := decide (outAddr 0 ≤ o) && decide (o < outAddr p.iobufLen)

/-- CAP0 = {log2(CONV_N_MAX)[7:0], IOBUF_LEN[15:0], MAX_CH[7:0]} (10_state R52). -/
def cap0 (p : Params) : Word :=
  BitVec.ofNat 8 (Nat.log2 p.convNMax) ++ (BitVec.ofNat 16 p.iobufLen ++ BitVec.ofNat 8 p.maxCh)

/-- CAP1 = {GPS_G_MAX[15:0], P_MAX[15:0]} (10_state R52). -/
def cap1 (p : Params) : Word := BitVec.ofNat 16 p.gpsGMax ++ BitVec.ofNat 16 p.pMax

/-- A configuration register: the value once CONFIG has succeeded, 0 before (10_state R50). -/
def cfgReg (s : State) (v : Nat) : Word := if s.cfg then BitVec.ofNat 32 v else 0#32

/-- A convolution register: the value while IRVALID = 1, 0 otherwise (10_state R51). -/
def irReg (s : State) (v : Nat) : Word := if s.irvalid then BitVec.ofNat 32 v else 0#32

/-- The word a read of a register returns, by byte offset; 0 where no register stands (10_state R40, 20_memory R104). -/
def registerWord (s : State) : Nat → Word
  | 0x00 => 0x4E430001#32
  | 0x04 => statusWord s
  | 0x08 => s.ctrl
  | 0x0C => 0#32
  | 0x10 => s.arg.w0
  | 0x14 => s.arg.w1
  | 0x18 => s.arg.w2
  | 0x1C => s.arg.w3
  | 0x20 => s.res0
  | 0x24 => s.res1
  | 0x28 => s.errcode
  | 0x2C => s.pchgIdx.setWidth 32
  | 0x30 => s.name.w0
  | 0x34 => s.name.w1
  | 0x38 => s.name.w2
  | 0x3C => s.name.w3
  | 0x40 => cfgReg s s.fs
  | 0x44 => cfgReg s s.nch
  | 0x48 => cfgReg s s.dlycap
  | 0x4C => cfgReg s s.grain
  | 0x50 => irReg s s.convN
  | 0x54 => irReg s s.irLen
  | 0x58 => cap0 s.inst
  | 0x5C => cap1 s.inst
  | 0x60 => BitVec.ofNat 32 s.inst.dlyCapMax
  | 0x64 => BitVec.ofNat 32 s.inst.fsMax
  | 0x68 => BitVec.ofNat 32 s.inst.preCap
  | 0x6C => BitVec.ofNat 32 s.inst.revCapMax
  | 0x70 => BitVec.ofNat 32 s.inst.irRawMax
  | _ => 0#32

/-- BUSY_ACCESS (60_exceptions R472), with OPC = 0xFF as a port error (10_state R47). -/
def busyAccess (s : State) : State := recordError .busyAccess 0xFF#8 s

/-- A Host read (20_memory R101, R104, R107; 60_exceptions R472): the word returned and the state after it. -/
def portRead (addr : BitVec 16) (s : State) : Word × State :=
  let o := portOffset addr
  if inWindow s.inst o || outWindow s.inst o then
    (if s.busy then (0#32, busyAccess s) else (readWord s.mem o, s))
  else (registerWord s o, s)

/-- A Host write to CMD (10_state R44, 60_exceptions R471). -/
def writeCmd (v : Word) (s : State) : State :=
  if s.busy then recordError .cmdOverrun 0xFF#8 s else latchCommand v s

/-- A Host write to a register, by byte offset; no effect where the register is read-only or no register stands
(10_state R40, 20_memory R104). -/
def registerWrite (v : Word) (s : State) : Nat → State
  | 0x04 => statusWrite v s
  | 0x08 => { s with ctrl := ctrlAfter s.ctrl v }
  | 0x0C => writeCmd v s
  | 0x10 => { s with arg := { s.arg with w0 := v } }
  | 0x14 => { s with arg := { s.arg with w1 := v } }
  | 0x18 => { s with arg := { s.arg with w2 := v } }
  | 0x1C => { s with arg := { s.arg with w3 := v } }
  | 0x30 => { s with name := { s.name with w0 := v } }
  | 0x34 => { s with name := { s.name with w1 := v } }
  | 0x38 => { s with name := { s.name with w2 := v } }
  | 0x3C => { s with name := { s.name with w3 := v } }
  | _ => s

/-- A Host write (20_memory R101, R104, R107; 60_exceptions R471, R472). -/
def portWrite (addr : BitVec 16) (v : Word) (s : State) : State :=
  let o := portOffset addr
  if inWindow s.inst o then (if s.busy then busyAccess s else { s with mem := writeWord s.mem o v })
  else registerWrite v s o

/-- The Host's read as a move: while `rst_n` is low it returns 0 and has no effect (70_reset R510). -/
def hostRead (addr : BitVec 16) (s : State) : State :=
  if s.inReset then { s with reads := 0#32 :: s.reads }
  else { (portRead addr s).2 with reads := (portRead addr s).1 :: s.reads }

/-- The Host's write as a move: ignored while `rst_n` is low (70_reset R510). -/
def hostWrite (addr : BitVec 16) (v : Word) (s : State) : State := if s.inReset then s else portWrite addr v s

/-- `rst_n` goes low: the reset values stand from here on, and a latched command is discarded (70_reset R510; log 4). -/
def resetLow (s : State) : State := { resetAll s with inReset := true }

/-- `rst_n` returns to 1: every piece of state holds its reset value (70_reset R510, R511). -/
def resetHigh (s : State) : State := if s.inReset then { resetAll s with inReset := false } else s

/-- `rst_n` goes low in the middle of a write: whether the write took effect cannot be seen, since every piece of state is reset
(70_reset R530, 93_implementation_defined I5). -/
def cutWrite (s : State) : State := resetLow s

/-- `rst_n` goes low in the middle of a read: the read returns any word, a free value (70_reset R530, 93_implementation_defined I5;
log 5). If `rst_n` is low already, it is a read during reset. -/
def cutRead (addr : BitVec 16) (s : State) : State :=
  if s.inReset then hostRead addr s
  else resetLow { s with reads := Config.interruptedRead s.freeCount :: s.reads, freeCount := s.freeCount + 1 }

end Sys2Proof.Machine
end

