-- ==== Sys2Proof/Machine/Engine.lean ====
section
/-! DEFINITION. The two agents' moves: the Engine step on the latched command (60_exceptions R484), and the move that a turn of the
schedule stands for (00_scope R13, R14). -/

namespace Sys2Proof.Machine

/-- The Engine step on the latched command: decode first, then the command (30_encoding R146, R148; 60_exceptions R482, R484). -/
def runCommand (s : State) : Host.Outcome State Fault Refusal :=
  match decode s.lcmd with
  | .ok i => exec i s
  | .error _ => refuse .illegalCmd s

/-- The Engine has the turn: with BUSY = 1 it runs the latched command, otherwise it waits and all state is held
(60_exceptions R484, R495). While `rst_n` is low it does not run (70_reset R510). -/
def engineTurn (s : State) : Host.Outcome State Fault Refusal :=
  if s.busy && !s.inReset then runCommand s else .next s

/-- The move that a turn stands for. -/
def takeTurn (t : Turn) (s : State) : Host.Outcome State Fault Refusal :=
  match t with
  | .engine => engineTurn s
  | .write addr v => .next (hostWrite addr v s)
  | .read addr => .next (hostRead addr s)
  | .rstLow => .next (resetLow s)
  | .rstHigh => .next (resetHigh s)
  | .cutWrite _ _ => .next (cutWrite s)
  | .cutRead addr => .next (cutRead addr s)

/-- The next move of the interleaving: the head of the schedule, or the Engine's once the schedule is used up (log 2). -/
def nextMove (s : State) : Host.Outcome State Fault Refusal :=
  match s.schedule with
  | [] => engineTurn s
  | t :: rest => takeTurn t { s with schedule := rest }

/-- `s` with the command word `w` accepted by the port and the Engine having the next turn (log 10). -/
def acceptCommand (w : Word) (s : State) : State :=
  { latchCommand w s with inReset := false, schedule := .engine :: s.schedule }

end Sys2Proof.Machine
end

