-- ==== Sys2Proof/Machine/Step.lean ====
section
/-! DEFINITION. One step of NECORE: one move of the Host or of the Engine (00_scope R13, R14). -/

namespace Sys2Proof.Machine

/-- One step. -/
def step (s : State) : Host.Outcome State Fault Refusal := nextMove s

/-- The state in which the next step runs the command word `w`: NECORE fetches nothing (20_memory R114), so a command is placed as
the port places it, by an accepted CMD write that latches its operands, with the Engine's turn next (log 10). -/
def State.withFetchWord (s : State) (nbits w : Nat) : State := acceptCommand (BitVec.ofNat 32 (w % 2 ^ nbits)) s

end Sys2Proof.Machine
end

