-- ==== Sys2Proof/Safety.lean ====
section
/-! DEFINITION. The terms in which claims about NECORE are stated: answers of a step, what a refusal leaves, the invariants that every
step keeps, and the sequences of samples that a unit answers. -/

namespace Sys2Proof.Machine

/-- The outcome is a next state, and that state has the property. -/
def Answers (o : Host.Outcome State Fault Refusal) (P : State → Prop) : Prop := ∃ t, o = .next t ∧ P t

/-- ERRCODE after an error with the given code and opcode is recorded (60_exceptions R483), written out by the rule's words. -/
def errcodeRecorded (s : State) (opc code : Byte) : Word :=
  if s.err then s.errcode ||| 0x00010000#32 else 0#16 ++ (opc ++ code)

/-- The state after the running command is refused with the given code: the error state, BUSY and DONE change and nothing else
(60_exceptions R473, R483, R484). -/
def refusedState (code : Byte) (s : State) : State :=
  { s with busy := false, done := true, err := true, errcode := errcodeRecorded s (s.lcmd.extractLsb' 24 8) code }

/-- The code of the first refusal check of a command that fails, in the order of 60_exceptions R482 after decode; `none` when the
command is not refused. -/
def firstRefusal (i : Instr) (s : State) : Option Byte :=
  match i with
  | .nop | .softReset | .clear _ | .pRegister | .pSet | .pGet => none
  | .config =>
    if s.cfg = true then some 0x05#8
    else if 1 ≤ s.larg.w0.toNat ∧ s.larg.w0.toNat ≤ s.inst.fsMax ∧ 1 ≤ s.larg.w1.toNat ∧ s.larg.w1.toNat ≤ s.inst.maxCh
        ∧ 1 ≤ s.larg.w2.toNat ∧ s.larg.w2.toNat ≤ s.inst.dlyCapMax ∧ s.larg.w3.toNat % 2 = 0 ∧ 8 ≤ s.larg.w3.toNat
        ∧ s.larg.w3.toNat ≤ s.inst.gpsGMax then none
    else some 0x04#8
  | .dlyWrite k | .dlyRead k | .dlyReadi k =>
    if s.cfg = false then some 0x03#8 else if s.inst.nDly ≤ k then some 0x02#8 else none
  | .revStep c | .gpsStep c | .convStep c =>
    if s.cfg = false then some 0x03#8 else if s.nch ≤ c then some 0x02#8 else none
  | .irBegin =>
    if s.cfg = false then some 0x03#8
    else if 1 ≤ s.larg.w0.toNat ∧ s.larg.w0.toNat ≤ s.inst.irRawMax ∧ 1 ≤ s.larg.w1.toNat ∧ s.larg.w1.toNat ≤ s.inst.fsMax then none
    else some 0x0A#8
  | .irPush c =>
    if s.cfg = false then some 0x03#8 else if s.nch ≤ c then some 0x02#8 else if s.irsess = false then some 0x05#8 else none
  | .irCommit => if s.cfg = false then some 0x03#8 else if s.irsess = false then some 0x05#8 else none
  | .procBlock => if s.cfg = false then some 0x03#8 else none

/-- The port memory is in canonical form and lists only addresses of the IN and OUT windows (20_memory R102). -/
structure MemInv (s : State) : Prop where
  canonical : s.mem.wf = true
  inWindows : ∀ c ∈ s.mem, (0x4000 ≤ c.1 ∧ c.1 < 0x4000 + 4 * s.inst.iobufLen) ∨ (0x8000 ≤ c.1 ∧ c.1 < 0x8000 + 4 * s.inst.iobufLen)

/-- A word CTRL can hold: reserved bits 0, WETSEL at most 5 (10_state R43, 41_effect_contract R226). -/
def ctrlLegal (c : Word) : Prop := c &&& 0xFFFFF8E0#32 = 0#32 ∧ ctrlWetsel c ≤ 5

/-- The registers hold legal words: CTRL and its latched copy, and ERRCODE, which is 0 exactly while ERR = 0 and otherwise holds a
code of 60_exceptions R470 with bits 31:17 at 0 (10_state R47). -/
structure RegInv (s : State) : Prop where
  ctrl : ctrlLegal s.ctrl
  lctrl : ctrlLegal s.lctrl
  noError : s.err = false → s.errcode = 0#32
  reserved : s.errcode &&& 0xFFFE0000#32 = 0#32
  code : s.err = true → 1 ≤ (s.errcode.extractLsb' 0 8).toNat ∧ (s.errcode.extractLsb' 0 8).toNat ≤ 14

/-- A delay buffer of capacity `cap` in good order: samples in canonical form below the capacity, the cursor inside it
(10_state R57). -/
structure BufOk (d : DelayBuf) (cap : Nat) : Prop where
  capacity : d.cap = cap
  canonical : sparseWf d.buf = true
  inside : sparseBelow cap d.buf = true
  cursor : d.w < cap ∨ (cap = 0 ∧ d.w = 0)

/-- The reverb of channel `c`: eight combs and four allpass buffers of the lengths of 43_reverb R300 if the channel is configured, of
length 0 otherwise (10_state R60). -/
structure RevOk (s : State) (c : Nat) (r : RevCh) : Prop where
  combCount : r.combs.length = 8
  apCount : r.aps.length = 4
  combs : ∀ (i : Nat) (cb : Comb) (b : Nat), r.combs[i]? = some cb → s.inst.combBase[i]? = some b →
    BufOk cb.db (if c < s.nch then revLength s.inst s.fs c b else 0)
  aps : ∀ (j : Nat) (ab : DelayBuf) (b : Nat), r.aps[j]? = some ab → s.inst.apBase[j]? = some b →
    BufOk ab (if c < s.nch then revLength s.inst s.fs c b else 0)

/-- The convolution engine of a channel for FFT size `n` and hop `h` in good order (10_state R62). `aligned` is 45_convolution R389:
the block that is being filled will start at the read cursor of the sample that completes it. -/
structure ConvOk (n h : Nat) (v : ConvCh) : Prop where
  ip : v.ip < h
  rd : v.rd < 2 * n
  wr : v.wr < 2 * n
  aligned : (v.rd + h) % (2 * n) = (v.wr + v.ip) % (2 * n)
  inb : sparseWf v.inb = true ∧ sparseBelow h v.inb = true
  out : sparseWf v.out = true ∧ sparseBelow (2 * n) v.out = true
  specRe : sparseWf v.specRe = true ∧ sparseBelow n v.specRe = true
  specIm : sparseWf v.specIm = true ∧ sparseBelow n v.specIm = true

/-- The configuration is legal (40_control R183, R184) and every unit has the shape that it gives (10_state R56 to R63). -/
structure ShapeInv (s : State) : Prop where
  inst : s.inst.Valid
  unset : s.cfg = false → s.fs = 0 ∧ s.nch = 0 ∧ s.dlycap = 0 ∧ s.grain = 0 ∧ s.ringB = 0 ∧ s.irsess = false ∧ s.irvalid = false
  set : s.cfg = true → 1 ≤ s.fs ∧ s.fs ≤ s.inst.fsMax ∧ 1 ≤ s.nch ∧ s.nch ≤ s.inst.maxCh ∧ 1 ≤ s.dlycap
    ∧ s.dlycap ≤ s.inst.dlyCapMax ∧ s.grain % 2 = 0 ∧ 8 ≤ s.grain ∧ s.grain ≤ s.inst.gpsGMax ∧ s.ringB = 8 * s.grain
  lines : s.dlyl.length = s.inst.maxCh ∧ ∀ d ∈ s.dlyl, BufOk d s.dlycap
  pre : s.prer.length = s.inst.maxCh ∧ ∀ d ∈ s.prer, BufOk d s.inst.preCap
  rev : s.rev.length = s.inst.maxCh ∧ ∀ (c : Nat) (r : RevCh), s.rev[c]? = some r → RevOk s c r
  gps : s.gps.length = s.inst.maxCh ∧ ∀ g ∈ s.gps, sparseWf g.ring = true ∧ sparseBelow s.ringB g.ring = true
    ∧ (g.gw < s.ringB ∨ (s.ringB = 0 ∧ g.gw = 0))
  win : sparseWf s.win = true ∧ sparseBelow s.grain s.win = true
  conv : s.conv.length = s.inst.maxCh
  noIr : s.irvalid = false → s.convN = 0 ∧ s.convH = 0 ∧ s.irLen = 0
  withIr : s.irvalid = true → 1 ≤ s.irLen ∧ s.irLen ≤ s.convH ∧ s.convN = 2 * s.convH ∧ s.convN ≤ s.inst.convNMax
    ∧ s.convN = 2 ^ Nat.log2 s.convN ∧ ∀ v ∈ s.conv, ConvOk s.convN s.convH v
  session : s.irsess = true → 1 ≤ s.lsrc ∧ s.lsrc ≤ s.inst.irRawMax ∧ 1 ≤ s.fssrc ∧ s.fssrc ≤ s.inst.fsMax
  raw : s.ir.length = s.inst.maxCh ∧ ∀ r ∈ s.ir, r.cnt ≤ s.lsrc ∧ sparseWf r.raw = true ∧ sparseBelow r.cnt r.raw = true

/-- The parameter store is in good order (10_state R64; 46_parameter_store R430 to R435): P_MAX entries; the built-ins valid, under
their names, with a value that is no NaN and lies in the range; names of 1 to 16 bytes without 0x00; no two valid entries of
matching names; an entry that is not valid at its reset contents. -/
structure StoreInv (s : State) : Prop where
  inst : s.inst.Valid
  size : s.pst.length = s.inst.pMax
  builtins : ∀ (k : Nat) (b : Builtin), (builtinTable s.inst)[k]? = some b →
    ∃ e, s.pst[k]? = some e ∧ e.valid = true ∧ e.name = b.name ∧ F32.ge e.value b.lo = true ∧ F32.ge b.hi e.value = true
  names : ∀ e ∈ s.pst, e.valid = true → 1 ≤ e.name.length ∧ e.name.length ≤ 16 ∧ 0#8 ∉ e.name
  unused : ∀ e ∈ s.pst, e.valid = false → e.name = [] ∧ e.value = 0#32 ∧ e.dflt = 0#32
  unique : ∀ (i j : Nat) (x y : PEntry), s.pst[i]? = some x → s.pst[j]? = some y → x.valid = true → y.valid = true →
    namesMatch x.name y.name = true → i = j

/-- A finite binary32 value in [+0, n). -/
def PosBelow (x : F32) (n : Nat) : Prop := F32.isFinite x = true ∧ F32.sign x = false ∧ F32.trunc x < n

/-- The read positions lie in [0, B) and the phases in [0, G) on every channel (10_state R61, 44_pitch_shifter R346). -/
def GpsInv (s : State) : Prop :=
  s.cfg = true → ∀ g ∈ s.gps, PosBelow g.rp1 s.ringB ∧ PosBelow g.rp2 s.ringB ∧ PosBelow g.ph1 s.grain ∧ PosBelow g.ph2 s.grain

/-- The outputs of a comb filter that is fed the samples one after another. -/
def combOutputs (k : RevCoeffs) : Comb → List F32 → List F32
  | _, [] => []
  | cb, x :: xs => (combStep k cb x).1 :: combOutputs k (combStep k cb x).2 xs

/-- The outputs of the convolution engine of a channel that is fed the samples one after another, with an IR committed. -/
def convOutputs (n h : Nat) : ConvCh → List F32 → List F32
  | _, [] => []
  | c, x :: xs => (convSample true n h c x).1 :: convOutputs n h (convSample true n h c x).2 xs

/-- A coefficient that is finite and not negative. -/
def CoeffOk (x : F32) : Prop := F32.isFinite x = true ∧ F32.sign x = false

/-- The bytes of the OUT words [off, off + n) (41_effect_contract R220). -/
def outBytes (off n a : Nat) : Prop := 0x8000 + 4 * off ≤ a ∧ a < 0x8000 + 4 * (off + n)

/-- The outputs of the pitch shifter of a channel that is fed the samples one after another at the ratio `r`. -/
def gpsOutputs (g b : Nat) (win : Samples) (r : F32) : GpsCh → List F32 → List F32
  | _, [] => []
  | c, x :: xs => (gpsSample g b win c x r).1 :: gpsOutputs g b win r (gpsSample g b win c x r).2 xs

/-- The next move of `s` is the turn `m`, and `u` is the state in which it is taken (00_scope R14; log 2). -/
def NextMove (m : Turn) (s u : State) : Prop := ∃ rest, s.schedule = m :: rest ∧ u = { s with schedule := rest }

/-- The next move of `s` is the Engine's, taken in the state `u`: its turn stands at the head of the schedule, or the schedule is used up
(log 2). -/
def EngineMove (s u : State) : Prop := (s.schedule = [] ∧ u = s) ∨ NextMove .engine s u

/-- The next move of `s` is one of those after which STATUS.ERR may be 0 (60_exceptions R483): a Host write of 1 to STATUS.ERR, an event of
`rst_n`, or the Engine's turn with SOFT_RESET latched. -/
def mayClearError (s : State) : Prop :=
  match s.schedule with
  | .write addr v :: _ => addr.toNat / 4 = 1 ∧ v.getLsbD 3 = true
  | .read _ :: _ => False
  | .rstLow :: _ | .rstHigh :: _ | .cutWrite _ _ :: _ | .cutRead _ :: _ => True
  | .engine :: _ | [] => decode s.lcmd = .ok .softReset

/-- `e` is the first entry of the store that is valid and whose name matches `n`, and `x` is its contents (46_parameter_store R432). -/
def FirstMatch (s : State) (n : Name8) (e : Nat) (x : PEntry) : Prop :=
  s.pst[e]? = some x ∧ x.valid = true ∧ namesMatch x.name n = true
    ∧ ∀ j < e, ∀ y, s.pst[j]? = some y → ¬(y.valid = true ∧ namesMatch y.name n = true)

/-- No valid entry of the store matches `n`: LOOKUP gives NONE (46_parameter_store R432). -/
def NoMatch (s : State) (n : Name8) : Prop := ∀ y ∈ s.pst, ¬(y.valid = true ∧ namesMatch y.name n = true)

/-- `e` is the lowest index from 8 on whose entry is not valid (46_parameter_store R435). -/
def FirstFree (s : State) (e : Nat) : Prop :=
  8 ≤ e ∧ (∃ x, s.pst[e]? = some x ∧ x.valid = false) ∧ ∀ j, 8 ≤ j → j < e → ∀ y, s.pst[j]? = some y → y.valid = true

/-- Every entry of the store from index 8 on is valid (46_parameter_store R435: ALLOC gives NONE). -/
def StoreFull (s : State) : Prop := ∀ j, 8 ≤ j → ∀ y, s.pst[j]? = some y → y.valid = true

/-- `r` is the finite binary32 value nearest to `v / den` units of 2^-149; of two equally near values it is the one whose fraction is even
(00_scope R17). -/
def IsNearestEven (r : F32) (v : Int) (den : Nat) : Prop :=
  F32.isFinite r = true ∧ ∀ y : F32, F32.isFinite y = true →
    |F32.fix r * den - v| ≤ |F32.fix y * den - v|
      ∧ (|F32.fix r * den - v| = |F32.fix y * den - v| → F32.fix y ≠ F32.fix r → F32.fraction r % 2 = 0)

/-- `b` is `a` after one stage of the transform on 2^l values, the stage of block length 2^(st + 1), in the words of 45_convolution R382: in
each block every pair of values half a block apart goes through one butterfly, whose sine is negated for the forward
direction. The twiddles of R381 are the model's (log 6). -/
def IsFftStage (inverse : Bool) (l st : Nat) (a b : Array Cplx) : Prop :=
  ∀ blk < 2 ^ (l - 1 - st), ∀ k < 2 ^ st,
    let p := blk * 2 ^ (st + 1) + k
    let wr := twiddleCos (2 ^ l) (k * 2 ^ (l - 1 - st))
    let sn := twiddleSin (2 ^ l) (k * 2 ^ (l - 1 - st))
    let wi := if inverse then sn else sn ^^^ 0x80000000#32
    let u := a.getD p (0#32, 0#32)
    let v := a.getD (p + 2 ^ st) (0#32, 0#32)
    let tr := F32.sub (F32.mul v.1 wr) (F32.mul v.2 wi)
    let ti := F32.add (F32.mul v.1 wi) (F32.mul v.2 wr)
    b[p]? = some (F32.add u.1 tr, F32.add u.2 ti) ∧ b[p + 2 ^ st]? = some (F32.sub u.1 tr, F32.sub u.2 ti)

/-- `b` is the transform of the 2^l values `a`, in the words of 45_convolution R382: `z 0` is `a` with each index replaced by the one whose
`l` bits stand in reverse order, and `z (st + 1)` is `z st` after the stage of block length 2^(st + 1), up to `z l = b`. -/
def IsFft (inverse : Bool) (l : Nat) (a b : Array Cplx) : Prop :=
  a.size = 2 ^ l ∧ ∃ z : Nat → Array Cplx,
    z l = b
    ∧ (∀ st ≤ l, (z st).size = 2 ^ l)
    ∧ (∀ i < 2 ^ l, ∃ j < 2 ^ l, (∀ k < l, j.testBit k = i.testBit (l - 1 - k)) ∧ (z 0)[i]? = a[j]?)
    ∧ ∀ st < l, IsFftStage inverse l st (z st) (z (st + 1))

/-- The least magnitude, in units of 2^-149, that rounds to infinity: half a unit in the last place above the greatest finite value. -/
def overflowFrom : Nat := (2 ^ 25 - 1) * 2 ^ 252

end Sys2Proof.Machine
end

