-- ==== Sys2Proof/Certificates/Slice0/Obligations.lean ====
section
/-! DEFINITION. The statements about NECORE that the provers prove. Each says which rule of spec/ it formalises. -/

open Sys2Proof Sys2Proof.Machine

/-! ### Encoding -/

/-- 30_encoding R140 to R145: the decoder reads back every command that has an encoding. -/
def Obligations.DecodeEncode : Prop := ∀ i : Instr, i.wellFormed = true → decode (encode i) = .ok i

/-- 30_encoding R148: a word that decodes is the one encoding of its command, so no two words stand for one command. -/
def Obligations.EncodeDecode : Prop := ∀ (w : Word) (i : Instr), decode w = .ok i → i.wellFormed = true ∧ encode i = w

/-- 30_encoding R146: which words are illegal, and that the Engine refuses such a word with ILLEGAL_CMD and changes nothing but the error
and completion state. -/
def Obligations.IllegalWords : Prop :=
  (∀ w : Word, (∃ e, decode w = .error e) ↔
    (w.extractLsb' 24 8 ∉ [0x00#8, 0x01#8, 0x02#8, 0x03#8, 0x10#8, 0x11#8, 0x12#8, 0x20#8, 0x30#8, 0x40#8, 0x41#8, 0x42#8, 0x43#8, 0x50#8,
        0x51#8, 0x52#8, 0x60#8])
    ∨ w.extractLsb' 20 4 ≠ 0#4
    ∨ (w.extractLsb' 24 8 ∈ [0x00#8, 0x01#8, 0x02#8, 0x03#8, 0x41#8, 0x43#8, 0x50#8, 0x51#8, 0x52#8, 0x60#8] ∧ w.extractLsb' 16 4 ≠ 0#4)
    ∨ (w.extractLsb' 24 8 ≠ 0x03#8 ∧ w.extractLsb' 0 16 ≠ 0#16)
    ∨ (w.extractLsb' 24 8 = 0x03#8 ∧ w.extractLsb' 5 11 ≠ 0#11))
  ∧ ∀ (s u : State) (e : IllegalWord), EngineMove s u → u.busy = true → u.inReset = false → decode u.lcmd = .error e →
      step s = .next (refusedState 0x01#8 u)

/-- Words written out from the opcode map of 30_encoding R145 and the commands that they are. -/
def Obligations.SampleWords : Prop :=
  decode 0x00000000#32 = .ok .nop ∧ decode 0x01000000#32 = .ok .softReset ∧ decode 0x02000000#32 = .ok .config
    ∧ decode 0x03000004#32 = .ok (.clear 0b00100#5) ∧ decode 0x1001FFFF#32 = .error .immNotZero ∧ decode 0x100F0000#32 = .ok (.dlyWrite 15)
    ∧ decode 0x12010000#32 = .ok (.dlyReadi 1) ∧ decode 0x20010000#32 = .ok (.revStep 1) ∧ decode 0x42000000#32 = .ok (.irPush 0)
    ∧ decode 0x52000000#32 = .ok .pGet ∧ decode 0x60000000#32 = .ok .procBlock ∧ decode 0x61000000#32 = .error .reservedOpcode

/-! ### Steps and commands -/

/-- 60_exceptions R484, R495: with BUSY = 1 the Engine's move is the latched command, whose bits decode to it; with BUSY = 0, or while
`rst_n` is low (70_reset R510), it changes nothing. The last clause is about the model's placing of a command (log 10). -/
def Obligations.StepRunsTheCommand : Prop :=
  (∀ (s u : State) (i : Instr), EngineMove s u → u.busy = true → u.inReset = false → decode u.lcmd = .ok i → step s = exec i u)
  ∧ (∀ s u : State, EngineMove s u → u.busy = false ∨ u.inReset = true → step s = .next u)
  ∧ ∀ (s : State) (w : Word) (i : Instr), decode w = .ok i →
      step (s.withFetchWord 32 w.toNat)
        = exec i { s with lcmd := w, larg := s.arg, lname := s.name, lctrl := s.ctrl, busy := true, inReset := false }

/-- 60_exceptions R484, R488: every command completes in its one step, whatever the state, with BUSY = 0 and DONE = 1; no step of the
machine stops, and none changes the instance. -/
def Obligations.EveryCommandCompletes : Prop :=
  (∀ (i : Instr) (s : State), ∃ t, exec i s = .next t ∧ t.busy = false ∧ t.done = true ∧ t.inst = s.inst ∧ t.schedule = s.schedule
    ∧ t.reads = s.reads)
  ∧ ∀ s : State, ∃ t, step s = .next t ∧ t.inst = s.inst

/-- 70_reset R526, 20_memory R110: an accepted command completes after finitely many steps, however the Host's accesses are
interleaved, as long as no event of `rst_n` comes between. The spec promises fairness only; the bound, one step more than the pending moves,
is the model's own, by its choice that the Engine has every turn once the schedule is used up (log 2, DESIGN CHOICE). -/
def Obligations.AcceptedCommandCompletes : Prop :=
  ∀ s : State, s.busy = true → s.inReset = false →
    (∀ m ∈ s.schedule, m = .engine ∨ (∃ a v, m = .write a v) ∨ ∃ a, m = .read a) →
    ∃ n ≤ s.schedule.length + 1, ∃ t : State, Host.Core.run Sys2Proof.core n s = .next t ∧ t.busy = false ∧ t.done = true

/-- 10_state R55 (20_memory R114 is the spec's own inference from it): a command reads the latch only, so the live ARG, NAME and CTRL do not matter to it
(SOFT_RESET overwrites them), and no Host write while BUSY = 1 changes the latch or ends the command. -/
def Obligations.LatchIsolatesCommand : Prop :=
  (∀ (i : Instr) (s t : State) (a n : Quad) (c : Word), i ≠ .softReset → exec i s = .next t →
    exec i { s with arg := a, name := n, ctrl := c } = .next { t with arg := a, name := n, ctrl := c })
  ∧ (∀ (s : State) (a n : Quad) (c : Word), exec .softReset { s with arg := a, name := n, ctrl := c } = exec .softReset s)
  ∧ ∀ (s u t : State) (addr : BitVec 16) (v : Word), NextMove (.write addr v) s u → u.busy = true → step s = .next t →
      t.lcmd = u.lcmd ∧ t.larg = u.larg ∧ t.lname = u.lname ∧ t.lctrl = u.lctrl ∧ t.busy = true

/-- The frame of every command over the whole machine (10_state R45, R46, R53, R54; 40_control R187; 41_effect_contract R220;
46_parameter_store R430): which commands may change which state. -/
def Obligations.WhatEachCommandLeaves : Prop :=
  ∀ (i : Instr) (s t : State), exec i s = .next t → i ≠ .softReset →
    (t.ctrl = s.ctrl ∧ t.arg = s.arg ∧ t.name = s.name ∧ t.lcmd = s.lcmd ∧ t.larg = s.larg ∧ t.lname = s.lname ∧ t.lctrl = s.lctrl
      ∧ t.inReset = s.inReset ∧ t.freeCount = s.freeCount)
    ∧ (i ≠ .procBlock → ∀ a, readByte t.mem a = readByte s.mem a)
    ∧ (i ≠ .config → t.cfg = s.cfg ∧ t.fs = s.fs ∧ t.nch = s.nch ∧ t.dlycap = s.dlycap ∧ t.grain = s.grain ∧ t.ringB = s.ringB
      ∧ t.win = s.win)
    ∧ (i ≠ .pRegister → i ≠ .pSet → t.pst = s.pst ∧ t.pchg = s.pchg ∧ t.pchgIdx = s.pchgIdx)
    ∧ (i ≠ .irCommit → t.irvalid = s.irvalid ∧ t.convN = s.convN ∧ t.convH = s.convH ∧ t.irLen = s.irLen)
    ∧ (i ≠ .irCommit → i ≠ .irBegin → t.irsess = s.irsess)
    ∧ (i ≠ .irBegin → t.lsrc = s.lsrc ∧ t.fssrc = s.fssrc)
    ∧ (i ≠ .irBegin → (∀ c, i ≠ .irPush c) → t.ir = s.ir)
    ∧ (i ≠ .config → (∀ m, i ≠ .clear m) → (∀ k, i ≠ .dlyWrite k) → i ≠ .procBlock → t.dlyl = s.dlyl)
    ∧ (i ≠ .config → (∀ m, i ≠ .clear m) → i ≠ .procBlock → t.prer = s.prer)
    ∧ (i ≠ .config → (∀ m, i ≠ .clear m) → (∀ c, i ≠ .revStep c) → i ≠ .procBlock → t.rev = s.rev)
    ∧ (i ≠ .config → (∀ m, i ≠ .clear m) → (∀ c, i ≠ .gpsStep c) → i ≠ .procBlock → t.gps = s.gps)
    ∧ ((∀ m, i ≠ .clear m) → (∀ c, i ≠ .convStep c) → i ≠ .irCommit → i ≠ .procBlock → t.conv = s.conv)
    ∧ (i = .nop ∨ i = .config ∨ (∃ m, i = .clear m) ∨ (∃ k, i = .dlyWrite k) ∨ i = .irBegin ∨ (∃ c, i = .irPush c) → t.res0 = s.res0)
    ∧ (i ≠ .irCommit → i ≠ .pRegister → i ≠ .pSet → i ≠ .pGet → t.res1 = s.res1)

/-! ### Errors, status and interrupt -/

/-- 60_exceptions R483: what recording an error does, under which opcode a command's error is recorded, that ERR and the first error
stay recorded, and that a Host write of 1 to STATUS.ERR clears both. -/
def Obligations.ErrorRecording : Prop :=
  (∀ (e : ErrCode) (o : Byte) (s : State), s.err = false →
    recordError e o s = { s with err := true, errcode := 0#15 ++ (0#1 ++ (o ++ errNumber e)) })
  ∧ (∀ (e : ErrCode) (o : Byte) (s : State), s.err = true → recordError e o s = { s with errcode := s.errcode ||| 0x00010000#32 })
  ∧ (∀ (e : ErrCode) (s : State), refuse e s = .next { recordError e (s.lcmd.extractLsb' 24 8) s with busy := false, done := true })
  ∧ (∀ (e : ErrCode) (s : State), warnIf true e s = recordError e (s.lcmd.extractLsb' 24 8) s)
  ∧ (∀ s t : State, s.err = true → step s = .next t → ¬mayClearError s →
    t.err = true ∧ t.errcode.extractLsb' 0 16 = s.errcode.extractLsb' 0 16 ∧ (s.errcode.getLsbD 16 = true → t.errcode.getLsbD 16 = true))
  ∧ ∀ (s u t : State) (addr : BitVec 16) (v : Word), NextMove (.write addr v) s u → u.inReset = false → addr.toNat / 4 = 1 →
      v.getLsbD 3 = true → step s = .next t → t.err = false ∧ t.errcode = 0#32

/-- 60_exceptions R473 (with the check order of R482 in `firstRefusal`): a refused command, an illegal word among them, changes the error
and completion state and nothing else. -/
def Obligations.RefusedCommandChangesNothing : Prop :=
  (∀ (i : Instr) (s : State) (code : Byte), firstRefusal i s = some code → exec i s = .next (refusedState code s))
  ∧ ∀ (s : State) (e : IllegalWord), decode s.lcmd = .error e → runCommand s = .next (refusedState 0x01#8 s)

/-- 60_exceptions R486 and 10_state R42: the bits of STATUS; that a Host write of 1 clears DONE, ERR (with ERRCODE) and PCHG and touches
nothing else; and the interrupt line on the live STATUS and CTRL, with its reset value. -/
def Obligations.StatusAndInterrupt : Prop :=
  (∀ s : State, irq s = (((statusWord s).getLsbD 2 && s.ctrl.getLsbD 8) || ((statusWord s).getLsbD 3 && s.ctrl.getLsbD 9)
    || ((statusWord s).getLsbD 4 && s.ctrl.getLsbD 10)))
  ∧ (∀ p : Params, irq (State.resetOf p) = false)
  ∧ (∀ (s : State) (n : Nat), n < 32 →
    (statusWord s).getLsbD n = [s.busy, s.cfg, s.done, s.err, s.pchg, s.irsess, s.irvalid].getD n false)
  ∧ ∀ (s u : State) (addr : BitVec 16) (v : Word), NextMove (.write addr v) s u → u.inReset = false → addr.toNat / 4 = 1 →
      step s = .next { u with
        done := if v.getLsbD 2 then false else u.done
        err := if v.getLsbD 3 then false else u.err
        errcode := if v.getLsbD 3 then 0#32 else u.errcode
        pchg := if v.getLsbD 4 then false else u.pchg }

/-! ### The register port -/

/-- 10_state R41, R50, R51, R52 (and the rest of the map of R40): what a read of each register returns, that it has no other effect, and
what a write of a read-only or a plain RW register does. -/
def Obligations.RegisterMap : Prop :=
  (∀ (s u : State) (addr : BitVec 16) (v : Word), NextMove (.read addr) s u → u.inReset = false →
    (4 * (addr.toNat / 4), v) ∈
      [(0x00, 0x4E430001#32), (0x04, statusWord u), (0x08, u.ctrl), (0x0C, 0#32), (0x10, u.arg.w0), (0x14, u.arg.w1), (0x18, u.arg.w2),
       (0x1C, u.arg.w3), (0x20, u.res0), (0x24, u.res1), (0x28, u.errcode), (0x2C, 0#24 ++ u.pchgIdx), (0x30, u.name.w0),
       (0x34, u.name.w1), (0x38, u.name.w2), (0x3C, u.name.w3),
       (0x40, if u.cfg then BitVec.ofNat 32 u.fs else 0#32), (0x44, if u.cfg then BitVec.ofNat 32 u.nch else 0#32),
       (0x48, if u.cfg then BitVec.ofNat 32 u.dlycap else 0#32), (0x4C, if u.cfg then BitVec.ofNat 32 u.grain else 0#32),
       (0x50, if u.irvalid then BitVec.ofNat 32 u.convN else 0#32), (0x54, if u.irvalid then BitVec.ofNat 32 u.irLen else 0#32),
       (0x58, BitVec.ofNat 8 (Nat.log2 u.inst.convNMax) ++ (BitVec.ofNat 16 u.inst.iobufLen ++ BitVec.ofNat 8 u.inst.maxCh)),
       (0x5C, BitVec.ofNat 16 u.inst.gpsGMax ++ BitVec.ofNat 16 u.inst.pMax), (0x60, BitVec.ofNat 32 u.inst.dlyCapMax),
       (0x64, BitVec.ofNat 32 u.inst.fsMax), (0x68, BitVec.ofNat 32 u.inst.preCap), (0x6C, BitVec.ofNat 32 u.inst.revCapMax),
       (0x70, BitVec.ofNat 32 u.inst.irRawMax)] →
    step s = .next { u with reads := v :: u.reads })
  ∧ (∀ (s u : State) (addr : BitVec 16) (v : Word), NextMove (.write addr v) s u →
    4 * (addr.toNat / 4) ∈ [0x00, 0x20, 0x24, 0x28, 0x2C, 0x40, 0x44, 0x48, 0x4C, 0x50, 0x54, 0x58, 0x5C, 0x60, 0x64, 0x68, 0x6C, 0x70] →
    step s = .next u)
  ∧ (∀ (s u t : State) (addr : BitVec 16) (v : Word), NextMove (.write addr v) s u → u.inReset = false →
    (4 * (addr.toNat / 4), t) ∈
      [(0x10, { u with arg := { u.arg with w0 := v } }), (0x14, { u with arg := { u.arg with w1 := v } }),
       (0x18, { u with arg := { u.arg with w2 := v } }), (0x1C, { u with arg := { u.arg with w3 := v } }),
       (0x30, { u with name := { u.name with w0 := v } }), (0x34, { u with name := { u.name with w1 := v } }),
       (0x38, { u with name := { u.name with w2 := v } }), (0x3C, { u with name := { u.name with w3 := v } })] →
    step s = .next t)
  ∧ ∀ s t : State, step s = .next t → t.inst = s.inst

/-- 20_memory R104: an access to an offset that no register or window occupies reads 0, writes nothing and records no error. -/
def Obligations.UnmappedAccess : Prop :=
  ∀ (s u : State) (addr : BitVec 16), 0x74 ≤ 4 * (addr.toNat / 4) →
    ¬(0x4000 ≤ 4 * (addr.toNat / 4) ∧ 4 * (addr.toNat / 4) < 0x4000 + 4 * u.inst.iobufLen) →
    ¬(0x8000 ≤ 4 * (addr.toNat / 4) ∧ 4 * (addr.toNat / 4) < 0x8000 + 4 * u.inst.iobufLen) →
    (NextMove (.read addr) s u → step s = .next { u with reads := 0#32 :: u.reads })
    ∧ ∀ v : Word, NextMove (.write addr v) s u → step s = .next u

/-- 10_state R44 and 60_exceptions R471: a CMD write latches the command while BUSY = 0 and is dropped as CMD_OVERRUN, with OPC = 0xFF,
while BUSY = 1; CMD reads 0. -/
def Obligations.CommandWrite : Prop :=
  (∀ (s u : State) (addr : BitVec 16) (v : Word), NextMove (.write addr v) s u → u.inReset = false → addr.toNat / 4 = 3 →
    (u.busy = false → step s = .next { u with lcmd := v, larg := u.arg, lname := u.name, lctrl := u.ctrl, busy := true })
    ∧ (u.busy = true → step s = .next { u with err := true, errcode := errcodeRecorded u 0xFF#8 0x06#8 }))
  ∧ ∀ (s u : State) (addr : BitVec 16), NextMove (.read addr) s u → addr.toNat / 4 = 3 → step s = .next { u with reads := 0#32 :: u.reads }

/-- 60_exceptions R472: while BUSY = 1 an IN write is dropped and an IN or OUT read returns 0, each recording BUSY_ACCESS with OPC = 0xFF;
every other access but a CMD write records nothing, and a STATUS write takes effect at once. -/
def Obligations.BusyAccess : Prop :=
  (∀ (s u : State) (addr : BitVec 16) (v : Word), NextMove (.write addr v) s u → u.inReset = false → u.busy = true →
    0x4000 ≤ 4 * (addr.toNat / 4) → 4 * (addr.toNat / 4) < 0x4000 + 4 * u.inst.iobufLen →
    step s = .next { u with err := true, errcode := errcodeRecorded u 0xFF#8 0x07#8 })
  ∧ (∀ (s u : State) (addr : BitVec 16), NextMove (.read addr) s u → u.inReset = false → u.busy = true →
    (0x4000 ≤ 4 * (addr.toNat / 4) ∧ 4 * (addr.toNat / 4) < 0x4000 + 4 * u.inst.iobufLen)
      ∨ (0x8000 ≤ 4 * (addr.toNat / 4) ∧ 4 * (addr.toNat / 4) < 0x8000 + 4 * u.inst.iobufLen) →
    step s = .next { u with err := true, errcode := errcodeRecorded u 0xFF#8 0x07#8, reads := 0#32 :: u.reads })
  ∧ (∀ (s u t : State) (addr : BitVec 16), NextMove (.read addr) s u → step s = .next t →
    ¬(0x4000 ≤ 4 * (addr.toNat / 4) ∧ 4 * (addr.toNat / 4) < 0x4000 + 4 * u.inst.iobufLen) →
    ¬(0x8000 ≤ 4 * (addr.toNat / 4) ∧ 4 * (addr.toNat / 4) < 0x8000 + 4 * u.inst.iobufLen) →
    ∃ v, t = { u with reads := v :: u.reads })
  ∧ (∀ (s u t : State) (addr : BitVec 16) (v : Word), NextMove (.write addr v) s u → step s = .next t →
    ¬(0x4000 ≤ 4 * (addr.toNat / 4) ∧ 4 * (addr.toNat / 4) < 0x4000 + 4 * u.inst.iobufLen) →
    addr.toNat / 4 ≠ 1 → addr.toNat / 4 ≠ 3 →
    t.err = u.err ∧ t.errcode = u.errcode ∧ t.lcmd = u.lcmd ∧ t.larg = u.larg ∧ t.lname = u.lname ∧ t.lctrl = u.lctrl ∧ t.busy = u.busy)
  ∧ ∀ (s u t : State) (addr : BitVec 16) (v : Word), NextMove (.write addr v) s u → u.inReset = false → addr.toNat / 4 = 1 →
      step s = .next t → t.done = (u.done && !v.getLsbD 2) ∧ t.err = (u.err && !v.getLsbD 3) ∧ t.pchg = (u.pchg && !v.getLsbD 4)

/-- 10_state R53, R54 and 20_memory R101, R103: while BUSY = 0 an IN write stores the word's bytes, byte 0 lowest, and leaves every other
byte; IN and OUT reads return the word of their bytes; an OUT write is ignored; addr[1:0] is ignored. -/
def Obligations.WindowAccess : Prop :=
  (∀ (s u : State) (addr : BitVec 16) (v : Word) (i : Nat), NextMove (.write addr v) s u → u.inReset = false → u.busy = false →
    u.inst.iobufLen ≤ 4096 → i < u.inst.iobufLen → addr.toNat / 4 = 0x1000 + i →
    ∃ m : Memory, step s = .next { u with mem := m } ∧ (∀ k < 4, readByte m (0x4000 + 4 * i + k) = v.extractLsb' (8 * k) 8)
      ∧ (∀ a, a < 0x4000 + 4 * i ∨ 0x4000 + 4 * i + 4 ≤ a → readByte m a = readByte u.mem a) ∧ (u.mem.wf = true → m.wf = true))
  ∧ (∀ (s u : State) (addr : BitVec 16) (i base : Nat), NextMove (.read addr) s u → u.inReset = false → u.busy = false →
    u.inst.iobufLen ≤ 4096 → i < u.inst.iobufLen → base = 0x4000 ∨ base = 0x8000 → addr.toNat / 4 = base / 4 + i →
    ∃ v : Word, step s = .next { u with reads := v :: u.reads } ∧ ∀ k < 4, v.extractLsb' (8 * k) 8 = readByte u.mem (base + 4 * i + k))
  ∧ ∀ (s u : State) (addr : BitVec 16) (v : Word) (i : Nat), NextMove (.write addr v) s u → u.inst.iobufLen ≤ 4096 →
      i < u.inst.iobufLen → addr.toNat / 4 = 0x2000 + i → step s = .next u

/-- 10_state R43 and 41_effect_contract R226: the fields a Host write of CTRL sets, the reserved bits, and WETSEL 6 or 7; the reset value. -/
def Obligations.ControlRegister : Prop :=
  (∀ (s u : State) (addr : BitVec 16) (v : Word), NextMove (.write addr v) s u → u.inReset = false → addr.toNat / 4 = 2 →
    ∃ c : Word, step s = .next { u with ctrl := c } ∧ c.getLsbD 0 = v.getLsbD 0 ∧ c.getLsbD 4 = v.getLsbD 4 ∧ c.getLsbD 8 = v.getLsbD 8
      ∧ c.getLsbD 9 = v.getLsbD 9 ∧ c.getLsbD 10 = v.getLsbD 10 ∧ (∀ n, n = 5 ∨ n = 6 ∨ n = 7 ∨ 11 ≤ n → c.getLsbD n = false)
      ∧ c.extractLsb' 1 3 = if (v.extractLsb' 1 3).toNat < 6 then v.extractLsb' 1 3 else u.ctrl.extractLsb' 1 3)
  ∧ ∀ p : Params, (State.resetOf p).ctrl = 0x00000001#32

/-! ### Reset -/

/-- 70_reset R511: the reset value of every piece of state. The names and reset values of the parameter store are those of the table of
46_parameter_store R431, written out. -/
def Obligations.ResetValues : Prop :=
  ∀ p : Params, p.Valid →
    let r := State.resetOf p
    statusWord r = 0#32 ∧ r.ctrl = 0x00000001#32 ∧ r.arg = ⟨0#32, 0#32, 0#32, 0#32⟩ ∧ r.res0 = 0#32 ∧ r.res1 = 0#32 ∧ r.errcode = 0#32
      ∧ r.pchgIdx = 0#8 ∧ r.name = ⟨0#32, 0#32, 0#32, 0#32⟩
      ∧ (∀ o ∈ [0x40, 0x44, 0x48, 0x4C, 0x50, 0x54], registerWord r o = 0#32) ∧ registerWord r 0x00 = 0x4E430001#32
      ∧ (∀ o ∈ [0x58, 0x5C, 0x60, 0x64, 0x68, 0x6C, 0x70], ∀ s : State, s.inst = p → registerWord s o = registerWord r o)
      ∧ (∀ i, inWord r i = 0#32 ∧ outWord r i = 0#32)
      ∧ r.lcmd = 0#32 ∧ r.larg = ⟨0#32, 0#32, 0#32, 0#32⟩ ∧ r.lname = ⟨0#32, 0#32, 0#32, 0#32⟩ ∧ r.lctrl = 0#32
      ∧ r.cfg = false ∧ r.fs = 0 ∧ r.nch = 0 ∧ r.dlycap = 0 ∧ r.grain = 0 ∧ r.ringB = 0
      ∧ r.dlyl = List.replicate p.nDly ⟨0, [], 0⟩ ∧ r.prer = List.replicate p.maxCh ⟨p.preCap, [], 0⟩
      ∧ r.rev = List.replicate p.maxCh ⟨List.replicate 8 ⟨⟨0, [], 0⟩, 0#32⟩, List.replicate 4 ⟨0, [], 0⟩⟩
      ∧ r.gps = List.replicate p.maxCh ⟨[], 0, 0#32, 0#32, 0#32, 0#32⟩ ∧ r.win = []
      ∧ r.irvalid = false ∧ r.convN = 0 ∧ r.convH = 0 ∧ r.irLen = 0 ∧ r.conv = List.replicate p.maxCh ⟨[], [], [], 0, [], 0, 0⟩
      ∧ r.irsess = false ∧ r.lsrc = 0 ∧ r.fssrc = 0 ∧ r.ir = List.replicate p.maxCh ⟨[], 0⟩
      ∧ r.pst.length = p.pMax
      ∧ (∀ (e : Nat) (b : Builtin), (builtinTable p)[e]? = some b → r.pst[e]? = some ⟨true, b.name, b.rst, b.rst⟩)
      ∧ (∀ (e : Nat) (x : String × F32),
        [("mix", 0x3F000000#32), ("roomsize", 0x3F000000#32), ("damping", 0x3F000000#32), ("decay", 0x3F800000#32), ("pitch", 0x3F800000#32),
          ("predelay", 0#32), ("delaytime", 0#32), ("wetgain", 0x3F800000#32)][e]? = some x →
        r.pst[e]? = some ⟨true, x.1.toList.map fun c => BitVec.ofNat 8 c.toNat, x.2, x.2⟩)
      ∧ (∀ e, 8 ≤ e → e < p.pMax → r.pst[e]? = some ⟨false, [], 0#32, 0#32⟩) ∧ irq r = false

/-- 70_reset R510, R511: while `rst_n` is low reads return 0, writes are ignored and no command runs (one that was latched is discarded);
when it returns to 1 every piece of state has its reset value; SOFT_RESET gives the same with DONE = 1. And 70_reset R530 with
93_implementation_defined I5: after an access that `rst_n` cuts short and the rise every piece of state has its reset value too, and the cut
read has returned one word, the free value of log 5. The model's own choices in it: BUSY = 0 right after the fall (log 4), and that no reset
touches the schedule (log 2), the read log (log 3) and the free-value counter (log 5). -/
def Obligations.HardwareReset : Prop :=
  (∀ s u t : State, NextMove .rstLow s u → step s = .next t → t.inReset = true ∧ t.busy = false)
  ∧ (∀ (s u : State) (addr : BitVec 16), u.inReset = true → NextMove (.read addr) s u → step s = .next { u with reads := 0#32 :: u.reads })
  ∧ (∀ (s u : State) (addr : BitVec 16) (v : Word), u.inReset = true → NextMove (.write addr v) s u → step s = .next u)
  ∧ (∀ s u : State, u.inReset = true → EngineMove s u → step s = .next u)
  ∧ (∀ s u : State, u.inReset = true → NextMove .rstHigh s u →
    step s = .next { State.resetOf u.inst with schedule := u.schedule, reads := u.reads, freeCount := u.freeCount })
  ∧ (∀ s : State, exec .softReset s
      = .next { State.resetOf s.inst with done := true, schedule := s.schedule, reads := s.reads, freeCount := s.freeCount })
  ∧ (∀ (s u : State) (addr : BitVec 16), u.inReset = false → NextMove (.cutRead addr) s u →
    ∃ t, step s = .next t ∧ t.inReset = true ∧ t.inst = u.inst ∧ t.schedule = u.schedule
      ∧ t.reads = Config.interruptedRead u.freeCount :: u.reads ∧ t.freeCount = u.freeCount + 1)
  ∧ (∀ (s u : State) (addr : BitVec 16), u.inReset = true → NextMove (.cutRead addr) s u → step s = .next { u with reads := 0#32 :: u.reads })
  ∧ (∀ (s u : State) (addr : BitVec 16) (v : Word), NextMove (.cutWrite addr v) s u →
    ∃ t, step s = .next t ∧ t.inReset = true ∧ t.inst = u.inst ∧ t.schedule = u.schedule ∧ t.reads = u.reads ∧ t.freeCount = u.freeCount)
  ∧ (∀ (s : State) (addr : BitVec 16) (rest : List Turn), s.inReset = false → s.schedule = .cutRead addr :: .rstHigh :: rest →
    Host.Core.run Sys2Proof.core 2 s = .next { State.resetOf s.inst with
      schedule := rest, reads := Config.interruptedRead s.freeCount :: s.reads, freeCount := s.freeCount + 1 })
  ∧ ∀ (s : State) (addr : BitVec 16) (v : Word) (rest : List Turn), s.schedule = .cutWrite addr v :: .rstHigh :: rest →
      Host.Core.run Sys2Proof.core 2 s = .next { State.resetOf s.inst with schedule := rest, reads := s.reads, freeCount := s.freeCount }

/-! ### Control commands -/

/-- 40_control R180, R181: NOP changes BUSY and DONE and nothing else; SOFT_RESET leaves the reset values with STATUS = 0x00000004 and
CTRL = 0x00000001; each has one legal word. -/
def Obligations.NopAndSoftReset : Prop :=
  (∀ s : State, exec .nop s = .next { s with busy := false, done := true })
  ∧ decode 0x00000000#32 = .ok .nop
  ∧ (∀ w : Word, w.extractLsb' 24 8 = 0x00#8 → w ≠ 0#32 → ∃ e, decode w = .error e)
  ∧ (∀ s : State, ∃ t, exec .softReset s = .next t
    ∧ t = { State.resetOf s.inst with done := true, schedule := s.schedule, reads := s.reads, freeCount := s.freeCount }
    ∧ statusWord t = 0x00000004#32 ∧ t.ctrl = 0x00000001#32 ∧ registerWord t 0x40 = 0#32)
  ∧ decode 0x01000000#32 = .ok .softReset
  ∧ ∀ w : Word, w.extractLsb' 24 8 = 0x01#8 → w ≠ 0x01000000#32 → ∃ e, decode w = .error e

/-- 40_control R183, R184 and 43_reverb R300: CONFIG. Its refusals, and the whole state it leaves: every unit empty at the size that the
arguments give, the reverb lengths of R300, the Hann table, CFG = 1, and LEN_CLAMPED where a length was clamped. -/
def Obligations.ConfigCommand : Prop :=
  decode 0x02000000#32 = .ok .config
  ∧ (∀ s : State, s.cfg = true → exec .config s = .next (refusedState 0x05#8 s))
  ∧ ∀ (s : State) (fs c cap g : Nat), s.cfg = false → fs = s.larg.w0.toNat → c = s.larg.w1.toNat → cap = s.larg.w2.toNat →
      g = s.larg.w3.toNat →
      (¬(1 ≤ fs ∧ fs ≤ s.inst.fsMax ∧ 1 ≤ c ∧ c ≤ s.inst.maxCh ∧ 1 ≤ cap ∧ cap ≤ s.inst.dlyCapMax ∧ g % 2 = 0 ∧ 8 ≤ g
          ∧ g ≤ s.inst.gpsGMax) →
        exec .config s = .next (refusedState 0x04#8 s))
      ∧ (1 ≤ fs ∧ fs ≤ s.inst.fsMax ∧ 1 ≤ c ∧ c ≤ s.inst.maxCh ∧ 1 ≤ cap ∧ cap ≤ s.inst.dlyCapMax ∧ g % 2 = 0 ∧ 8 ≤ g
          ∧ g ≤ s.inst.gpsGMax →
        let rl (b ch : Nat) : Nat := (2 * (b + ch * s.inst.spread) * fs + s.inst.refRate) / (2 * s.inst.refRate)
        let len (ch b : Nat) : Nat := min (max (rl b ch) 1) s.inst.revCapMax
        ∃ (rv : List RevCh) (wn : Samples) (clamped : Bool),
          exec .config s = .next { s with
            busy := false
            done := true
            cfg := true
            fs := fs
            nch := c
            dlycap := cap
            grain := g
            ringB := 8 * g
            dlyl := List.replicate s.inst.maxCh ⟨cap, [], 0⟩
            prer := List.replicate s.inst.maxCh ⟨s.inst.preCap, [], 0⟩
            rev := rv
            win := wn
            gps := List.replicate s.inst.maxCh ⟨[], 0, F32.ofNat (7 * g), F32.ofNat (7 * g), 0#32, F32.ofNat (g / 2)⟩
            err := s.err || clamped
            errcode := if clamped then errcodeRecorded s (s.lcmd.extractLsb' 24 8) 0x0E#8 else s.errcode }
          ∧ rv.length = s.rev.length
          ∧ (∀ (ch : Nat) (r : RevCh), s.rev[ch]? = some r → rv[ch]? = some (if ch < c then
              ⟨s.inst.combBase.map fun b => ⟨⟨len ch b, [], 0⟩, 0#32⟩, s.inst.apBase.map fun b => ⟨len ch b, [], 0⟩⟩ else r))
          ∧ (∀ n, sparseGet wn n = if n < g then hannEntry g n else 0#32)
          ∧ (clamped = true ↔ ∃ ch < c, ∃ b ∈ s.inst.combBase ++ s.inst.apBase, rl b ch < 1 ∨ s.inst.revCapMax < rl b ch))

/-- 40_control R187, R188: CLEAR gives the selected units their start state and leaves everything else. -/
def Obligations.ClearCommand : Prop :=
  (∀ m : BitVec 5, decode (cmdw 0x03#8 0#4 (m.setWidth 16)) = .ok (.clear m))
  ∧ ∀ (m : BitVec 5) (s : State), exec (.clear m) s = .next { s with
      busy := false
      done := true
      dlyl := if m.getLsbD 0 ∧ s.cfg then s.dlyl.map fun d => ⟨d.cap, [], 0⟩ else s.dlyl
      prer := if m.getLsbD 1 then s.prer.map fun d => ⟨d.cap, [], 0⟩ else s.prer
      rev := if m.getLsbD 2 ∧ s.cfg then
          s.rev.mapIdx fun c r =>
            if c < s.nch then ⟨r.combs.map fun cb => ⟨⟨cb.db.cap, [], 0⟩, 0#32⟩, r.aps.map fun d => ⟨d.cap, [], 0⟩⟩ else r
        else s.rev
      gps := if m.getLsbD 3 ∧ s.cfg then
          s.gps.map fun _ => ⟨[], 0, F32.ofNat (s.ringB - s.grain), F32.ofNat (s.ringB - s.grain), 0#32, F32.ofNat (s.grain / 2)⟩
        else s.gps
      conv := if m.getLsbD 4 ∧ s.irvalid then s.conv.map fun v => ⟨v.specRe, v.specIm, [], 0, [], 0, s.convH⟩ else s.conv }

/-! ### The delay lines -/

/-- 42_delay_buffer R264: DLY_WRITE. -/
def Obligations.DlyWriteCommand : Prop :=
  (∀ k < 16, decode (cmdw 0x10#8 (BitVec.ofNat 4 k) 0#16) = .ok (.dlyWrite k))
  ∧ ∀ (k : Nat) (s : State),
    (s.cfg = false → exec (.dlyWrite k) s = .next (refusedState 0x03#8 s))
    ∧ (s.cfg = true → s.inst.nDly ≤ k → exec (.dlyWrite k) s = .next (refusedState 0x02#8 s))
    ∧ (∀ db : DelayBuf, s.cfg = true → k < s.inst.nDly → s.dlyl[k]? = some db →
      ∃ b : Samples, exec (.dlyWrite k) s
          = .next { s with busy := false, done := true, dlyl := s.dlyl.set k ⟨db.cap, b, (db.w + 1) % db.cap⟩ }
        ∧ ∀ j, sparseGet b j = if j = db.w then s.larg.w0 else sparseGet db.buf j)

/-- 42_delay_buffer R265: DLY_READ. -/
def Obligations.DlyReadCommand : Prop :=
  (∀ k < 16, decode (cmdw 0x11#8 (BitVec.ofNat 4 k) 0#16) = .ok (.dlyRead k))
  ∧ ∀ (k : Nat) (s : State),
    (s.cfg = false → exec (.dlyRead k) s = .next (refusedState 0x03#8 s))
    ∧ (s.cfg = true → s.inst.nDly ≤ k → exec (.dlyRead k) s = .next (refusedState 0x02#8 s))
    ∧ (∀ db : DelayBuf, s.cfg = true → k < s.inst.nDly → s.dlyl[k]? = some db →
      exec (.dlyRead k) s = .next { s with
        busy := false
        done := true
        res0 := sparseGet db.buf
          (((db.w : Int) - 1 - min (max s.larg.w0.toInt 0) ((db.cap : Int) - 1)) % (db.cap : Int)).toNat })

/-- 42_delay_buffer R266 with the interpolation of R262: DLY_READI. -/
def Obligations.DlyReadiCommand : Prop :=
  (∀ k < 16, decode (cmdw 0x12#8 (BitVec.ofNat 4 k) 0#16) = .ok (.dlyReadi k))
  ∧ ∀ (k : Nat) (s : State),
    (s.cfg = false → exec (.dlyReadi k) s = .next (refusedState 0x03#8 s))
    ∧ (s.cfg = true → s.inst.nDly ≤ k → exec (.dlyReadi k) s = .next (refusedState 0x02#8 s))
    ∧ (∀ db : DelayBuf, s.cfg = true → k < s.inst.nDly → s.dlyl[k]? = some db →
      let dc := F32.clamp s.larg.w0 0#32 (F32.ofNat (db.cap - 1))
      let i := F32.trunc dc
      let f := F32.sub dc (F32.ofNat i)
      let a := dbRead db i
      let b := dbRead db (i + 1)
      exec (.dlyReadi k) s = .next { s with
        busy := false
        done := true
        res0 := if F32.isZero f then a else F32.add a (F32.mul (F32.sub b a) f) })

/-- The sentence "Round trip: ..." of 42_delay_buffer section 3 (R267), which the spec marks as derived from R260 and R261: a buffer emptied
and written with `xs` reads at delay `d` the sample written `d` steps before the last, and +0.0 where there is none. -/
def Obligations.DelayRoundTrip : Prop :=
  ∀ (cap d : Nat) (xs : List F32), d < cap → dbRead (xs.foldl dbWrite (DelayBuf.empty cap)) d = xs.reverse.getD d 0#32

/-- The sentence "DB_ReadI at an integral delay ..." of 42_delay_buffer section 3 (R268), which the spec marks as derived from R262: at an
integral delay, −0.0 included, the interpolated read is the plain read, bit for bit. -/
def Obligations.IntegralDelay : Prop :=
  ∀ (db : DelayBuf) (d : Nat), db.cap ≤ 2 ^ 24 → d < db.cap →
    dbReadI db (F32.ofNat d) = dbRead db d ∧ dbReadI db 0x80000000#32 = dbRead db 0

/-! ### The reverb -/

/-- 43_reverb R302, R303, on a buffer whose cursor is inside it: the filters read the oldest sample, write over it and advance. -/
def Obligations.FilterSteps : Prop :=
  (∀ (k : RevCoeffs) (cb : Comb) (x : F32), cb.db.w < cb.db.cap →
    let d := sparseGet cb.db.buf cb.db.w
    let filt := F32.add (F32.mul d k.odk) (F32.mul cb.fst k.dk)
    ∃ b : Samples, combStep k cb x = (d, ⟨⟨cb.db.cap, b, (cb.db.w + 1) % cb.db.cap⟩, filt⟩)
      ∧ ∀ j, sparseGet b j = if j = cb.db.w then F32.add x (F32.mul filt k.fb) else sparseGet cb.db.buf j)
  ∧ ∀ (ab : DelayBuf) (y : F32), ab.w < ab.cap →
      let d := sparseGet ab.buf ab.w
      ∃ b : Samples, apStep ab y = (F32.add (F32.mul (F32.neg y) 0x3F000000#32) d, ⟨ab.cap, b, (ab.w + 1) % ab.cap⟩)
        ∧ ∀ j, sparseGet b j = if j = ab.w then F32.add y (F32.mul d 0x3F000000#32) else sparseGet ab.buf j

/-- 43_reverb R310 with R304 and R309: REV_STEP. The eight combs all take the input, their outputs are added in index order from +0.0 and
scaled by 0.125, and the allpass filters follow in series. -/
def Obligations.RevStepCommand : Prop :=
  (∀ c < 16, decode (cmdw 0x20#8 (BitVec.ofNat 4 c) 0#16) = .ok (.revStep c))
  ∧ ∀ (c : Nat) (s : State),
    (s.cfg = false → exec (.revStep c) s = .next (refusedState 0x03#8 s))
    ∧ (s.cfg = true → s.nch ≤ c → exec (.revStep c) s = .next (refusedState 0x02#8 s))
    ∧ (∀ r : RevCh, s.cfg = true → c < s.nch → s.rev[c]? = some r →
      let k := revCoeffs s
      let x := s.larg.w0
      let acc := (r.combs.map fun cb => (combStep k cb x).1).foldl F32.add 0#32
      let chain := r.aps.foldl (fun (o : F32 × List DelayBuf) ab => ((apStep ab o.1).1, o.2 ++ [(apStep ab o.1).2]))
        (F32.mul acc 0x3E000000#32, [])
      exec (.revStep c) s = .next { s with
        busy := false
        done := true
        res0 := chain.1
        rev := s.rev.set c ⟨r.combs.map fun cb => (combStep k cb x).2, chain.2⟩ })

/-- The sentence "For a comb of length L emptied ..." of 43_reverb section 5 (R312), which the spec marks as derived from R302 and
42_delay_buffer R261, and the corner case of R310: the output of an emptied comb of length L is +0.0 for L samples and then the first input
(−0.0 reads back as +0.0, a NaN as the canonical NaN of 00_scope R18); the first output of an emptied reverb is +0.0. -/
def Obligations.CombLag : Prop :=
  (∀ (k : RevCoeffs) (len : Nat) (x : F32) (xs : List F32), CoeffOk k.fb → CoeffOk k.dk → CoeffOk k.odk → 1 ≤ len →
    (∀ n < len, n < (x :: xs).length → (combOutputs k (Comb.empty len) (x :: xs))[n]? = some 0#32)
    ∧ (len < (x :: xs).length → (combOutputs k (Comb.empty len) (x :: xs))[len]?
        = some (if F32.isNaN x then 0x7FC00000#32 else if x = 0x80000000#32 then 0#32 else x)))
  ∧ ∀ (k : RevCoeffs) (r : RevCh) (x : F32), (∀ cb ∈ r.combs, cb.db.buf = []) → (∀ ab ∈ r.aps, ab.buf = []) → (revSample k r x).1 = 0#32

/-- 43_reverb R306, R307: the reverb coefficients from ROOM, DECAY, DAMP and the latched DAMPK; and the bounds behind
the stability sentence of section 5 (R311), which the spec marks as derived from R302, R306 and R307: fb in [0.1, 0.98] always,
dk in [0, 0.5] and odk in [0.5, 1] while the parameter store is in order. -/
def Obligations.ReverbCoefficients : Prop :=
  (∀ s : State,
    let dk := F32.mul (paramValue s 2) (if s.lctrl.getLsbD 4 then 0x3F000000#32 else 0x3ECCCCCD#32)
    revCoeffs s = ⟨F32.clamp (F32.mul (F32.add 0x3E8F5C29#32 (F32.mul (paramValue s 1) 0x3F333333#32)) (paramValue s 3)) 0x3DCCCCCD#32
      0x3F7AE148#32, dk, F32.sub 0x3F800000#32 dk⟩)
  ∧ (∀ s : State, F32.ge (revCoeffs s).fb 0x3DCCCCCD#32 = true ∧ F32.ge 0x3F7AE148#32 (revCoeffs s).fb = true)
  ∧ ∀ s : State, StoreInv s →
      F32.ge (revCoeffs s).dk 0#32 = true ∧ F32.ge 0x3F000000#32 (revCoeffs s).dk = true
        ∧ F32.ge (revCoeffs s).odk 0x3F000000#32 = true ∧ F32.ge 0x3F800000#32 (revCoeffs s).odk = true

/-! ### The pitch shifter -/

/-- 44_pitch_shifter R345 with R344: GPS_STEP, in the order of the pseudocode. -/
def Obligations.GpsStepCommand : Prop :=
  (∀ c < 16, decode (cmdw 0x30#8 (BitVec.ofNat 4 c) 0#16) = .ok (.gpsStep c))
  ∧ ∀ (c : Nat) (s : State),
    (s.cfg = false → exec (.gpsStep c) s = .next (refusedState 0x03#8 s))
    ∧ (s.cfg = true → s.nch ≤ c → exec (.gpsStep c) s = .next (refusedState 0x02#8 s))
    ∧ (∀ g : GpsCh, s.cfg = true → c < s.nch → s.gps[c]? = some g →
      let r := paramValue s 4
      let ring := sparseSet g.ring g.gw s.larg.w0
      let gw := (g.gw + 1) % s.ringB
      let s1 := F32.mul (sparseGet ring (F32.trunc g.rp1)) (sparseGet s.win (F32.trunc g.ph1))
      let s2 := F32.mul (sparseGet ring (F32.trunc g.rp2)) (sparseGet s.win (F32.trunc g.ph2))
      let anchor := F32.ofNat ((gw + s.ringB - s.grain) % s.ringB)
      let p1 := F32.add g.rp1 r
      let q1 := if F32.ge p1 (F32.ofNat s.ringB) then F32.sub p1 (F32.ofNat s.ringB) else p1
      let p2 := F32.add g.rp2 r
      let q2 := if F32.ge p2 (F32.ofNat s.ringB) then F32.sub p2 (F32.ofNat s.ringB) else p2
      let h1 := F32.add g.ph1 r
      let h2 := F32.add g.ph2 r
      let wrap1 := F32.ge h1 (F32.ofNat s.grain)
      let wrap2 := F32.ge h2 (F32.ofNat s.grain)
      exec (.gpsStep c) s = .next { s with
        busy := false
        done := true
        res0 := F32.mul (F32.add s1 s2) 0x3F000000#32
        gps := s.gps.set c ⟨ring, gw, if wrap1 then anchor else q1, if wrap2 then anchor else q2,
          if wrap1 then F32.sub h1 (F32.ofNat s.grain) else h1, if wrap2 then F32.sub h2 (F32.ofNat s.grain) else h2⟩ })

/-- The sentence "With r = 1.0 both grains ..." of 44_pitch_shifter section 4 (R348), which the spec marks as derived from R342 and R344: at
the ratio 1.0, from the start state, the output at sample n is the sample G samples before, through the two
windows half a grain apart, halved; it is +0.0 for the first G samples. -/
def Obligations.GpsUnityPitch : Prop :=
  ∀ (g : Nat) (xs : List F32) (n : Nat), g % 2 = 0 → 8 ≤ g → g ≤ 2 ^ 13 → n < xs.length →
    (gpsOutputs g (8 * g) (windowTable g) 0x3F800000#32 (gpsStart g (8 * g)) xs)[n]? =
      some (if n < g then 0#32
        else F32.mul (F32.add (F32.mul (xs.getD (n - g) 0#32) (hannEntry g (n % g)))
          (F32.mul (xs.getD (n - g) 0#32) (hannEntry g ((n % g + g / 2) % g)))) 0x3F000000#32)

/-! ### The constant tables -/

/-- 44_pitch_shifter R341 and 45_convolution R381: the exact entries of the Hann window and of the twiddles, the window's range and symmetry,
and that a table of a multiple of the size holds the same twiddles at that stride. -/
def Obligations.ConstantTables : Prop :=
  (∀ g : Nat, g % 2 = 0 → 8 ≤ g →
    hannEntry g 0 = 0#32 ∧ hannEntry g (g / 2) = 0x3F800000#32
    ∧ (g % 4 = 0 → hannEntry g (g / 4) = 0x3F000000#32 ∧ hannEntry g (3 * g / 4) = 0x3F000000#32)
    ∧ (∀ n < g, F32.ge (hannEntry g n) 0#32 = true ∧ F32.ge 0x3F800000#32 (hannEntry g n) = true)
    ∧ ∀ n, 1 ≤ n → n < g → hannEntry g (g - n) = hannEntry g n)
  ∧ (∀ n : Nat, 2 ≤ n → twiddleCos n 0 = 0x3F800000#32 ∧ twiddleSin n 0 = 0#32)
  ∧ (∀ n : Nat, 4 ≤ n → n % 4 = 0 → twiddleCos n (n / 4) = 0#32 ∧ twiddleSin n (n / 4) = 0x3F800000#32)
  ∧ ∀ n t k : Nat, 1 ≤ n → 1 ≤ k → twiddleCos (n * k) (t * k) = twiddleCos n t ∧ twiddleSin (n * k) (t * k) = twiddleSin n t

/-- 45_convolution R381, 44_pitch_shifter R341: the fixed-point cosine and sine behind the tables lie within 2^-64 of the exact reals, on
every angle that a table uses. The fixed-point form is the model's (log 6). -/
def Obligations.TrigAccuracy : Prop :=
  (∀ t n : Nat, 1 ≤ n → t ≤ n → |(cosTurns t n : ℝ) / 2 ^ 128 - Real.cos (2 * Real.pi * t / n)| ≤ 1 / 2 ^ 64)
  ∧ ∀ t n : Nat, 1 ≤ n → 2 * t ≤ n → |(sinTurns t n : ℝ) / 2 ^ 128 - Real.sin (2 * Real.pi * t / n)| ≤ 1 / 2 ^ 64

/-! ### The convolution engine -/

/-- 45_convolution R380: N is the smallest power of two ≥ 2·M and ≥ 2, the hop holds the impulse response, and N fits the instance. -/
def Obligations.FftSize : Prop :=
  ∀ m : Nat, 1 ≤ m →
    (∃ l, fftSize m = 2 ^ l) ∧ 2 * m ≤ fftSize m ∧ 2 ≤ fftSize m ∧ (∀ l, 2 * m ≤ 2 ^ l → 2 ≤ 2 ^ l → fftSize m ≤ 2 ^ l)
      ∧ m ≤ fftSize m / 2 ∧ fftSize m / 2 + m - 1 ≤ fftSize m - 1 ∧ fftSize m = 2 * (fftSize m / 2)
      ∧ ∀ l, 1 ≤ l → m ≤ 2 ^ l / 2 → fftSize m ≤ 2 ^ l

/-- 45_convolution R394, R395, R396 with the block of R385: CONV_STEP. Without an impulse response the output is +0.0 and nothing
changes; with one, the sample is read, cleared and replaced, and the sample that completes a hop adds the block transform to the ring. What
`fft` computes is R382 (`IsFft`) with the twiddles of R381, whose values are the model's fixed-point form (log 6, DEDUCED); what the block
transform computes is R385 with the product of R383, and the scale 1/N is exact (R383). -/
def Obligations.ConvStepCommand : Prop :=
  (∀ c < 16, decode (cmdw 0x40#8 (BitVec.ofNat 4 c) 0#16) = .ok (.convStep c))
  ∧ (∀ (c : Nat) (s : State),
    (s.cfg = false → exec (.convStep c) s = .next (refusedState 0x03#8 s))
    ∧ (s.cfg = true → s.nch ≤ c → exec (.convStep c) s = .next (refusedState 0x02#8 s))
    ∧ (s.cfg = true → c < s.nch → s.irvalid = false → exec (.convStep c) s = .next { s with busy := false, done := true, res0 := 0#32 })
    ∧ (∀ v : ConvCh, s.cfg = true → c < s.nch → s.irvalid = true → s.conv[c]? = some v →
      let v1 : ConvCh := { v with
        out := sparseSet v.out v.rd 0#32
        rd := (v.rd + 1) % (2 * s.convN)
        inb := sparseSet v.inb v.ip s.larg.w0
        ip := v.ip + 1 }
      (v.ip + 1 ≠ s.convH →
        exec (.convStep c) s = .next { s with busy := false, done := true, res0 := sparseGet v.out v.rd, conv := s.conv.set c v1 })
      ∧ (v.ip + 1 = s.convH → 1 ≤ s.convN → sparseWf v.out = true → sparseBelow (2 * s.convN) v.out = true →
        ∃ out : Samples,
          exec (.convStep c) s = .next { s with
            busy := false
            done := true
            res0 := sparseGet v.out v.rd
            conv := s.conv.set c { v1 with out := out, wr := (v.wr + s.convH) % (2 * s.convN), ip := 0 } }
          ∧ (∀ j < s.convN, sparseGet out ((v.wr + j) % (2 * s.convN))
              = F32.add (sparseGet v1.out ((v.wr + j) % (2 * s.convN)))
                  (F32.mul ((convTransform s.convN s.convH v1).getD j (0#32, 0#32)).1 (F32.rnd32 1 s.convN)))
          ∧ ∀ q, (∀ j < s.convN, q ≠ (v.wr + j) % (2 * s.convN)) → sparseGet out q = sparseGet v1.out q)))
  ∧ (∀ (inverse : Bool) (l : Nat) (a : Array Cplx), a.size = 2 ^ l → IsFft inverse l a (fft inverse (2 ^ l) a))
  ∧ (∀ (l h : Nat) (v : ConvCh), h ≤ 2 ^ l → sparseWf v.inb = true → sparseWf v.specRe = true → sparseWf v.specIm = true →
    ∃ p q r : Array Cplx,
      (∀ i < 2 ^ l, p[i]? = some (if i < h then sparseGet v.inb i else 0#32, 0#32))
      ∧ IsFft false l p q
      ∧ (∀ k < 2 ^ l,
        let a := q.getD k (0#32, 0#32)
        let b := (sparseGet v.specRe k, sparseGet v.specIm k)
        r[k]? = some (F32.sub (F32.mul a.1 b.1) (F32.mul a.2 b.2), F32.add (F32.mul a.1 b.2) (F32.mul a.2 b.1)))
      ∧ IsFft true l r (convTransform (2 ^ l) h v))
  ∧ ∀ l ≤ 20, F32.rnd32 1 (2 ^ l) = BitVec.ofNat 32 ((127 - l) * 2 ^ 23)
      ∧ ∀ x : F32, F32.isFinite x = true → F32.fix x = 0 ∨ 2 ^ (23 + l) ≤ (F32.fix x).natAbs →
        F32.fix (F32.mul x (F32.rnd32 1 (2 ^ l))) * 2 ^ l = F32.fix x

/-- The sentence "the first H outputs after a commit are +0.0" of 45_convolution section 3 (R388), which the spec marks as derived from R380,
R385, R387 and R394: after a commit or a CLEAR the first H outputs of a channel are +0.0, whatever the
input and the spectrum. -/
def Obligations.FirstHopSilent : Prop :=
  ∀ (h : Nat) (v : ConvCh) (xs : List F32) (m : Nat), 1 ≤ h → m < h → m < xs.length →
    (convOutputs (2 * h) h (ringsEmptied h v) xs)[m]? = some 0#32

/-- 45_convolution R391: IR_BEGIN. -/
def Obligations.IrBeginCommand : Prop :=
  decode 0x41000000#32 = .ok .irBegin
  ∧ ∀ s : State,
    (s.cfg = false → exec .irBegin s = .next (refusedState 0x03#8 s))
    ∧ (s.cfg = true → s.larg.w0.toNat < 1 ∨ s.inst.irRawMax < s.larg.w0.toNat ∨ s.larg.w1.toNat < 1 ∨ s.inst.fsMax < s.larg.w1.toNat →
      exec .irBegin s = .next (refusedState 0x0A#8 s))
    ∧ (s.cfg = true → 1 ≤ s.larg.w0.toNat → s.larg.w0.toNat ≤ s.inst.irRawMax → 1 ≤ s.larg.w1.toNat → s.larg.w1.toNat ≤ s.inst.fsMax →
      exec .irBegin s = .next { s with
        busy := false
        done := true
        irsess := true
        lsrc := s.larg.w0.toNat
        fssrc := s.larg.w1.toNat
        ir := List.replicate s.inst.maxCh ⟨[], 0⟩ })

/-- 45_convolution R392: IR_PUSH. -/
def Obligations.IrPushCommand : Prop :=
  (∀ c < 16, decode (cmdw 0x42#8 (BitVec.ofNat 4 c) 0#16) = .ok (.irPush c))
  ∧ ∀ (c : Nat) (s : State),
    (s.cfg = false → exec (.irPush c) s = .next (refusedState 0x03#8 s))
    ∧ (s.cfg = true → s.nch ≤ c → exec (.irPush c) s = .next (refusedState 0x02#8 s))
    ∧ (s.cfg = true → c < s.nch → s.irsess = false → exec (.irPush c) s = .next (refusedState 0x05#8 s))
    ∧ (∀ r : IrCh, s.cfg = true → c < s.nch → s.irsess = true → s.ir[c]? = some r → s.lsrc ≤ r.cnt →
      exec (.irPush c) s = .next { s with
        busy := false, done := true, err := true, errcode := errcodeRecorded s (s.lcmd.extractLsb' 24 8) 0x0B#8 })
    ∧ (∀ r : IrCh, s.cfg = true → c < s.nch → s.irsess = true → s.ir[c]? = some r → r.cnt < s.lsrc →
      ∃ raw : Samples, exec (.irPush c) s = .next { s with busy := false, done := true, ir := s.ir.set c ⟨raw, r.cnt + 1⟩ }
        ∧ ∀ j, sparseGet raw j = if j = r.cnt then s.larg.w0 else sparseGet r.raw j)

/-- 45_convolution R393 with R382, R384, R387, R390: IR_COMMIT. N and M, the spectra of the resampled responses (the forward transform of
R382, `IsFft`, with the twiddles in the model's fixed-point form, log 6, DEDUCED, of the response padded with zeros to N), the empty
rings, the flags and results, and the two warnings in order. What `resampled` computes is the statement `Resampling`. -/
def Obligations.IrCommitCommand : Prop :=
  decode 0x43000000#32 = .ok .irCommit
  ∧ ∀ s : State,
    (s.cfg = false → exec .irCommit s = .next (refusedState 0x03#8 s))
    ∧ (s.cfg = true → s.irsess = false → exec .irCommit s = .next (refusedState 0x05#8 s))
    ∧ (s.cfg = true → s.irsess = true → ∀ (m0 m n : Nat) (short : Bool),
      m0 = (s.lsrc - 1) * s.fs / s.fssrc + 1 → m = min m0 (s.inst.convNMax / 2) → n = fftSize m →
      (short = true ↔ ∃ c < s.nch, (irAt s c).cnt < s.lsrc) →
      ∃ (cv : List ConvCh) (e1 e2 : Word),
        e1 = (if short then errcodeRecorded s (s.lcmd.extractLsb' 24 8) 0x0C#8 else s.errcode)
        ∧ e2 = (if m < m0 then errcodeRecorded { s with err := s.err || short, errcode := e1 } (s.lcmd.extractLsb' 24 8) 0x0D#8 else e1)
        ∧ exec .irCommit s = .next { s with
            busy := false
            done := true
            irvalid := true
            irsess := false
            convN := n
            convH := n / 2
            irLen := m
            conv := cv
            res0 := BitVec.ofNat 32 n
            res1 := BitVec.ofNat 32 m
            err := s.err || short || decide (m < m0)
            errcode := e2 }
        ∧ cv.length = s.inst.maxCh
        ∧ ∀ (c : Nat) (v : ConvCh), cv[c]? = some v →
            v.inb = [] ∧ v.ip = 0 ∧ v.out = [] ∧ v.rd = 0 ∧ v.wr = n / 2
            ∧ (s.nch ≤ c → v.specRe = [] ∧ v.specIm = [])
            ∧ (c < s.nch → ∃ (l : Nat) (p z : Array Cplx), n = 2 ^ l
              ∧ (∀ i < n, p[i]? = some (if i < m then (resampled s.lsrc s.fssrc s.fs m (irAt s c).raw).getD i 0#32 else 0#32, 0#32))
              ∧ IsFft false l p z
              ∧ ∀ j, sparseGet v.specRe j = (z.getD j (0#32, 0#32)).1 ∧ sparseGet v.specIm j = (z.getD j (0#32, 0#32)).2))

/-- 45_convolution R390: the last resampled sample lies at or before the last raw sample; every resampled sample is the raw sample at its
place, bit for bit, or the interpolation between it and the next one; and with FSSRC = FS the resampled response is a bit copy of the raw
one. -/
def Obligations.Resampling : Prop :=
  (∀ l r f j : Nat, 1 ≤ l → 1 ≤ r → 1 ≤ f → j < resampledLength l r f → j * r / f ≤ l - 1)
  ∧ (∀ (l r f m j : Nat) (raw : Samples), 1 ≤ l → 1 ≤ r → 1 ≤ f → sparseWf raw = true → sparseBelow l raw = true →
    m ≤ resampledLength l r f → j < m →
      let num := j * r
      let i := num / f
      let frac := F32.rnd32 (num % f) f
      let a := sparseGet raw i
      let b := sparseGet raw (min (i + 1) (l - 1))
      (resampled l r f m raw).length = m
        ∧ (resampled l r f m raw)[j]? = some (if frac = 0#32 then a else F32.add a (F32.mul (F32.sub b a) frac)))
  ∧ ∀ (l f : Nat) (raw : Samples), 1 ≤ l → 1 ≤ f → sparseWf raw = true → sparseBelow l raw = true →
      resampledLength l f f = l ∧ ∀ m ≤ l, resampled l f f m raw = (List.range m).map (sparseGet raw)

/-! ### The parameter store -/

/-- 46_parameter_store R432 and 10_state R49: two names match when they are equal up to the case of ASCII letters, matching names are
looked up alike, and the name of the registers is their bytes before the first 0x00, at most 16. -/
def Obligations.NameMatching : Prop :=
  (∀ a b : Name8, namesMatch a b = true ↔ a.length = b.length ∧ ∀ (i : Nat) (x y : Byte), a[i]? = some x → b[i]? = some y →
    (if 0x41 ≤ x.toNat ∧ x.toNat ≤ 0x5A then x.toNat + 0x20 else x.toNat) = (if 0x41 ≤ y.toNat ∧ y.toNat ≤ 0x5A then y.toNat + 0x20 else y.toNat))
  ∧ (∀ (s : State) (a b : Name8), namesMatch a b = true → lookupName s.pst a = lookupName s.pst b)
  ∧ (∀ (s : State) (n : Name8), (∀ e, lookupName s.pst n = some e ↔ ∃ x, FirstMatch s n e x) ∧ (lookupName s.pst n = none ↔ NoMatch s n))
  ∧ ∀ q : Quad, (nameOf q).length ≤ 16 ∧ ∀ k < 16, ∀ w : Word, [q.w0, q.w1, q.w2, q.w3][k / 4]? = some w →
      (k < (nameOf q).length → (nameOf q)[k]? = some (w.extractLsb' (8 * (k % 4)) 8) ∧ w.extractLsb' (8 * (k % 4)) 8 ≠ 0#8)
      ∧ (k = (nameOf q).length → w.extractLsb' (8 * (k % 4)) 8 = 0#8)

/-- 46_parameter_store R442: P_GET. -/
def Obligations.ParameterGet : Prop :=
  decode 0x52000000#32 = .ok .pGet
  ∧ ∀ s : State,
    (nameOf s.lname = [] ∨ NoMatch s (nameOf s.lname) →
      exec .pGet s = .next { s with busy := false, done := true, res0 := 0#32, res1 := 0#32 })
    ∧ ∀ (e : Nat) (x : PEntry), nameOf s.lname ≠ [] → FirstMatch s (nameOf s.lname) e x →
      exec .pGet s = .next { s with busy := false, done := true, res0 := x.value, res1 := BitVec.ofNat 32 (1 + 256 * e) }

/-- 46_parameter_store R440, R441 with R434 to R437: P_REGISTER and P_SET, on the empty name, on a name in the table, on a new name, and on
a new name with no free entry; and what storing does to the value. -/
def Obligations.ParameterWrite : Prop :=
  decode 0x50000000#32 = .ok .pRegister ∧ decode 0x51000000#32 = .ok .pSet
  ∧ (∀ (p : Params) (v : F32),
    storedValue p 0 v = F32.clamp v 0#32 0x3F800000#32 ∧ storedValue p 1 v = F32.clamp v 0#32 0x3F800000#32
    ∧ storedValue p 2 v = F32.clamp v 0#32 0x3F800000#32 ∧ storedValue p 3 v = F32.clamp v 0#32 0x40000000#32
    ∧ storedValue p 4 v = F32.clamp v 0x3E800000#32 0x40800000#32 ∧ storedValue p 5 v = F32.clamp v 0#32 (F32.ofNat (p.preCap - 1))
    ∧ storedValue p 6 v = F32.clamp v 0#32 0x4B7FFFFF#32 ∧ storedValue p 7 v = F32.clamp v 0xC1800000#32 0x41800000#32
    ∧ ∀ e, 8 ≤ e → storedValue p e v = v)
  ∧ ∀ (register : Bool) (i : Instr) (s : State), i = (if register then .pRegister else .pSet) →
    (nameOf s.lname = [] → exec i s = .next { s with busy := false, done := true, res0 := 0#32, res1 := 0#32 })
    ∧ (∀ (e : Nat) (x : PEntry), nameOf s.lname ≠ [] → FirstMatch s (nameOf s.lname) e x →
      let v := storedValue s.inst e s.larg.w0
      exec i s = .next { s with
        busy := false
        done := true
        res0 := v
        res1 := BitVec.ofNat 32 (1 + 256 * e)
        pchg := true
        pchgIdx := BitVec.ofNat 8 e
        pst := s.pst.set e { x with value := v, dflt := if register then v else x.dflt } })
    ∧ (∀ e : Nat, nameOf s.lname ≠ [] → NoMatch s (nameOf s.lname) → FirstFree s e →
      exec i s = .next { s with
        busy := false
        done := true
        res0 := s.larg.w0
        res1 := BitVec.ofNat 32 (3 + 256 * e)
        pchg := true
        pchgIdx := BitVec.ofNat 8 e
        pst := s.pst.set e ⟨true, nameOf s.lname, s.larg.w0, if register then s.larg.w0 else 0#32⟩ })
    ∧ (nameOf s.lname ≠ [] → NoMatch s (nameOf s.lname) → StoreFull s →
      exec i s = .next { s with
        busy := false
        done := true
        res0 := 0#32
        res1 := 0#32
        err := true
        errcode := errcodeRecorded s (s.lcmd.extractLsb' 24 8) 0x09#8 })

/-- The sentence "The source's tested properties hold" of 46_parameter_store section 3 (R443), which the spec marks as derived from R432, R440,
R441 and R442: after a P_REGISTER or P_SET that found or made an entry, P_GET of the name, in any case of its letters, returns
the stored value and the same index. -/
def Obligations.ParameterRoundTrip : Prop :=
  ∀ (i : Instr) (s t : State) (q : Quad), i = .pRegister ∨ i = .pSet → exec i s = .next t → nameOf s.lname ≠ [] →
    t.res1.getLsbD 0 = true → namesMatch (nameOf s.lname) (nameOf q) = true →
    ∃ u, exec .pGet { t with lname := q, busy := true } = .next u ∧ u.res0 = t.res0 ∧ u.res1.getLsbD 0 = true
      ∧ u.res1.getLsbD 1 = false ∧ u.res1.extractLsb' 8 8 = t.res1.extractLsb' 8 8 ∧ u.pst = t.pst

/-! ### The effect path -/

/-- 41_effect_contract R227, R228, R229: the wet stages, and the state that each advances. -/
def Obligations.WetStages : Prop :=
  ∀ (k : BlockCoeffs) (ch : Nat) (x : F32) (s : State),
    let line := dbWrite (lineAt s ch) x
    let pre := dbWrite (preAt s ch) x
    (k.ws = 0 → wetStage k ch x s = (x, s))
    ∧ (k.ws = 1 → wetStage k ch x s = (F32.mul x k.wg, s))
    ∧ (k.ws = 2 → wetStage k ch x s = (dbReadI line k.dt, { s with dlyl := s.dlyl.set ch line }))
    ∧ (k.ws = 3 → wetStage k ch x s = ((revSample k.rev (revAt s ch) (dbRead pre k.pd)).1,
        { s with prer := s.prer.set ch pre, rev := s.rev.set ch (revSample k.rev (revAt s ch) (dbRead pre k.pd)).2 }))
    ∧ (k.ws = 4 → wetStage k ch x s = ((gpsSample s.grain s.ringB s.win (gpsAt s ch) x k.r).1,
        { s with gps := s.gps.set ch (gpsSample s.grain s.ringB s.win (gpsAt s ch) x k.r).2 }))
    ∧ (k.ws = 5 → wetStage k ch x s = ((convSample s.irvalid s.convN s.convH (convAt s ch) (dbRead pre k.pd)).1,
        { s with prer := s.prer.set ch pre
                 conv := s.conv.set ch (convSample s.irvalid s.convN s.convH (convAt s ch) (dbRead pre k.pd)).2 }))

/-- 41_effect_contract R222 with R221, R223, R224, R225, R230: PROC_BLOCK. Its range and warning; the bypass copy; and with EN = 1 the samples
in increasing index, sample j of the block belonging to channel j mod C, each read from IN, sent once through its channel's stage, mixed and
written to OUT. -/
def Obligations.ProcBlockCommand : Prop :=
  decode 0x60000000#32 = .ok .procBlock
  ∧ (∀ s : State, s.cfg = false → exec .procBlock s = .next (refusedState 0x03#8 s))
  ∧ ∀ (s w : State) (off cnt n : Nat), s.cfg = true → 1 ≤ s.nch → s.inst.iobufLen ≤ 4096 → off = s.larg.w0.toNat → cnt = s.larg.w1.toNat →
      n = (if s.inst.iobufLen ≤ off then 0 else min cnt (s.inst.iobufLen - off) - min cnt (s.inst.iobufLen - off) % s.nch) →
      w = (if n = cnt then s else { s with err := true, errcode := errcodeRecorded s (s.lcmd.extractLsb' 24 8) 0x08#8 }) →
      (s.lctrl.getLsbD 0 = false →
        ∃ m : Memory, exec .procBlock s = .next { w with busy := false, done := true, res0 := BitVec.ofNat 32 n, mem := m }
          ∧ (∀ a, ¬outBytes off n a → readByte m a = readByte s.mem a)
          ∧ ∀ a, outBytes off n a → readByte m a = readByte s.mem (a - 0x4000))
      ∧ (s.lctrl.getLsbD 0 = true →
        let rev : RevCoeffs := revCoeffs s
        let mix := paramValue s 0
        let k : BlockCoeffs := ⟨mix, F32.sub 0x3F800000#32 mix, rev, paramValue s 4, F32.trunc (paramValue s 5), paramValue s 6,
          paramValue s 7, (s.lctrl.extractLsb' 1 3).toNat⟩
        exec .procBlock s = .next { (List.range n).foldl (fun t j =>
            let x := inWord t (off + j)
            let o := wetStage k (j % s.nch) x t
            { o.2 with mem := writeWord o.2.mem (0x8000 + 4 * (off + j)) (F32.add (F32.mul x k.om) (F32.mul o.1 k.mix)) }) w
          with busy := false, done := true, res0 := BitVec.ofNat 32 n })

/-- 41_effect_contract R220, R225 and the frame of R227: with EN = 1 and WETSEL = IDENT or GAIN, PROC_BLOCK mixes word by word, writes the OUT
words of its range and no other byte, and changes no unit. -/
def Obligations.ProcMix : Prop :=
  ∀ (s w : State) (off cnt n : Nat), s.cfg = true → 1 ≤ s.nch → s.inst.iobufLen ≤ 4096 → off = s.larg.w0.toNat → cnt = s.larg.w1.toNat →
    n = (if s.inst.iobufLen ≤ off then 0 else min cnt (s.inst.iobufLen - off) - min cnt (s.inst.iobufLen - off) % s.nch) →
    w = (if n = cnt then s else { s with err := true, errcode := errcodeRecorded s (s.lcmd.extractLsb' 24 8) 0x08#8 }) →
    s.lctrl.getLsbD 0 = true → s.lctrl.extractLsb' 1 3 = 0#3 ∨ s.lctrl.extractLsb' 1 3 = 1#3 →
    ∃ m : Memory, exec .procBlock s = .next { w with busy := false, done := true, res0 := BitVec.ofNat 32 n, mem := m }
      ∧ (∀ a, ¬outBytes off n a → readByte m a = readByte s.mem a)
      ∧ ∀ j < n,
          let x := readWord s.mem (0x4000 + 4 * (off + j))
          let wet := if s.lctrl.extractLsb' 1 3 = 0#3 then x else F32.mul x (paramValue s 7)
          readWord m (0x8000 + 4 * (off + j)) = F32.add (F32.mul x (F32.sub 0x3F800000#32 (paramValue s 0))) (F32.mul wet (paramValue s 0))

/-- The frame of PROC_BLOCK (41_effect_contract R220, R227): no byte outside the OUT words of its range changes, and of the units only those of
the selected wet stage do. -/
def Obligations.ProcFrame : Prop :=
  ∀ (s t : State) (ws : Nat), exec .procBlock s = .next t → ws = (s.lctrl.extractLsb' 1 3).toNat →
    (∀ a, ¬outBytes s.larg.w0.toNat (adjustedCount s.inst.iobufLen s.nch s.larg.w0.toNat s.larg.w1.toNat) a →
      readByte t.mem a = readByte s.mem a)
    ∧ (¬(s.lctrl.getLsbD 0 = true ∧ ws = 2) → t.dlyl = s.dlyl)
    ∧ (¬(s.lctrl.getLsbD 0 = true ∧ (ws = 3 ∨ ws = 5)) → t.prer = s.prer)
    ∧ (¬(s.lctrl.getLsbD 0 = true ∧ ws = 3) → t.rev = s.rev)
    ∧ (¬(s.lctrl.getLsbD 0 = true ∧ ws = 4) → t.gps = s.gps)
    ∧ (¬(s.lctrl.getLsbD 0 = true ∧ ws = 5) → t.conv = s.conv)

/-- The sentence "Mix boundaries: ..." of 41_effect_contract section 3 (R233), which the spec marks as derived from R225 and R17: the
mix law at mix = 0 and mix = 1, for a dry or wet sample that is no NaN ("negative" is the sign bit). The clause at mix = −0.0, where R225
and R233 differ, is the model's choice to follow R225 (log 16, DESIGN CHOICE). -/
def Obligations.MixBoundaries : Prop :=
  ∀ (k : BlockCoeffs) (x w : F32), k.om = F32.sub 0x3F800000#32 k.mix →
    (k.mix = 0#32 → F32.isNaN x = false →
      mixSample k x w = if F32.isFinite w = false then 0x7FC00000#32
        else if x = 0x80000000#32 ∧ F32.sign w = false then 0#32 else x)
    ∧ (k.mix = 0x80000000#32 → F32.isNaN x = false →
      mixSample k x w = if F32.isFinite w = false then 0x7FC00000#32
        else if x = 0x80000000#32 ∧ F32.sign w = true then 0#32 else x)
    ∧ (k.mix = 0x3F800000#32 → F32.isNaN w = false →
      mixSample k x w = if F32.isFinite x = false then 0x7FC00000#32
        else if w = 0x80000000#32 ∧ F32.sign x = false then 0#32 else w)

/-! ### Arithmetic -/

/-- 00_scope R19: `clamp` and `clampi`; the result of `clamp` lies in the range. -/
def Obligations.ClampRange : Prop :=
  (∀ x lo hi : F32, F32.isNaN lo = false → F32.isNaN hi = false → F32.ge hi lo = true →
    (F32.isNaN x = true → F32.clamp x lo hi = lo) ∧ (F32.lt x lo = true → F32.clamp x lo hi = lo)
    ∧ (F32.lt hi x = true → F32.clamp x lo hi = hi) ∧ (F32.ge x lo = true → F32.ge hi x = true → F32.clamp x lo hi = x)
    ∧ F32.ge (F32.clamp x lo hi) lo = true ∧ F32.ge hi (F32.clamp x lo hi) = true)
  ∧ ∀ n lo hi : Int, clampi n lo hi = min (max n lo) hi

/-- 00_scope R15, R17, R18, R20: what the words mean and what the operations give. A finite word is the number of units of 2^-149 that its
sign, exponent and fraction say. `add`, `sub`, `mul` and `div` of finite values are the exact result rounded to nearest, ties to even, with
overflow to the infinity of the exact sign and the IEEE signs of zero; infinite operands give what IEEE 754 says; every operation with a NaN
operand gives the canonical NaN. `rnd32` rounds in the same way, `float` is exact below 2^24, `trunc` is the largest integer at or below, and
the comparisons are those of the values. -/
def Obligations.FloatNearestEven : Prop :=
  (∀ a : F32,
    let e := (a.extractLsb' 23 8).toNat
    let f := (a.extractLsb' 0 23).toNat
    (F32.isFinite a = true ↔ e ≠ 255) ∧ (F32.isInf a = true ↔ e = 255 ∧ f = 0) ∧ (F32.isNaN a = true ↔ e = 255 ∧ f ≠ 0)
      ∧ F32.fix a = (if a.getLsbD 31 then -1 else 1) * ((if e = 0 then f else (2 ^ 23 + f) * 2 ^ (e - 1) : Nat) : Int)
      ∧ F32.sign a = a.getLsbD 31 ∧ F32.fraction a = f ∧ (F32.isZero a = true ↔ a = 0#32 ∨ a = 0x80000000#32))
  ∧ (∀ a b : F32, F32.isFinite a = true → F32.isFinite b = true →
    ((F32.fix a + F32.fix b).natAbs < overflowFrom →
      IsNearestEven (F32.add a b) (F32.fix a + F32.fix b) 1
        ∧ (F32.fix a + F32.fix b = 0 → F32.add a b = if F32.sign a && F32.sign b then 0x80000000#32 else 0#32))
    ∧ (overflowFrom ≤ (F32.fix a + F32.fix b).natAbs →
      F32.add a b = if F32.fix a + F32.fix b < 0 then 0xFF800000#32 else 0x7F800000#32))
  ∧ (∀ a b : F32, F32.isFinite a = true → F32.isFinite b = true →
    ((F32.fix a - F32.fix b).natAbs < overflowFrom →
      IsNearestEven (F32.sub a b) (F32.fix a - F32.fix b) 1
        ∧ (F32.fix a - F32.fix b = 0 → F32.sub a b = if F32.sign a && !F32.sign b then 0x80000000#32 else 0#32))
    ∧ (overflowFrom ≤ (F32.fix a - F32.fix b).natAbs →
      F32.sub a b = if F32.fix a - F32.fix b < 0 then 0xFF800000#32 else 0x7F800000#32))
  ∧ (∀ a b : F32, F32.isFinite a = true → F32.isFinite b = true →
    ((F32.fix a * F32.fix b).natAbs < overflowFrom * 2 ^ 149 →
      IsNearestEven (F32.mul a b) (F32.fix a * F32.fix b) (2 ^ 149) ∧ F32.sign (F32.mul a b) = (F32.sign a != F32.sign b))
    ∧ (overflowFrom * 2 ^ 149 ≤ (F32.fix a * F32.fix b).natAbs →
      F32.mul a b = if F32.sign a != F32.sign b then 0xFF800000#32 else 0x7F800000#32))
  ∧ (∀ a b : F32, F32.isFinite a = true → F32.isFinite b = true → F32.fix b ≠ 0 →
    ((F32.fix a).natAbs * 2 ^ 149 < overflowFrom * (F32.fix b).natAbs →
      IsNearestEven (F32.div a b) (F32.fix a * 2 ^ 149 * (F32.fix b).sign) (F32.fix b).natAbs
        ∧ F32.sign (F32.div a b) = (F32.sign a != F32.sign b))
    ∧ (overflowFrom * (F32.fix b).natAbs ≤ (F32.fix a).natAbs * 2 ^ 149 →
      F32.div a b = if F32.sign a != F32.sign b then 0xFF800000#32 else 0x7F800000#32))
  ∧ (∀ a b : F32, F32.isInf a = true → F32.isFinite b = true →
    F32.add a b = a ∧ F32.add b a = a ∧ F32.sub a b = a ∧ F32.sub b a = a ^^^ 0x80000000#32
      ∧ (F32.mul a b = if F32.isZero b then 0x7FC00000#32 else if F32.sign a != F32.sign b then 0xFF800000#32 else 0x7F800000#32)
      ∧ F32.mul b a = F32.mul a b
      ∧ (F32.div a b = if F32.sign a != F32.sign b then 0xFF800000#32 else 0x7F800000#32)
      ∧ (F32.div b a = if F32.sign a != F32.sign b then 0x80000000#32 else 0#32))
  ∧ (∀ a b : F32, F32.isInf a = true → F32.isInf b = true →
    (F32.add a b = if F32.sign a = F32.sign b then a else 0x7FC00000#32)
      ∧ (F32.sub a b = if F32.sign a = F32.sign b then 0x7FC00000#32 else a)
      ∧ (F32.mul a b = if F32.sign a = F32.sign b then 0x7F800000#32 else 0xFF800000#32) ∧ F32.div a b = 0x7FC00000#32)
  ∧ (∀ a b : F32, F32.isFinite a = true → F32.isZero b = true →
    F32.div a b = if F32.isZero a then 0x7FC00000#32 else if F32.sign a != F32.sign b then 0xFF800000#32 else 0x7F800000#32)
  ∧ (∀ a b : F32, F32.isNaN a = true ∨ F32.isNaN b = true →
    F32.add a b = 0x7FC00000#32 ∧ F32.sub a b = 0x7FC00000#32 ∧ F32.mul a b = 0x7FC00000#32 ∧ F32.div a b = 0x7FC00000#32
      ∧ F32.lt a b = false ∧ F32.ge a b = false)
  ∧ (∀ num den : Nat, 1 ≤ den → num * 2 ^ 149 < overflowFrom * den →
    IsNearestEven (F32.rnd32 num den) (num * 2 ^ 149 : Nat) den ∧ F32.sign (F32.rnd32 num den) = false)
  ∧ (∀ n < 2 ^ 24, F32.isFinite (F32.ofNat n) = true ∧ F32.fix (F32.ofNat n) = n * 2 ^ 149 ∧ F32.sign (F32.ofNat n) = false)
  ∧ (∀ x : F32, F32.isFinite x = true → 0 ≤ F32.fix x →
    (F32.trunc x : Int) * 2 ^ 149 ≤ F32.fix x ∧ F32.fix x < ((F32.trunc x : Int) + 1) * 2 ^ 149)
  ∧ (∀ a b : F32, F32.isFinite a = true → F32.isFinite b = true →
    (F32.lt a b = true ↔ F32.fix a < F32.fix b) ∧ (F32.ge a b = true ↔ F32.fix b ≤ F32.fix a))
  ∧ (∀ a b : F32, F32.isNaN a = false → F32.isNaN b = false → F32.ge a b = !F32.lt a b)
  ∧ (∀ a : F32, F32.isFinite a = true → F32.lt a 0x7F800000#32 = true ∧ F32.lt 0xFF800000#32 a = true
    ∧ F32.lt 0x7F800000#32 a = false ∧ F32.lt a 0xFF800000#32 = false)
  ∧ F32.lt 0xFF800000#32 0x7F800000#32 = true ∧ F32.lt 0x7F800000#32 0xFF800000#32 = false
  ∧ F32.lt 0x7F800000#32 0x7F800000#32 = false ∧ F32.lt 0xFF800000#32 0xFF800000#32 = false

/-! ### Invariants -/

/-- 20_memory R102, 10_state R53, R54: the port memory stays in canonical form and lists only bytes of the IN and OUT windows. -/
def Obligations.MemoryInvariant : Prop := ∀ s t : State, MemInv s → step s = .next t → MemInv t

/-- 10_state R43, R47, 41_effect_contract R226, 60_exceptions R470: CTRL, its latched copy and ERRCODE stay legal. -/
def Obligations.RegisterInvariant : Prop := ∀ s t : State, RegInv s → step s = .next t → RegInv t

/-- 46_parameter_store R430 to R435: the parameter store stays in order. -/
def Obligations.StoreInvariant : Prop := ∀ s t : State, StoreInv s → step s = .next t → StoreInv t

/-- 10_state R56 to R63: every unit keeps the shape that the configuration gives it. -/
def Obligations.ShapeInvariant : Prop := ∀ s t : State, ShapeInv s → step s = .next t → ShapeInv t

/-- The sentence "The window indices always satisfy ..." of 44_pitch_shifter section 4 (R346), which the spec marks as derived from R342, R343
and R344: the read positions stay in [0, B) and the phases in [0, G). -/
def Obligations.PitchInvariant : Prop :=
  ∀ s t : State, ShapeInv s → StoreInv s → GpsInv s → step s = .next t → GpsInv t

/-- The reset state of every valid instance (00_scope R10) meets all the invariants, and so does `State.reset`, of the instance that the model
chose (log 1). -/
def Obligations.ResetMeetsInvariants : Prop :=
  (∀ p : Params, p.Valid → MemInv (State.resetOf p) ∧ RegInv (State.resetOf p) ∧ StoreInv (State.resetOf p) ∧ ShapeInv (State.resetOf p)
    ∧ GpsInv (State.resetOf p))
  ∧ MemInv State.reset ∧ RegInv State.reset ∧ StoreInv State.reset ∧ ShapeInv State.reset ∧ GpsInv State.reset
end

