-- ==== Sys2Proof/Laws/Fft.lean ====
section
/-! SUPPORT. The laws of the transform: every operation keeps the size, what one butterfly leaves at each index, and the zero padding. -/

namespace Sys2Proof.Machine

@[simp] theorem butterfly_size (wr wi : F32) (p q : Nat) (a : Array Cplx) : (butterfly wr wi p q a).size = a.size := by
  simp [butterfly]

/-- What a butterfly leaves at each index (45_convolution R382). -/
theorem butterfly_get (wr wi : F32) {p q : Nat} (a : Array Cplx) (hp : p < a.size) (hq : q < a.size) (hpq : p ≠ q) (j : Nat) :
    (butterfly wr wi p q a)[j]? =
      (let u := a.getD p cZero
       let v := a.getD q cZero
       let tr := F32.sub (F32.mul v.1 wr) (F32.mul v.2 wi)
       let ti := F32.add (F32.mul v.1 wi) (F32.mul v.2 wr)
       if j = p then some (F32.add u.1 tr, F32.add u.2 ti)
       else if j = q then some (F32.sub u.1 tr, F32.sub u.2 ti) else a[j]?) := by
  simp only [butterfly, Array.getElem?_setIfInBounds, Array.size_setIfInBounds]
  by_cases h1 : j = p
  · subst h1; simp [hpq.symm, hp]
  · by_cases h2 : j = q
    · subst h2; simp [h1, hq]
    · simp [h1, h2, Ne.symm h1, Ne.symm h2]

/-- A fold whose every step keeps the size keeps the size. -/
theorem size_foldl {α β : Type} (f : Array α → β → Array α) (hf : ∀ a b, (f a b).size = a.size) (l : List β) (a : Array α) :
    (l.foldl f a).size = a.size := by
  induction l generalizing a with
  | nil => rfl
  | cons b rest ih => rw [List.foldl_cons, ih, hf]

@[simp] theorem bitReversed_size (l n : Nat) (a : Array Cplx) : (bitReversed l n a).size = a.size :=
  size_foldl _ (fun a i => by split <;> simp) _ a

@[simp] theorem fftStage_size (cosT sinT : Array F32) (inverse : Bool) (n len : Nat) (a : Array Cplx) :
    (fftStage cosT sinT inverse n len a).size = a.size :=
  size_foldl _ (fun a _ => size_foldl _ (fun a _ => butterfly_size _ _ _ _ a) _ a) _ a

@[simp] theorem fft_size (inverse : Bool) (n : Nat) (a : Array Cplx) : (fft inverse n a).size = a.size :=
  (size_foldl _ (fun a _ => fftStage_size _ _ _ _ _ a) _ _).trans (bitReversed_size _ _ a)

/-- Zero padding up to `n` (45_convolution R384, R385). -/
theorem zeroPadded_get {n i : Nat} (l : List F32) (hi : i < n) : (zeroPadded n l)[i]? = some (l.getD i 0#32, 0#32) := by
  by_cases hl : i < l.length
  · simp [zeroPadded, List.getElem?_append, hl]
  · simp [zeroPadded, List.getElem?_append, hl, List.getElem?_replicate, cZero]
    omega

end Sys2Proof.Machine
end

