-- ==== Sys2Proof/Laws/Sparse.lean ====
section
/-! SUPPORT. The laws of sparse arrays and of the port memory: a read after a write, the frame of a write, and the canonical form, which
every operation keeps. -/

namespace Sys2Proof.Machine

variable {w : Nat}

@[simp] theorem sparseGet_nil (a : Nat) : sparseGet ([] : Sparse w) a = 0#w := rfl

theorem sparseGet_cons (b : Nat) (v : BitVec w) (m : Sparse w) (a : Nat) :
    sparseGet ((b, v) :: m) a = if b = a then v else sparseGet m a := rfl

theorem sparseGet_erase (m : Sparse w) (a b : Nat) : sparseGet (sparseErase m a) b = if b = a then 0#w else sparseGet m b := by
  induction m with
  | nil => simp [sparseErase]
  | cons c m ih =>
    obtain ⟨k, v⟩ := c
    by_cases h : k = a
    · simp only [sparseErase, h, if_true, ih, sparseGet_cons]
      by_cases hb : b = a
      · simp [hb]
      · simp [hb, Ne.symm hb]
    · simp only [sparseErase, h, if_false, sparseGet_cons, ih]
      by_cases hb : b = a
      · simp [hb, h]
      · simp [hb]

theorem sparseGet_put (m : Sparse w) (a b : Nat) (v : BitVec w) :
    sparseGet (sparsePut (sparseErase m a) a v) b = if b = a then v else sparseGet m b := by
  induction m with
  | nil =>
    by_cases hb : b = a
    · simp [sparseErase, sparsePut, sparseGet_cons, hb]
    · simp [sparseErase, sparsePut, sparseGet_cons, hb, Ne.symm hb]
  | cons c m ih =>
    obtain ⟨k, x⟩ := c
    by_cases h : k = a
    · simp only [sparseErase, h, if_true, ih, sparseGet_cons]
      by_cases hb : b = a
      · simp [hb]
      · simp [hb, Ne.symm hb]
    · by_cases hlt : k < a
      · simp only [sparseErase, h, if_false, sparsePut, hlt, if_true, sparseGet_cons, ih]
        by_cases hb : b = a
        · simp [hb, h]
        · simp [hb]
      · simp only [sparseErase, h, if_false, sparsePut, hlt, sparseGet_cons, sparseGet_erase]
        by_cases hb : b = a
        · simp [hb]
        · simp [hb, Ne.symm hb]

/-- A read after a write: the written element reads the value written, every other element reads as before. -/
theorem sparseGet_set (m : Sparse w) (a b : Nat) (v : BitVec w) :
    sparseGet (sparseSet m a v) b = if b = a then v else sparseGet m b := by
  unfold sparseSet
  split
  · rename_i hv
    subst hv
    exact sparseGet_erase m a b
  · exact sparseGet_put m a b v

@[simp] theorem sparseGet_set_same (m : Sparse w) (a : Nat) (v : BitVec w) : sparseGet (sparseSet m a v) a = v := by
  simp [sparseGet_set]

theorem sparseGet_set_other (m : Sparse w) (a b : Nat) (v : BitVec w) (h : b ≠ a) :
    sparseGet (sparseSet m a v) b = sparseGet m b := by
  simp [sparseGet_set, h]

theorem sparseRising_mono {lo lo' : Nat} {m : Sparse w} (h : sparseRising lo m = true) (hl : lo' ≤ lo) : sparseRising lo' m = true := by
  cases m with
  | nil => rfl
  | cons c m =>
    simp only [sparseRising, Bool.and_eq_true, decide_eq_true_eq] at h ⊢
    exact ⟨⟨hl.trans h.1.1, h.1.2⟩, h.2⟩

theorem sparseRising_erase {lo : Nat} {m : Sparse w} (a : Nat) (h : sparseRising lo m = true) : sparseRising lo (sparseErase m a) = true := by
  induction m generalizing lo with
  | nil => rfl
  | cons c m ih =>
    obtain ⟨k, v⟩ := c
    simp only [sparseRising, Bool.and_eq_true, decide_eq_true_eq] at h
    by_cases hk : k = a
    · simp only [sparseErase, hk, if_true]
      exact ih (sparseRising_mono h.2 (by omega))
    · simp only [sparseErase, hk, if_false, sparseRising, Bool.and_eq_true, decide_eq_true_eq]
      exact ⟨h.1, ih h.2⟩

theorem sparseRising_put {lo : Nat} {m : Sparse w} {a : Nat} {v : BitVec w} (h : sparseRising lo m = true) (hlo : lo ≤ a) (hv : v ≠ 0#w) :
    sparseRising lo (sparsePut (sparseErase m a) a v) = true := by
  induction m generalizing lo with
  | nil => simp [sparseErase, sparsePut, sparseRising, hlo, hv]
  | cons c m ih =>
    obtain ⟨k, x⟩ := c
    simp only [sparseRising, Bool.and_eq_true, decide_eq_true_eq] at h
    by_cases hk : k = a
    · simp only [sparseErase, hk, if_true]
      exact ih (sparseRising_mono h.2 (by omega)) hlo
    · by_cases hlt : k < a
      · simp only [sparseErase, hk, if_false, sparsePut, hlt, if_true, sparseRising, Bool.and_eq_true, decide_eq_true_eq]
        exact ⟨h.1, ih h.2 (by omega)⟩
      · simp only [sparseErase, hk, if_false, sparsePut, hlt, sparseRising, Bool.and_eq_true, decide_eq_true_eq]
        exact ⟨⟨hlo, hv⟩, ⟨by omega, h.1.2⟩, sparseRising_erase a h.2⟩

/-- A write keeps the canonical form. -/
theorem sparseWf_set {m : Sparse w} (a : Nat) (v : BitVec w) (h : sparseWf m = true) : sparseWf (sparseSet m a v) = true := by
  unfold sparseWf sparseSet at *
  split
  · exact sparseRising_erase a h
  · exact sparseRising_put h (Nat.zero_le a) ‹_›

theorem mem_sparseErase {m : Sparse w} {a : Nat} {c : Nat × BitVec w} (h : c ∈ sparseErase m a) : c ∈ m := by
  induction m with
  | nil => exact h
  | cons d m ih =>
    obtain ⟨k, x⟩ := d
    by_cases hk : k = a
    · simp only [sparseErase, hk, if_true] at h
      exact List.mem_cons_of_mem _ (ih h)
    · simp only [sparseErase, hk, if_false, List.mem_cons] at h
      rcases h with h | h
      · simp [h]
      · exact List.mem_cons_of_mem _ (ih h)

theorem mem_sparsePut {m : Sparse w} {a : Nat} {v : BitVec w} {c : Nat × BitVec w} (h : c ∈ sparsePut m a v) : c = (a, v) ∨ c ∈ m := by
  induction m with
  | nil => simpa [sparsePut] using h
  | cons d m ih =>
    obtain ⟨k, x⟩ := d
    by_cases hlt : k < a
    · simp only [sparsePut, hlt, if_true, List.mem_cons] at h
      rcases h with h | h
      · simp [h]
      · rcases ih h with h | h
        · exact Or.inl h
        · exact Or.inr (List.mem_cons_of_mem _ h)
    · simpa [sparsePut, hlt] using h

/-- What a write can list: the written entry, or an entry that was listed. -/
theorem mem_sparseSet {m : Sparse w} {a : Nat} {v : BitVec w} {c : Nat × BitVec w} (h : c ∈ sparseSet m a v) : c = (a, v) ∨ c ∈ m := by
  unfold sparseSet at h
  split at h
  · exact Or.inr (mem_sparseErase h)
  · exact (mem_sparsePut h).imp_right mem_sparseErase

/-- A write below the bound keeps every index below it. -/
theorem sparseBelow_set {m : Sparse w} {n a : Nat} (v : BitVec w) (h : sparseBelow n m = true) (ha : a < n) :
    sparseBelow n (sparseSet m a v) = true := by
  simp only [sparseBelow, List.all_eq_true, decide_eq_true_eq] at *
  intro c hc
  rcases mem_sparseSet hc with h' | h'
  · simpa [h'] using ha
  · exact h c h'

theorem sparseRising_from (i : Nat) (l : List (BitVec w)) : sparseRising i (sparseFrom i l) = true := by
  induction l generalizing i with
  | nil => rfl
  | cons v l ih =>
    by_cases hv : v = 0#w
    · simp only [sparseFrom, hv, if_true]
      exact sparseRising_mono (ih (i + 1)) (by omega)
    · simp [sparseFrom, hv, sparseRising, ih]

/-- The sparse form of a list is canonical. -/
theorem sparseWf_ofList (l : List (BitVec w)) : sparseWf (sparseOfList l) = true := sparseRising_from 0 l

theorem sparseBelow_from (i : Nat) (l : List (BitVec w)) : sparseBelow (i + l.length) (sparseFrom i l) = true := by
  induction l generalizing i with
  | nil => rfl
  | cons v l ih =>
    have h := ih (i + 1)
    simp only [sparseBelow, List.all_eq_true, decide_eq_true_eq, List.length_cons] at *
    by_cases hv : v = 0#w
    · simp only [sparseFrom, hv, if_true]
      intro c hc
      have := h c hc
      omega
    · simp only [sparseFrom, hv, if_false, List.mem_cons]
      rintro c (rfl | hc)
      · simp
      · have := h c hc
        omega

/-- The sparse form of a list lists no index past its end. -/
theorem sparseBelow_ofList (l : List (BitVec w)) : sparseBelow l.length (sparseOfList l) = true := by
  simpa [sparseOfList] using sparseBelow_from 0 l

theorem sparseGet_from (i : Nat) (l : List (BitVec w)) (j : Nat) :
    sparseGet (sparseFrom i l) j = if i ≤ j then l.getD (j - i) 0#w else 0#w := by
  induction l generalizing i with
  | nil => simp [sparseFrom]
  | cons v l ih =>
    by_cases hv : v = 0#w
    · simp only [sparseFrom, hv, if_true, ih]
      by_cases hj : i + 1 ≤ j
      · rw [if_pos hj, if_pos (by omega), show j - i = (j - (i + 1)) + 1 by omega, List.getD_cons_succ]
      · rw [if_neg hj]
        split
        · rw [show j - i = 0 by omega, List.getD_cons_zero]
        · rfl
    · simp only [sparseFrom, hv, if_false, sparseGet_cons, ih]
      by_cases hij : i = j
      · simp [hij]
      · by_cases hj : i + 1 ≤ j
        · rw [if_neg hij, if_pos hj, if_pos (by omega), show j - i = (j - (i + 1)) + 1 by omega, List.getD_cons_succ]
        · rw [if_neg hij, if_neg hj, if_neg (by omega)]

/-- The sparse form of a list reads as the list, and 0 past its end. -/
@[simp] theorem sparseGet_ofList (l : List (BitVec w)) (j : Nat) : sparseGet (sparseOfList l) j = l.getD j 0#w := by
  simpa [sparseOfList] using sparseGet_from 0 l j

/-! ### The dense form -/

/-- Below the first listed index every index reads 0. -/
theorem sparseGet_below {lo : Nat} {m : Sparse w} (h : sparseRising lo m = true) {j : Nat} (hj : j < lo) : sparseGet m j = 0#w := by
  induction m generalizing lo with
  | nil => rfl
  | cons c rest ih =>
    simp only [sparseRising, Bool.and_eq_true, decide_eq_true_eq] at h
    rw [sparseGet_cons, if_neg (by omega)]
    exact ih h.2 (by omega)

/-- What writing the entries of a canonical sparse array into a dense one gives: its listed words, and the old ones elsewhere. -/
theorem sparseFold_spec {lo : Nat} {m : Sparse w} (h : sparseRising lo m = true) (arr : Array (BitVec w)) :
    (m.foldl (fun arr c => arr.setIfInBounds c.1 c.2) arr).size = arr.size
      ∧ ∀ j, (m.foldl (fun arr c => arr.setIfInBounds c.1 c.2) arr)[j]?
        = if sparseGet m j = 0#w then arr[j]? else if j < arr.size then some (sparseGet m j) else none := by
  induction m generalizing lo arr with
  | nil => simp
  | cons c rest ih =>
    simp only [sparseRising, Bool.and_eq_true, decide_eq_true_eq] at h
    obtain ⟨hs, hg⟩ := ih h.2 (arr.setIfInBounds c.1 c.2)
    refine ⟨by simpa using hs, fun j => ?_⟩
    rw [List.foldl_cons, hg j, sparseGet_cons, Array.getElem?_setIfInBounds, Array.size_setIfInBounds]
    by_cases hj : c.1 = j
    · subst hj
      simp [sparseGet_below h.2 (Nat.lt_succ_self c.1), h.1.2]
    · simp [hj]

@[simp] theorem sparseToArray_size {m : Sparse w} (n : Nat) (h : sparseWf m = true) : (sparseToArray n m).size = n := by
  rw [sparseToArray, (sparseFold_spec h _).1, Array.size_replicate]

/-- The dense array holds what the sparse one reads as. -/
theorem sparseToArray_get {m : Sparse w} {n j : Nat} (h : sparseWf m = true) (hj : j < n) : (sparseToArray n m)[j]? = some (sparseGet m j) := by
  have := (sparseFold_spec h (Array.replicate n 0#w)).2 j
  rw [sparseToArray, this]
  by_cases hz : sparseGet m j = 0#w <;> simp [hz, hj]

/-! ### The port memory -/

theorem readByte_writeByte (m : Memory) (a b : Nat) (v : Byte) :
    readByte (writeByte m a v) b = if b = a then v else readByte m b := sparseGet_set m a b v

theorem writeByte_wf {m : Memory} (a : Nat) (v : Byte) (h : m.wf = true) : Memory.wf (writeByte m a v) = true := sparseWf_set a v h

/-- A word write keeps the canonical form. -/
theorem writeWord_wf {m : Memory} (a : Nat) (v : Word) (h : m.wf = true) : Memory.wf (writeWord m a v) = true :=
  writeByte_wf _ _ (writeByte_wf _ _ (writeByte_wf _ _ (writeByte_wf _ _ h)))

/-- The bytes of a word write, and its frame (20_memory R103). -/
theorem readByte_writeWord (m : Memory) (a b : Nat) (v : Word) :
    readByte (writeWord m a v) b =
      if b = a + 3 then v.extractLsb' 24 8 else if b = a + 2 then v.extractLsb' 16 8
      else if b = a + 1 then v.extractLsb' 8 8 else if b = a then v.extractLsb' 0 8 else readByte m b := by
  simp only [writeWord, readByte_writeByte]

theorem readByte_writeWord_other (m : Memory) (a b : Nat) (v : Word) (h : b < a ∨ a + 4 ≤ b) :
    readByte (writeWord m a v) b = readByte m b := by
  rw [readByte_writeWord, if_neg (by omega), if_neg (by omega), if_neg (by omega), if_neg (by omega)]

/-- A word written reads back. -/
@[simp] theorem readWord_writeWord_same (m : Memory) (a : Nat) (v : Word) : readWord (writeWord m a v) a = v := by
  simp only [readWord, readByte_writeWord]
  rw [if_pos trivial, if_neg (by omega), if_pos trivial, if_neg (by omega), if_neg (by omega), if_pos trivial, if_neg (by omega),
    if_neg (by omega), if_neg (by omega), if_pos trivial]
  apply BitVec.eq_of_getLsbD_eq
  intro i hi
  simp only [BitVec.getLsbD_append, BitVec.getLsbD_extractLsb']
  have : i < 32 := hi
  interval_cases i <;> simp

theorem readWord_writeWord_other (m : Memory) (a b : Nat) (v : Word) (h : b + 4 ≤ a ∨ a + 4 ≤ b) :
    readWord (writeWord m a v) b = readWord m b := by
  simp only [readWord]
  rw [readByte_writeWord_other _ _ _ _ (by omega), readByte_writeWord_other _ _ _ _ (by omega),
    readByte_writeWord_other _ _ _ _ (by omega), readByte_writeWord_other _ _ _ _ (by omega)]

/-- What a word write can list: one of its four bytes, or an entry that was listed. -/
theorem mem_writeWord {m : Memory} {a : Nat} {v : Word} {c : Host.Cell} (h : c ∈ writeWord m a v) : (a ≤ c.1 ∧ c.1 < a + 4) ∨ c ∈ m := by
  rcases mem_sparseSet h with h | h
  · exact Or.inl ⟨by simp [h], by simp [h]⟩
  · rcases mem_sparseSet h with h | h
    · exact Or.inl ⟨by simp [h], by simp [h]⟩
    · rcases mem_sparseSet h with h | h
      · exact Or.inl ⟨by simp [h], by simp [h]⟩
      · rcases mem_sparseSet h with h | h
        · exact Or.inl ⟨by simp [h], by simp [h]⟩
        · exact Or.inr h

end Sys2Proof.Machine
end

