-- ==== Sys2Proof/Laws/State.lean ====
section
/-! SUPPORT. What each named update of the state leaves in each field: one lemma per field per update, so that no proof has to unfold
a record update. -/

namespace Sys2Proof.Machine

/-! ### `complete`: completion (60_exceptions R484) -/

@[simp] theorem complete_inst (s : State) : (complete s).inst = s.inst := rfl
@[simp] theorem complete_busy (s : State) : (complete s).busy = false := rfl
@[simp] theorem complete_cfg (s : State) : (complete s).cfg = s.cfg := rfl
@[simp] theorem complete_done (s : State) : (complete s).done = true := rfl
@[simp] theorem complete_err (s : State) : (complete s).err = s.err := rfl
@[simp] theorem complete_pchg (s : State) : (complete s).pchg = s.pchg := rfl
@[simp] theorem complete_irsess (s : State) : (complete s).irsess = s.irsess := rfl
@[simp] theorem complete_irvalid (s : State) : (complete s).irvalid = s.irvalid := rfl
@[simp] theorem complete_ctrl (s : State) : (complete s).ctrl = s.ctrl := rfl
@[simp] theorem complete_arg (s : State) : (complete s).arg = s.arg := rfl
@[simp] theorem complete_res0 (s : State) : (complete s).res0 = s.res0 := rfl
@[simp] theorem complete_res1 (s : State) : (complete s).res1 = s.res1 := rfl
@[simp] theorem complete_errcode (s : State) : (complete s).errcode = s.errcode := rfl
@[simp] theorem complete_pchgIdx (s : State) : (complete s).pchgIdx = s.pchgIdx := rfl
@[simp] theorem complete_name (s : State) : (complete s).name = s.name := rfl
@[simp] theorem complete_lcmd (s : State) : (complete s).lcmd = s.lcmd := rfl
@[simp] theorem complete_larg (s : State) : (complete s).larg = s.larg := rfl
@[simp] theorem complete_lname (s : State) : (complete s).lname = s.lname := rfl
@[simp] theorem complete_lctrl (s : State) : (complete s).lctrl = s.lctrl := rfl
@[simp] theorem complete_fs (s : State) : (complete s).fs = s.fs := rfl
@[simp] theorem complete_nch (s : State) : (complete s).nch = s.nch := rfl
@[simp] theorem complete_dlycap (s : State) : (complete s).dlycap = s.dlycap := rfl
@[simp] theorem complete_grain (s : State) : (complete s).grain = s.grain := rfl
@[simp] theorem complete_ringB (s : State) : (complete s).ringB = s.ringB := rfl
@[simp] theorem complete_mem (s : State) : (complete s).mem = s.mem := rfl
@[simp] theorem complete_dlyl (s : State) : (complete s).dlyl = s.dlyl := rfl
@[simp] theorem complete_prer (s : State) : (complete s).prer = s.prer := rfl
@[simp] theorem complete_rev (s : State) : (complete s).rev = s.rev := rfl
@[simp] theorem complete_gps (s : State) : (complete s).gps = s.gps := rfl
@[simp] theorem complete_win (s : State) : (complete s).win = s.win := rfl
@[simp] theorem complete_convN (s : State) : (complete s).convN = s.convN := rfl
@[simp] theorem complete_convH (s : State) : (complete s).convH = s.convH := rfl
@[simp] theorem complete_irLen (s : State) : (complete s).irLen = s.irLen := rfl
@[simp] theorem complete_conv (s : State) : (complete s).conv = s.conv := rfl
@[simp] theorem complete_lsrc (s : State) : (complete s).lsrc = s.lsrc := rfl
@[simp] theorem complete_fssrc (s : State) : (complete s).fssrc = s.fssrc := rfl
@[simp] theorem complete_ir (s : State) : (complete s).ir = s.ir := rfl
@[simp] theorem complete_pst (s : State) : (complete s).pst = s.pst := rfl
@[simp] theorem complete_inReset (s : State) : (complete s).inReset = s.inReset := rfl
@[simp] theorem complete_schedule (s : State) : (complete s).schedule = s.schedule := rfl
@[simp] theorem complete_reads (s : State) : (complete s).reads = s.reads := rfl
@[simp] theorem complete_freeCount (s : State) : (complete s).freeCount = s.freeCount := rfl

/-! ### `recordError`: recording an error (60_exceptions R483) -/

@[simp] theorem recordError_inst (e : ErrCode) (o : Byte) (s : State) : (recordError e o s).inst = s.inst := rfl
@[simp] theorem recordError_busy (e : ErrCode) (o : Byte) (s : State) : (recordError e o s).busy = s.busy := rfl
@[simp] theorem recordError_cfg (e : ErrCode) (o : Byte) (s : State) : (recordError e o s).cfg = s.cfg := rfl
@[simp] theorem recordError_done (e : ErrCode) (o : Byte) (s : State) : (recordError e o s).done = s.done := rfl
@[simp] theorem recordError_err (e : ErrCode) (o : Byte) (s : State) : (recordError e o s).err = true := rfl
@[simp] theorem recordError_pchg (e : ErrCode) (o : Byte) (s : State) : (recordError e o s).pchg = s.pchg := rfl
@[simp] theorem recordError_irsess (e : ErrCode) (o : Byte) (s : State) : (recordError e o s).irsess = s.irsess := rfl
@[simp] theorem recordError_irvalid (e : ErrCode) (o : Byte) (s : State) : (recordError e o s).irvalid = s.irvalid := rfl
@[simp] theorem recordError_ctrl (e : ErrCode) (o : Byte) (s : State) : (recordError e o s).ctrl = s.ctrl := rfl
@[simp] theorem recordError_arg (e : ErrCode) (o : Byte) (s : State) : (recordError e o s).arg = s.arg := rfl
@[simp] theorem recordError_res0 (e : ErrCode) (o : Byte) (s : State) : (recordError e o s).res0 = s.res0 := rfl
@[simp] theorem recordError_res1 (e : ErrCode) (o : Byte) (s : State) : (recordError e o s).res1 = s.res1 := rfl
@[simp] theorem recordError_errcode (e : ErrCode) (o : Byte) (s : State) : (recordError e o s).errcode = errcodeAfter s.err s.errcode e o := rfl
@[simp] theorem recordError_pchgIdx (e : ErrCode) (o : Byte) (s : State) : (recordError e o s).pchgIdx = s.pchgIdx := rfl
@[simp] theorem recordError_name (e : ErrCode) (o : Byte) (s : State) : (recordError e o s).name = s.name := rfl
@[simp] theorem recordError_lcmd (e : ErrCode) (o : Byte) (s : State) : (recordError e o s).lcmd = s.lcmd := rfl
@[simp] theorem recordError_larg (e : ErrCode) (o : Byte) (s : State) : (recordError e o s).larg = s.larg := rfl
@[simp] theorem recordError_lname (e : ErrCode) (o : Byte) (s : State) : (recordError e o s).lname = s.lname := rfl
@[simp] theorem recordError_lctrl (e : ErrCode) (o : Byte) (s : State) : (recordError e o s).lctrl = s.lctrl := rfl
@[simp] theorem recordError_fs (e : ErrCode) (o : Byte) (s : State) : (recordError e o s).fs = s.fs := rfl
@[simp] theorem recordError_nch (e : ErrCode) (o : Byte) (s : State) : (recordError e o s).nch = s.nch := rfl
@[simp] theorem recordError_dlycap (e : ErrCode) (o : Byte) (s : State) : (recordError e o s).dlycap = s.dlycap := rfl
@[simp] theorem recordError_grain (e : ErrCode) (o : Byte) (s : State) : (recordError e o s).grain = s.grain := rfl
@[simp] theorem recordError_ringB (e : ErrCode) (o : Byte) (s : State) : (recordError e o s).ringB = s.ringB := rfl
@[simp] theorem recordError_mem (e : ErrCode) (o : Byte) (s : State) : (recordError e o s).mem = s.mem := rfl
@[simp] theorem recordError_dlyl (e : ErrCode) (o : Byte) (s : State) : (recordError e o s).dlyl = s.dlyl := rfl
@[simp] theorem recordError_prer (e : ErrCode) (o : Byte) (s : State) : (recordError e o s).prer = s.prer := rfl
@[simp] theorem recordError_rev (e : ErrCode) (o : Byte) (s : State) : (recordError e o s).rev = s.rev := rfl
@[simp] theorem recordError_gps (e : ErrCode) (o : Byte) (s : State) : (recordError e o s).gps = s.gps := rfl
@[simp] theorem recordError_win (e : ErrCode) (o : Byte) (s : State) : (recordError e o s).win = s.win := rfl
@[simp] theorem recordError_convN (e : ErrCode) (o : Byte) (s : State) : (recordError e o s).convN = s.convN := rfl
@[simp] theorem recordError_convH (e : ErrCode) (o : Byte) (s : State) : (recordError e o s).convH = s.convH := rfl
@[simp] theorem recordError_irLen (e : ErrCode) (o : Byte) (s : State) : (recordError e o s).irLen = s.irLen := rfl
@[simp] theorem recordError_conv (e : ErrCode) (o : Byte) (s : State) : (recordError e o s).conv = s.conv := rfl
@[simp] theorem recordError_lsrc (e : ErrCode) (o : Byte) (s : State) : (recordError e o s).lsrc = s.lsrc := rfl
@[simp] theorem recordError_fssrc (e : ErrCode) (o : Byte) (s : State) : (recordError e o s).fssrc = s.fssrc := rfl
@[simp] theorem recordError_ir (e : ErrCode) (o : Byte) (s : State) : (recordError e o s).ir = s.ir := rfl
@[simp] theorem recordError_pst (e : ErrCode) (o : Byte) (s : State) : (recordError e o s).pst = s.pst := rfl
@[simp] theorem recordError_inReset (e : ErrCode) (o : Byte) (s : State) : (recordError e o s).inReset = s.inReset := rfl
@[simp] theorem recordError_schedule (e : ErrCode) (o : Byte) (s : State) : (recordError e o s).schedule = s.schedule := rfl
@[simp] theorem recordError_reads (e : ErrCode) (o : Byte) (s : State) : (recordError e o s).reads = s.reads := rfl
@[simp] theorem recordError_freeCount (e : ErrCode) (o : Byte) (s : State) : (recordError e o s).freeCount = s.freeCount := rfl

/-! ### `latchCommand`: an accepted CMD write (10_state R55) -/

@[simp] theorem latchCommand_inst (w : Word) (s : State) : (latchCommand w s).inst = s.inst := rfl
@[simp] theorem latchCommand_busy (w : Word) (s : State) : (latchCommand w s).busy = true := rfl
@[simp] theorem latchCommand_cfg (w : Word) (s : State) : (latchCommand w s).cfg = s.cfg := rfl
@[simp] theorem latchCommand_done (w : Word) (s : State) : (latchCommand w s).done = s.done := rfl
@[simp] theorem latchCommand_err (w : Word) (s : State) : (latchCommand w s).err = s.err := rfl
@[simp] theorem latchCommand_pchg (w : Word) (s : State) : (latchCommand w s).pchg = s.pchg := rfl
@[simp] theorem latchCommand_irsess (w : Word) (s : State) : (latchCommand w s).irsess = s.irsess := rfl
@[simp] theorem latchCommand_irvalid (w : Word) (s : State) : (latchCommand w s).irvalid = s.irvalid := rfl
@[simp] theorem latchCommand_ctrl (w : Word) (s : State) : (latchCommand w s).ctrl = s.ctrl := rfl
@[simp] theorem latchCommand_arg (w : Word) (s : State) : (latchCommand w s).arg = s.arg := rfl
@[simp] theorem latchCommand_res0 (w : Word) (s : State) : (latchCommand w s).res0 = s.res0 := rfl
@[simp] theorem latchCommand_res1 (w : Word) (s : State) : (latchCommand w s).res1 = s.res1 := rfl
@[simp] theorem latchCommand_errcode (w : Word) (s : State) : (latchCommand w s).errcode = s.errcode := rfl
@[simp] theorem latchCommand_pchgIdx (w : Word) (s : State) : (latchCommand w s).pchgIdx = s.pchgIdx := rfl
@[simp] theorem latchCommand_name (w : Word) (s : State) : (latchCommand w s).name = s.name := rfl
@[simp] theorem latchCommand_lcmd (w : Word) (s : State) : (latchCommand w s).lcmd = w := rfl
@[simp] theorem latchCommand_larg (w : Word) (s : State) : (latchCommand w s).larg = s.arg := rfl
@[simp] theorem latchCommand_lname (w : Word) (s : State) : (latchCommand w s).lname = s.name := rfl
@[simp] theorem latchCommand_lctrl (w : Word) (s : State) : (latchCommand w s).lctrl = s.ctrl := rfl
@[simp] theorem latchCommand_fs (w : Word) (s : State) : (latchCommand w s).fs = s.fs := rfl
@[simp] theorem latchCommand_nch (w : Word) (s : State) : (latchCommand w s).nch = s.nch := rfl
@[simp] theorem latchCommand_dlycap (w : Word) (s : State) : (latchCommand w s).dlycap = s.dlycap := rfl
@[simp] theorem latchCommand_grain (w : Word) (s : State) : (latchCommand w s).grain = s.grain := rfl
@[simp] theorem latchCommand_ringB (w : Word) (s : State) : (latchCommand w s).ringB = s.ringB := rfl
@[simp] theorem latchCommand_mem (w : Word) (s : State) : (latchCommand w s).mem = s.mem := rfl
@[simp] theorem latchCommand_dlyl (w : Word) (s : State) : (latchCommand w s).dlyl = s.dlyl := rfl
@[simp] theorem latchCommand_prer (w : Word) (s : State) : (latchCommand w s).prer = s.prer := rfl
@[simp] theorem latchCommand_rev (w : Word) (s : State) : (latchCommand w s).rev = s.rev := rfl
@[simp] theorem latchCommand_gps (w : Word) (s : State) : (latchCommand w s).gps = s.gps := rfl
@[simp] theorem latchCommand_win (w : Word) (s : State) : (latchCommand w s).win = s.win := rfl
@[simp] theorem latchCommand_convN (w : Word) (s : State) : (latchCommand w s).convN = s.convN := rfl
@[simp] theorem latchCommand_convH (w : Word) (s : State) : (latchCommand w s).convH = s.convH := rfl
@[simp] theorem latchCommand_irLen (w : Word) (s : State) : (latchCommand w s).irLen = s.irLen := rfl
@[simp] theorem latchCommand_conv (w : Word) (s : State) : (latchCommand w s).conv = s.conv := rfl
@[simp] theorem latchCommand_lsrc (w : Word) (s : State) : (latchCommand w s).lsrc = s.lsrc := rfl
@[simp] theorem latchCommand_fssrc (w : Word) (s : State) : (latchCommand w s).fssrc = s.fssrc := rfl
@[simp] theorem latchCommand_ir (w : Word) (s : State) : (latchCommand w s).ir = s.ir := rfl
@[simp] theorem latchCommand_pst (w : Word) (s : State) : (latchCommand w s).pst = s.pst := rfl
@[simp] theorem latchCommand_inReset (w : Word) (s : State) : (latchCommand w s).inReset = s.inReset := rfl
@[simp] theorem latchCommand_schedule (w : Word) (s : State) : (latchCommand w s).schedule = s.schedule := rfl
@[simp] theorem latchCommand_reads (w : Word) (s : State) : (latchCommand w s).reads = s.reads := rfl
@[simp] theorem latchCommand_freeCount (w : Word) (s : State) : (latchCommand w s).freeCount = s.freeCount := rfl

/-! ### `setRes0`: a write of RES0 (10_state R46) -/

@[simp] theorem setRes0_inst (v : Word) (s : State) : (setRes0 v s).inst = s.inst := rfl
@[simp] theorem setRes0_busy (v : Word) (s : State) : (setRes0 v s).busy = s.busy := rfl
@[simp] theorem setRes0_cfg (v : Word) (s : State) : (setRes0 v s).cfg = s.cfg := rfl
@[simp] theorem setRes0_done (v : Word) (s : State) : (setRes0 v s).done = s.done := rfl
@[simp] theorem setRes0_err (v : Word) (s : State) : (setRes0 v s).err = s.err := rfl
@[simp] theorem setRes0_pchg (v : Word) (s : State) : (setRes0 v s).pchg = s.pchg := rfl
@[simp] theorem setRes0_irsess (v : Word) (s : State) : (setRes0 v s).irsess = s.irsess := rfl
@[simp] theorem setRes0_irvalid (v : Word) (s : State) : (setRes0 v s).irvalid = s.irvalid := rfl
@[simp] theorem setRes0_ctrl (v : Word) (s : State) : (setRes0 v s).ctrl = s.ctrl := rfl
@[simp] theorem setRes0_arg (v : Word) (s : State) : (setRes0 v s).arg = s.arg := rfl
@[simp] theorem setRes0_res0 (v : Word) (s : State) : (setRes0 v s).res0 = v := rfl
@[simp] theorem setRes0_res1 (v : Word) (s : State) : (setRes0 v s).res1 = s.res1 := rfl
@[simp] theorem setRes0_errcode (v : Word) (s : State) : (setRes0 v s).errcode = s.errcode := rfl
@[simp] theorem setRes0_pchgIdx (v : Word) (s : State) : (setRes0 v s).pchgIdx = s.pchgIdx := rfl
@[simp] theorem setRes0_name (v : Word) (s : State) : (setRes0 v s).name = s.name := rfl
@[simp] theorem setRes0_lcmd (v : Word) (s : State) : (setRes0 v s).lcmd = s.lcmd := rfl
@[simp] theorem setRes0_larg (v : Word) (s : State) : (setRes0 v s).larg = s.larg := rfl
@[simp] theorem setRes0_lname (v : Word) (s : State) : (setRes0 v s).lname = s.lname := rfl
@[simp] theorem setRes0_lctrl (v : Word) (s : State) : (setRes0 v s).lctrl = s.lctrl := rfl
@[simp] theorem setRes0_fs (v : Word) (s : State) : (setRes0 v s).fs = s.fs := rfl
@[simp] theorem setRes0_nch (v : Word) (s : State) : (setRes0 v s).nch = s.nch := rfl
@[simp] theorem setRes0_dlycap (v : Word) (s : State) : (setRes0 v s).dlycap = s.dlycap := rfl
@[simp] theorem setRes0_grain (v : Word) (s : State) : (setRes0 v s).grain = s.grain := rfl
@[simp] theorem setRes0_ringB (v : Word) (s : State) : (setRes0 v s).ringB = s.ringB := rfl
@[simp] theorem setRes0_mem (v : Word) (s : State) : (setRes0 v s).mem = s.mem := rfl
@[simp] theorem setRes0_dlyl (v : Word) (s : State) : (setRes0 v s).dlyl = s.dlyl := rfl
@[simp] theorem setRes0_prer (v : Word) (s : State) : (setRes0 v s).prer = s.prer := rfl
@[simp] theorem setRes0_rev (v : Word) (s : State) : (setRes0 v s).rev = s.rev := rfl
@[simp] theorem setRes0_gps (v : Word) (s : State) : (setRes0 v s).gps = s.gps := rfl
@[simp] theorem setRes0_win (v : Word) (s : State) : (setRes0 v s).win = s.win := rfl
@[simp] theorem setRes0_convN (v : Word) (s : State) : (setRes0 v s).convN = s.convN := rfl
@[simp] theorem setRes0_convH (v : Word) (s : State) : (setRes0 v s).convH = s.convH := rfl
@[simp] theorem setRes0_irLen (v : Word) (s : State) : (setRes0 v s).irLen = s.irLen := rfl
@[simp] theorem setRes0_conv (v : Word) (s : State) : (setRes0 v s).conv = s.conv := rfl
@[simp] theorem setRes0_lsrc (v : Word) (s : State) : (setRes0 v s).lsrc = s.lsrc := rfl
@[simp] theorem setRes0_fssrc (v : Word) (s : State) : (setRes0 v s).fssrc = s.fssrc := rfl
@[simp] theorem setRes0_ir (v : Word) (s : State) : (setRes0 v s).ir = s.ir := rfl
@[simp] theorem setRes0_pst (v : Word) (s : State) : (setRes0 v s).pst = s.pst := rfl
@[simp] theorem setRes0_inReset (v : Word) (s : State) : (setRes0 v s).inReset = s.inReset := rfl
@[simp] theorem setRes0_schedule (v : Word) (s : State) : (setRes0 v s).schedule = s.schedule := rfl
@[simp] theorem setRes0_reads (v : Word) (s : State) : (setRes0 v s).reads = s.reads := rfl
@[simp] theorem setRes0_freeCount (v : Word) (s : State) : (setRes0 v s).freeCount = s.freeCount := rfl

/-! ### `setRes`: a write of RES0 and RES1 (10_state R46) -/

@[simp] theorem setRes_inst (v v' : Word) (s : State) : (setRes v v' s).inst = s.inst := rfl
@[simp] theorem setRes_busy (v v' : Word) (s : State) : (setRes v v' s).busy = s.busy := rfl
@[simp] theorem setRes_cfg (v v' : Word) (s : State) : (setRes v v' s).cfg = s.cfg := rfl
@[simp] theorem setRes_done (v v' : Word) (s : State) : (setRes v v' s).done = s.done := rfl
@[simp] theorem setRes_err (v v' : Word) (s : State) : (setRes v v' s).err = s.err := rfl
@[simp] theorem setRes_pchg (v v' : Word) (s : State) : (setRes v v' s).pchg = s.pchg := rfl
@[simp] theorem setRes_irsess (v v' : Word) (s : State) : (setRes v v' s).irsess = s.irsess := rfl
@[simp] theorem setRes_irvalid (v v' : Word) (s : State) : (setRes v v' s).irvalid = s.irvalid := rfl
@[simp] theorem setRes_ctrl (v v' : Word) (s : State) : (setRes v v' s).ctrl = s.ctrl := rfl
@[simp] theorem setRes_arg (v v' : Word) (s : State) : (setRes v v' s).arg = s.arg := rfl
@[simp] theorem setRes_res0 (v v' : Word) (s : State) : (setRes v v' s).res0 = v := rfl
@[simp] theorem setRes_res1 (v v' : Word) (s : State) : (setRes v v' s).res1 = v' := rfl
@[simp] theorem setRes_errcode (v v' : Word) (s : State) : (setRes v v' s).errcode = s.errcode := rfl
@[simp] theorem setRes_pchgIdx (v v' : Word) (s : State) : (setRes v v' s).pchgIdx = s.pchgIdx := rfl
@[simp] theorem setRes_name (v v' : Word) (s : State) : (setRes v v' s).name = s.name := rfl
@[simp] theorem setRes_lcmd (v v' : Word) (s : State) : (setRes v v' s).lcmd = s.lcmd := rfl
@[simp] theorem setRes_larg (v v' : Word) (s : State) : (setRes v v' s).larg = s.larg := rfl
@[simp] theorem setRes_lname (v v' : Word) (s : State) : (setRes v v' s).lname = s.lname := rfl
@[simp] theorem setRes_lctrl (v v' : Word) (s : State) : (setRes v v' s).lctrl = s.lctrl := rfl
@[simp] theorem setRes_fs (v v' : Word) (s : State) : (setRes v v' s).fs = s.fs := rfl
@[simp] theorem setRes_nch (v v' : Word) (s : State) : (setRes v v' s).nch = s.nch := rfl
@[simp] theorem setRes_dlycap (v v' : Word) (s : State) : (setRes v v' s).dlycap = s.dlycap := rfl
@[simp] theorem setRes_grain (v v' : Word) (s : State) : (setRes v v' s).grain = s.grain := rfl
@[simp] theorem setRes_ringB (v v' : Word) (s : State) : (setRes v v' s).ringB = s.ringB := rfl
@[simp] theorem setRes_mem (v v' : Word) (s : State) : (setRes v v' s).mem = s.mem := rfl
@[simp] theorem setRes_dlyl (v v' : Word) (s : State) : (setRes v v' s).dlyl = s.dlyl := rfl
@[simp] theorem setRes_prer (v v' : Word) (s : State) : (setRes v v' s).prer = s.prer := rfl
@[simp] theorem setRes_rev (v v' : Word) (s : State) : (setRes v v' s).rev = s.rev := rfl
@[simp] theorem setRes_gps (v v' : Word) (s : State) : (setRes v v' s).gps = s.gps := rfl
@[simp] theorem setRes_win (v v' : Word) (s : State) : (setRes v v' s).win = s.win := rfl
@[simp] theorem setRes_convN (v v' : Word) (s : State) : (setRes v v' s).convN = s.convN := rfl
@[simp] theorem setRes_convH (v v' : Word) (s : State) : (setRes v v' s).convH = s.convH := rfl
@[simp] theorem setRes_irLen (v v' : Word) (s : State) : (setRes v v' s).irLen = s.irLen := rfl
@[simp] theorem setRes_conv (v v' : Word) (s : State) : (setRes v v' s).conv = s.conv := rfl
@[simp] theorem setRes_lsrc (v v' : Word) (s : State) : (setRes v v' s).lsrc = s.lsrc := rfl
@[simp] theorem setRes_fssrc (v v' : Word) (s : State) : (setRes v v' s).fssrc = s.fssrc := rfl
@[simp] theorem setRes_ir (v v' : Word) (s : State) : (setRes v v' s).ir = s.ir := rfl
@[simp] theorem setRes_pst (v v' : Word) (s : State) : (setRes v v' s).pst = s.pst := rfl
@[simp] theorem setRes_inReset (v v' : Word) (s : State) : (setRes v v' s).inReset = s.inReset := rfl
@[simp] theorem setRes_schedule (v v' : Word) (s : State) : (setRes v v' s).schedule = s.schedule := rfl
@[simp] theorem setRes_reads (v v' : Word) (s : State) : (setRes v v' s).reads = s.reads := rfl
@[simp] theorem setRes_freeCount (v v' : Word) (s : State) : (setRes v v' s).freeCount = s.freeCount := rfl

/-! ### `setOut`: a write of an OUT word (10_state R54) -/

@[simp] theorem setOut_inst (i : Nat) (v : Word) (s : State) : (setOut i v s).inst = s.inst := rfl
@[simp] theorem setOut_busy (i : Nat) (v : Word) (s : State) : (setOut i v s).busy = s.busy := rfl
@[simp] theorem setOut_cfg (i : Nat) (v : Word) (s : State) : (setOut i v s).cfg = s.cfg := rfl
@[simp] theorem setOut_done (i : Nat) (v : Word) (s : State) : (setOut i v s).done = s.done := rfl
@[simp] theorem setOut_err (i : Nat) (v : Word) (s : State) : (setOut i v s).err = s.err := rfl
@[simp] theorem setOut_pchg (i : Nat) (v : Word) (s : State) : (setOut i v s).pchg = s.pchg := rfl
@[simp] theorem setOut_irsess (i : Nat) (v : Word) (s : State) : (setOut i v s).irsess = s.irsess := rfl
@[simp] theorem setOut_irvalid (i : Nat) (v : Word) (s : State) : (setOut i v s).irvalid = s.irvalid := rfl
@[simp] theorem setOut_ctrl (i : Nat) (v : Word) (s : State) : (setOut i v s).ctrl = s.ctrl := rfl
@[simp] theorem setOut_arg (i : Nat) (v : Word) (s : State) : (setOut i v s).arg = s.arg := rfl
@[simp] theorem setOut_res0 (i : Nat) (v : Word) (s : State) : (setOut i v s).res0 = s.res0 := rfl
@[simp] theorem setOut_res1 (i : Nat) (v : Word) (s : State) : (setOut i v s).res1 = s.res1 := rfl
@[simp] theorem setOut_errcode (i : Nat) (v : Word) (s : State) : (setOut i v s).errcode = s.errcode := rfl
@[simp] theorem setOut_pchgIdx (i : Nat) (v : Word) (s : State) : (setOut i v s).pchgIdx = s.pchgIdx := rfl
@[simp] theorem setOut_name (i : Nat) (v : Word) (s : State) : (setOut i v s).name = s.name := rfl
@[simp] theorem setOut_lcmd (i : Nat) (v : Word) (s : State) : (setOut i v s).lcmd = s.lcmd := rfl
@[simp] theorem setOut_larg (i : Nat) (v : Word) (s : State) : (setOut i v s).larg = s.larg := rfl
@[simp] theorem setOut_lname (i : Nat) (v : Word) (s : State) : (setOut i v s).lname = s.lname := rfl
@[simp] theorem setOut_lctrl (i : Nat) (v : Word) (s : State) : (setOut i v s).lctrl = s.lctrl := rfl
@[simp] theorem setOut_fs (i : Nat) (v : Word) (s : State) : (setOut i v s).fs = s.fs := rfl
@[simp] theorem setOut_nch (i : Nat) (v : Word) (s : State) : (setOut i v s).nch = s.nch := rfl
@[simp] theorem setOut_dlycap (i : Nat) (v : Word) (s : State) : (setOut i v s).dlycap = s.dlycap := rfl
@[simp] theorem setOut_grain (i : Nat) (v : Word) (s : State) : (setOut i v s).grain = s.grain := rfl
@[simp] theorem setOut_ringB (i : Nat) (v : Word) (s : State) : (setOut i v s).ringB = s.ringB := rfl
@[simp] theorem setOut_mem (i : Nat) (v : Word) (s : State) : (setOut i v s).mem = writeWord s.mem (outAddr i) v := rfl
@[simp] theorem setOut_dlyl (i : Nat) (v : Word) (s : State) : (setOut i v s).dlyl = s.dlyl := rfl
@[simp] theorem setOut_prer (i : Nat) (v : Word) (s : State) : (setOut i v s).prer = s.prer := rfl
@[simp] theorem setOut_rev (i : Nat) (v : Word) (s : State) : (setOut i v s).rev = s.rev := rfl
@[simp] theorem setOut_gps (i : Nat) (v : Word) (s : State) : (setOut i v s).gps = s.gps := rfl
@[simp] theorem setOut_win (i : Nat) (v : Word) (s : State) : (setOut i v s).win = s.win := rfl
@[simp] theorem setOut_convN (i : Nat) (v : Word) (s : State) : (setOut i v s).convN = s.convN := rfl
@[simp] theorem setOut_convH (i : Nat) (v : Word) (s : State) : (setOut i v s).convH = s.convH := rfl
@[simp] theorem setOut_irLen (i : Nat) (v : Word) (s : State) : (setOut i v s).irLen = s.irLen := rfl
@[simp] theorem setOut_conv (i : Nat) (v : Word) (s : State) : (setOut i v s).conv = s.conv := rfl
@[simp] theorem setOut_lsrc (i : Nat) (v : Word) (s : State) : (setOut i v s).lsrc = s.lsrc := rfl
@[simp] theorem setOut_fssrc (i : Nat) (v : Word) (s : State) : (setOut i v s).fssrc = s.fssrc := rfl
@[simp] theorem setOut_ir (i : Nat) (v : Word) (s : State) : (setOut i v s).ir = s.ir := rfl
@[simp] theorem setOut_pst (i : Nat) (v : Word) (s : State) : (setOut i v s).pst = s.pst := rfl
@[simp] theorem setOut_inReset (i : Nat) (v : Word) (s : State) : (setOut i v s).inReset = s.inReset := rfl
@[simp] theorem setOut_schedule (i : Nat) (v : Word) (s : State) : (setOut i v s).schedule = s.schedule := rfl
@[simp] theorem setOut_reads (i : Nat) (v : Word) (s : State) : (setOut i v s).reads = s.reads := rfl
@[simp] theorem setOut_freeCount (i : Nat) (v : Word) (s : State) : (setOut i v s).freeCount = s.freeCount := rfl

/-! ### `setLine`: a write of a delay line (10_state R58) -/

@[simp] theorem setLine_inst (k : Nat) (d : DelayBuf) (s : State) : (setLine k d s).inst = s.inst := rfl
@[simp] theorem setLine_busy (k : Nat) (d : DelayBuf) (s : State) : (setLine k d s).busy = s.busy := rfl
@[simp] theorem setLine_cfg (k : Nat) (d : DelayBuf) (s : State) : (setLine k d s).cfg = s.cfg := rfl
@[simp] theorem setLine_done (k : Nat) (d : DelayBuf) (s : State) : (setLine k d s).done = s.done := rfl
@[simp] theorem setLine_err (k : Nat) (d : DelayBuf) (s : State) : (setLine k d s).err = s.err := rfl
@[simp] theorem setLine_pchg (k : Nat) (d : DelayBuf) (s : State) : (setLine k d s).pchg = s.pchg := rfl
@[simp] theorem setLine_irsess (k : Nat) (d : DelayBuf) (s : State) : (setLine k d s).irsess = s.irsess := rfl
@[simp] theorem setLine_irvalid (k : Nat) (d : DelayBuf) (s : State) : (setLine k d s).irvalid = s.irvalid := rfl
@[simp] theorem setLine_ctrl (k : Nat) (d : DelayBuf) (s : State) : (setLine k d s).ctrl = s.ctrl := rfl
@[simp] theorem setLine_arg (k : Nat) (d : DelayBuf) (s : State) : (setLine k d s).arg = s.arg := rfl
@[simp] theorem setLine_res0 (k : Nat) (d : DelayBuf) (s : State) : (setLine k d s).res0 = s.res0 := rfl
@[simp] theorem setLine_res1 (k : Nat) (d : DelayBuf) (s : State) : (setLine k d s).res1 = s.res1 := rfl
@[simp] theorem setLine_errcode (k : Nat) (d : DelayBuf) (s : State) : (setLine k d s).errcode = s.errcode := rfl
@[simp] theorem setLine_pchgIdx (k : Nat) (d : DelayBuf) (s : State) : (setLine k d s).pchgIdx = s.pchgIdx := rfl
@[simp] theorem setLine_name (k : Nat) (d : DelayBuf) (s : State) : (setLine k d s).name = s.name := rfl
@[simp] theorem setLine_lcmd (k : Nat) (d : DelayBuf) (s : State) : (setLine k d s).lcmd = s.lcmd := rfl
@[simp] theorem setLine_larg (k : Nat) (d : DelayBuf) (s : State) : (setLine k d s).larg = s.larg := rfl
@[simp] theorem setLine_lname (k : Nat) (d : DelayBuf) (s : State) : (setLine k d s).lname = s.lname := rfl
@[simp] theorem setLine_lctrl (k : Nat) (d : DelayBuf) (s : State) : (setLine k d s).lctrl = s.lctrl := rfl
@[simp] theorem setLine_fs (k : Nat) (d : DelayBuf) (s : State) : (setLine k d s).fs = s.fs := rfl
@[simp] theorem setLine_nch (k : Nat) (d : DelayBuf) (s : State) : (setLine k d s).nch = s.nch := rfl
@[simp] theorem setLine_dlycap (k : Nat) (d : DelayBuf) (s : State) : (setLine k d s).dlycap = s.dlycap := rfl
@[simp] theorem setLine_grain (k : Nat) (d : DelayBuf) (s : State) : (setLine k d s).grain = s.grain := rfl
@[simp] theorem setLine_ringB (k : Nat) (d : DelayBuf) (s : State) : (setLine k d s).ringB = s.ringB := rfl
@[simp] theorem setLine_mem (k : Nat) (d : DelayBuf) (s : State) : (setLine k d s).mem = s.mem := rfl
@[simp] theorem setLine_dlyl (k : Nat) (d : DelayBuf) (s : State) : (setLine k d s).dlyl = s.dlyl.set k d := rfl
@[simp] theorem setLine_prer (k : Nat) (d : DelayBuf) (s : State) : (setLine k d s).prer = s.prer := rfl
@[simp] theorem setLine_rev (k : Nat) (d : DelayBuf) (s : State) : (setLine k d s).rev = s.rev := rfl
@[simp] theorem setLine_gps (k : Nat) (d : DelayBuf) (s : State) : (setLine k d s).gps = s.gps := rfl
@[simp] theorem setLine_win (k : Nat) (d : DelayBuf) (s : State) : (setLine k d s).win = s.win := rfl
@[simp] theorem setLine_convN (k : Nat) (d : DelayBuf) (s : State) : (setLine k d s).convN = s.convN := rfl
@[simp] theorem setLine_convH (k : Nat) (d : DelayBuf) (s : State) : (setLine k d s).convH = s.convH := rfl
@[simp] theorem setLine_irLen (k : Nat) (d : DelayBuf) (s : State) : (setLine k d s).irLen = s.irLen := rfl
@[simp] theorem setLine_conv (k : Nat) (d : DelayBuf) (s : State) : (setLine k d s).conv = s.conv := rfl
@[simp] theorem setLine_lsrc (k : Nat) (d : DelayBuf) (s : State) : (setLine k d s).lsrc = s.lsrc := rfl
@[simp] theorem setLine_fssrc (k : Nat) (d : DelayBuf) (s : State) : (setLine k d s).fssrc = s.fssrc := rfl
@[simp] theorem setLine_ir (k : Nat) (d : DelayBuf) (s : State) : (setLine k d s).ir = s.ir := rfl
@[simp] theorem setLine_pst (k : Nat) (d : DelayBuf) (s : State) : (setLine k d s).pst = s.pst := rfl
@[simp] theorem setLine_inReset (k : Nat) (d : DelayBuf) (s : State) : (setLine k d s).inReset = s.inReset := rfl
@[simp] theorem setLine_schedule (k : Nat) (d : DelayBuf) (s : State) : (setLine k d s).schedule = s.schedule := rfl
@[simp] theorem setLine_reads (k : Nat) (d : DelayBuf) (s : State) : (setLine k d s).reads = s.reads := rfl
@[simp] theorem setLine_freeCount (k : Nat) (d : DelayBuf) (s : State) : (setLine k d s).freeCount = s.freeCount := rfl

/-! ### `setPre`: a write of a pre-delay ring (10_state R59) -/

@[simp] theorem setPre_inst (c : Nat) (d : DelayBuf) (s : State) : (setPre c d s).inst = s.inst := rfl
@[simp] theorem setPre_busy (c : Nat) (d : DelayBuf) (s : State) : (setPre c d s).busy = s.busy := rfl
@[simp] theorem setPre_cfg (c : Nat) (d : DelayBuf) (s : State) : (setPre c d s).cfg = s.cfg := rfl
@[simp] theorem setPre_done (c : Nat) (d : DelayBuf) (s : State) : (setPre c d s).done = s.done := rfl
@[simp] theorem setPre_err (c : Nat) (d : DelayBuf) (s : State) : (setPre c d s).err = s.err := rfl
@[simp] theorem setPre_pchg (c : Nat) (d : DelayBuf) (s : State) : (setPre c d s).pchg = s.pchg := rfl
@[simp] theorem setPre_irsess (c : Nat) (d : DelayBuf) (s : State) : (setPre c d s).irsess = s.irsess := rfl
@[simp] theorem setPre_irvalid (c : Nat) (d : DelayBuf) (s : State) : (setPre c d s).irvalid = s.irvalid := rfl
@[simp] theorem setPre_ctrl (c : Nat) (d : DelayBuf) (s : State) : (setPre c d s).ctrl = s.ctrl := rfl
@[simp] theorem setPre_arg (c : Nat) (d : DelayBuf) (s : State) : (setPre c d s).arg = s.arg := rfl
@[simp] theorem setPre_res0 (c : Nat) (d : DelayBuf) (s : State) : (setPre c d s).res0 = s.res0 := rfl
@[simp] theorem setPre_res1 (c : Nat) (d : DelayBuf) (s : State) : (setPre c d s).res1 = s.res1 := rfl
@[simp] theorem setPre_errcode (c : Nat) (d : DelayBuf) (s : State) : (setPre c d s).errcode = s.errcode := rfl
@[simp] theorem setPre_pchgIdx (c : Nat) (d : DelayBuf) (s : State) : (setPre c d s).pchgIdx = s.pchgIdx := rfl
@[simp] theorem setPre_name (c : Nat) (d : DelayBuf) (s : State) : (setPre c d s).name = s.name := rfl
@[simp] theorem setPre_lcmd (c : Nat) (d : DelayBuf) (s : State) : (setPre c d s).lcmd = s.lcmd := rfl
@[simp] theorem setPre_larg (c : Nat) (d : DelayBuf) (s : State) : (setPre c d s).larg = s.larg := rfl
@[simp] theorem setPre_lname (c : Nat) (d : DelayBuf) (s : State) : (setPre c d s).lname = s.lname := rfl
@[simp] theorem setPre_lctrl (c : Nat) (d : DelayBuf) (s : State) : (setPre c d s).lctrl = s.lctrl := rfl
@[simp] theorem setPre_fs (c : Nat) (d : DelayBuf) (s : State) : (setPre c d s).fs = s.fs := rfl
@[simp] theorem setPre_nch (c : Nat) (d : DelayBuf) (s : State) : (setPre c d s).nch = s.nch := rfl
@[simp] theorem setPre_dlycap (c : Nat) (d : DelayBuf) (s : State) : (setPre c d s).dlycap = s.dlycap := rfl
@[simp] theorem setPre_grain (c : Nat) (d : DelayBuf) (s : State) : (setPre c d s).grain = s.grain := rfl
@[simp] theorem setPre_ringB (c : Nat) (d : DelayBuf) (s : State) : (setPre c d s).ringB = s.ringB := rfl
@[simp] theorem setPre_mem (c : Nat) (d : DelayBuf) (s : State) : (setPre c d s).mem = s.mem := rfl
@[simp] theorem setPre_dlyl (c : Nat) (d : DelayBuf) (s : State) : (setPre c d s).dlyl = s.dlyl := rfl
@[simp] theorem setPre_prer (c : Nat) (d : DelayBuf) (s : State) : (setPre c d s).prer = s.prer.set c d := rfl
@[simp] theorem setPre_rev (c : Nat) (d : DelayBuf) (s : State) : (setPre c d s).rev = s.rev := rfl
@[simp] theorem setPre_gps (c : Nat) (d : DelayBuf) (s : State) : (setPre c d s).gps = s.gps := rfl
@[simp] theorem setPre_win (c : Nat) (d : DelayBuf) (s : State) : (setPre c d s).win = s.win := rfl
@[simp] theorem setPre_convN (c : Nat) (d : DelayBuf) (s : State) : (setPre c d s).convN = s.convN := rfl
@[simp] theorem setPre_convH (c : Nat) (d : DelayBuf) (s : State) : (setPre c d s).convH = s.convH := rfl
@[simp] theorem setPre_irLen (c : Nat) (d : DelayBuf) (s : State) : (setPre c d s).irLen = s.irLen := rfl
@[simp] theorem setPre_conv (c : Nat) (d : DelayBuf) (s : State) : (setPre c d s).conv = s.conv := rfl
@[simp] theorem setPre_lsrc (c : Nat) (d : DelayBuf) (s : State) : (setPre c d s).lsrc = s.lsrc := rfl
@[simp] theorem setPre_fssrc (c : Nat) (d : DelayBuf) (s : State) : (setPre c d s).fssrc = s.fssrc := rfl
@[simp] theorem setPre_ir (c : Nat) (d : DelayBuf) (s : State) : (setPre c d s).ir = s.ir := rfl
@[simp] theorem setPre_pst (c : Nat) (d : DelayBuf) (s : State) : (setPre c d s).pst = s.pst := rfl
@[simp] theorem setPre_inReset (c : Nat) (d : DelayBuf) (s : State) : (setPre c d s).inReset = s.inReset := rfl
@[simp] theorem setPre_schedule (c : Nat) (d : DelayBuf) (s : State) : (setPre c d s).schedule = s.schedule := rfl
@[simp] theorem setPre_reads (c : Nat) (d : DelayBuf) (s : State) : (setPre c d s).reads = s.reads := rfl
@[simp] theorem setPre_freeCount (c : Nat) (d : DelayBuf) (s : State) : (setPre c d s).freeCount = s.freeCount := rfl

/-! ### `setRev`: a write of a channel's reverb (10_state R60) -/

@[simp] theorem setRev_inst (c : Nat) (r : RevCh) (s : State) : (setRev c r s).inst = s.inst := rfl
@[simp] theorem setRev_busy (c : Nat) (r : RevCh) (s : State) : (setRev c r s).busy = s.busy := rfl
@[simp] theorem setRev_cfg (c : Nat) (r : RevCh) (s : State) : (setRev c r s).cfg = s.cfg := rfl
@[simp] theorem setRev_done (c : Nat) (r : RevCh) (s : State) : (setRev c r s).done = s.done := rfl
@[simp] theorem setRev_err (c : Nat) (r : RevCh) (s : State) : (setRev c r s).err = s.err := rfl
@[simp] theorem setRev_pchg (c : Nat) (r : RevCh) (s : State) : (setRev c r s).pchg = s.pchg := rfl
@[simp] theorem setRev_irsess (c : Nat) (r : RevCh) (s : State) : (setRev c r s).irsess = s.irsess := rfl
@[simp] theorem setRev_irvalid (c : Nat) (r : RevCh) (s : State) : (setRev c r s).irvalid = s.irvalid := rfl
@[simp] theorem setRev_ctrl (c : Nat) (r : RevCh) (s : State) : (setRev c r s).ctrl = s.ctrl := rfl
@[simp] theorem setRev_arg (c : Nat) (r : RevCh) (s : State) : (setRev c r s).arg = s.arg := rfl
@[simp] theorem setRev_res0 (c : Nat) (r : RevCh) (s : State) : (setRev c r s).res0 = s.res0 := rfl
@[simp] theorem setRev_res1 (c : Nat) (r : RevCh) (s : State) : (setRev c r s).res1 = s.res1 := rfl
@[simp] theorem setRev_errcode (c : Nat) (r : RevCh) (s : State) : (setRev c r s).errcode = s.errcode := rfl
@[simp] theorem setRev_pchgIdx (c : Nat) (r : RevCh) (s : State) : (setRev c r s).pchgIdx = s.pchgIdx := rfl
@[simp] theorem setRev_name (c : Nat) (r : RevCh) (s : State) : (setRev c r s).name = s.name := rfl
@[simp] theorem setRev_lcmd (c : Nat) (r : RevCh) (s : State) : (setRev c r s).lcmd = s.lcmd := rfl
@[simp] theorem setRev_larg (c : Nat) (r : RevCh) (s : State) : (setRev c r s).larg = s.larg := rfl
@[simp] theorem setRev_lname (c : Nat) (r : RevCh) (s : State) : (setRev c r s).lname = s.lname := rfl
@[simp] theorem setRev_lctrl (c : Nat) (r : RevCh) (s : State) : (setRev c r s).lctrl = s.lctrl := rfl
@[simp] theorem setRev_fs (c : Nat) (r : RevCh) (s : State) : (setRev c r s).fs = s.fs := rfl
@[simp] theorem setRev_nch (c : Nat) (r : RevCh) (s : State) : (setRev c r s).nch = s.nch := rfl
@[simp] theorem setRev_dlycap (c : Nat) (r : RevCh) (s : State) : (setRev c r s).dlycap = s.dlycap := rfl
@[simp] theorem setRev_grain (c : Nat) (r : RevCh) (s : State) : (setRev c r s).grain = s.grain := rfl
@[simp] theorem setRev_ringB (c : Nat) (r : RevCh) (s : State) : (setRev c r s).ringB = s.ringB := rfl
@[simp] theorem setRev_mem (c : Nat) (r : RevCh) (s : State) : (setRev c r s).mem = s.mem := rfl
@[simp] theorem setRev_dlyl (c : Nat) (r : RevCh) (s : State) : (setRev c r s).dlyl = s.dlyl := rfl
@[simp] theorem setRev_prer (c : Nat) (r : RevCh) (s : State) : (setRev c r s).prer = s.prer := rfl
@[simp] theorem setRev_rev (c : Nat) (r : RevCh) (s : State) : (setRev c r s).rev = s.rev.set c r := rfl
@[simp] theorem setRev_gps (c : Nat) (r : RevCh) (s : State) : (setRev c r s).gps = s.gps := rfl
@[simp] theorem setRev_win (c : Nat) (r : RevCh) (s : State) : (setRev c r s).win = s.win := rfl
@[simp] theorem setRev_convN (c : Nat) (r : RevCh) (s : State) : (setRev c r s).convN = s.convN := rfl
@[simp] theorem setRev_convH (c : Nat) (r : RevCh) (s : State) : (setRev c r s).convH = s.convH := rfl
@[simp] theorem setRev_irLen (c : Nat) (r : RevCh) (s : State) : (setRev c r s).irLen = s.irLen := rfl
@[simp] theorem setRev_conv (c : Nat) (r : RevCh) (s : State) : (setRev c r s).conv = s.conv := rfl
@[simp] theorem setRev_lsrc (c : Nat) (r : RevCh) (s : State) : (setRev c r s).lsrc = s.lsrc := rfl
@[simp] theorem setRev_fssrc (c : Nat) (r : RevCh) (s : State) : (setRev c r s).fssrc = s.fssrc := rfl
@[simp] theorem setRev_ir (c : Nat) (r : RevCh) (s : State) : (setRev c r s).ir = s.ir := rfl
@[simp] theorem setRev_pst (c : Nat) (r : RevCh) (s : State) : (setRev c r s).pst = s.pst := rfl
@[simp] theorem setRev_inReset (c : Nat) (r : RevCh) (s : State) : (setRev c r s).inReset = s.inReset := rfl
@[simp] theorem setRev_schedule (c : Nat) (r : RevCh) (s : State) : (setRev c r s).schedule = s.schedule := rfl
@[simp] theorem setRev_reads (c : Nat) (r : RevCh) (s : State) : (setRev c r s).reads = s.reads := rfl
@[simp] theorem setRev_freeCount (c : Nat) (r : RevCh) (s : State) : (setRev c r s).freeCount = s.freeCount := rfl

/-! ### `setGps`: a write of a channel's pitch shifter (10_state R61) -/

@[simp] theorem setGps_inst (c : Nat) (g : GpsCh) (s : State) : (setGps c g s).inst = s.inst := rfl
@[simp] theorem setGps_busy (c : Nat) (g : GpsCh) (s : State) : (setGps c g s).busy = s.busy := rfl
@[simp] theorem setGps_cfg (c : Nat) (g : GpsCh) (s : State) : (setGps c g s).cfg = s.cfg := rfl
@[simp] theorem setGps_done (c : Nat) (g : GpsCh) (s : State) : (setGps c g s).done = s.done := rfl
@[simp] theorem setGps_err (c : Nat) (g : GpsCh) (s : State) : (setGps c g s).err = s.err := rfl
@[simp] theorem setGps_pchg (c : Nat) (g : GpsCh) (s : State) : (setGps c g s).pchg = s.pchg := rfl
@[simp] theorem setGps_irsess (c : Nat) (g : GpsCh) (s : State) : (setGps c g s).irsess = s.irsess := rfl
@[simp] theorem setGps_irvalid (c : Nat) (g : GpsCh) (s : State) : (setGps c g s).irvalid = s.irvalid := rfl
@[simp] theorem setGps_ctrl (c : Nat) (g : GpsCh) (s : State) : (setGps c g s).ctrl = s.ctrl := rfl
@[simp] theorem setGps_arg (c : Nat) (g : GpsCh) (s : State) : (setGps c g s).arg = s.arg := rfl
@[simp] theorem setGps_res0 (c : Nat) (g : GpsCh) (s : State) : (setGps c g s).res0 = s.res0 := rfl
@[simp] theorem setGps_res1 (c : Nat) (g : GpsCh) (s : State) : (setGps c g s).res1 = s.res1 := rfl
@[simp] theorem setGps_errcode (c : Nat) (g : GpsCh) (s : State) : (setGps c g s).errcode = s.errcode := rfl
@[simp] theorem setGps_pchgIdx (c : Nat) (g : GpsCh) (s : State) : (setGps c g s).pchgIdx = s.pchgIdx := rfl
@[simp] theorem setGps_name (c : Nat) (g : GpsCh) (s : State) : (setGps c g s).name = s.name := rfl
@[simp] theorem setGps_lcmd (c : Nat) (g : GpsCh) (s : State) : (setGps c g s).lcmd = s.lcmd := rfl
@[simp] theorem setGps_larg (c : Nat) (g : GpsCh) (s : State) : (setGps c g s).larg = s.larg := rfl
@[simp] theorem setGps_lname (c : Nat) (g : GpsCh) (s : State) : (setGps c g s).lname = s.lname := rfl
@[simp] theorem setGps_lctrl (c : Nat) (g : GpsCh) (s : State) : (setGps c g s).lctrl = s.lctrl := rfl
@[simp] theorem setGps_fs (c : Nat) (g : GpsCh) (s : State) : (setGps c g s).fs = s.fs := rfl
@[simp] theorem setGps_nch (c : Nat) (g : GpsCh) (s : State) : (setGps c g s).nch = s.nch := rfl
@[simp] theorem setGps_dlycap (c : Nat) (g : GpsCh) (s : State) : (setGps c g s).dlycap = s.dlycap := rfl
@[simp] theorem setGps_grain (c : Nat) (g : GpsCh) (s : State) : (setGps c g s).grain = s.grain := rfl
@[simp] theorem setGps_ringB (c : Nat) (g : GpsCh) (s : State) : (setGps c g s).ringB = s.ringB := rfl
@[simp] theorem setGps_mem (c : Nat) (g : GpsCh) (s : State) : (setGps c g s).mem = s.mem := rfl
@[simp] theorem setGps_dlyl (c : Nat) (g : GpsCh) (s : State) : (setGps c g s).dlyl = s.dlyl := rfl
@[simp] theorem setGps_prer (c : Nat) (g : GpsCh) (s : State) : (setGps c g s).prer = s.prer := rfl
@[simp] theorem setGps_rev (c : Nat) (g : GpsCh) (s : State) : (setGps c g s).rev = s.rev := rfl
@[simp] theorem setGps_gps (c : Nat) (g : GpsCh) (s : State) : (setGps c g s).gps = s.gps.set c g := rfl
@[simp] theorem setGps_win (c : Nat) (g : GpsCh) (s : State) : (setGps c g s).win = s.win := rfl
@[simp] theorem setGps_convN (c : Nat) (g : GpsCh) (s : State) : (setGps c g s).convN = s.convN := rfl
@[simp] theorem setGps_convH (c : Nat) (g : GpsCh) (s : State) : (setGps c g s).convH = s.convH := rfl
@[simp] theorem setGps_irLen (c : Nat) (g : GpsCh) (s : State) : (setGps c g s).irLen = s.irLen := rfl
@[simp] theorem setGps_conv (c : Nat) (g : GpsCh) (s : State) : (setGps c g s).conv = s.conv := rfl
@[simp] theorem setGps_lsrc (c : Nat) (g : GpsCh) (s : State) : (setGps c g s).lsrc = s.lsrc := rfl
@[simp] theorem setGps_fssrc (c : Nat) (g : GpsCh) (s : State) : (setGps c g s).fssrc = s.fssrc := rfl
@[simp] theorem setGps_ir (c : Nat) (g : GpsCh) (s : State) : (setGps c g s).ir = s.ir := rfl
@[simp] theorem setGps_pst (c : Nat) (g : GpsCh) (s : State) : (setGps c g s).pst = s.pst := rfl
@[simp] theorem setGps_inReset (c : Nat) (g : GpsCh) (s : State) : (setGps c g s).inReset = s.inReset := rfl
@[simp] theorem setGps_schedule (c : Nat) (g : GpsCh) (s : State) : (setGps c g s).schedule = s.schedule := rfl
@[simp] theorem setGps_reads (c : Nat) (g : GpsCh) (s : State) : (setGps c g s).reads = s.reads := rfl
@[simp] theorem setGps_freeCount (c : Nat) (g : GpsCh) (s : State) : (setGps c g s).freeCount = s.freeCount := rfl

/-! ### `setConv`: a write of a channel's convolution engine (10_state R62) -/

@[simp] theorem setConv_inst (c : Nat) (v : ConvCh) (s : State) : (setConv c v s).inst = s.inst := rfl
@[simp] theorem setConv_busy (c : Nat) (v : ConvCh) (s : State) : (setConv c v s).busy = s.busy := rfl
@[simp] theorem setConv_cfg (c : Nat) (v : ConvCh) (s : State) : (setConv c v s).cfg = s.cfg := rfl
@[simp] theorem setConv_done (c : Nat) (v : ConvCh) (s : State) : (setConv c v s).done = s.done := rfl
@[simp] theorem setConv_err (c : Nat) (v : ConvCh) (s : State) : (setConv c v s).err = s.err := rfl
@[simp] theorem setConv_pchg (c : Nat) (v : ConvCh) (s : State) : (setConv c v s).pchg = s.pchg := rfl
@[simp] theorem setConv_irsess (c : Nat) (v : ConvCh) (s : State) : (setConv c v s).irsess = s.irsess := rfl
@[simp] theorem setConv_irvalid (c : Nat) (v : ConvCh) (s : State) : (setConv c v s).irvalid = s.irvalid := rfl
@[simp] theorem setConv_ctrl (c : Nat) (v : ConvCh) (s : State) : (setConv c v s).ctrl = s.ctrl := rfl
@[simp] theorem setConv_arg (c : Nat) (v : ConvCh) (s : State) : (setConv c v s).arg = s.arg := rfl
@[simp] theorem setConv_res0 (c : Nat) (v : ConvCh) (s : State) : (setConv c v s).res0 = s.res0 := rfl
@[simp] theorem setConv_res1 (c : Nat) (v : ConvCh) (s : State) : (setConv c v s).res1 = s.res1 := rfl
@[simp] theorem setConv_errcode (c : Nat) (v : ConvCh) (s : State) : (setConv c v s).errcode = s.errcode := rfl
@[simp] theorem setConv_pchgIdx (c : Nat) (v : ConvCh) (s : State) : (setConv c v s).pchgIdx = s.pchgIdx := rfl
@[simp] theorem setConv_name (c : Nat) (v : ConvCh) (s : State) : (setConv c v s).name = s.name := rfl
@[simp] theorem setConv_lcmd (c : Nat) (v : ConvCh) (s : State) : (setConv c v s).lcmd = s.lcmd := rfl
@[simp] theorem setConv_larg (c : Nat) (v : ConvCh) (s : State) : (setConv c v s).larg = s.larg := rfl
@[simp] theorem setConv_lname (c : Nat) (v : ConvCh) (s : State) : (setConv c v s).lname = s.lname := rfl
@[simp] theorem setConv_lctrl (c : Nat) (v : ConvCh) (s : State) : (setConv c v s).lctrl = s.lctrl := rfl
@[simp] theorem setConv_fs (c : Nat) (v : ConvCh) (s : State) : (setConv c v s).fs = s.fs := rfl
@[simp] theorem setConv_nch (c : Nat) (v : ConvCh) (s : State) : (setConv c v s).nch = s.nch := rfl
@[simp] theorem setConv_dlycap (c : Nat) (v : ConvCh) (s : State) : (setConv c v s).dlycap = s.dlycap := rfl
@[simp] theorem setConv_grain (c : Nat) (v : ConvCh) (s : State) : (setConv c v s).grain = s.grain := rfl
@[simp] theorem setConv_ringB (c : Nat) (v : ConvCh) (s : State) : (setConv c v s).ringB = s.ringB := rfl
@[simp] theorem setConv_mem (c : Nat) (v : ConvCh) (s : State) : (setConv c v s).mem = s.mem := rfl
@[simp] theorem setConv_dlyl (c : Nat) (v : ConvCh) (s : State) : (setConv c v s).dlyl = s.dlyl := rfl
@[simp] theorem setConv_prer (c : Nat) (v : ConvCh) (s : State) : (setConv c v s).prer = s.prer := rfl
@[simp] theorem setConv_rev (c : Nat) (v : ConvCh) (s : State) : (setConv c v s).rev = s.rev := rfl
@[simp] theorem setConv_gps (c : Nat) (v : ConvCh) (s : State) : (setConv c v s).gps = s.gps := rfl
@[simp] theorem setConv_win (c : Nat) (v : ConvCh) (s : State) : (setConv c v s).win = s.win := rfl
@[simp] theorem setConv_convN (c : Nat) (v : ConvCh) (s : State) : (setConv c v s).convN = s.convN := rfl
@[simp] theorem setConv_convH (c : Nat) (v : ConvCh) (s : State) : (setConv c v s).convH = s.convH := rfl
@[simp] theorem setConv_irLen (c : Nat) (v : ConvCh) (s : State) : (setConv c v s).irLen = s.irLen := rfl
@[simp] theorem setConv_conv (c : Nat) (v : ConvCh) (s : State) : (setConv c v s).conv = s.conv.set c v := rfl
@[simp] theorem setConv_lsrc (c : Nat) (v : ConvCh) (s : State) : (setConv c v s).lsrc = s.lsrc := rfl
@[simp] theorem setConv_fssrc (c : Nat) (v : ConvCh) (s : State) : (setConv c v s).fssrc = s.fssrc := rfl
@[simp] theorem setConv_ir (c : Nat) (v : ConvCh) (s : State) : (setConv c v s).ir = s.ir := rfl
@[simp] theorem setConv_pst (c : Nat) (v : ConvCh) (s : State) : (setConv c v s).pst = s.pst := rfl
@[simp] theorem setConv_inReset (c : Nat) (v : ConvCh) (s : State) : (setConv c v s).inReset = s.inReset := rfl
@[simp] theorem setConv_schedule (c : Nat) (v : ConvCh) (s : State) : (setConv c v s).schedule = s.schedule := rfl
@[simp] theorem setConv_reads (c : Nat) (v : ConvCh) (s : State) : (setConv c v s).reads = s.reads := rfl
@[simp] theorem setConv_freeCount (c : Nat) (v : ConvCh) (s : State) : (setConv c v s).freeCount = s.freeCount := rfl

/-! ### `setIr`: a write of a channel's raw impulse response (10_state R63) -/

@[simp] theorem setIr_inst (c : Nat) (r : IrCh) (s : State) : (setIr c r s).inst = s.inst := rfl
@[simp] theorem setIr_busy (c : Nat) (r : IrCh) (s : State) : (setIr c r s).busy = s.busy := rfl
@[simp] theorem setIr_cfg (c : Nat) (r : IrCh) (s : State) : (setIr c r s).cfg = s.cfg := rfl
@[simp] theorem setIr_done (c : Nat) (r : IrCh) (s : State) : (setIr c r s).done = s.done := rfl
@[simp] theorem setIr_err (c : Nat) (r : IrCh) (s : State) : (setIr c r s).err = s.err := rfl
@[simp] theorem setIr_pchg (c : Nat) (r : IrCh) (s : State) : (setIr c r s).pchg = s.pchg := rfl
@[simp] theorem setIr_irsess (c : Nat) (r : IrCh) (s : State) : (setIr c r s).irsess = s.irsess := rfl
@[simp] theorem setIr_irvalid (c : Nat) (r : IrCh) (s : State) : (setIr c r s).irvalid = s.irvalid := rfl
@[simp] theorem setIr_ctrl (c : Nat) (r : IrCh) (s : State) : (setIr c r s).ctrl = s.ctrl := rfl
@[simp] theorem setIr_arg (c : Nat) (r : IrCh) (s : State) : (setIr c r s).arg = s.arg := rfl
@[simp] theorem setIr_res0 (c : Nat) (r : IrCh) (s : State) : (setIr c r s).res0 = s.res0 := rfl
@[simp] theorem setIr_res1 (c : Nat) (r : IrCh) (s : State) : (setIr c r s).res1 = s.res1 := rfl
@[simp] theorem setIr_errcode (c : Nat) (r : IrCh) (s : State) : (setIr c r s).errcode = s.errcode := rfl
@[simp] theorem setIr_pchgIdx (c : Nat) (r : IrCh) (s : State) : (setIr c r s).pchgIdx = s.pchgIdx := rfl
@[simp] theorem setIr_name (c : Nat) (r : IrCh) (s : State) : (setIr c r s).name = s.name := rfl
@[simp] theorem setIr_lcmd (c : Nat) (r : IrCh) (s : State) : (setIr c r s).lcmd = s.lcmd := rfl
@[simp] theorem setIr_larg (c : Nat) (r : IrCh) (s : State) : (setIr c r s).larg = s.larg := rfl
@[simp] theorem setIr_lname (c : Nat) (r : IrCh) (s : State) : (setIr c r s).lname = s.lname := rfl
@[simp] theorem setIr_lctrl (c : Nat) (r : IrCh) (s : State) : (setIr c r s).lctrl = s.lctrl := rfl
@[simp] theorem setIr_fs (c : Nat) (r : IrCh) (s : State) : (setIr c r s).fs = s.fs := rfl
@[simp] theorem setIr_nch (c : Nat) (r : IrCh) (s : State) : (setIr c r s).nch = s.nch := rfl
@[simp] theorem setIr_dlycap (c : Nat) (r : IrCh) (s : State) : (setIr c r s).dlycap = s.dlycap := rfl
@[simp] theorem setIr_grain (c : Nat) (r : IrCh) (s : State) : (setIr c r s).grain = s.grain := rfl
@[simp] theorem setIr_ringB (c : Nat) (r : IrCh) (s : State) : (setIr c r s).ringB = s.ringB := rfl
@[simp] theorem setIr_mem (c : Nat) (r : IrCh) (s : State) : (setIr c r s).mem = s.mem := rfl
@[simp] theorem setIr_dlyl (c : Nat) (r : IrCh) (s : State) : (setIr c r s).dlyl = s.dlyl := rfl
@[simp] theorem setIr_prer (c : Nat) (r : IrCh) (s : State) : (setIr c r s).prer = s.prer := rfl
@[simp] theorem setIr_rev (c : Nat) (r : IrCh) (s : State) : (setIr c r s).rev = s.rev := rfl
@[simp] theorem setIr_gps (c : Nat) (r : IrCh) (s : State) : (setIr c r s).gps = s.gps := rfl
@[simp] theorem setIr_win (c : Nat) (r : IrCh) (s : State) : (setIr c r s).win = s.win := rfl
@[simp] theorem setIr_convN (c : Nat) (r : IrCh) (s : State) : (setIr c r s).convN = s.convN := rfl
@[simp] theorem setIr_convH (c : Nat) (r : IrCh) (s : State) : (setIr c r s).convH = s.convH := rfl
@[simp] theorem setIr_irLen (c : Nat) (r : IrCh) (s : State) : (setIr c r s).irLen = s.irLen := rfl
@[simp] theorem setIr_conv (c : Nat) (r : IrCh) (s : State) : (setIr c r s).conv = s.conv := rfl
@[simp] theorem setIr_lsrc (c : Nat) (r : IrCh) (s : State) : (setIr c r s).lsrc = s.lsrc := rfl
@[simp] theorem setIr_fssrc (c : Nat) (r : IrCh) (s : State) : (setIr c r s).fssrc = s.fssrc := rfl
@[simp] theorem setIr_ir (c : Nat) (r : IrCh) (s : State) : (setIr c r s).ir = s.ir.set c r := rfl
@[simp] theorem setIr_pst (c : Nat) (r : IrCh) (s : State) : (setIr c r s).pst = s.pst := rfl
@[simp] theorem setIr_inReset (c : Nat) (r : IrCh) (s : State) : (setIr c r s).inReset = s.inReset := rfl
@[simp] theorem setIr_schedule (c : Nat) (r : IrCh) (s : State) : (setIr c r s).schedule = s.schedule := rfl
@[simp] theorem setIr_reads (c : Nat) (r : IrCh) (s : State) : (setIr c r s).reads = s.reads := rfl
@[simp] theorem setIr_freeCount (c : Nat) (r : IrCh) (s : State) : (setIr c r s).freeCount = s.freeCount := rfl

/-! ### `setEntry`: a write of a parameter entry (10_state R64) -/

@[simp] theorem setEntry_inst (e : Nat) (x : PEntry) (s : State) : (setEntry e x s).inst = s.inst := rfl
@[simp] theorem setEntry_busy (e : Nat) (x : PEntry) (s : State) : (setEntry e x s).busy = s.busy := rfl
@[simp] theorem setEntry_cfg (e : Nat) (x : PEntry) (s : State) : (setEntry e x s).cfg = s.cfg := rfl
@[simp] theorem setEntry_done (e : Nat) (x : PEntry) (s : State) : (setEntry e x s).done = s.done := rfl
@[simp] theorem setEntry_err (e : Nat) (x : PEntry) (s : State) : (setEntry e x s).err = s.err := rfl
@[simp] theorem setEntry_pchg (e : Nat) (x : PEntry) (s : State) : (setEntry e x s).pchg = s.pchg := rfl
@[simp] theorem setEntry_irsess (e : Nat) (x : PEntry) (s : State) : (setEntry e x s).irsess = s.irsess := rfl
@[simp] theorem setEntry_irvalid (e : Nat) (x : PEntry) (s : State) : (setEntry e x s).irvalid = s.irvalid := rfl
@[simp] theorem setEntry_ctrl (e : Nat) (x : PEntry) (s : State) : (setEntry e x s).ctrl = s.ctrl := rfl
@[simp] theorem setEntry_arg (e : Nat) (x : PEntry) (s : State) : (setEntry e x s).arg = s.arg := rfl
@[simp] theorem setEntry_res0 (e : Nat) (x : PEntry) (s : State) : (setEntry e x s).res0 = s.res0 := rfl
@[simp] theorem setEntry_res1 (e : Nat) (x : PEntry) (s : State) : (setEntry e x s).res1 = s.res1 := rfl
@[simp] theorem setEntry_errcode (e : Nat) (x : PEntry) (s : State) : (setEntry e x s).errcode = s.errcode := rfl
@[simp] theorem setEntry_pchgIdx (e : Nat) (x : PEntry) (s : State) : (setEntry e x s).pchgIdx = s.pchgIdx := rfl
@[simp] theorem setEntry_name (e : Nat) (x : PEntry) (s : State) : (setEntry e x s).name = s.name := rfl
@[simp] theorem setEntry_lcmd (e : Nat) (x : PEntry) (s : State) : (setEntry e x s).lcmd = s.lcmd := rfl
@[simp] theorem setEntry_larg (e : Nat) (x : PEntry) (s : State) : (setEntry e x s).larg = s.larg := rfl
@[simp] theorem setEntry_lname (e : Nat) (x : PEntry) (s : State) : (setEntry e x s).lname = s.lname := rfl
@[simp] theorem setEntry_lctrl (e : Nat) (x : PEntry) (s : State) : (setEntry e x s).lctrl = s.lctrl := rfl
@[simp] theorem setEntry_fs (e : Nat) (x : PEntry) (s : State) : (setEntry e x s).fs = s.fs := rfl
@[simp] theorem setEntry_nch (e : Nat) (x : PEntry) (s : State) : (setEntry e x s).nch = s.nch := rfl
@[simp] theorem setEntry_dlycap (e : Nat) (x : PEntry) (s : State) : (setEntry e x s).dlycap = s.dlycap := rfl
@[simp] theorem setEntry_grain (e : Nat) (x : PEntry) (s : State) : (setEntry e x s).grain = s.grain := rfl
@[simp] theorem setEntry_ringB (e : Nat) (x : PEntry) (s : State) : (setEntry e x s).ringB = s.ringB := rfl
@[simp] theorem setEntry_mem (e : Nat) (x : PEntry) (s : State) : (setEntry e x s).mem = s.mem := rfl
@[simp] theorem setEntry_dlyl (e : Nat) (x : PEntry) (s : State) : (setEntry e x s).dlyl = s.dlyl := rfl
@[simp] theorem setEntry_prer (e : Nat) (x : PEntry) (s : State) : (setEntry e x s).prer = s.prer := rfl
@[simp] theorem setEntry_rev (e : Nat) (x : PEntry) (s : State) : (setEntry e x s).rev = s.rev := rfl
@[simp] theorem setEntry_gps (e : Nat) (x : PEntry) (s : State) : (setEntry e x s).gps = s.gps := rfl
@[simp] theorem setEntry_win (e : Nat) (x : PEntry) (s : State) : (setEntry e x s).win = s.win := rfl
@[simp] theorem setEntry_convN (e : Nat) (x : PEntry) (s : State) : (setEntry e x s).convN = s.convN := rfl
@[simp] theorem setEntry_convH (e : Nat) (x : PEntry) (s : State) : (setEntry e x s).convH = s.convH := rfl
@[simp] theorem setEntry_irLen (e : Nat) (x : PEntry) (s : State) : (setEntry e x s).irLen = s.irLen := rfl
@[simp] theorem setEntry_conv (e : Nat) (x : PEntry) (s : State) : (setEntry e x s).conv = s.conv := rfl
@[simp] theorem setEntry_lsrc (e : Nat) (x : PEntry) (s : State) : (setEntry e x s).lsrc = s.lsrc := rfl
@[simp] theorem setEntry_fssrc (e : Nat) (x : PEntry) (s : State) : (setEntry e x s).fssrc = s.fssrc := rfl
@[simp] theorem setEntry_ir (e : Nat) (x : PEntry) (s : State) : (setEntry e x s).ir = s.ir := rfl
@[simp] theorem setEntry_pst (e : Nat) (x : PEntry) (s : State) : (setEntry e x s).pst = s.pst.set e x := rfl
@[simp] theorem setEntry_inReset (e : Nat) (x : PEntry) (s : State) : (setEntry e x s).inReset = s.inReset := rfl
@[simp] theorem setEntry_schedule (e : Nat) (x : PEntry) (s : State) : (setEntry e x s).schedule = s.schedule := rfl
@[simp] theorem setEntry_reads (e : Nat) (x : PEntry) (s : State) : (setEntry e x s).reads = s.reads := rfl
@[simp] theorem setEntry_freeCount (e : Nat) (x : PEntry) (s : State) : (setEntry e x s).freeCount = s.freeCount := rfl

/-! ### `notify`: a change notification (46_parameter_store R437) -/

@[simp] theorem notify_inst (e : Nat) (s : State) : (notify e s).inst = s.inst := rfl
@[simp] theorem notify_busy (e : Nat) (s : State) : (notify e s).busy = s.busy := rfl
@[simp] theorem notify_cfg (e : Nat) (s : State) : (notify e s).cfg = s.cfg := rfl
@[simp] theorem notify_done (e : Nat) (s : State) : (notify e s).done = s.done := rfl
@[simp] theorem notify_err (e : Nat) (s : State) : (notify e s).err = s.err := rfl
@[simp] theorem notify_pchg (e : Nat) (s : State) : (notify e s).pchg = true := rfl
@[simp] theorem notify_irsess (e : Nat) (s : State) : (notify e s).irsess = s.irsess := rfl
@[simp] theorem notify_irvalid (e : Nat) (s : State) : (notify e s).irvalid = s.irvalid := rfl
@[simp] theorem notify_ctrl (e : Nat) (s : State) : (notify e s).ctrl = s.ctrl := rfl
@[simp] theorem notify_arg (e : Nat) (s : State) : (notify e s).arg = s.arg := rfl
@[simp] theorem notify_res0 (e : Nat) (s : State) : (notify e s).res0 = s.res0 := rfl
@[simp] theorem notify_res1 (e : Nat) (s : State) : (notify e s).res1 = s.res1 := rfl
@[simp] theorem notify_errcode (e : Nat) (s : State) : (notify e s).errcode = s.errcode := rfl
@[simp] theorem notify_pchgIdx (e : Nat) (s : State) : (notify e s).pchgIdx = BitVec.ofNat 8 e := rfl
@[simp] theorem notify_name (e : Nat) (s : State) : (notify e s).name = s.name := rfl
@[simp] theorem notify_lcmd (e : Nat) (s : State) : (notify e s).lcmd = s.lcmd := rfl
@[simp] theorem notify_larg (e : Nat) (s : State) : (notify e s).larg = s.larg := rfl
@[simp] theorem notify_lname (e : Nat) (s : State) : (notify e s).lname = s.lname := rfl
@[simp] theorem notify_lctrl (e : Nat) (s : State) : (notify e s).lctrl = s.lctrl := rfl
@[simp] theorem notify_fs (e : Nat) (s : State) : (notify e s).fs = s.fs := rfl
@[simp] theorem notify_nch (e : Nat) (s : State) : (notify e s).nch = s.nch := rfl
@[simp] theorem notify_dlycap (e : Nat) (s : State) : (notify e s).dlycap = s.dlycap := rfl
@[simp] theorem notify_grain (e : Nat) (s : State) : (notify e s).grain = s.grain := rfl
@[simp] theorem notify_ringB (e : Nat) (s : State) : (notify e s).ringB = s.ringB := rfl
@[simp] theorem notify_mem (e : Nat) (s : State) : (notify e s).mem = s.mem := rfl
@[simp] theorem notify_dlyl (e : Nat) (s : State) : (notify e s).dlyl = s.dlyl := rfl
@[simp] theorem notify_prer (e : Nat) (s : State) : (notify e s).prer = s.prer := rfl
@[simp] theorem notify_rev (e : Nat) (s : State) : (notify e s).rev = s.rev := rfl
@[simp] theorem notify_gps (e : Nat) (s : State) : (notify e s).gps = s.gps := rfl
@[simp] theorem notify_win (e : Nat) (s : State) : (notify e s).win = s.win := rfl
@[simp] theorem notify_convN (e : Nat) (s : State) : (notify e s).convN = s.convN := rfl
@[simp] theorem notify_convH (e : Nat) (s : State) : (notify e s).convH = s.convH := rfl
@[simp] theorem notify_irLen (e : Nat) (s : State) : (notify e s).irLen = s.irLen := rfl
@[simp] theorem notify_conv (e : Nat) (s : State) : (notify e s).conv = s.conv := rfl
@[simp] theorem notify_lsrc (e : Nat) (s : State) : (notify e s).lsrc = s.lsrc := rfl
@[simp] theorem notify_fssrc (e : Nat) (s : State) : (notify e s).fssrc = s.fssrc := rfl
@[simp] theorem notify_ir (e : Nat) (s : State) : (notify e s).ir = s.ir := rfl
@[simp] theorem notify_pst (e : Nat) (s : State) : (notify e s).pst = s.pst := rfl
@[simp] theorem notify_inReset (e : Nat) (s : State) : (notify e s).inReset = s.inReset := rfl
@[simp] theorem notify_schedule (e : Nat) (s : State) : (notify e s).schedule = s.schedule := rfl
@[simp] theorem notify_reads (e : Nat) (s : State) : (notify e s).reads = s.reads := rfl
@[simp] theorem notify_freeCount (e : Nat) (s : State) : (notify e s).freeCount = s.freeCount := rfl

/-! ### `statusWrite`: a Host write to STATUS (10_state R42) -/

@[simp] theorem statusWrite_inst (v : Word) (s : State) : (statusWrite v s).inst = s.inst := rfl
@[simp] theorem statusWrite_busy (v : Word) (s : State) : (statusWrite v s).busy = s.busy := rfl
@[simp] theorem statusWrite_cfg (v : Word) (s : State) : (statusWrite v s).cfg = s.cfg := rfl
@[simp] theorem statusWrite_done (v : Word) (s : State) : (statusWrite v s).done = (s.done && !v.getLsbD 2) := rfl
@[simp] theorem statusWrite_err (v : Word) (s : State) : (statusWrite v s).err = (s.err && !v.getLsbD 3) := rfl
@[simp] theorem statusWrite_pchg (v : Word) (s : State) : (statusWrite v s).pchg = (s.pchg && !v.getLsbD 4) := rfl
@[simp] theorem statusWrite_irsess (v : Word) (s : State) : (statusWrite v s).irsess = s.irsess := rfl
@[simp] theorem statusWrite_irvalid (v : Word) (s : State) : (statusWrite v s).irvalid = s.irvalid := rfl
@[simp] theorem statusWrite_ctrl (v : Word) (s : State) : (statusWrite v s).ctrl = s.ctrl := rfl
@[simp] theorem statusWrite_arg (v : Word) (s : State) : (statusWrite v s).arg = s.arg := rfl
@[simp] theorem statusWrite_res0 (v : Word) (s : State) : (statusWrite v s).res0 = s.res0 := rfl
@[simp] theorem statusWrite_res1 (v : Word) (s : State) : (statusWrite v s).res1 = s.res1 := rfl
@[simp] theorem statusWrite_errcode (v : Word) (s : State) : (statusWrite v s).errcode = if v.getLsbD 3 then 0#32 else s.errcode := rfl
@[simp] theorem statusWrite_pchgIdx (v : Word) (s : State) : (statusWrite v s).pchgIdx = s.pchgIdx := rfl
@[simp] theorem statusWrite_name (v : Word) (s : State) : (statusWrite v s).name = s.name := rfl
@[simp] theorem statusWrite_lcmd (v : Word) (s : State) : (statusWrite v s).lcmd = s.lcmd := rfl
@[simp] theorem statusWrite_larg (v : Word) (s : State) : (statusWrite v s).larg = s.larg := rfl
@[simp] theorem statusWrite_lname (v : Word) (s : State) : (statusWrite v s).lname = s.lname := rfl
@[simp] theorem statusWrite_lctrl (v : Word) (s : State) : (statusWrite v s).lctrl = s.lctrl := rfl
@[simp] theorem statusWrite_fs (v : Word) (s : State) : (statusWrite v s).fs = s.fs := rfl
@[simp] theorem statusWrite_nch (v : Word) (s : State) : (statusWrite v s).nch = s.nch := rfl
@[simp] theorem statusWrite_dlycap (v : Word) (s : State) : (statusWrite v s).dlycap = s.dlycap := rfl
@[simp] theorem statusWrite_grain (v : Word) (s : State) : (statusWrite v s).grain = s.grain := rfl
@[simp] theorem statusWrite_ringB (v : Word) (s : State) : (statusWrite v s).ringB = s.ringB := rfl
@[simp] theorem statusWrite_mem (v : Word) (s : State) : (statusWrite v s).mem = s.mem := rfl
@[simp] theorem statusWrite_dlyl (v : Word) (s : State) : (statusWrite v s).dlyl = s.dlyl := rfl
@[simp] theorem statusWrite_prer (v : Word) (s : State) : (statusWrite v s).prer = s.prer := rfl
@[simp] theorem statusWrite_rev (v : Word) (s : State) : (statusWrite v s).rev = s.rev := rfl
@[simp] theorem statusWrite_gps (v : Word) (s : State) : (statusWrite v s).gps = s.gps := rfl
@[simp] theorem statusWrite_win (v : Word) (s : State) : (statusWrite v s).win = s.win := rfl
@[simp] theorem statusWrite_convN (v : Word) (s : State) : (statusWrite v s).convN = s.convN := rfl
@[simp] theorem statusWrite_convH (v : Word) (s : State) : (statusWrite v s).convH = s.convH := rfl
@[simp] theorem statusWrite_irLen (v : Word) (s : State) : (statusWrite v s).irLen = s.irLen := rfl
@[simp] theorem statusWrite_conv (v : Word) (s : State) : (statusWrite v s).conv = s.conv := rfl
@[simp] theorem statusWrite_lsrc (v : Word) (s : State) : (statusWrite v s).lsrc = s.lsrc := rfl
@[simp] theorem statusWrite_fssrc (v : Word) (s : State) : (statusWrite v s).fssrc = s.fssrc := rfl
@[simp] theorem statusWrite_ir (v : Word) (s : State) : (statusWrite v s).ir = s.ir := rfl
@[simp] theorem statusWrite_pst (v : Word) (s : State) : (statusWrite v s).pst = s.pst := rfl
@[simp] theorem statusWrite_inReset (v : Word) (s : State) : (statusWrite v s).inReset = s.inReset := rfl
@[simp] theorem statusWrite_schedule (v : Word) (s : State) : (statusWrite v s).schedule = s.schedule := rfl
@[simp] theorem statusWrite_reads (v : Word) (s : State) : (statusWrite v s).reads = s.reads := rfl
@[simp] theorem statusWrite_freeCount (v : Word) (s : State) : (statusWrite v s).freeCount = s.freeCount := rfl

end Sys2Proof.Machine
end

