-- ==== Sys2Proof/Laws/Ops.lean ====
section
/-! SUPPORT. One lemma per shared operation: what it answers, what it leaves, and what a later read of the same piece of state gives. -/

namespace Sys2Proof.Machine

/-! ### Completion, refusal and warning -/

@[simp] theorem finish_next (s : State) : finish s = .next (complete s) := rfl

/-- A refusal records its error under the opcode of the latched command and completes (60_exceptions R473). -/
@[simp] theorem refuse_next (e : ErrCode) (s : State) : refuse e s = .next (complete (recordError e (cmdOpc s) s)) := rfl

@[simp] theorem warnIf_false (e : ErrCode) (s : State) : warnIf false e s = s := rfl

@[simp] theorem warnIf_true (e : ErrCode) (s : State) : warnIf true e s = recordError e (cmdOpc s) s := rfl

/-- A warning changes ERR and ERRCODE and nothing else (60_exceptions R474). -/
theorem warnIf_eq (b : Bool) (e : ErrCode) (s : State) :
    warnIf b e s = { s with err := s.err || b, errcode := if b then errcodeAfter s.err s.errcode e (cmdOpc s) else s.errcode } := by
  cases b <;> simp [warnIf, recordError]

@[simp] theorem cmdOpc_recordError (e : ErrCode) (o : Byte) (s : State) : cmdOpc (recordError e o s) = cmdOpc s := rfl

theorem errcodeAfter_first (old : Word) (e : ErrCode) (o : Byte) : errcodeAfter false old e o = errWord e o := rfl

theorem errcodeAfter_later (old : Word) (e : ErrCode) (o : Byte) : errcodeAfter true old e o = old ||| ovfMask := rfl

/-! ### Reset -/

/-- Reset: the values of the instance, and the model's own fields as they were (70_reset R511). -/
theorem resetAll_eq (s : State) :
    resetAll s = { State.resetOf s.inst with schedule := s.schedule, reads := s.reads, freeCount := s.freeCount } := rfl

@[simp] theorem resetAll_inst (s : State) : (resetAll s).inst = s.inst := rfl

@[simp] theorem resetAll_schedule (s : State) : (resetAll s).schedule = s.schedule := rfl

@[simp] theorem resetAll_reads (s : State) : (resetAll s).reads = s.reads := rfl

@[simp] theorem resetAll_mem (s : State) : (resetAll s).mem = [] := rfl

/-! ### The windows -/

/-- An OUT word written reads back. -/
@[simp] theorem outWord_setOut_same (i : Nat) (v : Word) (s : State) : outWord (setOut i v s) i = v := by
  simp [outWord]

theorem outWord_setOut_other (i j : Nat) (v : Word) (s : State) (h : j ≠ i) : outWord (setOut i v s) j = outWord s j := by
  simp only [outWord, setOut_mem]
  exact readWord_writeWord_other _ _ _ _ (by simp only [outAddr]; omega)

/-- The two windows do not alias (41_effect_contract R222): writing OUT leaves every IN word of the largest window. -/
theorem inWord_setOut (i j : Nat) (v : Word) (s : State) (h : j < 4096) : inWord (setOut i v s) j = inWord s j := by
  simp only [inWord, setOut_mem]
  exact readWord_writeWord_other _ _ _ _ (by simp only [outAddr, inAddr]; omega)

/-! ### The units: a read after a write of the same list of units -/

theorem lineAt_setLine (k j : Nat) (d : DelayBuf) (s : State) :
    lineAt (setLine k d s) j = if k = j ∧ k < s.dlyl.length then d else lineAt s j := by
  simp only [lineAt, setLine_dlyl, List.getD_eq_getElem?_getD, List.getElem?_set]
  by_cases h : k = j
  · subst h
    by_cases hl : k < s.dlyl.length <;> simp [hl]
  · simp [h]

theorem preAt_setPre (k j : Nat) (d : DelayBuf) (s : State) :
    preAt (setPre k d s) j = if k = j ∧ k < s.prer.length then d else preAt s j := by
  simp only [preAt, setPre_prer, List.getD_eq_getElem?_getD, List.getElem?_set]
  by_cases h : k = j
  · subst h
    by_cases hl : k < s.prer.length <;> simp [hl]
  · simp [h]

theorem revAt_setRev (k j : Nat) (r : RevCh) (s : State) :
    revAt (setRev k r s) j = if k = j ∧ k < s.rev.length then r else revAt s j := by
  simp only [revAt, setRev_rev, List.getD_eq_getElem?_getD, List.getElem?_set]
  by_cases h : k = j
  · subst h
    by_cases hl : k < s.rev.length <;> simp [hl]
  · simp [h]

theorem gpsAt_setGps (k j : Nat) (g : GpsCh) (s : State) :
    gpsAt (setGps k g s) j = if k = j ∧ k < s.gps.length then g else gpsAt s j := by
  simp only [gpsAt, setGps_gps, List.getD_eq_getElem?_getD, List.getElem?_set]
  by_cases h : k = j
  · subst h
    by_cases hl : k < s.gps.length <;> simp [hl]
  · simp [h]

theorem convAt_setConv (k j : Nat) (v : ConvCh) (s : State) :
    convAt (setConv k v s) j = if k = j ∧ k < s.conv.length then v else convAt s j := by
  simp only [convAt, setConv_conv, List.getD_eq_getElem?_getD, List.getElem?_set]
  by_cases h : k = j
  · subst h
    by_cases hl : k < s.conv.length <;> simp [hl]
  · simp [h]

theorem entryAt_setEntry (k j : Nat) (x : PEntry) (s : State) :
    entryAt (setEntry k x s) j = if k = j ∧ k < s.pst.length then x else entryAt s j := by
  simp only [entryAt, setEntry_pst, List.getD_eq_getElem?_getD, List.getElem?_set]
  by_cases h : k = j
  · subst h
    by_cases hl : k < s.pst.length <;> simp [hl]
  · simp [h]

/-- Putting back what stands there changes nothing. -/
theorem setConv_self (k : Nat) (s : State) : setConv k (convAt s k) s = s := by
  have h : s.conv.set k (convAt s k) = s.conv := by
    apply List.ext_getElem?
    intro j
    rw [List.getElem?_set]
    by_cases hk : k = j
    · subst hk
      by_cases hl : k < s.conv.length
      · simp [hl, convAt]
      · simp [hl]
    · simp [hk]
  simp [setConv, h]

/-! ### Delay buffers -/

@[simp] theorem dbWrite_cap (db : DelayBuf) (x : F32) : (dbWrite db x).cap = db.cap := rfl

@[simp] theorem dbWrite_w (db : DelayBuf) (x : F32) : (dbWrite db x).w = (db.w + 1) % db.cap := rfl

theorem dbWrite_get (db : DelayBuf) (x : F32) (j : Nat) :
    sparseGet (dbWrite db x).buf j = if j = db.w then x else sparseGet db.buf j := sparseGet_set _ _ _ _

/-- The cursor stays inside a buffer that has a capacity (10_state R57). -/
theorem dbWrite_cursor (db : DelayBuf) (x : F32) (h : 0 < db.cap) : (dbWrite db x).w < db.cap := Nat.mod_lt _ h

/-- An empty buffer reads +0.0 at every delay (42_delay_buffer R261). -/
@[simp] theorem dbRead_empty (cap : Nat) (d : Int) : dbRead (DelayBuf.empty cap) d = 0#32 := rfl

@[simp] theorem combStep_output (k : RevCoeffs) (cb : Comb) (x : F32) : (combStep k cb x).1 = dbRead cb.db ((cb.db.cap : Int) - 1) := rfl

@[simp] theorem combStep_cap (k : RevCoeffs) (cb : Comb) (x : F32) : (combStep k cb x).2.db.cap = cb.db.cap := rfl

@[simp] theorem apStep_cap (ab : DelayBuf) (y : F32) : (apStep ab y).2.cap = ab.cap := rfl

end Sys2Proof.Machine
end

