-- ==== Sys2Proof/Laws/PerInstr.lean ====
section
/-! SUPPORT. Families of statements made for every command, one lemma per constructor of Instr: FieldsInPlace, that the encoder puts every
field of 30_encoding R140 where the decoder's field functions read it. -/

namespace Sys2Proof.Laws

theorem fieldOpc_cmdw (o : BitVec 8) (u : BitVec 4) (m : BitVec 16) : fieldOpc (cmdw o u m) = o := by
  unfold fieldOpc cmdw
  apply BitVec.eq_of_getLsbD_eq
  intro i hi
  simp only [BitVec.getLsbD_extractLsb', BitVec.getLsbD_append, hi, decide_true, Bool.true_and]
  rw [if_neg (by omega)]
  congr 1
  omega

theorem fieldRsv_cmdw (o : BitVec 8) (u : BitVec 4) (m : BitVec 16) : fieldRsv (cmdw o u m) = 0#4 := by
  unfold fieldRsv cmdw
  apply BitVec.eq_of_getLsbD_eq
  intro i hi
  simp only [BitVec.getLsbD_extractLsb', BitVec.getLsbD_append, hi, decide_true, Bool.true_and]
  rw [if_pos (by omega), if_neg (by omega)]
  simp

theorem fieldUnit_cmdw (o : BitVec 8) (u : BitVec 4) (m : BitVec 16) : fieldUnit (cmdw o u m) = u := by
  unfold fieldUnit cmdw
  apply BitVec.eq_of_getLsbD_eq
  intro i hi
  simp only [BitVec.getLsbD_extractLsb', BitVec.getLsbD_append, hi, decide_true, Bool.true_and]
  rw [if_pos (by omega), if_pos (by omega), if_neg (by omega)]
  congr 1
  omega

theorem fieldImm_cmdw (o : BitVec 8) (u : BitVec 4) (m : BitVec 16) : fieldImm (cmdw o u m) = m := by
  unfold fieldImm cmdw
  apply BitVec.eq_of_getLsbD_eq
  intro i hi
  simp only [BitVec.getLsbD_extractLsb', BitVec.getLsbD_append, hi, decide_true, Bool.true_and]
  rw [if_pos (by omega), if_pos (by omega), if_pos (by omega)]
  congr 1
  omega

/-- The fields of the encoded word of a command stand where 30_encoding R140 puts them, and RSV is 0. -/
def FieldsInPlace.Statement (i : Instr) : Prop :=
  i.wellFormed = true → fieldOpc (encode i) = i.opcode ∧ fieldRsv (encode i) = 0#4 ∧ fieldUnit (encode i) = i.unitField
    ∧ fieldImm (encode i) = i.immField

theorem fieldsInPlace_of (i : Instr) : FieldsInPlace.Statement i :=
  fun _ => ⟨fieldOpc_cmdw _ _ _, fieldRsv_cmdw _ _ _, fieldUnit_cmdw _ _ _, fieldImm_cmdw _ _ _⟩

theorem FieldsInPlace.nop : FieldsInPlace.Statement .nop := fieldsInPlace_of _

theorem FieldsInPlace.softReset : FieldsInPlace.Statement .softReset := fieldsInPlace_of _

theorem FieldsInPlace.config : FieldsInPlace.Statement .config := fieldsInPlace_of _

theorem FieldsInPlace.clear (mask : BitVec 5) : FieldsInPlace.Statement (.clear mask) := fieldsInPlace_of _

theorem FieldsInPlace.dlyWrite (line : Nat) : FieldsInPlace.Statement (.dlyWrite line) := fieldsInPlace_of _

theorem FieldsInPlace.dlyRead (line : Nat) : FieldsInPlace.Statement (.dlyRead line) := fieldsInPlace_of _

theorem FieldsInPlace.dlyReadi (line : Nat) : FieldsInPlace.Statement (.dlyReadi line) := fieldsInPlace_of _

theorem FieldsInPlace.revStep (ch : Nat) : FieldsInPlace.Statement (.revStep ch) := fieldsInPlace_of _

theorem FieldsInPlace.gpsStep (ch : Nat) : FieldsInPlace.Statement (.gpsStep ch) := fieldsInPlace_of _

theorem FieldsInPlace.convStep (ch : Nat) : FieldsInPlace.Statement (.convStep ch) := fieldsInPlace_of _

theorem FieldsInPlace.irBegin : FieldsInPlace.Statement .irBegin := fieldsInPlace_of _

theorem FieldsInPlace.irPush (ch : Nat) : FieldsInPlace.Statement (.irPush ch) := fieldsInPlace_of _

theorem FieldsInPlace.irCommit : FieldsInPlace.Statement .irCommit := fieldsInPlace_of _

theorem FieldsInPlace.pRegister : FieldsInPlace.Statement .pRegister := fieldsInPlace_of _

theorem FieldsInPlace.pSet : FieldsInPlace.Statement .pSet := fieldsInPlace_of _

theorem FieldsInPlace.pGet : FieldsInPlace.Statement .pGet := fieldsInPlace_of _

theorem FieldsInPlace.procBlock : FieldsInPlace.Statement .procBlock := fieldsInPlace_of _

end Sys2Proof.Laws
end

