-- ==== Sys2Proof/Laws/Step.lean ====
section
/-! SUPPORT. What one step can do: one lemma per kind of turn, and the Engine's turn by the state of BUSY and of the latched word. -/

namespace Sys2Proof.Machine

theorem step_idleSchedule (s : State) (h : s.schedule = []) : step s = engineTurn s := by
  simp [step, nextMove, h]

theorem step_turn (s : State) (t : Turn) (rest : List Turn) (h : s.schedule = t :: rest) :
    step s = takeTurn t { s with schedule := rest } := by
  simp [step, nextMove, h]

@[simp] theorem takeTurn_engine (s : State) : takeTurn .engine s = engineTurn s := rfl

@[simp] theorem takeTurn_write (addr : BitVec 16) (v : Word) (s : State) : takeTurn (.write addr v) s = .next (hostWrite addr v s) := rfl

@[simp] theorem takeTurn_read (addr : BitVec 16) (s : State) : takeTurn (.read addr) s = .next (hostRead addr s) := rfl

@[simp] theorem takeTurn_rstLow (s : State) : takeTurn .rstLow s = .next (resetLow s) := rfl

@[simp] theorem takeTurn_rstHigh (s : State) : takeTurn .rstHigh s = .next (resetHigh s) := rfl

@[simp] theorem takeTurn_cutWrite (addr : BitVec 16) (v : Word) (s : State) : takeTurn (.cutWrite addr v) s = .next (cutWrite s) := rfl

@[simp] theorem takeTurn_cutRead (addr : BitVec 16) (s : State) : takeTurn (.cutRead addr) s = .next (cutRead addr s) := rfl

theorem engineTurn_idle (s : State) (h : s.busy = false) : engineTurn s = .next s := by
  simp [engineTurn, h]

theorem engineTurn_reset (s : State) (h : s.inReset = true) : engineTurn s = .next s := by
  simp [engineTurn, h]

theorem engineTurn_run (s : State) (hb : s.busy = true) (hr : s.inReset = false) : engineTurn s = runCommand s := by
  simp [engineTurn, hb, hr]

theorem runCommand_ok (s : State) (i : Instr) (h : decode s.lcmd = .ok i) : runCommand s = exec i s := by
  simp [runCommand, h]

/-- An illegal word is refused with ILLEGAL_CMD (30_encoding R146). -/
theorem runCommand_illegal (s : State) (e : IllegalWord) (h : decode s.lcmd = .error e) : runCommand s = refuse .illegalCmd s := by
  simp [runCommand, h]

end Sys2Proof.Machine
end

