-- ==== Sys2Proof/Tests/Slice0.lean ====
section
/-! SUPPORT. Tests: ill-formed terms, one hand-written word per command, the vectors of 95_test_vectors on single steps, and a witness for the
hypotheses of each statement. Every expected value of a vector is the spec's. -/

namespace Sys2Proof.Tests

open Sys2Proof.Machine

-- One theorem at a time: over a hundred kernel evaluations waiting on one another take more threads than the memory limit allows.
set_option Elab.async false

/-! ### Well-formedness: an ill-formed term for each check (30_encoding R142) -/

theorem test_dlyWrite_unit16_illformed : (Instr.dlyWrite 16).wellFormed = false := by decide

theorem test_dlyRead_unit16_illformed : (Instr.dlyRead 16).wellFormed = false := by decide

theorem test_dlyReadi_unit16_illformed : (Instr.dlyReadi 16).wellFormed = false := by decide

theorem test_revStep_unit16_illformed : (Instr.revStep 16).wellFormed = false := by decide

theorem test_gpsStep_unit16_illformed : (Instr.gpsStep 16).wellFormed = false := by decide

theorem test_convStep_unit16_illformed : (Instr.convStep 16).wellFormed = false := by decide

theorem test_irPush_unit16_illformed : (Instr.irPush 16).wellFormed = false := by decide

/-! ### Decoding: words written out from 30_encoding R140, R145 as OPC_RSV_UNIT_IMM -/

theorem test_decode_nop : decode 0b00000000_0000_0000_0000000000000000#32 = .ok .nop := by decide

theorem test_decode_softReset : decode 0b00000001_0000_0000_0000000000000000#32 = .ok .softReset := by decide

theorem test_decode_config : decode 0b00000010_0000_0000_0000000000000000#32 = .ok .config := by decide

theorem test_decode_clear : decode 0b00000011_0000_0000_0000000000010110#32 = .ok (.clear 0b10110#5) := by decide

theorem test_decode_dlyWrite : decode 0b00010000_0000_1010_0000000000000000#32 = .ok (.dlyWrite 10) := by decide

theorem test_decode_dlyRead : decode 0b00010001_0000_0001_0000000000000000#32 = .ok (.dlyRead 1) := by decide

theorem test_decode_dlyReadi : decode 0b00010010_0000_1111_0000000000000000#32 = .ok (.dlyReadi 15) := by decide

theorem test_decode_revStep : decode 0b00100000_0000_0110_0000000000000000#32 = .ok (.revStep 6) := by decide

theorem test_decode_gpsStep : decode 0b00110000_0000_1000_0000000000000000#32 = .ok (.gpsStep 8) := by decide

theorem test_decode_convStep : decode 0b01000000_0000_0010_0000000000000000#32 = .ok (.convStep 2) := by decide

theorem test_decode_irBegin : decode 0b01000001_0000_0000_0000000000000000#32 = .ok .irBegin := by decide

theorem test_decode_irPush : decode 0b01000010_0000_0100_0000000000000000#32 = .ok (.irPush 4) := by decide

theorem test_decode_irCommit : decode 0b01000011_0000_0000_0000000000000000#32 = .ok .irCommit := by decide

theorem test_decode_pRegister : decode 0b01010000_0000_0000_0000000000000000#32 = .ok .pRegister := by decide

theorem test_decode_pSet : decode 0b01010001_0000_0000_0000000000000000#32 = .ok .pSet := by decide

theorem test_decode_pGet : decode 0b01010010_0000_0000_0000000000000000#32 = .ok .pGet := by decide

theorem test_decode_procBlock : decode 0b01100000_0000_0000_0000000000000000#32 = .ok .procBlock := by decide

theorem test_decode_reserved_field : decode 0b00000000_0001_0000_0000000000000000#32 = .error .reservedField := by decide

theorem test_decode_clear_high_mask : decode 0b00000011_0000_0000_0000000000100000#32 = .error .immNotZero := by decide

theorem test_decode_nop_unit : decode 0b00000000_0000_0001_0000000000000000#32 = .error .unitNotZero := by decide

theorem test_table_word : decodeTableWord 32 0x12010000 = some (.dlyReadi 1) := by decide

/-! ### Small states -/

/-- An instance with one channel and small arrays; COMB_BASE and AP_BASE are those of vector L2-REV-5. -/
def tiny : Params where
  maxCh := 1
  fsMax := 48000
  dlyCapMax := 4
  preCap := 2
  revCapMax := 16
  combBase := [2, 3, 4, 5, 6, 7, 8, 9]
  apBase := [1, 2, 3, 4]
  spread := 23
  refRate := 44100
  gpsGMax := 8
  convNMax := 8
  irRawMax := 8
  iobufLen := 4
  pMax := 9

/-- The state after a command. -/
def after (i : Instr) (s : State) : State :=
  match exec i s with
  | .next t => t
  | .fault f => nomatch f
  | .refused _ => s

/-- `s` with ARG0 and ARG1 latched. -/
def args (a b : Word) (s : State) : State := { s with larg := ⟨a, b, 0#32, 0#32⟩ }

/-- `tiny` at reset with the command word `w` latched. -/
def idle (w : Word) : State := { State.resetOf tiny with lcmd := w, busy := true }

/-- `tiny` after CONFIG with FS = 44100, C = 1, DLYCAP = 4, G = 8. -/
def conf : State := after .config { State.resetOf tiny with larg := ⟨44100#32, 1#32, 4#32, 8#32⟩ }

/-- `conf` with the delay line of L2-DLY: 1.0, 2.0, 3.0 written. -/
def confDly : State := { conf with dlyl := [⟨4, [(0, 0x3F800000#32), (1, 0x40000000#32), (2, 0x40400000#32)], 3⟩] }

/-- A name of up to eight bytes latched. -/
def named (a b : Word) (s : State) : State := { s with lname := ⟨a, b, 0#32, 0#32⟩ }

/-! ### Vectors -/

theorem test_nop_completes : statusWord (after .nop (idle 0#32)) = 0x00000004#32 := by decide

theorem test_softReset_status : (statusWord (after .softReset conf), (after .softReset conf).ctrl) = (0x00000004#32, 0x00000001#32) := by
  decide +kernel

-- L2-REV-2, FS = 48000, channel 0.
theorem test_config_lengths :
    (after .config { State.reset with larg := ⟨48000#32, 2#32, 16#32, 8#32⟩ }).rev.head?.map
        (fun r => (r.combs.map (·.db.cap), r.aps.map (·.cap)))
      = some ([1215, 1293, 1390, 1476, 1548, 1623, 1695, 1760], [605, 480, 371, 245]) := by
  decide +kernel

-- L2-REV-3.
theorem test_config_lenClamped :
    let s := { State.resetOf { Params.reference with revCapMax := 4096 } with
      lcmd := 0x02000000#32, larg := ⟨192000#32, 1#32, 16#32, 8#32⟩ }
    ((after .config s).errcode, statusWord (after .config s)) = (0x0000020E#32, 0x0000000E#32) := by
  decide +kernel

theorem test_clear_line : (after (.clear 0b00001#5) confDly).dlyl = [⟨4, [], 0⟩] := by decide +kernel

-- L2-DLY-8: the fifth write overwrites the oldest sample.
theorem test_dlyWrite_wraps :
    (after (.dlyWrite 0) (args 0x40A00000#32 0#32
        { conf with dlyl := [⟨4, [(0, 0x3F800000#32), (1, 0x40000000#32), (2, 0x40400000#32), (3, 0x40800000#32)], 0⟩] })).dlyl
      = [⟨4, [(0, 0x40A00000#32), (1, 0x40000000#32), (2, 0x40400000#32), (3, 0x40800000#32)], 1⟩] := by
  decide +kernel

-- L2-DLY-12: N_DLY = 1 here, so line 1 is out of range.
theorem test_dlyWrite_badUnit : (after (.dlyWrite 1) { conf with lcmd := 0x10010000#32 }).errcode = 0x00001002#32 := by decide +kernel

-- L2-DLY-1b.
theorem test_dlyRead_clamped_high : (after (.dlyRead 0) (args 5#32 0#32 confDly)).res0 = 0#32 := by decide +kernel

theorem test_dlyRead_negative : (after (.dlyRead 0) (args 0xFFFFFFFF#32 0#32 confDly)).res0 = 0x40400000#32 := by decide +kernel

-- L2-DLY-4, L2-DLY-5.
theorem test_dlyReadi_tenth : (after (.dlyReadi 0) (args 0x3DCCCCCD#32 0#32 confDly)).res0 = 0x4039999A#32 := by decide +kernel

theorem test_dlyReadi_exact_fraction : (after (.dlyReadi 0) (args 0x403FFFFC#32 0#32 confDly)).res0 = 0x35800000#32 := by decide +kernel

-- L2-REV-5: the third sample, two samples after a unit impulse.
theorem test_revStep_first_echo :
    let combs := [2, 3, 4, 5, 6, 7, 8, 9].map fun l => Comb.mk ⟨l, [(0, 0x3F800000#32)], 2 % l⟩ 0#32
    let aps := [1, 2, 3, 4].map fun l => DelayBuf.mk l [] (2 % l)
    (after (.revStep 0) (args 0#32 0#32 { conf with rev := [⟨combs, aps⟩] })).res0 = 0x3C000000#32 := by
  decide +kernel

-- L2-REV-1, last row.
theorem test_reverb_coefficients :
    (combFeedback 0x3F800000#32 0x3F800000#32, dampCoeff 0x3F800000#32 false) = (0x3F7AE148#32, 0x3ECCCCCD#32) := by
  decide +kernel

-- L2-GPS-0 and L2-GPS-1 at n = 8.
theorem test_window_g8 :
    hannTable 8 = [0x00000000#32, 0x3E15F61A#32, 0x3F000000#32, 0x3F5A827A#32, 0x3F800000#32, 0x3F5A827A#32, 0x3F000000#32, 0x3E15F61A#32] := by
  decide +kernel

theorem test_gpsStep_impulse :
    (after (.gpsStep 0) { conf with gps := [⟨[(0, 0x3F800000#32)], 8, 0#32, 0#32, 0#32, 0x40800000#32⟩] }).res0 = 0x3F000000#32 := by
  decide +kernel

/-- `conf` with the impulse response [1.0] of L2-CONV-1 committed: N = 2, H = 1, S = (1, 0), (1, 0). -/
def confIr : State :=
  { conf with
    irvalid := true
    convN := 2
    convH := 1
    irLen := 1
    conv := [⟨[(0, 0x3F800000#32), (1, 0x3F800000#32)], [], [], 0, [], 0, 1⟩] }

-- L2-CONV-1: the first output is 0 and the second, in the ring, is the impulse.
theorem test_convStep_impulse :
    let t := after (.convStep 0) (args 0x3F800000#32 0#32 confIr)
    (t.res0, sparseGet (convAt t 0).out 1, (convAt t 0).wr, (convAt t 0).ip) = (0#32, 0x3F800000#32, 2, 0) := by
  decide +kernel

-- L2-CONV-7.
theorem test_convStep_no_ir : (after (.convStep 0) (args 0x3F800000#32 0#32 conf)).res0 = 0#32 := by decide +kernel

-- L2-CONV-5.
theorem test_twiddles_n8 :
    ((List.range 4).map (twiddleCos 8), (List.range 4).map (twiddleSin 8))
      = ([0x3F800000#32, 0x3F3504F3#32, 0x00000000#32, 0xBF3504F3#32], [0x00000000#32, 0x3F3504F3#32, 0x3F800000#32, 0x3F3504F3#32]) := by
  decide +kernel

theorem test_irBegin_opens :
    let t := after .irBegin (args 2#32 44100#32 conf)
    (t.irsess, t.lsrc, t.fssrc, t.ir) = (true, 2, 44100, [⟨[], 0⟩]) := by
  decide +kernel

theorem test_irPush_stores :
    (after (.irPush 0) (args 0x3F000000#32 0#32 { conf with irsess := true, lsrc := 2, fssrc := 44100 })).ir
      = [⟨[(0, 0x3F000000#32)], 1⟩] := by
  decide +kernel

-- L2-CONV-2: sizes and spectrum.
theorem test_irCommit_spectrum :
    let t := after .irCommit { conf with
      irsess := true, lsrc := 2, fssrc := 44100, ir := [⟨[(0, 0x3F000000#32), (1, 0x3E800000#32)], 2⟩] }
    (t.res0, t.res1, (convAt t 0).specRe, (convAt t 0).specIm)
      = (4#32, 2#32, [(0, 0x3F400000#32), (1, 0x3F000000#32), (2, 0x3E800000#32), (3, 0x3F000000#32)],
          [(1, 0xBE800000#32), (3, 0x3E800000#32)]) := by
  decide +kernel

-- L2-CONV-12: IR_SHORT, then IR_TRUNC sets OVF.
theorem test_irCommit_warnings :
    let t := after .irCommit { conf with irsess := true, lsrc := 5, fssrc := 44100, lcmd := 0x43000000#32 }
    (t.res0, t.res1, t.errcode) = (8#32, 4#32, 0x0001430C#32) := by
  decide +kernel

-- L2-CONV-6, the row [0, 1] from 3 to 10.
theorem test_resampling :
    resampled 2 3 10 4 [(1, 0x3F800000#32)] = [0x00000000#32, 0x3E99999A#32, 0x3F19999A#32, 0x3F666666#32] := by
  decide +kernel

-- The example of 46_parameter_store R440, "Gain" with 0.8.
theorem test_pRegister_new :
    let t := after .pRegister (named 0x6E696147#32 0#32 (args 0x3F4CCCCD#32 0#32 (State.resetOf tiny)))
    (t.res0, t.res1, t.pchg, t.pchgIdx) = (0x3F4CCCCD#32, 0x00000803#32, true, 8#8) := by
  decide +kernel

-- The example of 46_parameter_store R441, "MIX" with 1.5.
theorem test_pSet_clamps :
    let t := after .pSet (named 0x0058494D#32 0#32 (args 0x3FC00000#32 0#32 (State.resetOf tiny)))
    (t.res0, t.res1) = (0x3F800000#32, 0x00000001#32) := by
  decide +kernel

-- The example of 46_parameter_store R442, "Roomsize".
theorem test_pGet_other_case :
    let t := after .pGet (named 0x6D6F6F52#32 0x657A6973#32 (State.resetOf tiny))
    (t.res0, t.res1) = (0x3F000000#32, 0x00000101#32) := by
  decide +kernel

/-- `conf` with IN[0..3] = 0.5, WGAIN = 2.0 and PROC_BLOCK 0, 4 latched (L1-7). -/
def confProc : State :=
  args 0#32 4#32 { conf with
    mem := (List.range 4).foldl (fun m i => writeWord m (inAddr i) 0x3F000000#32) []
    pst := conf.pst.set 7 { entryAt conf 7 with value := 0x40000000#32 } }

-- L1-7: EN = 1, WETSEL = GAIN.
theorem test_procBlock_gain :
    let t := after .procBlock { confProc with lctrl := 0x00000003#32 }
    (t.res0, (List.range 4).map (outWord t)) = (4#32, [0x3F400000#32, 0x3F400000#32, 0x3F400000#32, 0x3F400000#32]) := by
  decide +kernel

-- L1-1: EN = 0.
theorem test_procBlock_bypass :
    let t := after .procBlock { confProc with lctrl := 0x00000002#32 }
    ((List.range 4).map (outWord t), t.rev = conf.rev) = ([0x3F000000#32, 0x3F000000#32, 0x3F000000#32, 0x3F000000#32], True) := by
  rw [Prod.mk.injEq]
  exact ⟨by decide +kernel, eq_true (by decide +kernel)⟩

/-- The read log after the Host reads `addr` in the state `s`. -/
def readBack (addr : BitVec 16) (s : State) : List Word := (hostRead addr s).reads

theorem test_read_id : readBack 0x0002#16 State.reset = [0x4E430001#32] := by decide

theorem test_first_command_runs :
    step (State.reset.withFetchWord 32 0x10000000)
      = .next { State.reset with lcmd := 0x10000000#32, lctrl := 1#32, done := true, err := true, errcode := 0x00001003#32 } := by
  rfl

/-! ### Witnesses: states and operands that meet the hypotheses of the statements -/

theorem witness_DecodeEncode : (Instr.dlyWrite 0).wellFormed = true ∧ (Instr.irPush 15).wellFormed = true ∧ (Instr.clear 0b11111#5).wellFormed = true := by
  decide

theorem witness_EncodeDecode : decode 0x400F0000#32 = .ok (.convStep 15) := by decide

theorem witness_IllegalWords :
    EngineMove (idle 0x00000001#32) (idle 0x00000001#32) ∧ (idle 0x00000001#32).busy = true ∧ (idle 0x00000001#32).inReset = false
      ∧ decode (idle 0x00000001#32).lcmd = .error .immNotZero :=
  ⟨Or.inl ⟨rfl, rfl⟩, rfl, rfl, by decide⟩

theorem witness_StepRunsTheCommand :
    (EngineMove (idle 0#32) (idle 0#32) ∧ (idle 0#32).busy = true ∧ (idle 0#32).inReset = false ∧ decode (idle 0#32).lcmd = .ok .nop)
      ∧ (EngineMove { State.reset with schedule := [.engine] } State.reset ∧ State.reset.busy = false)
      ∧ (EngineMove { idle 0#32 with inReset := true } { idle 0#32 with inReset := true }) ∧ decode 0x60000000#32 = .ok .procBlock :=
  ⟨⟨Or.inl ⟨rfl, rfl⟩, rfl, rfl, by decide⟩, ⟨Or.inr ⟨[], rfl, rfl⟩, rfl⟩, Or.inl ⟨rfl, rfl⟩, by decide⟩

theorem witness_AcceptedCommandCompletes :
    let s := { idle 0#32 with schedule := [.read 0x0004#16, .write 0x0010#16 7#32] }
    s.busy = true ∧ s.inReset = false ∧ ∀ m ∈ s.schedule, m = .engine ∨ (∃ a v, m = .write a v) ∨ ∃ a, m = .read a := by
  simp [idle, State.resetOf]

theorem witness_LatchIsolatesCommand :
    Instr.nop ≠ .softReset ∧ exec .nop (idle 0#32) = .next (after .nop (idle 0#32))
      ∧ NextMove (.write 0x0010#16 7#32) { idle 0#32 with schedule := [.write 0x0010#16 7#32] } (idle 0#32) ∧ (idle 0#32).busy = true
      ∧ step { idle 0#32 with schedule := [.write 0x0010#16 7#32] } = .next { idle 0#32 with arg := ⟨7#32, 0#32, 0#32, 0#32⟩ } :=
  ⟨by decide, rfl, ⟨[], rfl, rfl⟩, rfl, rfl⟩

theorem witness_WhatEachCommandLeaves :
    exec .procBlock confProc = .next (after .procBlock confProc) ∧ Instr.procBlock ≠ .softReset ∧ exec .nop conf = .next (after .nop conf) :=
  ⟨rfl, by decide, rfl⟩

theorem witness_ErrorRecording :
    (State.reset.err = false) ∧ ({ State.reset with err := true } : State).err = true
      ∧ (¬mayClearError { idle 0#32 with err := true, errcode := 0x00010003#32 }
        ∧ ∃ t, step { idle 0#32 with err := true, errcode := 0x00010003#32 } = .next t)
      ∧ NextMove (.write 0x0004#16 8#32) { State.reset with schedule := [.write 0x0004#16 8#32] } State.reset
      ∧ State.reset.inReset = false ∧ (0x0004#16).toNat / 4 = 1 ∧ (8#32).getLsbD 3 = true
      ∧ ∃ t, step { State.reset with schedule := [.write 0x0004#16 8#32] } = .next t := by
  refine ⟨rfl, rfl, ⟨?_, ⟨_, rfl⟩⟩, ⟨[], rfl, rfl⟩, rfl, by decide, by decide, ⟨_, rfl⟩⟩
  show ¬decode 0#32 = .ok .softReset
  decide

-- One refusal per code, at the boundary of its check.
theorem witness_RefusedCommandChangesNothing :
    firstRefusal (.dlyRead 0) (idle 0#32) = some 0x03#8 ∧ firstRefusal (.dlyRead 1) conf = some 0x02#8 ∧ firstRefusal .config conf = some 0x05#8
      ∧ firstRefusal .config (args 48001#32 1#32 (idle 0#32)) = some 0x04#8 ∧ firstRefusal .irBegin (args 9#32 1#32 conf) = some 0x0A#8
      ∧ firstRefusal (.irPush 0) conf = some 0x05#8 ∧ firstRefusal .irCommit conf = some 0x05#8 ∧ firstRefusal (.revStep 1) conf = some 0x02#8
      ∧ decode (idle 0xFF000000#32).lcmd = .error .reservedOpcode := by
  decide +kernel

theorem witness_StatusAndInterrupt :
    6 < 32 ∧ 31 < 32 ∧ NextMove (.write 0x0007#16 0x1C#32) { conf with schedule := [.write 0x0007#16 0x1C#32] } { conf with schedule := [] }
      ∧ conf.inReset = false ∧ (0x0007#16).toNat / 4 = 1 :=
  ⟨by decide, by decide, ⟨[], rfl, rfl⟩, by decide +kernel, by decide⟩

theorem witness_RegisterMap :
    NextMove (.read 0x0070#16) { State.reset with schedule := [.read 0x0070#16] } State.reset ∧ State.reset.inReset = false
      ∧ 4 * ((0x0070#16).toNat / 4) = 0x70 ∧ 4 * ((0x0003#16).toNat / 4) = 0x00 ∧ 4 * ((0x003F#16).toNat / 4) = 0x3C
      ∧ NextMove (.write 0x0000#16 5#32) { State.reset with schedule := [.write 0x0000#16 5#32] } State.reset
      ∧ NextMove (.write 0x003C#16 5#32) { State.reset with schedule := [.write 0x003C#16 5#32] } State.reset
      ∧ ∃ t, step State.reset = .next t :=
  ⟨⟨[], rfl, rfl⟩, rfl, by decide, by decide, by decide, ⟨[], rfl, rfl⟩, ⟨[], rfl, rfl⟩, ⟨_, rfl⟩⟩

-- The offsets at the edges of the map: 0x0074, 0x3FFC, the first word past IN and past OUT of `tiny`, 0xFFFC.
theorem witness_UnmappedAccess :
    ([0x0074#16, 0x3FFC#16, 0x4010#16, 0x7FFC#16, 0x8010#16, 0xFFFC#16].all fun a => decide (0x74 ≤ 4 * (a.toNat / 4)
      ∧ ¬(0x4000 ≤ 4 * (a.toNat / 4) ∧ 4 * (a.toNat / 4) < 0x4000 + 4 * tiny.iobufLen)
      ∧ ¬(0x8000 ≤ 4 * (a.toNat / 4) ∧ 4 * (a.toNat / 4) < 0x8000 + 4 * tiny.iobufLen))) = true
    ∧ NextMove (.read 0x0074#16) { idle 0#32 with schedule := [.read 0x0074#16] } (idle 0#32)
    ∧ NextMove (.write 0x0074#16 1#32) { idle 0#32 with schedule := [.write 0x0074#16 1#32] } (idle 0#32) :=
  ⟨by decide +kernel, ⟨[], rfl, rfl⟩, ⟨[], rfl, rfl⟩⟩

theorem witness_CommandWrite :
    NextMove (.write 0x000C#16 0#32) { State.reset with schedule := [.write 0x000C#16 0#32] } State.reset ∧ State.reset.inReset = false
      ∧ (0x000C#16).toNat / 4 = 3 ∧ (0x000F#16).toNat / 4 = 3 ∧ State.reset.busy = false
      ∧ NextMove (.write 0x000F#16 0#32) { idle 0#32 with schedule := [.write 0x000F#16 0#32] } (idle 0#32) ∧ (idle 0#32).inReset = false
      ∧ (idle 0#32).busy = true ∧ NextMove (.read 0x000C#16) { idle 0#32 with schedule := [.read 0x000C#16] } (idle 0#32) :=
  ⟨⟨[], rfl, rfl⟩, rfl, by decide, by decide, rfl, ⟨[], rfl, rfl⟩, rfl, rfl, ⟨[], rfl, rfl⟩⟩

-- The first and the last word of each window of `tiny`, a register read, a register write and a STATUS write, all while BUSY = 1.
theorem witness_BusyAccess :
    (idle 0#32).busy = true ∧ (idle 0#32).inReset = false
      ∧ ([0x4000#16, 0x400F#16].all fun a => decide (0x4000 ≤ 4 * (a.toNat / 4) ∧ 4 * (a.toNat / 4) < 0x4000 + 4 * tiny.iobufLen)) = true
      ∧ ([0x8000#16, 0x800F#16].all fun a => decide (0x8000 ≤ 4 * (a.toNat / 4) ∧ 4 * (a.toNat / 4) < 0x8000 + 4 * tiny.iobufLen)) = true
      ∧ NextMove (.write 0x4000#16 1#32) { idle 0#32 with schedule := [.write 0x4000#16 1#32] } (idle 0#32)
      ∧ NextMove (.read 0x8000#16) { idle 0#32 with schedule := [.read 0x8000#16] } (idle 0#32)
      ∧ (NextMove (.read 0x0020#16) { idle 0#32 with schedule := [.read 0x0020#16] } (idle 0#32)
        ∧ ∃ t, step { idle 0#32 with schedule := [.read 0x0020#16] } = .next t)
      ∧ (NextMove (.write 0x0010#16 1#32) { idle 0#32 with schedule := [.write 0x0010#16 1#32] } (idle 0#32)
        ∧ (0x0010#16).toNat / 4 ≠ 1 ∧ (0x0010#16).toNat / 4 ≠ 3 ∧ ∃ t, step { idle 0#32 with schedule := [.write 0x0010#16 1#32] } = .next t)
      ∧ (NextMove (.write 0x0004#16 4#32) { idle 0#32 with schedule := [.write 0x0004#16 4#32] } (idle 0#32)
        ∧ ∃ t, step { idle 0#32 with schedule := [.write 0x0004#16 4#32] } = .next t) :=
  ⟨rfl, rfl, by decide +kernel, by decide +kernel, ⟨[], rfl, rfl⟩, ⟨[], rfl, rfl⟩, ⟨⟨[], rfl, rfl⟩, ⟨_, rfl⟩⟩,
    ⟨⟨[], rfl, rfl⟩, by decide, by decide, ⟨_, rfl⟩⟩, ⟨⟨[], rfl, rfl⟩, ⟨_, rfl⟩⟩⟩

theorem witness_WindowAccess :
    let u := State.resetOf tiny
    u.inReset = false ∧ u.busy = false ∧ u.inst.iobufLen ≤ 4096 ∧ 0 < u.inst.iobufLen ∧ 3 < u.inst.iobufLen
      ∧ (0x4003#16).toNat / 4 = 0x1000 + 0 ∧ (0x400C#16).toNat / 4 = 0x4000 / 4 + 3 ∧ (0x800C#16).toNat / 4 = 0x8000 / 4 + 3
      ∧ (0x8000#16).toNat / 4 = 0x2000 + 0 ∧ NextMove (.write 0x4003#16 1#32) { u with schedule := [.write 0x4003#16 1#32] } u
      ∧ NextMove (.read 0x400C#16) { u with schedule := [.read 0x400C#16] } u
      ∧ NextMove (.write 0x8000#16 1#32) { u with schedule := [.write 0x8000#16 1#32] } u ∧ u.mem.wf = true :=
  ⟨rfl, rfl, by decide, by decide, by decide, by decide, by decide, by decide, by decide, ⟨[], rfl, rfl⟩, ⟨[], rfl, rfl⟩, ⟨[], rfl, rfl⟩, rfl⟩

theorem witness_ControlRegister :
    NextMove (.write 0x0008#16 0xFFFFFFFF#32) { State.reset with schedule := [.write 0x0008#16 0xFFFFFFFF#32] } State.reset
      ∧ State.reset.inReset = false ∧ (0x0008#16).toNat / 4 = 2 :=
  ⟨⟨[], rfl, rfl⟩, rfl, by decide⟩

theorem tiny_valid : tiny.Valid where
  maxCh := by decide
  fsMax := by decide
  dlyCapMax := by decide
  preCap := by decide
  revCapMax := by decide
  combCount := by decide
  combBase := by decide
  apCount := by decide
  apBase := by decide
  refRate := by decide
  gpsGMax := by decide
  convNMax := by decide
  irRawMax := by decide
  iobufLen := by decide
  pMax := by decide

theorem witness_ResetValues : Params.reference.Valid where
  maxCh := by decide
  fsMax := by decide
  dlyCapMax := by decide
  preCap := by decide
  revCapMax := by decide
  combCount := by decide
  combBase := by decide
  apCount := by decide
  apBase := by decide
  refRate := by decide
  gpsGMax := by decide
  convNMax := by decide
  irRawMax := by decide
  iobufLen := by decide
  pMax := by decide

theorem witness_ResetMeetsInvariants : tiny.Valid := tiny_valid

theorem witness_HardwareReset :
    let u := { idle 0#32 with inReset := true }
    (NextMove .rstLow { idle 0#32 with schedule := [.rstLow] } (idle 0#32) ∧ ∃ t, step { idle 0#32 with schedule := [.rstLow] } = .next t)
      ∧ u.inReset = true ∧ NextMove (.read 0x0004#16) { u with schedule := [.read 0x0004#16] } u
      ∧ NextMove (.write 0x0008#16 9#32) { u with schedule := [.write 0x0008#16 9#32] } u ∧ EngineMove u u
      ∧ NextMove .rstHigh { u with schedule := [.rstHigh] } u :=
  ⟨⟨⟨[], rfl, rfl⟩, ⟨_, rfl⟩⟩, rfl, ⟨[], rfl, rfl⟩, ⟨[], rfl, rfl⟩, Or.inl ⟨rfl, rfl⟩, ⟨[], rfl, rfl⟩⟩

-- The clauses on accesses that `rst_n` cuts short, in and out of reset.
theorem witness_HardwareReset_cut :
    let u := { idle 0#32 with inReset := true }
    ((idle 0#32).inReset = false ∧ NextMove (.cutRead 0x0000#16) { idle 0#32 with schedule := [.cutRead 0x0000#16] } (idle 0#32))
      ∧ (u.inReset = true ∧ NextMove (.cutRead 0x0000#16) { u with schedule := [.cutRead 0x0000#16] } u)
      ∧ NextMove (.cutWrite 0x0010#16 7#32) { idle 0#32 with schedule := [.cutWrite 0x0010#16 7#32] } (idle 0#32)
      ∧ ({ idle 0#32 with schedule := [.cutRead 0x0000#16, .rstHigh] } : State).schedule = .cutRead 0x0000#16 :: .rstHigh :: [] :=
  ⟨⟨rfl, ⟨[], rfl, rfl⟩⟩, ⟨rfl, ⟨[], rfl, rfl⟩⟩, ⟨[], rfl, rfl⟩, rfl⟩

theorem witness_NopAndSoftReset :
    (0x00000001#32).extractLsb' 24 8 = 0x00#8 ∧ (0x00000001#32) ≠ 0#32 ∧ (0x01000001#32).extractLsb' 24 8 = 0x01#8
      ∧ (0x01000001#32) ≠ 0x01000000#32 := by
  decide

-- Both ends of every range, and a value just outside each kind of range.
theorem witness_ConfigCommand :
    conf.cfg = true ∧ (State.resetOf tiny).cfg = false
      ∧ (1 ≤ 1 ∧ 1 ≤ tiny.fsMax ∧ 1 ≤ 1 ∧ 1 ≤ tiny.maxCh ∧ 1 ≤ 1 ∧ 1 ≤ tiny.dlyCapMax ∧ 8 % 2 = 0 ∧ 8 ≤ 8 ∧ 8 ≤ tiny.gpsGMax)
      ∧ (48000 ≤ tiny.fsMax ∧ 4 ≤ tiny.dlyCapMax) ∧ ¬48001 ≤ tiny.fsMax ∧ ¬2 ≤ tiny.maxCh ∧ ¬5 ≤ tiny.dlyCapMax ∧ ¬9 % 2 = 0
      ∧ (State.resetOf tiny).rev[0]? = some ⟨List.replicate 8 (Comb.empty 0), List.replicate 4 (DelayBuf.empty 0)⟩ := by
  decide +kernel

theorem witness_DlyWriteCommand :
    (State.resetOf tiny).cfg = false ∧ conf.cfg = true ∧ conf.inst.nDly ≤ 1 ∧ 0 < conf.inst.nDly ∧ conf.dlyl[0]? = some ⟨4, [], 0⟩ := by
  decide +kernel

theorem witness_DlyReadCommand :
    (State.resetOf tiny).cfg = false ∧ confDly.cfg = true ∧ confDly.inst.nDly ≤ 1 ∧ 0 < confDly.inst.nDly
      ∧ confDly.dlyl[0]? = some ⟨4, [(0, 0x3F800000#32), (1, 0x40000000#32), (2, 0x40400000#32)], 3⟩ := by
  decide +kernel

theorem witness_DlyReadiCommand : confDly.cfg = true ∧ 0 < confDly.inst.nDly ∧ confDly.dlyl.length = 1 := by decide +kernel

theorem witness_DelayRoundTrip : 0 < 1 ∧ 2 ^ 24 - 1 < 2 ^ 24 := by decide

theorem witness_IntegralDelay : (DelayBuf.empty (2 ^ 24)).cap ≤ 2 ^ 24 ∧ 2 ^ 24 - 1 < (DelayBuf.empty (2 ^ 24)).cap ∧ 0 < (DelayBuf.empty 1).cap := by
  decide

theorem witness_FilterSteps : (Comb.empty 1).db.w < (Comb.empty 1).db.cap ∧ (DelayBuf.mk 4 [] 3).w < (DelayBuf.mk 4 [] 3).cap := by decide

theorem witness_RevStepCommand :
    (State.resetOf tiny).cfg = false ∧ conf.cfg = true ∧ conf.nch ≤ 1 ∧ 0 < conf.nch ∧ conf.rev[0]? = some (revEmpty tiny 44100 0) := by
  decide +kernel

theorem witness_CombLag :
    (CoeffOk 0x3F2147AE#32 ∧ CoeffOk 0x3E4CCCCD#32 ∧ CoeffOk 0x3F4CCCCD#32) ∧ 1 ≤ 1
      ∧ (∀ cb ∈ (revEmpty tiny 44100 0).combs, cb.db.buf = []) ∧ ∀ ab ∈ (revEmpty tiny 44100 0).aps, ab.buf = [] := by
  refine ⟨?_, by decide, by decide +kernel, by decide +kernel⟩
  simp only [CoeffOk]
  decide +kernel

theorem witness_GpsStepCommand : conf.cfg = true ∧ conf.nch ≤ 1 ∧ 0 < conf.nch ∧ conf.gps[0]? = some (gpsStart 8 64) := by decide +kernel

theorem witness_GpsUnityPitch :
    (8 % 2 = 0 ∧ 8 ≤ 8 ∧ 8 ≤ 2 ^ 13 ∧ 9 < (List.replicate 10 (0x3F800000#32 : F32)).length)
      ∧ 8192 % 2 = 0 ∧ 8 ≤ 8192 ∧ 8192 ≤ 2 ^ 13 ∧ 0 < (List.replicate 1 (0x3F800000#32 : F32)).length := by
  decide

theorem witness_ConstantTables :
    (8 % 2 = 0 ∧ 8 ≤ 8 ∧ 8 % 4 = 0 ∧ 7 < 8) ∧ (10 % 2 = 0 ∧ 8 ≤ 10) ∧ 2 ≤ 2 ∧ (4 ≤ 4 ∧ 4 % 4 = 0) ∧ 1 ≤ 1 := by
  decide

theorem witness_TrigAccuracy : (1 ≤ 1 ∧ 0 ≤ 1) ∧ (1 ≤ 8 ∧ 8 ≤ 8) ∧ 2 * 4 ≤ 8 := by decide

theorem witness_FftSize : 1 ≤ 1 ∧ 2 * 1 ≤ 2 ^ 1 ∧ 2 ≤ 2 ^ 1 ∧ 32768 ≤ 2 ^ 16 / 2 := by decide

/-- `confIr` one hop on: the next sample reads the impulse. -/
def confIrFull : State := { confIr with conv := [⟨[(0, 0x3F800000#32), (1, 0x3F800000#32)], [], [], 0, [(1, 0x3F800000#32)], 1, 2⟩] }

theorem witness_ConvStepCommand :
    (conf.cfg = true ∧ conf.nch ≤ 1 ∧ 0 < conf.nch ∧ conf.irvalid = false)
      ∧ (confIrFull.cfg = true ∧ 0 < confIrFull.nch ∧ confIrFull.irvalid = true ∧ (confIrFull.conv.map (·.ip)) = [0]
        ∧ 0 + 1 = confIrFull.convH ∧ 1 ≤ confIrFull.convN ∧ (confIrFull.conv.all fun v => sparseWf v.out && sparseBelow 4 v.out) = true)
      ∧ 0 + 1 ≠ ({ confIr with convN := 4, convH := 2 } : State).convH := by
  decide +kernel

-- The clauses on the transform, the block and the scale, at both ends of their ranges.
theorem witness_ConvStepCommand_block :
    (#[((0x3F800000#32, 0#32) : Cplx)].size = 2 ^ 0 ∧ #[((0x3F800000#32, 0#32) : Cplx), (0#32, 0#32)].size = 2 ^ 1) ∧ 1 ≤ 2 ^ 1
      ∧ (confIr.conv.all fun v => sparseWf v.inb && sparseWf v.specRe && sparseWf v.specIm) = true ∧ 20 ≤ 20
      ∧ F32.isFinite 0x3F800000#32 = true ∧ 2 ^ (23 + 20) ≤ (F32.fix 0x3F800000#32).natAbs ∧ F32.fix 0x80000000#32 = 0 := by
  decide +kernel

theorem witness_FirstHopSilent : 1 ≤ 1 ∧ 0 < 1 ∧ 0 < [(0x3F800000#32 : F32)].length ∧ 3 < 4 := by decide

theorem witness_IrBeginCommand :
    (State.resetOf tiny).cfg = false ∧ conf.cfg = true ∧ (0#32).toNat < 1 ∧ conf.inst.irRawMax < (9#32).toNat ∧ conf.inst.fsMax < (48001#32).toNat
      ∧ 1 ≤ (8#32).toNat ∧ (8#32).toNat ≤ conf.inst.irRawMax ∧ (48000#32).toNat ≤ conf.inst.fsMax := by
  decide +kernel

/-- `conf` with a load session of one sample per channel open. -/
def confSess : State := { conf with irsess := true, lsrc := 1, fssrc := 44100 }

theorem witness_IrPushCommand :
    (conf.cfg = true ∧ conf.nch ≤ 1 ∧ 0 < conf.nch ∧ conf.irsess = false)
      ∧ (confSess.cfg = true ∧ 0 < confSess.nch ∧ confSess.irsess = true ∧ confSess.ir[0]? = some ⟨[], 0⟩ ∧ 0 < confSess.lsrc)
      ∧ ({ confSess with ir := [⟨[], 1⟩] } : State).ir[0]? = some ⟨[], 1⟩ ∧ confSess.lsrc ≤ 1 := by
  decide +kernel

theorem witness_IrCommitCommand :
    (conf.cfg = true ∧ conf.irsess = false) ∧ confSess.cfg = true ∧ confSess.irsess = true
      ∧ (1 : Nat) = (confSess.lsrc - 1) * confSess.fs / confSess.fssrc + 1 ∧ (1 : Nat) = min 1 (confSess.inst.convNMax / 2) ∧ 2 = fftSize 1
      ∧ (∃ c < confSess.nch, (irAt confSess c).cnt < confSess.lsrc) := by
  refine ⟨by decide +kernel, by decide +kernel, by decide +kernel, by decide +kernel, by decide +kernel, by decide, 0, by decide +kernel,
    by decide +kernel⟩

theorem witness_Resampling :
    (1 ≤ 2 ∧ 1 ≤ 3 ∧ 1 ≤ 10 ∧ 3 < resampledLength 2 3 10) ∧ 1 ≤ 1 ∧ sparseWf ([(0, 0x3F800000#32)] : Samples) = true
      ∧ sparseBelow 1 ([(0, 0x3F800000#32)] : Samples) = true ∧ 1 ≤ 1 := by
  decide

-- The row of L2-CONV-6 again: its first sample is a copy (fraction 0) and its second is an interpolation.
theorem witness_Resampling_interpolates :
    sparseWf ([(1, 0x3F800000#32)] : Samples) = true ∧ sparseBelow 2 ([(1, 0x3F800000#32)] : Samples) = true ∧ 4 ≤ resampledLength 2 3 10
      ∧ F32.rnd32 (0 * 3 % 10) 10 = 0#32 ∧ F32.rnd32 (1 * 3 % 10) 10 = 0x3E99999A#32 := by
  decide +kernel

/-- `tiny` at reset with the name "mix" latched. -/
def mixNamed : State := named 0x0078696D#32 0#32 (State.resetOf tiny)

/-- `tiny` at reset with the name "zz" latched, which no entry has. -/
def newNamed : State := named 0x00007A7A#32 0#32 (State.resetOf tiny)

/-- `newNamed` with its one user entry taken. -/
def fullNamed : State := { newNamed with pst := newNamed.pst.set 8 ⟨true, [0x61#8], 0#32, 0#32⟩ }

theorem mixNamed_firstMatch : FirstMatch mixNamed (nameOf mixNamed.lname) 0 ⟨true, [0x6D#8, 0x69#8, 0x78#8], 0x3F000000#32, 0x3F000000#32⟩ :=
  ⟨by decide, by decide, by decide, by simp⟩

theorem newNamed_noMatch : NoMatch newNamed (nameOf newNamed.lname) := by
  unfold NoMatch
  decide +kernel

theorem fullNamed_noMatch : NoMatch fullNamed (nameOf fullNamed.lname) := by
  unfold NoMatch
  decide +kernel

theorem witness_NameMatching :
    namesMatch [0x47#8, 0x61#8] [0x67#8, 0x41#8] = true ∧ namesMatch [0x40#8] [0x60#8] = false ∧ namesMatch [0x5B#8] [0x7B#8] = false
      ∧ namesMatch [0x41#8, 0x5A#8] [0x61#8, 0x7A#8] = true ∧ nameOf ⟨0x61616161#32, 0x61616161#32, 0x61616161#32, 0x61616161#32⟩ = List.replicate 16 0x61#8 := by
  decide

theorem witness_ParameterGet :
    (nameOf (State.resetOf tiny).lname = []) ∧ NoMatch newNamed (nameOf newNamed.lname) ∧ nameOf mixNamed.lname ≠ []
      ∧ FirstMatch mixNamed (nameOf mixNamed.lname) 0 ⟨true, [0x6D#8, 0x69#8, 0x78#8], 0x3F000000#32, 0x3F000000#32⟩ :=
  ⟨by decide, newNamed_noMatch, by decide, mixNamed_firstMatch⟩

theorem witness_ParameterWrite :
    (nameOf (State.resetOf tiny).lname = []) ∧ (nameOf mixNamed.lname ≠ []
      ∧ FirstMatch mixNamed (nameOf mixNamed.lname) 0 ⟨true, [0x6D#8, 0x69#8, 0x78#8], 0x3F000000#32, 0x3F000000#32⟩)
      ∧ (nameOf newNamed.lname ≠ [] ∧ NoMatch newNamed (nameOf newNamed.lname) ∧ FirstFree newNamed 8)
      ∧ (nameOf fullNamed.lname ≠ [] ∧ NoMatch fullNamed (nameOf fullNamed.lname) ∧ StoreFull fullNamed) := by
  refine ⟨by decide, ⟨by decide, mixNamed_firstMatch⟩, ⟨by decide, newNamed_noMatch, ?_⟩, ⟨by decide, fullNamed_noMatch, ?_⟩⟩
  · exact ⟨by decide, ⟨⟨false, [], 0#32, 0#32⟩, by decide, rfl⟩, fun j h1 h2 => absurd h2 (by omega)⟩
  · intro j hj y hy
    have hl : j < 9 := (List.getElem?_eq_some_iff.1 hy).1
    have : j = 8 := by omega
    subst this
    simp [fullNamed, newNamed, named, State.resetOf, resetStore, builtinTable, tiny] at hy
    simp [← hy]

theorem witness_ParameterRoundTrip :
    (Instr.pSet = .pRegister ∨ Instr.pSet = .pSet) ∧ exec .pSet mixNamed = .next (after .pSet mixNamed) ∧ nameOf mixNamed.lname ≠ []
      ∧ (after .pSet mixNamed).res1.getLsbD 0 = true
      ∧ namesMatch (nameOf mixNamed.lname) (nameOf ⟨0x0058494D#32, 0#32, 0#32, 0#32⟩) = true :=
  ⟨by decide, rfl, by decide, by decide +kernel, by decide⟩

theorem witness_WetStages : (List.range 6).map (fun w => ctrlWetsel (BitVec.ofNat 32 (2 * w))) = [0, 1, 2, 3, 4, 5] := by decide

-- A block inside the window, one that runs over its end, and one that starts past it.
theorem witness_ProcBlockCommand :
    (State.resetOf tiny).cfg = false ∧ confProc.cfg = true ∧ 1 ≤ confProc.nch ∧ confProc.inst.iobufLen ≤ 4096
      ∧ confProc.larg.w0.toNat = 0 ∧ confProc.larg.w1.toNat = 4 ∧ ¬confProc.inst.iobufLen ≤ 0 ∧ confProc.inst.iobufLen ≤ 4
      ∧ 4 = min 4 (confProc.inst.iobufLen - 0) - min 4 (confProc.inst.iobufLen - 0) % confProc.nch
      ∧ 1 = min 4 (confProc.inst.iobufLen - 3) - min 4 (confProc.inst.iobufLen - 3) % confProc.nch
      ∧ ({ confProc with lctrl := 2#32 } : State).lctrl.getLsbD 0 = false ∧ ({ confProc with lctrl := 3#32 } : State).lctrl.getLsbD 0 = true := by
  decide +kernel

theorem witness_ProcMix :
    confProc.cfg = true ∧ 1 ≤ confProc.nch ∧ confProc.inst.iobufLen ≤ 4096 ∧ (1#32).getLsbD 0 = true ∧ (1#32).extractLsb' 1 3 = 0#3
      ∧ (3#32).getLsbD 0 = true ∧ (3#32).extractLsb' 1 3 = 1#3 := by
  decide +kernel

theorem witness_ProcFrame :
    exec .procBlock { confProc with lctrl := 7#32 } = .next (after .procBlock { confProc with lctrl := 7#32 })
      ∧ 3 = ((7#32).extractLsb' 1 3).toNat :=
  ⟨rfl, by decide⟩

theorem witness_MixBoundaries :
    let k (m : F32) : BlockCoeffs := ⟨m, F32.sub 0x3F800000#32 m, ⟨0#32, 0#32, 0#32⟩, 0#32, 0, 0#32, 0#32, 0⟩
    (k 0#32).om = F32.sub 0x3F800000#32 (k 0#32).mix ∧ (k 0#32).mix = 0#32 ∧ (k 0x3F800000#32).mix = 0x3F800000#32
      ∧ (k 0x80000000#32).om = F32.sub 0x3F800000#32 (k 0x80000000#32).mix ∧ (k 0x80000000#32).mix = 0x80000000#32
      ∧ F32.isNaN 0x7F800000#32 = false ∧ F32.isNaN 0x80000000#32 = false := by
  decide +kernel

theorem witness_ClampRange :
    F32.isNaN 0#32 = false ∧ F32.isNaN 0x3F800000#32 = false ∧ F32.ge 0x3F800000#32 0#32 = true ∧ F32.isNaN 0x7FC00000#32 = true
      ∧ F32.lt 0xBF800000#32 0#32 = true ∧ F32.lt 0x3F800000#32 0x40000000#32 = true ∧ F32.ge 0x80000000#32 0#32 = true := by
  decide +kernel

-- Largest finite values: their sum and product overflow, one of them plus zero does not.
theorem witness_FloatNearestEven :
    F32.isFinite 0x7F7FFFFF#32 = true ∧ F32.isFinite 0#32 = true ∧ (F32.fix 0x7F7FFFFF#32 + F32.fix 0#32).natAbs < overflowFrom
      ∧ overflowFrom ≤ (F32.fix 0x7F7FFFFF#32 + F32.fix 0x73000000#32).natAbs
      ∧ (F32.fix 0x7F7FFFFF#32 * F32.fix 0x3F800000#32).natAbs < overflowFrom * 2 ^ 149
      ∧ overflowFrom * 2 ^ 149 ≤ (F32.fix 0x7F7FFFFF#32 * F32.fix 0x40000000#32).natAbs ∧ F32.fix 0x80000000#32 + F32.fix 0x80000000#32 = 0
      ∧ F32.isNaN 0x7F800001#32 = true := by
  decide +kernel

-- The clauses on differences, quotients, infinities, rnd32, float, trunc and comparisons, each at the edge of its range.
theorem witness_FloatNearestEven_more :
    (F32.fix 0x7F7FFFFF#32 - F32.fix 0x7F7FFFFF#32).natAbs < overflowFrom ∧ overflowFrom ≤ (F32.fix 0x7F7FFFFF#32 - F32.fix 0xF3000000#32).natAbs
      ∧ F32.fix 0x80000000#32 - F32.fix 0#32 = 0 ∧ F32.fix 0x3F000000#32 ≠ 0
      ∧ (F32.fix 0x7F7FFFFF#32).natAbs * 2 ^ 149 < overflowFrom * (F32.fix 0x3F800000#32).natAbs
      ∧ overflowFrom * (F32.fix 0x3F000000#32).natAbs ≤ (F32.fix 0x7F7FFFFF#32).natAbs * 2 ^ 149
      ∧ F32.isInf 0x7F800000#32 = true ∧ F32.isInf 0xFF800000#32 = true ∧ F32.isZero 0x80000000#32 = true
      ∧ 1 * 2 ^ 149 < overflowFrom * 3 ∧ 2 ^ 24 - 1 < 2 ^ 24 ∧ 0 ≤ F32.fix 0x80000000#32
      ∧ F32.isNaN 0x7F800000#32 = false := by
  decide +kernel

/-! The invariants hold in a configured state with an impulse response, so their step statements are not about reset alone. -/

theorem witness_MemoryInvariant : MemInv confProc ∧ ∃ t, step confProc = .next t := by
  refine ⟨⟨by decide +kernel, ?_⟩, _, rfl⟩
  have h : (confProc.mem.all fun c => decide (0x4000 ≤ c.1 ∧ c.1 < 0x4000 + 4 * confProc.inst.iobufLen)) = true := by decide +kernel
  intro c hc
  exact Or.inl (by simpa using List.all_eq_true.1 h c hc)

theorem witness_RegisterInvariant : RegInv { idle 0#32 with err := true, errcode := 0x0001430C#32, ctrl := 0x0000071B#32 } where
  ctrl := by unfold ctrlLegal; decide +kernel
  lctrl := by unfold ctrlLegal; decide +kernel
  noError := by decide +kernel
  reserved := by decide +kernel
  code := by decide +kernel

theorem confIr_instance : confIr.inst = tiny := by decide +kernel

theorem confIr_store : confIr.pst = resetStore tiny := by decide +kernel

theorem witness_StoreInvariant : StoreInv confIr where
  inst := by rw [confIr_instance]; exact tiny_valid
  size := by decide +kernel
  builtins := by
    rw [confIr_instance, confIr_store]
    intro k b hb
    have hk : k < 8 := (List.getElem?_eq_some_iff.1 hb).1
    have h : ((List.range 8).all fun k => ((builtinTable tiny)[k]?.all fun b => ((resetStore tiny)[k]?.any fun e =>
        e.valid && decide (e.name = b.name) && F32.ge e.value b.lo && F32.ge b.hi e.value))) = true := by decide +kernel
    have h' := List.all_eq_true.1 h k (List.mem_range.2 hk)
    rw [hb, Option.all_some, Option.any_eq_true] at h'
    obtain ⟨e, he, h'⟩ := h'
    simp only [Bool.and_eq_true, decide_eq_true_eq] at h'
    exact ⟨e, he, h'.1.1.1, h'.1.1.2, h'.1.2, h'.2⟩
  names := by rw [confIr_store]; decide +kernel
  unused := by rw [confIr_store]; decide +kernel
  unique := by
    rw [confIr_store]
    intro i j x y hx hy vx vy hm
    have h : ((List.range 9).all fun i => (List.range 9).all fun j => ((resetStore tiny)[i]?.all fun x => (resetStore tiny)[j]?.all fun y =>
        !(x.valid && y.valid && namesMatch x.name y.name) || decide (i = j))) = true := by decide +kernel
    have h' := List.all_eq_true.1 (List.all_eq_true.1 h i (List.mem_range.2 (List.getElem?_eq_some_iff.1 hx).1)) j
      (List.mem_range.2 (List.getElem?_eq_some_iff.1 hy).1)
    rw [hx, hy, Option.all_some, Option.all_some, vx, vy, hm] at h'
    simpa using h'

theorem witness_ReverbCoefficients : StoreInv confIr := witness_StoreInvariant

/-- The units of `confIr` but for the instance and the list of channels, as one check. -/
theorem confIr_units :
    confIr.dlyl = [DelayBuf.empty 4] ∧ confIr.prer = [DelayBuf.empty 2] ∧ confIr.rev = [revEmpty tiny 44100 0]
      ∧ confIr.gps = [gpsStart 8 64] ∧ (confIr.fs, confIr.nch, confIr.dlycap, confIr.grain, confIr.ringB) = (44100, 1, 4, 8, 64) := by
  decide +kernel

theorem bufOk_empty (cap : Nat) (h : 0 < cap) : BufOk (DelayBuf.empty cap) cap := ⟨rfl, rfl, rfl, Or.inl h⟩

theorem witness_ShapeInvariant : ShapeInv confIr where
  inst := by rw [confIr_instance]; exact tiny_valid
  unset := by decide +kernel
  set := by decide +kernel
  lines := ⟨by decide +kernel, by
    rw [confIr_units.1]
    intro d hd
    rw [List.mem_singleton.1 hd, show confIr.dlycap = 4 by decide +kernel]
    exact bufOk_empty 4 (by decide)⟩
  pre := ⟨by decide +kernel, by
    rw [confIr_units.2.1]
    intro d hd
    rw [List.mem_singleton.1 hd, show confIr.inst.preCap = 2 by decide +kernel]
    exact bufOk_empty 2 (by decide)⟩
  rev := ⟨by decide +kernel, by
    rw [confIr_units.2.2.1]
    intro c r hr
    obtain ⟨hc, rfl⟩ := List.getElem?_eq_some_iff.1 hr
    have hc0 : c = 0 := by simpa using hc
    subst hc0
    have hpos (b : Nat) : 0 < revLength tiny 44100 0 b := by
      have : tiny.revCapMax = 16 := rfl
      simp only [revLength, this]
      omega
    refine ⟨rfl, rfl, ?_, ?_⟩
    all_goals
      intro i cb b hcb hb
      rw [confIr_instance] at hb ⊢
      rw [show confIr.fs = 44100 by decide +kernel, if_pos (show 0 < confIr.nch by decide +kernel)]
      simp only [List.getElem_cons_zero, revEmpty, List.getElem?_map, hb, Option.map_some, Option.some.injEq] at hcb
      subst hcb
      exact bufOk_empty _ (hpos b)⟩
  gps := ⟨by decide +kernel, by rw [confIr_units.2.2.2.1]; decide +kernel⟩
  win := by decide +kernel
  conv := by decide +kernel
  noIr := by decide +kernel
  withIr := fun _ => ⟨by decide +kernel, by decide +kernel, by decide +kernel, by decide +kernel, by decide +kernel, by
    intro v hv
    rw [List.mem_singleton.1 hv]
    exact ⟨by decide +kernel, by decide +kernel, by decide +kernel, by decide +kernel, by decide +kernel, by decide +kernel,
      by decide +kernel, by decide +kernel⟩⟩
  session := by decide +kernel
  raw := by decide +kernel

theorem witness_PitchInvariant : ShapeInv confIr ∧ StoreInv confIr ∧ GpsInv confIr ∧ confIr.cfg = true := by
  refine ⟨witness_ShapeInvariant, witness_StoreInvariant, ?_, by decide +kernel⟩
  intro _ g hg
  rw [confIr_units.2.2.2.1, List.mem_singleton] at hg
  subst hg
  rw [show confIr.ringB = 64 by decide +kernel, show confIr.grain = 8 by decide +kernel]
  simp only [PosBelow]
  decide +kernel

end Sys2Proof.Tests
end

section
/-! Binary32 on words: what bits 30:0 say about the magnitude, and that the one rounding of the model (`F32.round`) finds the
nearest value, ties to even (00_scope R15, R17). Everything below about an operation rests on these two. -/

namespace Sys2Proof.Machine

/-! ### Magnitudes in the order of the words -/

/-- The magnitude, in units of 2^-149, of a word whose bits 30:0 are `n`; `F32.mag_eq_magOf` ties it to the model. -/
def magOf (n : Nat) : Nat := (n - (n / 2 ^ 23 - 1) * 2 ^ 23) * 2 ^ (n / 2 ^ 23 - 1)

theorem F32.mag_eq_magOf (a : F32) : F32.mag a = magOf (F32.magBits a) := by
  have he : F32.exponent a = F32.magBits a / 2 ^ 23 := by
    unfold F32.exponent F32.magBits; omega
  have hf : F32.fraction a = F32.magBits a % 2 ^ 23 := by
    unfold F32.fraction F32.magBits; omega
  unfold F32.mag magOf
  rw [he, hf]
  split
  case isTrue h => rw [h, Nat.mod_eq_of_lt (by omega)]; simp
  case isFalse h => congr 1; omega

@[simp] theorem magOf_zero : magOf 0 = 0 := rfl

/-- A significand `m` with `j` doublings stands at the bits j·2^23 + m; m = 2^24 carries into the exponent field. -/
theorem magOf_encode {j m : Nat} (hm : m ≤ 2 ^ 24) (hj : j = 0 ∨ 2 ^ 23 ≤ m) : magOf (j * 2 ^ 23 + m) = m * 2 ^ j := by
  unfold magOf
  by_cases hc : m = 2 ^ 24
  · subst hc
    rw [show (j * 2 ^ 23 + 2 ^ 24) / 2 ^ 23 - 1 = j + 1 by omega,
      show j * 2 ^ 23 + 2 ^ 24 - (j + 1) * 2 ^ 23 = 2 ^ 23 by omega, pow_succ]
    omega
  · rw [show (j * 2 ^ 23 + m) / 2 ^ 23 - 1 = j by omega, Nat.add_sub_cancel_left]

theorem exists_encode (n : Nat) : ∃ j m, n = j * 2 ^ 23 + m ∧ m < 2 ^ 24 ∧ (j = 0 ∨ 2 ^ 23 ≤ m) :=
  ⟨n / 2 ^ 23 - 1, n - (n / 2 ^ 23 - 1) * 2 ^ 23, by omega, by omega, by omega⟩

/-- Bits 30:0 order the magnitudes. -/
theorem magOf_strictMono : StrictMono magOf := by
  apply strictMono_nat_of_lt_succ
  intro n
  obtain ⟨j, m, rfl, hm, hj⟩ := exists_encode n
  rw [magOf_encode hm.le hj, add_assoc, magOf_encode hm (by omega)]
  exact Nat.mul_lt_mul_of_pos_right (Nat.lt_succ_self m) (by positivity)

theorem magOf_eq_zero {n : Nat} : magOf n = 0 ↔ n = 0 := magOf_strictMono.injective.eq_iff' magOf_zero

/-- Every significand below 2^24 has a word for each number of doublings. -/
theorem exists_magOf_eq {m : Nat} (hm : m < 2 ^ 24) (k : Nat) : ∃ n, magOf n = m * 2 ^ k := by
  induction k with
  | zero => exact ⟨m, by simpa using magOf_encode (j := 0) hm.le (.inl rfl)⟩
  | succ k ih =>
    obtain ⟨n, hn⟩ := ih
    obtain ⟨j, m', rfl, hm', hj⟩ := exists_encode n
    rw [magOf_encode hm'.le hj] at hn
    by_cases h : 2 ^ 23 ≤ m'
    · exact ⟨(j + 1) * 2 ^ 23 + m', by rw [magOf_encode hm'.le (.inr h), pow_succ, ← mul_assoc, hn, pow_succ, mul_assoc]⟩
    · obtain rfl : j = 0 := by omega
      refine ⟨0 * 2 ^ 23 + 2 * m', ?_⟩
      rw [magOf_encode (by omega) (.inl rfl), pow_succ, ← mul_assoc, ← hn]
      omega

/-- The magnitude that the bits of an infinity would have, and the greatest finite magnitude below it. -/
theorem magOf_infinity : magOf 0x7F800000 = 2 ^ 25 * 2 ^ 252 := by
  rw [show 0x7F800000 = 254 * 2 ^ 23 + 2 ^ 23 by rfl, magOf_encode (by omega) (.inr le_rfl), show 254 = 252 + 2 by rfl, pow_add]
  ring

theorem magOf_largest : magOf 0x7F7FFFFF = (2 ^ 25 - 2) * 2 ^ 252 := by
  rw [show 0x7F7FFFFF = 253 * 2 ^ 23 + (2 ^ 24 - 1) by rfl, magOf_encode (by omega) (.inr (by omega)), show 253 = 252 + 1 by rfl, pow_add]
  omega

/-! ### The rounding of a magnitude -/

/-- Bits 30:0 of the rounded value before the overflow to infinity (`F32.round_eq`). -/
def roundBits (num den : Nat) : Nat :=
  let j := Nat.log2 (num / den) - 23
  j * 2 ^ 23 + roundHalfEven num (den * 2 ^ j)

theorem F32.round_eq (neg : Bool) (num den : Nat) :
    F32.round neg num den = F32.pack neg (if roundBits num den < 0x7F800000 then roundBits num den else 0x7F800000) := rfl

/-- The bits `b` have the magnitude nearest to num / den among all magnitudes, and are even where another is as near. -/
def IsNearestMag (b num den : Nat) : Prop :=
  ∀ n, |(magOf b : Int) * den - num| ≤ |(magOf n : Int) * den - num|
    ∧ (|(magOf b : Int) * den - num| = |(magOf n : Int) * den - num| → magOf n ≠ magOf b → b % 2 = 0)

theorem roundHalfEven_cases (num d : Nat) :
    (roundHalfEven num d = num / d ∧ 2 * (num % d) < d)
      ∨ (roundHalfEven num d = num / d + 1 ∧ d < 2 * (num % d))
      ∨ (roundHalfEven num d % 2 = 0 ∧ 2 * (num % d) = d
          ∧ (roundHalfEven num d = num / d ∨ roundHalfEven num d = num / d + 1)) := by
  simp only [roundHalfEven]
  split
  case isTrue h => exact .inl ⟨rfl, h⟩
  case isFalse h =>
    split
    case isTrue h' => exact .inr (.inl ⟨rfl, h'⟩)
    case isFalse h' => exact .inr (.inr ⟨by omega, by omega, by omega⟩)

/-- Scaling by the exponent that the model picks leaves at most 24 bits, and exactly 24 outside the subnormal range. -/
theorem scaled_bounds (x : Nat) :
    x / 2 ^ (x.log2 - 23) < 2 ^ 24 ∧ (x.log2 - 23 = 0 ∨ 2 ^ 23 ≤ x / 2 ^ (x.log2 - 23)) := by
  constructor
  · rw [Nat.div_lt_iff_lt_mul (by positivity), ← pow_add]
    exact Nat.lt_log2_self.trans_le (Nat.pow_le_pow_right (by omega) (by omega))
  · rw [or_iff_not_imp_left]
    intro hj
    have hx : x ≠ 0 := by
      rintro rfl
      exact hj (by simp)
    rw [Nat.le_div_iff_mul_le (by positivity), ← pow_add, show 23 + (x.log2 - 23) = x.log2 by omega]
    exact Nat.log2_self_le hx

/-- num / den lies between the magnitudes of two neighbouring words, `r` above the lower and `s` below the upper, and the model
takes the nearer, or the even one of the two at a tie. -/
theorem roundBits_cases (num : Nat) {den : Nat} (hden : 0 < den) :
    ∃ b r s, num = magOf b * den + r ∧ magOf (b + 1) * den = num + s ∧ 0 < s
      ∧ ((roundBits num den = b ∧ r < s) ∨ (roundBits num den = b + 1 ∧ s < r)
        ∨ (roundBits num den % 2 = 0 ∧ r = s ∧ (roundBits num den = b ∨ roundBits num den = b + 1))) := by
  obtain ⟨hq, hj⟩ := scaled_bounds (num / den)
  simp only [roundBits]
  rw [Nat.div_div_eq_div_mul] at hq hj
  generalize Nat.log2 (num / den) - 23 = j at hq hj ⊢
  have hd0 : 0 < den * 2 ^ j := by positivity
  have hnum := Nat.div_add_mod' num (den * 2 ^ j)
  have hr : num % (den * 2 ^ j) < den * 2 ^ j := Nat.mod_lt _ hd0
  have hcases := roundHalfEven_cases num (den * 2 ^ j)
  generalize num / (den * 2 ^ j) = q at hq hj hnum hcases
  obtain ⟨b, hb⟩ : ∃ b, b = j * 2 ^ 23 + q := ⟨_, rfl⟩
  have hlow : magOf b * den = q * (den * 2 ^ j) := by
    rw [hb, magOf_encode hq.le hj]; ring
  have hhigh : magOf (b + 1) * den = q * (den * 2 ^ j) + den * 2 ^ j := by
    rw [hb, add_assoc, magOf_encode (by omega) (by omega)]; ring
  refine ⟨b, num % (den * 2 ^ j), den * 2 ^ j - num % (den * 2 ^ j), by omega, by omega, by omega, ?_⟩
  rcases hcases with ⟨hR, h⟩ | ⟨hR, h⟩ | ⟨heven, h, hR⟩
  · exact .inl ⟨by omega, by omega⟩
  · exact .inr (.inl ⟨by omega, by omega⟩)
  · exact .inr (.inr ⟨by omega, by omega, by omega⟩)

/-- The key fact: no magnitude lies between those of two neighbouring words, so the nearer of the two is the nearest of all. -/
theorem roundBits_nearest (num : Nat) {den : Nat} (hden : 0 < den) : IsNearestMag (roundBits num den) num den := by
  intro n
  obtain ⟨b, r, s, hlow, hhigh, hs, hcases⟩ := roundBits_cases num hden
  have hside : magOf n * den ≤ magOf b * den ∨ magOf (b + 1) * den ≤ magOf n * den := by
    rcases Nat.lt_or_ge b n with h | h
    · exact .inr (Nat.mul_le_mul_right den (magOf_strictMono.monotone h))
    · exact .inl (Nat.mul_le_mul_right den (magOf_strictMono.monotone h))
  have hne (c : Nat) (h : magOf n ≠ magOf c) : magOf n * den ≠ magOf c * den := fun h' => h (Nat.eq_of_mul_eq_mul_right hden h')
  simp only [Int.abs_eq_natAbs, ← Int.natCast_mul]
  rcases hcases with ⟨hR, hlt⟩ | ⟨hR, hlt⟩ | ⟨heven, htie, hR⟩
  · rw [hR]
    refine ⟨by omega, fun heq hc => ?_⟩
    have := hne _ hc
    omega
  · rw [hR]
    refine ⟨by omega, fun heq hc => ?_⟩
    have := hne _ hc
    omega
  · refine ⟨?_, fun _ _ => heven⟩
    rcases hR with hR | hR <;> rw [hR] <;> omega

/-- A nearest magnitude is finite exactly below half a unit above the greatest finite one (00_scope R17). -/
theorem IsNearestMag.finite_iff {b num den : Nat} (hden : 0 < den) (h : IsNearestMag b num den) :
    b < 0x7F800000 ↔ num < overflowFrom * den := by
  obtain ⟨hlargest, -⟩ := h 0x7F7FFFFF
  obtain ⟨hinf, htie⟩ := h 0x7F800000
  have hp : 0 < 2 ^ 252 * den := by positivity
  have hover : overflowFrom * den = (2 ^ 25 - 1) * (2 ^ 252 * den) := mul_assoc _ _ _
  have htop : 0x7F800000 ≤ b → magOf 0x7F800000 * den ≤ magOf b * den :=
    fun hb => Nat.mul_le_mul_right den (magOf_strictMono.monotone hb)
  have hlow : b < 0x7F7FFFFF → magOf b * den < magOf 0x7F7FFFFF * den :=
    fun hb => Nat.mul_lt_mul_of_pos_right (magOf_strictMono hb) hden
  have hmax : b = 0x7F7FFFFF → magOf b * den = magOf 0x7F7FFFFF * den := fun hb => by rw [hb]
  have hodd (hb : b < 0x7F800000) := fun heq => htie heq (magOf_strictMono hb).ne'
  simp only [Int.abs_eq_natAbs, ← Int.natCast_mul, magOf_largest, magOf_infinity, mul_assoc]
    at hlargest hinf htop hlow hmax hodd
  rw [hover]
  generalize 2 ^ 252 * den = p at *
  constructor
  · intro hb
    by_contra hnum
    rcases Nat.lt_or_ge b 0x7F7FFFFF with hlt | hge
    · have := hlow hlt
      omega
    · have := hmax (by omega)
      have := hodd hb (by omega)
      omega
  · intro hnum
    by_contra hb
    have := htop (by omega)
    omega

end Sys2Proof.Machine
end

section
/-! The words of binary32 values: sign, bits 30:0 and the value of a packed, a negated and a rounded word (00_scope R15, R17). -/

namespace Sys2Proof.Machine

/-! ### Sign and magnitude of a word -/

theorem F32.sign_eq (a : F32) : F32.sign a = decide (2 ^ 31 ≤ a.toNat) := by
  unfold F32.sign BitVec.getLsbD
  rw [Nat.testBit_eq_decide_div_mod_eq]
  congr 1
  apply propext
  omega

theorem F32.magBits_lt (a : F32) : F32.magBits a < 2 ^ 31 := Nat.mod_lt _ (by positivity)

theorem F32.toNat_pack (neg : Bool) {b : Nat} (hb : b < 2 ^ 31) :
    (F32.pack neg b).toNat = (if neg then 2 ^ 31 else 0) + b := by
  rw [F32.pack, BitVec.toNat_ofNat, Nat.mod_eq_of_lt]
  split <;> omega

theorem F32.sign_pack (neg : Bool) {b : Nat} (hb : b < 2 ^ 31) : F32.sign (F32.pack neg b) = neg := by
  rw [F32.sign_eq, F32.toNat_pack neg hb]
  cases neg
  · simpa using hb
  · simp

theorem F32.magBits_pack (neg : Bool) {b : Nat} (hb : b < 2 ^ 31) : F32.magBits (F32.pack neg b) = b := by
  rw [F32.magBits, F32.toNat_pack neg hb]
  split <;> omega

theorem F32.pack_infinity (neg : Bool) : F32.pack neg 0x7F800000 = if neg then 0xFF800000#32 else 0x7F800000#32 := by
  cases neg <;> rfl

theorem F32.pack_zero (neg : Bool) : F32.pack neg 0 = if neg then 0x80000000#32 else 0#32 := by
  cases neg <;> rfl

/-- The exact value with the sign `neg` and the magnitude `num`. -/
def signedNum (neg : Bool) (num : Nat) : Int := if neg then -(num : Int) else num

theorem F32.fix_eq (a : F32) : F32.fix a = signedNum (F32.sign a) (magOf (F32.magBits a)) := by
  rw [← F32.mag_eq_magOf]; rfl

theorem F32.natAbs_fix (a : F32) : (F32.fix a).natAbs = F32.mag a := by
  rw [F32.fix]; split <;> simp

theorem F32.fix_eq_zero {a : F32} : F32.fix a = 0 ↔ F32.isZero a = true := by
  rw [← Int.natAbs_eq_zero, F32.natAbs_fix, F32.mag_eq_magOf, magOf_eq_zero, F32.isZero, beq_iff_eq]

/-! ### The kinds of words -/

theorem F32.isFinite_iff {a : F32} : F32.isFinite a = true ↔ F32.magBits a < 0x7F800000 := decide_eq_true_iff

theorem F32.isInf_iff {a : F32} : F32.isInf a = true ↔ F32.magBits a = 0x7F800000 := beq_iff_eq

theorem F32.isNaN_iff {a : F32} : F32.isNaN a = true ↔ 0x7F800000 < F32.magBits a := decide_eq_true_iff

theorem F32.isZero_iff {a : F32} : F32.isZero a = true ↔ F32.magBits a = 0 := beq_iff_eq

theorem F32.isNaN_of_isFinite {a : F32} (h : F32.isFinite a = true) : F32.isNaN a = false := by
  rw [F32.isFinite_iff] at h
  rw [Bool.eq_false_iff, Ne, F32.isNaN_iff]
  omega

theorem F32.isInf_of_isFinite {a : F32} (h : F32.isFinite a = true) : F32.isInf a = false := by
  rw [F32.isFinite_iff] at h
  rw [Bool.eq_false_iff, Ne, F32.isInf_iff]
  omega

theorem F32.isNaN_of_isInf {a : F32} (h : F32.isInf a = true) : F32.isNaN a = false := by
  rw [F32.isInf_iff] at h
  rw [Bool.eq_false_iff, Ne, F32.isNaN_iff]
  omega

theorem F32.isZero_of_isInf {a : F32} (h : F32.isInf a = true) : F32.isZero a = false := by
  rw [F32.isInf_iff] at h
  rw [Bool.eq_false_iff, Ne, F32.isZero_iff]
  omega

theorem F32.isFinite_of_isZero {a : F32} (h : F32.isZero a = true) : F32.isFinite a = true := by
  rw [F32.isZero_iff] at h
  rw [F32.isFinite_iff]
  omega

theorem F32.isZero_iff_word {a : F32} : F32.isZero a = true ↔ a = 0#32 ∨ a = 0x80000000#32 := by
  rw [F32.isZero_iff, F32.magBits, ← BitVec.toNat_inj, ← BitVec.toNat_inj, BitVec.toNat_ofNat, BitVec.toNat_ofNat]
  omega

/-! ### Negation -/

@[simp] theorem F32.sign_neg (a : F32) : F32.sign (F32.neg a) = !F32.sign a := by
  rw [F32.sign, F32.neg, BitVec.getLsbD_xor, F32.sign]
  simp

@[simp] theorem F32.magBits_neg (a : F32) : F32.magBits (F32.neg a) = F32.magBits a := by
  rw [F32.magBits, F32.neg, BitVec.toNat_xor, Nat.xor_mod_two_pow]
  exact Nat.xor_zero _

@[simp] theorem F32.isNaN_neg (a : F32) : F32.isNaN (F32.neg a) = F32.isNaN a := by simp [F32.isNaN]

@[simp] theorem F32.isInf_neg (a : F32) : F32.isInf (F32.neg a) = F32.isInf a := by simp [F32.isInf]

@[simp] theorem F32.isFinite_neg (a : F32) : F32.isFinite (F32.neg a) = F32.isFinite a := by simp [F32.isFinite]

@[simp] theorem F32.fix_neg (a : F32) : F32.fix (F32.neg a) = -F32.fix a := by
  rw [F32.fix_eq, F32.fix_eq, F32.sign_neg, F32.magBits_neg]
  cases F32.sign a <;> simp [signedNum]

/-! ### The rounded word -/

@[simp] theorem natAbs_signedNum (neg : Bool) (num : Nat) : (signedNum neg num).natAbs = num := by
  cases neg <;> simp [signedNum]

theorem signedNum_decide_natAbs (v : Int) : signedNum (decide (v < 0)) v.natAbs = v := by
  unfold signedNum
  split
  case isTrue h => rw [decide_eq_true_iff] at h; omega
  case isFalse h => rw [decide_eq_true_iff] at h; omega

theorem signedNum_mul (n m : Bool) (x y : Nat) : signedNum n x * signedNum m y = signedNum (n != m) (x * y) := by
  cases n <;> cases m <;> simp [signedNum]

theorem sign_signedNum (neg : Bool) {m : Nat} (hm : 0 < m) : (signedNum neg m).sign = signedNum neg 1 := by
  cases neg
  · exact Int.sign_eq_one_of_pos (by simpa [signedNum] using hm)
  · exact Int.sign_eq_neg_one_of_neg (by simpa [signedNum] using hm)

theorem abs_signedNum_same (neg : Bool) (m num den : Nat) :
    |signedNum neg m * den - signedNum neg num| = |(m : Int) * den - num| := by
  cases neg
  · rfl
  · rw [← abs_neg]
    congr 1
    simp only [signedNum, if_true]
    ring

theorem abs_signedNum_opposite (neg : Bool) (m num den : Nat) :
    |signedNum (!neg) m * den - signedNum neg num| = (m : Int) * den + num := by
  have hnonneg : (0 : Int) ≤ (m : Int) * den + num := by positivity
  rw [← abs_of_nonneg hnonneg]
  cases neg
  · rw [← abs_neg]
    congr 1
    simp only [signedNum, Bool.not_false, if_true, Bool.false_eq_true, if_false]
    ring
  · congr 1
    simp only [signedNum, Bool.not_true, if_true, Bool.false_eq_true, if_false]
    ring

/-- The rounded word, its sign and its bits, while it is finite. -/
theorem F32.round_of_lt (neg : Bool) {num den : Nat} (hden : 0 < den) (h : num < overflowFrom * den) :
    F32.round neg num den = F32.pack neg (roundBits num den) ∧ roundBits num den < 0x7F800000 := by
  have hb := (roundBits_nearest num hden).finite_iff hden |>.2 h
  rw [F32.round_eq, if_pos hb]
  exact ⟨rfl, hb⟩

theorem F32.sign_round (neg : Bool) (num den : Nat) : F32.sign (F32.round neg num den) = neg := by
  rw [F32.round_eq]
  exact F32.sign_pack neg (by split <;> omega)

/-- Overflow: from half a unit above the greatest finite value on the rounding gives the infinity of its sign. -/
theorem F32.round_overflow (neg : Bool) {num den : Nat} (hden : 0 < den) (h : overflowFrom * den ≤ num) :
    F32.round neg num den = if neg then 0xFF800000#32 else 0x7F800000#32 := by
  have hb := ((roundBits_nearest num hden).finite_iff hden).not.2 (Nat.not_lt.2 h)
  rw [F32.round_eq, if_neg hb, F32.pack_infinity]

/-- The one rounding of the model is to the nearest finite value, ties to even. A value of the other sign is never nearer than
+0.0 or -0.0 is, so the nearest magnitude decides. -/
theorem F32.isNearestEven_round (neg : Bool) {num den : Nat} (hden : 0 < den) (h : num < overflowFrom * den) :
    IsNearestEven (F32.round neg num den) (signedNum neg num) den := by
  obtain ⟨hround, hb⟩ := F32.round_of_lt neg hden h
  have hnear := roundBits_nearest num hden
  rw [hround]
  generalize roundBits num den = b at hb hnear
  have hb31 : b < 2 ^ 31 := by omega
  refine ⟨by rwa [F32.isFinite_iff, F32.magBits_pack neg hb31], fun y _ => ?_⟩
  have hfrac : F32.fraction (F32.pack neg b) % 2 = b % 2 := by
    have hbits := F32.magBits_pack neg hb31
    unfold F32.magBits at hbits
    unfold F32.fraction
    omega
  obtain ⟨hle, htie⟩ := hnear (F32.magBits y)
  rw [hfrac, F32.fix_eq, F32.fix_eq, F32.sign_pack neg hb31, F32.magBits_pack neg hb31, abs_signedNum_same]
  generalize F32.magBits y = n at hle htie
  by_cases hs : F32.sign y = neg
  · rw [hs, abs_signedNum_same]
    exact ⟨hle, fun heq hne => htie heq fun h => hne (congrArg _ h)⟩
  · rw [Bool.eq_not.2 hs, abs_signedNum_opposite]
    obtain ⟨hle0, htie0⟩ := hnear 0
    have hzero : |(magOf 0 : Int) * den - num| = num := by simp
    have hpos : (0 : Int) ≤ (magOf n : Int) * den := by positivity
    rw [hzero] at hle0 htie0
    refine ⟨by linarith, fun heq hne => ?_⟩
    have hy : (magOf n : Int) * den = 0 := le_antisymm (by linarith) hpos
    have hn : magOf n = 0 := by simpa [hden.ne'] using hy
    refine htie0 (by linarith) fun hb0 => hne ?_
    rw [hn, ← hb0]
    cases neg <;> rfl

end Sys2Proof.Machine
end

section
/-! The operations of 00_scope R17 to R20 on binary32 words, clause by clause: the fields of a word, the comparisons, the four
operations on finite, infinite and NaN operands, and the conversions. -/

namespace Sys2Proof.Machine

/-! ### The fields of a word -/

theorem F32.toNat_exponentField (a : F32) : (a.extractLsb' 23 8).toNat = F32.exponent a := by
  rw [BitVec.extractLsb'_toNat, Nat.shiftRight_eq_div_pow, F32.exponent]

theorem F32.toNat_fractionField (a : F32) : (a.extractLsb' 0 23).toNat = F32.fraction a := by
  rw [BitVec.extractLsb'_toNat, Nat.shiftRight_zero, F32.fraction]

theorem F32.magBits_eq_fields (a : F32) : F32.magBits a = F32.exponent a * 2 ^ 23 + F32.fraction a := by
  unfold F32.magBits F32.exponent F32.fraction; omega

/-- What the fields of a word say (00_scope R15, R17). -/
theorem F32.meaning_of_fields (a : F32) :
    let e := (a.extractLsb' 23 8).toNat
    let f := (a.extractLsb' 0 23).toNat
    (F32.isFinite a = true ↔ e ≠ 255) ∧ (F32.isInf a = true ↔ e = 255 ∧ f = 0) ∧ (F32.isNaN a = true ↔ e = 255 ∧ f ≠ 0)
      ∧ F32.fix a = (if a.getLsbD 31 then -1 else 1) * ((if e = 0 then f else (2 ^ 23 + f) * 2 ^ (e - 1) : Nat) : Int)
      ∧ F32.sign a = a.getLsbD 31 ∧ F32.fraction a = f ∧ (F32.isZero a = true ↔ a = 0#32 ∨ a = 0x80000000#32) := by
  have he : F32.exponent a < 2 ^ 8 := Nat.mod_lt _ (by positivity)
  have hf : F32.fraction a < 2 ^ 23 := Nat.mod_lt _ (by positivity)
  have hfix : F32.fix a = (if F32.sign a then -1 else 1) * (F32.mag a : Int) := by
    rw [F32.fix]; split <;> simp
  rw [F32.toNat_exponentField, F32.toNat_fractionField]
  intro e f
  refine ⟨?_, ?_, ?_, hfix, rfl, rfl, F32.isZero_iff_word⟩
  · rw [F32.isFinite_iff, F32.magBits_eq_fields]; omega
  · rw [F32.isInf_iff, F32.magBits_eq_fields]; omega
  · rw [F32.isNaN_iff, F32.magBits_eq_fields]; omega

/-! ### Comparisons -/

theorem F32.lt_iff {a b : F32} (ha : F32.isNaN a = false) (hb : F32.isNaN b = false) :
    F32.lt a b = true ↔ F32.key a < F32.key b := by
  simp [F32.lt, ha, hb]

theorem F32.ge_iff {a b : F32} (ha : F32.isNaN a = false) (hb : F32.isNaN b = false) :
    F32.ge a b = true ↔ F32.key b ≤ F32.key a := by
  simp [F32.ge, ha, hb]

theorem F32.ge_eq_not_lt {a b : F32} (ha : F32.isNaN a = false) (hb : F32.isNaN b = false) : F32.ge a b = !F32.lt a b := by
  rw [Bool.eq_iff_iff, F32.ge_iff ha hb, Bool.not_eq_true', Bool.eq_false_iff, Ne, F32.lt_iff ha hb, not_lt]

theorem F32.not_isNaN_of_lt {a b : F32} (h : F32.lt a b = true) : F32.isNaN a = false ∧ F32.isNaN b = false := by
  simp only [F32.lt, Bool.and_eq_true, Bool.not_eq_true'] at h
  exact h.1

theorem F32.not_isNaN_of_ge {a b : F32} (h : F32.ge a b = true) : F32.isNaN a = false ∧ F32.isNaN b = false := by
  simp only [F32.ge, Bool.and_eq_true, Bool.not_eq_true'] at h
  exact h.1

/-- The place of a word in the order is that of its value: both are odd and rise with bits 30:0. -/
theorem F32.key_lt_key {a b : F32} : F32.key a < F32.key b ↔ F32.fix a < F32.fix b := by
  have hlt := magOf_strictMono.lt_iff_lt (a := F32.magBits a) (b := F32.magBits b)
  have hgt := magOf_strictMono.lt_iff_lt (a := F32.magBits b) (b := F32.magBits a)
  have ha := magOf_eq_zero (n := F32.magBits a)
  have hb := magOf_eq_zero (n := F32.magBits b)
  rw [F32.fix_eq, F32.fix_eq, signedNum, signedNum, F32.key, F32.key]
  cases F32.sign a <;> cases F32.sign b <;> simp only [if_true, Bool.false_eq_true, if_false] <;> omega

theorem F32.lt_iff_fix {a b : F32} (ha : F32.isFinite a = true) (hb : F32.isFinite b = true) :
    F32.lt a b = true ↔ F32.fix a < F32.fix b := by
  rw [F32.lt_iff (F32.isNaN_of_isFinite ha) (F32.isNaN_of_isFinite hb), F32.key_lt_key]

theorem F32.ge_iff_fix {a b : F32} (ha : F32.isFinite a = true) (hb : F32.isFinite b = true) :
    F32.ge a b = true ↔ F32.fix b ≤ F32.fix a := by
  rw [F32.ge_iff (F32.isNaN_of_isFinite ha) (F32.isNaN_of_isFinite hb), ← not_lt, F32.key_lt_key, not_lt]

theorem F32.key_bounds_of_isFinite {a : F32} (h : F32.isFinite a = true) : -0x7F800000 < F32.key a ∧ F32.key a < 0x7F800000 := by
  rw [F32.isFinite_iff] at h
  unfold F32.key
  split <;> omega

/-- The infinities lie beyond every finite value. -/
theorem F32.lt_infinities (a : F32) (h : F32.isFinite a = true) :
    F32.lt a 0x7F800000#32 = true ∧ F32.lt 0xFF800000#32 a = true
      ∧ F32.lt 0x7F800000#32 a = false ∧ F32.lt a 0xFF800000#32 = false := by
  have hn := F32.isNaN_of_isFinite h
  have hpos : F32.isNaN 0x7F800000#32 = false := rfl
  have hneg : F32.isNaN 0xFF800000#32 = false := rfl
  have kpos : F32.key 0x7F800000#32 = 0x7F800000 := rfl
  have kneg : F32.key 0xFF800000#32 = -0x7F800000 := rfl
  obtain ⟨hlow, hhigh⟩ := F32.key_bounds_of_isFinite h
  simp only [Bool.eq_false_iff, Ne, F32.lt_iff, hn, hpos, hneg, kpos, kneg]
  omega

/-! ### Operations with a NaN -/

theorem F32.nan_operand (a b : F32) (h : F32.isNaN a = true ∨ F32.isNaN b = true) :
    F32.add a b = 0x7FC00000#32 ∧ F32.sub a b = 0x7FC00000#32 ∧ F32.mul a b = 0x7FC00000#32 ∧ F32.div a b = 0x7FC00000#32
      ∧ F32.lt a b = false ∧ F32.ge a b = false := by
  have hor : (F32.isNaN a || F32.isNaN b) = true := by simpa using h
  have hand : (!F32.isNaN a && !F32.isNaN b) = false := by rw [← Bool.not_or, hor]; rfl
  simp only [F32.add, F32.sub, F32.mul, F32.div, F32.lt, F32.ge, F32.isNaN_neg, hor, hand, if_true, Bool.false_and, F32.qNaN, and_self]

/-! ### Operations on finite values -/

theorem F32.add_of_finite {a b : F32} (ha : F32.isFinite a = true) (hb : F32.isFinite b = true) :
    F32.add a b = if F32.fix a + F32.fix b = 0 then F32.pack (F32.sign a && F32.sign b) 0
      else F32.round (decide (F32.fix a + F32.fix b < 0)) (F32.fix a + F32.fix b).natAbs 1 := by
  simp [F32.add, F32.isNaN_of_isFinite, F32.isInf_of_isFinite, ha, hb]

theorem F32.mul_of_finite {a b : F32} (ha : F32.isFinite a = true) (hb : F32.isFinite b = true) :
    F32.mul a b = F32.round (F32.sign a != F32.sign b) (F32.mag a * F32.mag b) (2 ^ 149) := by
  simp [F32.mul, F32.isNaN_of_isFinite, F32.isInf_of_isFinite, ha, hb]

theorem F32.div_of_finite {a b : F32} (ha : F32.isFinite a = true) (hb : F32.isFinite b = true) (h0 : F32.isZero b = false) :
    F32.div a b = F32.round (F32.sign a != F32.sign b) (F32.mag a * 2 ^ 149) (F32.mag b) := by
  simp [F32.div, F32.isNaN_of_isFinite, F32.isInf_of_isFinite, ha, hb, h0]

/-- A zero of either sign is the nearest value to an exact 0. -/
theorem F32.isNearestEven_pack_zero (neg : Bool) : IsNearestEven (F32.pack neg 0) 0 1 := by
  have hfix : F32.fix (F32.pack neg 0) = 0 := by cases neg <;> rfl
  have hfin : F32.isFinite (F32.pack neg 0) = true := by cases neg <;> rfl
  refine ⟨hfin, fun y _ => ?_⟩
  rw [hfix]
  refine ⟨by simp, fun heq hne => absurd ?_ hne⟩
  rw [Nat.cast_one, mul_one, mul_one, sub_zero, sub_zero, abs_zero] at heq
  exact abs_eq_zero.1 heq.symm

theorem F32.add_nearest (a b : F32) (ha : F32.isFinite a = true) (hb : F32.isFinite b = true) :
    ((F32.fix a + F32.fix b).natAbs < overflowFrom →
      IsNearestEven (F32.add a b) (F32.fix a + F32.fix b) 1
        ∧ (F32.fix a + F32.fix b = 0 → F32.add a b = if F32.sign a && F32.sign b then 0x80000000#32 else 0#32))
    ∧ (overflowFrom ≤ (F32.fix a + F32.fix b).natAbs →
      F32.add a b = if F32.fix a + F32.fix b < 0 then 0xFF800000#32 else 0x7F800000#32) := by
  rw [F32.add_of_finite ha hb]
  generalize F32.fix a + F32.fix b = v
  by_cases hv : v = 0
  · subst hv
    simp only [if_true, F32.pack_zero]
    refine ⟨fun _ => ⟨?_, fun _ => trivial⟩, fun h => absurd h (by decide)⟩
    rw [← F32.pack_zero]
    exact F32.isNearestEven_pack_zero _
  · simp only [hv, if_false]
    refine ⟨fun h => ⟨?_, fun h0 => h0.elim⟩, fun h => ?_⟩
    · have hnear := F32.isNearestEven_round (decide (v < 0)) one_pos (by rwa [mul_one])
      rwa [signedNum_decide_natAbs] at hnear
    · rw [F32.round_overflow _ one_pos (by rwa [mul_one])]
      simp only [decide_eq_true_eq]

theorem F32.sub_nearest (a b : F32) (ha : F32.isFinite a = true) (hb : F32.isFinite b = true) :
    ((F32.fix a - F32.fix b).natAbs < overflowFrom →
      IsNearestEven (F32.sub a b) (F32.fix a - F32.fix b) 1
        ∧ (F32.fix a - F32.fix b = 0 → F32.sub a b = if F32.sign a && !F32.sign b then 0x80000000#32 else 0#32))
    ∧ (overflowFrom ≤ (F32.fix a - F32.fix b).natAbs →
      F32.sub a b = if F32.fix a - F32.fix b < 0 then 0xFF800000#32 else 0x7F800000#32) := by
  have h := F32.add_nearest a (F32.neg b) ha (by rwa [F32.isFinite_neg])
  rwa [F32.fix_neg, F32.sign_neg, ← sub_eq_add_neg] at h

/-- What a rounding by an operation of sign `neg` gives, as the clauses on products and quotients say it. -/
theorem F32.round_nearest (neg : Bool) {num den : Nat} (hden : 0 < den) :
    (num < overflowFrom * den →
      IsNearestEven (F32.round neg num den) (signedNum neg num) den ∧ F32.sign (F32.round neg num den) = neg)
    ∧ (overflowFrom * den ≤ num → F32.round neg num den = if neg then 0xFF800000#32 else 0x7F800000#32) :=
  ⟨fun h => ⟨F32.isNearestEven_round neg hden h, F32.sign_round neg num den⟩, F32.round_overflow neg hden⟩

theorem F32.mul_nearest (a b : F32) (ha : F32.isFinite a = true) (hb : F32.isFinite b = true) :
    ((F32.fix a * F32.fix b).natAbs < overflowFrom * 2 ^ 149 →
      IsNearestEven (F32.mul a b) (F32.fix a * F32.fix b) (2 ^ 149) ∧ F32.sign (F32.mul a b) = (F32.sign a != F32.sign b))
    ∧ (overflowFrom * 2 ^ 149 ≤ (F32.fix a * F32.fix b).natAbs →
      F32.mul a b = if F32.sign a != F32.sign b then 0xFF800000#32 else 0x7F800000#32) := by
  have hfix : F32.fix a * F32.fix b = signedNum (F32.sign a != F32.sign b) (F32.mag a * F32.mag b) :=
    signedNum_mul _ _ _ _
  rw [F32.mul_of_finite ha hb, hfix, natAbs_signedNum]
  exact F32.round_nearest _ (by positivity)

theorem F32.div_nearest (a b : F32) (ha : F32.isFinite a = true) (hb : F32.isFinite b = true) (h0 : F32.fix b ≠ 0) :
    ((F32.fix a).natAbs * 2 ^ 149 < overflowFrom * (F32.fix b).natAbs →
      IsNearestEven (F32.div a b) (F32.fix a * 2 ^ 149 * (F32.fix b).sign) (F32.fix b).natAbs
        ∧ F32.sign (F32.div a b) = (F32.sign a != F32.sign b))
    ∧ (overflowFrom * (F32.fix b).natAbs ≤ (F32.fix a).natAbs * 2 ^ 149 →
      F32.div a b = if F32.sign a != F32.sign b then 0xFF800000#32 else 0x7F800000#32) := by
  have hzero : F32.isZero b = false := by rwa [Bool.eq_false_iff, Ne, ← F32.fix_eq_zero]
  have hpos : 0 < F32.mag b := by rw [← F32.natAbs_fix]; omega
  have hfix : F32.fix a * 2 ^ 149 * (F32.fix b).sign = signedNum (F32.sign a != F32.sign b) (F32.mag a * 2 ^ 149) := by
    rw [show F32.fix b = signedNum (F32.sign b) (F32.mag b) from rfl, sign_signedNum _ hpos, mul_right_comm]
    calc F32.fix a * signedNum (F32.sign b) 1 * 2 ^ 149
        = signedNum (F32.sign a != F32.sign b) (F32.mag a * 1) * signedNum false (2 ^ 149) :=
          congrArg (· * _) (signedNum_mul _ _ _ _)
      _ = _ := by rw [signedNum_mul, Bool.bne_false, mul_one]
  rw [F32.div_of_finite ha hb hzero, hfix, F32.natAbs_fix, F32.natAbs_fix]
  exact F32.round_nearest _ hpos

theorem F32.div_zero (a b : F32) (ha : F32.isFinite a = true) (hb : F32.isZero b = true) :
    F32.div a b = if F32.isZero a then 0x7FC00000#32 else if F32.sign a != F32.sign b then 0xFF800000#32 else 0x7F800000#32 := by
  have hbf := F32.isFinite_of_isZero hb
  simp only [F32.div, F32.isNaN_of_isFinite ha, F32.isNaN_of_isFinite hbf, F32.isInf_of_isFinite ha, F32.isInf_of_isFinite hbf, hb,
    Bool.or_self, Bool.false_eq_true, if_false, if_true, F32.pack_infinity, F32.qNaN]

/-! ### Operations with an infinity -/

theorem F32.inf_finite (a b : F32) (ha : F32.isInf a = true) (hb : F32.isFinite b = true) :
    F32.add a b = a ∧ F32.add b a = a ∧ F32.sub a b = a ∧ F32.sub b a = a ^^^ 0x80000000#32
      ∧ (F32.mul a b = if F32.isZero b then 0x7FC00000#32 else if F32.sign a != F32.sign b then 0xFF800000#32 else 0x7F800000#32)
      ∧ F32.mul b a = F32.mul a b
      ∧ (F32.div a b = if F32.sign a != F32.sign b then 0xFF800000#32 else 0x7F800000#32)
      ∧ (F32.div b a = if F32.sign a != F32.sign b then 0x80000000#32 else 0#32) := by
  have hcomm : (F32.sign b != F32.sign a) = (F32.sign a != F32.sign b) := bne_comm
  rw [show a ^^^ 0x80000000#32 = F32.neg a from rfl]
  simp only [F32.add, F32.sub, F32.mul, F32.div, F32.isNaN_neg, F32.isInf_neg, ha, F32.isNaN_of_isInf ha, F32.isZero_of_isInf ha,
    F32.isNaN_of_isFinite hb, F32.isInf_of_isFinite hb, Bool.or_self, Bool.or_true, Bool.or_false, Bool.false_or,
    Bool.false_and, Bool.false_eq_true, if_false, if_true, F32.pack_infinity, F32.pack_zero, hcomm, F32.qNaN, and_self]

theorem F32.inf_inf (a b : F32) (ha : F32.isInf a = true) (hb : F32.isInf b = true) :
    (F32.add a b = if F32.sign a = F32.sign b then a else 0x7FC00000#32)
      ∧ (F32.sub a b = if F32.sign a = F32.sign b then 0x7FC00000#32 else a)
      ∧ (F32.mul a b = if F32.sign a = F32.sign b then 0x7F800000#32 else 0xFF800000#32) ∧ F32.div a b = 0x7FC00000#32 := by
  simp only [F32.add, F32.sub, F32.mul, F32.div, F32.isNaN_neg, F32.isInf_neg, F32.sign_neg, ha, hb, F32.isNaN_of_isInf ha,
    F32.isNaN_of_isInf hb, F32.isZero_of_isInf ha, F32.isZero_of_isInf hb, F32.pack_infinity]
  cases F32.sign a <;> cases F32.sign b <;> simp [F32.qNaN]

/-! ### Conversions -/

theorem F32.rnd32_nearest (num den : Nat) (hden : 1 ≤ den) (h : num * 2 ^ 149 < overflowFrom * den) :
    IsNearestEven (F32.rnd32 num den) (num * 2 ^ 149 : Nat) den ∧ F32.sign (F32.rnd32 num den) = false :=
  (F32.round_nearest false hden).1 h

/-- A rounding of a value that some finite word has is exact. -/
theorem IsNearestEven.fix_mul_eq {r y : F32} {v : Int} {den : Nat} (h : IsNearestEven r v den) (hy : F32.isFinite y = true)
    (hv : F32.fix y * den = v) : F32.fix r * den = v := by
  have hle := (h.2 y hy).1
  rw [hv, sub_self, abs_zero, abs_nonpos_iff, sub_eq_zero] at hle
  exact hle

theorem F32.ofNat_exact (n : Nat) (hn : n < 2 ^ 24) :
    F32.isFinite (F32.ofNat n) = true ∧ F32.fix (F32.ofNat n) = n * 2 ^ 149 ∧ F32.sign (F32.ofNat n) = false := by
  have hlt : n * 2 ^ 149 < overflowFrom := by
    unfold overflowFrom; omega
  have hnear := F32.isNearestEven_round false (num := n * 2 ^ 149) one_pos (by rwa [mul_one])
  obtain ⟨b, hb⟩ := exists_magOf_eq hn 149
  have hb' : b < 0x7F800000 := by
    rw [← magOf_strictMono.lt_iff_lt, hb, magOf_infinity]
    omega
  have hy : F32.isFinite (F32.pack false b) = true := by
    rwa [F32.isFinite_iff, F32.magBits_pack false (by omega)]
  have hval : F32.fix (F32.pack false b) * (1 : Nat) = signedNum false (n * 2 ^ 149) := by
    rw [F32.fix_eq, F32.sign_pack false (by omega), F32.magBits_pack false (by omega), hb, Nat.cast_one, mul_one]
  refine ⟨hnear.1, ?_, F32.sign_round false _ 1⟩
  have hexact := hnear.fix_mul_eq hy hval
  rw [Nat.cast_one, mul_one] at hexact
  exact hexact.trans (Nat.cast_mul _ _)

theorem F32.trunc_floor (x : F32) (hx : F32.isFinite x = true) (h0 : 0 ≤ F32.fix x) :
    (F32.trunc x : Int) * 2 ^ 149 ≤ F32.fix x ∧ F32.fix x < ((F32.trunc x : Int) + 1) * 2 ^ 149 := by
  have hmag : F32.fix x = F32.mag x := by
    rw [← F32.natAbs_fix]; omega
  have htrunc : F32.trunc x = F32.mag x / 2 ^ 149 := by
    rw [F32.trunc, F32.isNaN_of_isFinite hx, Bool.or_false]
    split
    case isTrue hs =>
      have hzero : F32.mag x = 0 := by
        rw [F32.fix, if_pos hs] at hmag
        omega
      rw [hzero, Nat.zero_div]
    case isFalse hs => rfl
  rw [htrunc, hmag]
  omega

/-! ### clamp (00_scope R19) -/

theorem F32.ge_refl {a : F32} (h : F32.isNaN a = false) : F32.ge a a = true := (F32.ge_iff h h).2 le_rfl

/-- A value above the upper bound is not below the lower one. -/
theorem F32.lt_asymm_of_ge {x lo hi : F32} (hle : F32.ge hi lo = true) (h : F32.lt hi x = true) : F32.lt x lo = false := by
  obtain ⟨hhi, hx⟩ := F32.not_isNaN_of_lt h
  obtain ⟨-, hlo⟩ := F32.not_isNaN_of_ge hle
  rw [F32.ge_iff hhi hlo] at hle
  rw [F32.lt_iff hhi hx] at h
  rw [Bool.eq_false_iff, Ne, F32.lt_iff hx hlo]
  omega

theorem F32.clamp_of_isNaN {x : F32} (lo hi : F32) (h : F32.isNaN x = true) : F32.clamp x lo hi = lo := by
  rw [F32.clamp, if_pos h]

theorem F32.clamp_of_lt {x lo : F32} (hi : F32) (h : F32.lt x lo = true) : F32.clamp x lo hi = lo := by
  rw [F32.clamp, if_neg (by simp [(F32.not_isNaN_of_lt h).1]), if_pos h]

theorem F32.clamp_of_gt {x lo hi : F32} (hle : F32.ge hi lo = true) (h : F32.lt hi x = true) : F32.clamp x lo hi = hi := by
  rw [F32.clamp, if_neg (by simp [(F32.not_isNaN_of_lt h).2]), if_neg (by simp [F32.lt_asymm_of_ge hle h]), if_pos h]

theorem F32.clamp_of_inside {x lo hi : F32} (hlow : F32.ge x lo = true) (hhigh : F32.ge hi x = true) : F32.clamp x lo hi = x := by
  obtain ⟨hx, hlo⟩ := F32.not_isNaN_of_ge hlow
  obtain ⟨hhi, -⟩ := F32.not_isNaN_of_ge hhigh
  rw [F32.ge_eq_not_lt hx hlo, Bool.not_eq_true'] at hlow
  rw [F32.ge_eq_not_lt hhi hx, Bool.not_eq_true'] at hhigh
  rw [F32.clamp, if_neg (by simp [hx]), if_neg (by simp [hlow]), if_neg (by simp [hhigh])]

/-- The four outcomes of R19 leave no other word. -/
theorem F32.clamp_inputs {x lo hi : F32} (hlo : F32.isNaN lo = false) (hhi : F32.isNaN hi = false) :
    F32.isNaN x = true ∨ F32.lt x lo = true ∨ F32.lt hi x = true ∨ (F32.ge x lo = true ∧ F32.ge hi x = true) := by
  cases hx : F32.isNaN x
  · rw [F32.ge_eq_not_lt hx hlo, F32.ge_eq_not_lt hhi hx]
    cases F32.lt x lo <;> cases F32.lt hi x <;> simp
  · exact .inl rfl

theorem F32.clamp_in_range (x : F32) {lo hi : F32} (hlo : F32.isNaN lo = false) (hhi : F32.isNaN hi = false)
    (hle : F32.ge hi lo = true) : F32.ge (F32.clamp x lo hi) lo = true ∧ F32.ge hi (F32.clamp x lo hi) = true := by
  rcases F32.clamp_inputs (x := x) hlo hhi with h | h | h | ⟨hlow, hhigh⟩
  · rw [F32.clamp_of_isNaN lo hi h]
    exact ⟨F32.ge_refl hlo, hle⟩
  · rw [F32.clamp_of_lt hi h]
    exact ⟨F32.ge_refl hlo, hle⟩
  · rw [F32.clamp_of_gt hle h]
    exact ⟨hle, F32.ge_refl hhi⟩
  · rw [F32.clamp_of_inside hlow hhigh]
    exact ⟨hlow, hhigh⟩

/-- Settles O53: the four inputs of R19, each with its outcome, and the range of every outcome. -/
theorem clampRange : Obligations.ClampRange := by
  refine ⟨fun x lo hi hlo hhi hle => ?_, fun _ _ _ => rfl⟩
  exact ⟨F32.clamp_of_isNaN lo hi, F32.clamp_of_lt hi, F32.clamp_of_gt hle, F32.clamp_of_inside, F32.clamp_in_range x hlo hhi hle⟩

/-- Settles O54: every operation on finite values is one rounding of its exact result (`F32.round_nearest`), and the words of
every other case follow from the branch that the operation takes. -/
theorem floatNearestEven : Obligations.FloatNearestEven :=
  ⟨F32.meaning_of_fields, F32.add_nearest, F32.sub_nearest, F32.mul_nearest, F32.div_nearest, F32.inf_finite, F32.inf_inf,
    F32.div_zero, F32.nan_operand, F32.rnd32_nearest, F32.ofNat_exact, F32.trunc_floor,
    fun _ _ ha hb => ⟨F32.lt_iff_fix ha hb, F32.ge_iff_fix ha hb⟩, fun _ _ => F32.ge_eq_not_lt, F32.lt_infinities, rfl, rfl, rfl, rfl⟩

end Sys2Proof.Machine
end

section
/-! What a command can do, said once: `Accepted` lists the checks and the next state of every command that is not refused, and `exec_cases`
ties it to the model. -/

namespace Sys2Proof.Machine

/-! ### Units and loops -/

/-- `t` is `s` with other window contents and other unit contents (delay lines, pre-delay rings, reverbs, pitch shifters, convolution
engines), and is `s` in everything else. -/
def OnlyUnits (s t : State) : Prop :=
  ∃ m dl pr rv gp cv, t = { s with mem := m, dlyl := dl, prer := pr, rev := rv, gps := gp, conv := cv }

theorem OnlyUnits.refl (s : State) : OnlyUnits s s := ⟨_, _, _, _, _, _, rfl⟩

theorem OnlyUnits.trans {s t u : State} (h : OnlyUnits s t) (h' : OnlyUnits t u) : OnlyUnits s u := by
  obtain ⟨_, _, _, _, _, _, rfl⟩ := h
  obtain ⟨_, _, _, _, _, _, rfl⟩ := h'
  exact ⟨_, _, _, _, _, _, rfl⟩

theorem OnlyUnits.setOut (i : Nat) (v : Word) (s : State) : OnlyUnits s (setOut i v s) := ⟨_, _, _, _, _, _, rfl⟩

theorem wetStage_onlyUnits (k : BlockCoeffs) (ch : Nat) (x : F32) (s : State) : OnlyUnits s (wetStage k ch x s).2 := by
  unfold wetStage
  split <;> exact ⟨_, _, _, _, _, _, rfl⟩

theorem procSample_onlyUnits (k : BlockCoeffs) (i ch : Nat) (s : State) : OnlyUnits s (procSample k i ch s) :=
  (wetStage_onlyUnits k ch (inWord s i) s).trans (.setOut _ _ _)

/-- What every sample of a block keeps, the block keeps; each sample belongs to a channel below C. -/
theorem procFrames_induction {P : State → Prop} {k : BlockCoeffs} {s : State} (off n : Nat)
    (hstep : ∀ i ch t, ch < s.nch → P t → P (procSample k i ch t)) (hs : P s) : P (procFrames k off n s) :=
  List.foldlRecOn _ _ hs fun _ ht _ _ => List.foldlRecOn _ _ ht fun _ hu ch hch => hstep _ ch _ (List.mem_range.1 hch) hu

/-- What every write of an OUT word keeps, the bypass copy keeps. -/
theorem procBypass_induction {P : State → Prop} {s : State} (off n : Nat) (hstep : ∀ i v t, P t → P (setOut i v t)) (hs : P s) :
    P (procBypass off n s) :=
  List.foldlRecOn _ _ hs fun _ ht _ _ => hstep _ _ _ ht

theorem procFrames_onlyUnits (k : BlockCoeffs) (off n : Nat) (s : State) : OnlyUnits s (procFrames k off n s) :=
  procFrames_induction (P := OnlyUnits s) off n (fun i ch t _ ht => ht.trans (procSample_onlyUnits k i ch t)) (.refl s)

theorem procBypass_onlyUnits (off n : Nat) (s : State) : OnlyUnits s (procBypass off n s) :=
  procBypass_induction (P := OnlyUnits s) off n (fun i v t ht => ht.trans (.setOut i v t)) (.refl s)

/-! ### Commands -/

/-- What PROC_BLOCK leaves in the windows and the units, before it writes RES0 (41_effect_contract R222 to R224). -/
def procDone (s : State) : State :=
  let n := adjustedCount s.inst.iobufLen s.nch (u32 s.larg.w0) (u32 s.larg.w1)
  let w := warnIf (decide (n ≠ u32 s.larg.w1)) .countAdjusted s
  if ctrlEn s.lctrl then procFrames (blockCoeffs s) (u32 s.larg.w0) n w else procBypass (u32 s.larg.w0) n w

/-- What IR_COMMIT makes of the load session, before its completion (45_convolution R393). -/
def irCommitted (s : State) : State :=
  let short := (List.range s.nch).any fun c => decide ((irAt s c).cnt < s.lsrc)
  let m0 := resampledLength s.lsrc s.fssrc s.fs
  let m := min m0 (s.inst.convNMax / 2)
  let n := fftSize m
  { warnIf (decide (m < m0)) .irTrunc (warnIf short .irShort s) with
    convN := n
    convH := n / 2
    irLen := m
    conv := (List.range s.inst.maxCh).map (committedCh s n m)
    irvalid := true
    irsess := false
    res0 := BitVec.ofNat 32 n
    res1 := BitVec.ofNat 32 m }

/-- What P_REGISTER and P_SET make of the state, before their completion (46_parameter_store R440, R441). -/
inductive ParamWritten (register : Bool) (s : State) : State → Prop where
  | noName (hname : nameOf s.lname = []) : ParamWritten register s (setRes 0#32 0#32 s)
  | found (e : Nat) (hname : nameOf s.lname ≠ []) (hfound : lookupName s.pst (nameOf s.lname) = some e) :
      ParamWritten register s (storeEntry register false e s.larg.w0 s)
  | created (e : Nat) (hname : nameOf s.lname ≠ []) (hnew : lookupName s.pst (nameOf s.lname) = none) (hfree : freeIndex s.pst = some e) :
      ParamWritten register s (storeEntry register true e s.larg.w0 (allocEntry e (nameOf s.lname) s))
  | full (hname : nameOf s.lname ≠ []) (hnew : lookupName s.pst (nameOf s.lname) = none) (hfull : freeIndex s.pst = none) :
      ParamWritten register s (setRes 0#32 0#32 (recordError .paramFull (cmdOpc s) s))

/-- What P_GET makes of the state, before its completion (46_parameter_store R442). -/
inductive ParamRead (s : State) : State → Prop where
  | found (e : Nat) (hname : nameOf s.lname ≠ []) (hfound : lookupName s.pst (nameOf s.lname) = some e) :
      ParamRead s (setRes (paramValue s e) (paramStatus false e) s)
  | absent (h : nameOf s.lname = [] ∨ lookupName s.pst (nameOf s.lname) = none) : ParamRead s (setRes 0#32 0#32 s)

/-- `Accepted i s u`: the command `i` passes its checks in the state `s`, and `u` is what it makes of `s` before its completion.
`exec_cases` ties it to the model. -/
inductive Accepted : Instr → State → State → Prop where
  | nop (s : State) : Accepted .nop s s
  | softReset (s : State) : Accepted .softReset s (resetAll s)
  | config (s : State) (hcfg : s.cfg = false)
      (hvalid : configValid s.inst (u32 s.larg.w0) (u32 s.larg.w1) (u32 s.larg.w2) (u32 s.larg.w3) = true) :
      Accepted .config s (warnIf (anyLengthClamped s.inst (u32 s.larg.w0) (u32 s.larg.w1)) .lenClamped
        (configured (u32 s.larg.w0) (u32 s.larg.w1) (u32 s.larg.w2) (u32 s.larg.w3) s))
  | clear (mask : BitVec 5) (s : State) : Accepted (.clear mask) s (clearUnits mask s)
  | dlyWrite (k : Nat) (s : State) (hcfg : s.cfg = true) (hk : k < s.inst.nDly) :
      Accepted (.dlyWrite k) s (setLine k (dbWrite (lineAt s k) s.larg.w0) s)
  | dlyRead (k : Nat) (s : State) (hcfg : s.cfg = true) (hk : k < s.inst.nDly) :
      Accepted (.dlyRead k) s (setRes0 (dbRead (lineAt s k) (s32 s.larg.w0)) s)
  | dlyReadi (k : Nat) (s : State) (hcfg : s.cfg = true) (hk : k < s.inst.nDly) :
      Accepted (.dlyReadi k) s (setRes0 (dbReadI (lineAt s k) s.larg.w0) s)
  | revStep (c : Nat) (s : State) (o : F32 × RevCh) (hcfg : s.cfg = true) (hc : c < s.nch)
      (ho : o = revSample (revCoeffs s) (revAt s c) s.larg.w0) :
      Accepted (.revStep c) s (setRes0 o.1 (setRev c o.2 s))
  | gpsStep (c : Nat) (s : State) (o : F32 × GpsCh) (hcfg : s.cfg = true) (hc : c < s.nch)
      (ho : o = gpsSample s.grain s.ringB s.win (gpsAt s c) s.larg.w0 (pitchOf s)) :
      Accepted (.gpsStep c) s (setRes0 o.1 (setGps c o.2 s))
  | convStep (c : Nat) (s : State) (o : F32 × ConvCh) (hcfg : s.cfg = true) (hc : c < s.nch)
      (ho : o = convSample s.irvalid s.convN s.convH (convAt s c) s.larg.w0) :
      Accepted (.convStep c) s (setRes0 o.1 (setConv c o.2 s))
  | irBegin (s : State) (hcfg : s.cfg = true) (hl : 1 ≤ u32 s.larg.w0 ∧ u32 s.larg.w0 ≤ s.inst.irRawMax)
      (hr : 1 ≤ u32 s.larg.w1 ∧ u32 s.larg.w1 ≤ s.inst.fsMax) :
      Accepted .irBegin s { s with
        lsrc := u32 s.larg.w0, fssrc := u32 s.larg.w1, ir := List.replicate s.inst.maxCh ⟨[], 0⟩, irsess := true }
  | irOverflow (c : Nat) (s : State) (hcfg : s.cfg = true) (hc : c < s.nch) (hsess : s.irsess = true) (hfull : s.lsrc ≤ (irAt s c).cnt) :
      Accepted (.irPush c) s (recordError .irOverflow (cmdOpc s) s)
  | irPush (c : Nat) (s : State) (hcfg : s.cfg = true) (hc : c < s.nch) (hsess : s.irsess = true) (hroom : (irAt s c).cnt < s.lsrc) :
      Accepted (.irPush c) s (setIr c ⟨sparseSet (irAt s c).raw (irAt s c).cnt s.larg.w0, (irAt s c).cnt + 1⟩ s)
  | irCommit (s : State) (hcfg : s.cfg = true) (hsess : s.irsess = true) : Accepted .irCommit s (irCommitted s)
  | pRegister (s u : State) (h : ParamWritten true s u) : Accepted .pRegister s u
  | pSet (s u : State) (h : ParamWritten false s u) : Accepted .pSet s u
  | pGet (s u : State) (h : ParamRead s u) : Accepted .pGet s u
  | procBlock (s : State) (hcfg : s.cfg = true) :
      Accepted .procBlock s (setRes0 (BitVec.ofNat 32 (adjustedCount s.inst.iobufLen s.nch (u32 s.larg.w0) (u32 s.larg.w1))) (procDone s))

/-- The outcome `o` of a command `i` in the state `s` is a refusal, or the completion of what the accepted command made of `s`. -/
def RefusedOrAccepted (i : Instr) (s : State) (o : Host.Outcome State Fault Refusal) : Prop :=
  (∃ e, o = refuse e s) ∨ ∃ u, Accepted i s u ∧ o = finish u

theorem RefusedOrAccepted.refuse {i : Instr} {s : State} (e : ErrCode) : RefusedOrAccepted i s (refuse e s) := .inl ⟨e, rfl⟩

theorem Accepted.finish {i : Instr} {s u : State} (h : Accepted i s u) : RefusedOrAccepted i s (finish u) := .inr ⟨u, h, rfl⟩

/-- A check of a command: the refusal where the condition holds, the rest of the command where it does not. -/
theorem RefusedOrAccepted.check {i : Instr} {s : State} {p : Prop} [Decidable p] {e : ErrCode} {o : Host.Outcome State Fault Refusal}
    (h : ¬p → RefusedOrAccepted i s o) : RefusedOrAccepted i s (if p then Machine.refuse e s else o) := by
  split
  · exact .refuse e
  · exact h ‹_›

theorem writeParam_cases (register : Bool) (s : State) : ∃ u, ParamWritten register s u ∧ writeParam register s = finish u := by
  unfold writeParam
  dsimp only
  split
  case isTrue hname => exact ⟨_, .noName hname, rfl⟩
  case isFalse hname =>
    split
    case h_1 e hfound => exact ⟨_, .found e hname hfound, rfl⟩
    case h_2 hnew =>
      split
      case h_1 e hfree => exact ⟨_, .created e hname hnew hfree, rfl⟩
      case h_2 hfull => exact ⟨_, .full hname hnew hfull, rfl⟩

theorem execPGet_found {s : State} {e : Nat} (hname : nameOf s.lname ≠ []) (hfound : lookupName s.pst (nameOf s.lname) = some e) :
    execPGet s = finish (setRes (paramValue s e) (paramStatus false e) s) := by
  simp [execPGet, hname, hfound]

theorem execPGet_absent {s : State} (h : nameOf s.lname = [] ∨ lookupName s.pst (nameOf s.lname) = none) :
    execPGet s = finish (setRes 0#32 0#32 s) := by
  rcases h with h | h <;> simp [execPGet, h]

theorem execPGet_cases (s : State) : ∃ u, ParamRead s u ∧ execPGet s = finish u := by
  by_cases hname : nameOf s.lname = []
  · exact ⟨_, .absent (.inl hname), execPGet_absent (.inl hname)⟩
  · cases hfound : lookupName s.pst (nameOf s.lname) with
    | none => exact ⟨_, .absent (.inr hfound), execPGet_absent (.inr hfound)⟩
    | some e => exact ⟨_, .found e hname hfound, execPGet_found hname hfound⟩

/-- What a command can do, each under its checks (60_exceptions R473, R482, R484). -/
theorem exec_cases (i : Instr) (s : State) : RefusedOrAccepted i s (exec i s) := by
  have on {b : Bool} (h : ¬b = false) : b = true := by simpa using h
  cases i with
  | nop => exact (Accepted.nop s).finish
  | softReset => exact (Accepted.softReset s).finish
  | config =>
    exact .check fun hcfg => .check fun hvalid => (Accepted.config s (by simpa using hcfg) (on hvalid)).finish
  | clear mask => exact (Accepted.clear mask s).finish
  | dlyWrite k => exact .check fun hcfg => .check fun hk => (Accepted.dlyWrite k s (on hcfg) (not_le.1 hk)).finish
  | dlyRead k => exact .check fun hcfg => .check fun hk => (Accepted.dlyRead k s (on hcfg) (not_le.1 hk)).finish
  | dlyReadi k => exact .check fun hcfg => .check fun hk => (Accepted.dlyReadi k s (on hcfg) (not_le.1 hk)).finish
  | revStep c => exact .check fun hcfg => .check fun hc => (Accepted.revStep c s _ (on hcfg) (not_le.1 hc) rfl).finish
  | gpsStep c => exact .check fun hcfg => .check fun hc => (Accepted.gpsStep c s _ (on hcfg) (not_le.1 hc) rfl).finish
  | convStep c => exact .check fun hcfg => .check fun hc => (Accepted.convStep c s _ (on hcfg) (not_le.1 hc) rfl).finish
  | irBegin =>
    exact .check fun hcfg => .check fun hlen => (Accepted.irBegin s (on hcfg) (by omega) (by omega)).finish
  | irPush c =>
    refine .check fun hcfg => .check fun hc => .check fun hsess => ?_
    dsimp only
    split
    · exact (Accepted.irOverflow c s (on hcfg) (not_le.1 hc) (on hsess) ‹_›).finish
    · exact (Accepted.irPush c s (on hcfg) (not_le.1 hc) (on hsess) (not_le.1 ‹_›)).finish
  | irCommit => exact .check fun hcfg => .check fun hsess => (Accepted.irCommit s (on hcfg) (on hsess)).finish
  | pRegister =>
    obtain ⟨u, hu, h⟩ := writeParam_cases true s
    exact .inr ⟨u, .pRegister s u hu, h⟩
  | pSet =>
    obtain ⟨u, hu, h⟩ := writeParam_cases false s
    exact .inr ⟨u, .pSet s u hu, h⟩
  | pGet =>
    obtain ⟨u, hu, h⟩ := execPGet_cases s
    exact .inr ⟨u, .pGet s u hu, h⟩
  | procBlock => exact .check fun hcfg => (Accepted.procBlock s (on hcfg)).finish

/-- A command's next state: that of a refusal, or the completion of what the accepted command made of the state. -/
theorem exec_next {i : Instr} {s t : State} (h : exec i s = .next t) :
    (∃ e, t = complete (recordError e (cmdOpc s) s)) ∨ ∃ u, Accepted i s u ∧ t = complete u := by
  rcases exec_cases i s with ⟨e, he⟩ | ⟨u, hu, he⟩
  · exact .inl ⟨e, by simpa using h.symm.trans he⟩
  · exact .inr ⟨u, hu, by simpa using h.symm.trans he⟩

end Sys2Proof.Machine
end

section
/-! What a Host access can do, and the induction over all moves: a property that every kind of effect keeps, every step keeps. -/

namespace Sys2Proof.Machine

/-! ### The next move -/

theorem NextMove.step_eq {m : Turn} {s u : State} (h : NextMove m s u) : step s = takeTurn m u := by
  obtain ⟨rest, hs, rfl⟩ := h
  exact step_turn s m rest hs

theorem NextMove.step_write {addr : BitVec 16} {v : Word} {s u : State} (h : NextMove (.write addr v) s u) :
    step s = .next (hostWrite addr v u) := h.step_eq

theorem NextMove.step_read {addr : BitVec 16} {s u : State} (h : NextMove (.read addr) s u) : step s = .next (hostRead addr u) := h.step_eq

/-! ### Host accesses by the offset they reach -/

theorem inWindow_iff {p : Params} {o : Nat} : inWindow p o = true ↔ 0x4000 ≤ o ∧ o < 0x4000 + 4 * p.iobufLen := by
  rw [inWindow, Bool.and_eq_true, decide_eq_true_iff, decide_eq_true_iff]
  rfl

theorem outWindow_iff {p : Params} {o : Nat} : outWindow p o = true ↔ 0x8000 ≤ o ∧ o < 0x8000 + 4 * p.iobufLen := by
  rw [outWindow, Bool.and_eq_true, decide_eq_true_iff, decide_eq_true_iff]
  rfl

/-- Below the windows a write is a write of a register (20_memory R101). -/
theorem hostWrite_register {addr : BitVec 16} {v : Word} {s : State} (hr : s.inReset = false) (ho : 4 * (addr.toNat / 4) < 0x4000) :
    hostWrite addr v s = registerWrite v s (4 * (addr.toNat / 4)) := by
  have hin : inWindow s.inst (4 * (addr.toNat / 4)) = false := by
    rw [Bool.eq_false_iff, Ne, inWindow_iff]; omega
  simp [hostWrite, hr, portWrite, portOffset, hin]

/-- Below the windows a read is a read of a register, and changes nothing (20_memory R101, R107). -/
theorem hostRead_register {addr : BitVec 16} {s : State} (hr : s.inReset = false) (ho : 4 * (addr.toNat / 4) < 0x4000) :
    hostRead addr s = { s with reads := registerWord s (4 * (addr.toNat / 4)) :: s.reads } := by
  have hin : inWindow s.inst (4 * (addr.toNat / 4)) = false := by
    rw [Bool.eq_false_iff, Ne, inWindow_iff]; omega
  have hout : outWindow s.inst (4 * (addr.toNat / 4)) = false := by
    rw [Bool.eq_false_iff, Ne, outWindow_iff]; omega
  simp [hostRead, hr, portRead, portOffset, hin, hout]

/-- While `rst_n` is low a write is ignored (70_reset R510). -/
theorem hostWrite_inReset {addr : BitVec 16} {v : Word} {s : State} (hr : s.inReset = true) : hostWrite addr v s = s := by
  simp [hostWrite, hr]

/-- Above the last register that can be written a register write has no effect (20_memory R104). -/
theorem registerWrite_above (v : Word) (s : State) {o : Nat} (ho : 0x3C < o) : registerWrite v s o = s := by
  unfold registerWrite
  split
  case h_12 => rfl
  all_goals omega

/-! ### What a Host access can do -/

/-- What a Host write can make of the state. `hostWrite_cases` ties it to the model. -/
inductive Written (addr : BitVec 16) (v : Word) (s : State) : State → Prop where
  | ignored : Written addr v s s
  | dropped (e : ErrCode) (hbusy : s.busy = true) : Written addr v s (recordError e 0xFF#8 s)
  | status : Written addr v s (statusWrite v s)
  | ctrl : Written addr v s { s with ctrl := ctrlAfter s.ctrl v }
  | command (hidle : s.busy = false) : Written addr v s (latchCommand v s)
  | arg (a : Quad) : Written addr v s { s with arg := a }
  | name (n : Quad) : Written addr v s { s with name := n }
  | window (hidle : s.busy = false) (hin : inWindow s.inst (portOffset addr) = true) :
      Written addr v s { s with mem := writeWord s.mem (portOffset addr) v }

theorem writeCmd_cases (addr : BitVec 16) (v : Word) (s : State) : Written addr v s (writeCmd v s) := by
  unfold writeCmd
  split
  case isTrue hbusy => exact .dropped _ hbusy
  case isFalse hbusy => exact .command (by simpa using hbusy)

theorem registerWrite_cases (addr : BitVec 16) (v : Word) (s : State) (o : Nat) : Written addr v s (registerWrite v s o) := by
  unfold registerWrite
  split
  case h_1 => exact .status
  case h_2 => exact .ctrl
  case h_3 => exact writeCmd_cases addr v s
  case h_4 | h_5 | h_6 | h_7 => exact .arg _
  case h_8 | h_9 | h_10 | h_11 => exact .name _
  case h_12 => exact .ignored

theorem hostWrite_cases (addr : BitVec 16) (v : Word) (s : State) : Written addr v s (hostWrite addr v s) := by
  unfold hostWrite portWrite
  dsimp only
  split
  case isTrue => exact .ignored
  case isFalse =>
    split
    case isTrue hin =>
      split
      case isTrue hbusy => exact .dropped _ hbusy
      case isFalse hbusy => exact .window (by simpa using hbusy) hin
    case isFalse => exact registerWrite_cases addr v s _

/-- A Host read adds a word to the read log, and at most records BUSY_ACCESS besides (60_exceptions R472). -/
theorem hostRead_cases (addr : BitVec 16) (s : State) :
    (∃ r, hostRead addr s = { s with reads := r }) ∨ ∃ r, hostRead addr s = { busyAccess s with reads := r } := by
  unfold hostRead portRead
  dsimp only
  split
  · exact .inl ⟨_, rfl⟩
  · split
    · split
      · exact .inr ⟨_, rfl⟩
      · exact .inl ⟨_, rfl⟩
    · exact .inl ⟨_, rfl⟩

/-! ### What every move keeps -/

/-- The property `P` is kept by every kind of effect that a move can have: a change of the model's own fields, a reset, an event of
`rst_n`, the recording of an error, a completion, an accepted command, and a Host write. `KeptByMoves.step` lifts it to the step. -/
structure KeptByMoves (P : State → Prop) : Prop where
  schedule : ∀ (s : State) (q : List Turn), P s → P { s with schedule := q }
  reads : ∀ (s : State) (r : List Word) (n : Nat), P s → P { s with reads := r, freeCount := n }
  reset : ∀ (s : State) (b : Bool), P s → P { resetAll s with inReset := b }
  error : ∀ (e : ErrCode) (o : Byte) (s : State), P s → P (recordError e o s)
  complete : ∀ s : State, P s → P (complete s)
  accepted : ∀ (i : Instr) (s u : State), i ≠ .softReset → Accepted i s u → P s → P u
  written : ∀ (addr : BitVec 16) (v : Word) (s t : State), Written addr v s t → P s → P t

namespace KeptByMoves

variable {P : State → Prop} (k : KeptByMoves P)

include k

theorem exec {i : Instr} {s t : State} (h : exec i s = .next t) (hs : P s) : P t := by
  rcases exec_next h with ⟨e, rfl⟩ | ⟨u, hu, rfl⟩
  · exact k.complete _ (k.error _ _ _ hs)
  · refine k.complete _ ?_
    by_cases hi : i = .softReset
    · subst hi
      cases hu
      exact k.reset s false hs
    · exact k.accepted i s u hi hu hs

theorem runCommand {s t : State} (h : runCommand s = .next t) (hs : P s) : P t := by
  cases hd : decode s.lcmd with
  | ok i => exact k.exec ((runCommand_ok s i hd).symm.trans h) hs
  | error e =>
    obtain rfl : Machine.complete (recordError .illegalCmd (cmdOpc s) s) = t := by
      simpa using (runCommand_illegal s e hd).symm.trans h
    exact k.complete _ (k.error _ _ _ hs)

theorem engineTurn {s t : State} (h : engineTurn s = .next t) (hs : P s) : P t := by
  unfold Machine.engineTurn at h
  split at h
  · exact k.runCommand h hs
  · cases h
    exact hs

theorem hostWrite (addr : BitVec 16) (v : Word) {s : State} (hs : P s) : P (hostWrite addr v s) :=
  k.written addr v s _ (hostWrite_cases addr v s) hs

theorem hostRead (addr : BitVec 16) {s : State} (hs : P s) : P (hostRead addr s) := by
  rcases hostRead_cases addr s with ⟨r, h⟩ | ⟨r, h⟩ <;> rw [h]
  · exact k.reads s r s.freeCount hs
  · exact k.reads (busyAccess s) r s.freeCount (k.error _ _ _ hs)

theorem resetHigh {s : State} (hs : P s) : P (resetHigh s) := by
  unfold Machine.resetHigh
  split
  · exact k.reset s false hs
  · exact hs

theorem cutRead (addr : BitVec 16) {s : State} (hs : P s) : P (cutRead addr s) := by
  unfold Machine.cutRead
  split
  · exact k.hostRead addr hs
  · exact k.reset _ true (k.reads s _ _ hs)

theorem takeTurn {m : Turn} {s t : State} (h : takeTurn m s = .next t) (hs : P s) : P t := by
  cases m with
  | engine => exact k.engineTurn h hs
  | write addr v => cases h; exact k.hostWrite addr v hs
  | read addr => cases h; exact k.hostRead addr hs
  | rstLow => cases h; exact k.reset s true hs
  | rstHigh => cases h; exact k.resetHigh hs
  | cutWrite addr v => cases h; exact k.reset s true hs
  | cutRead addr => cases h; exact k.cutRead addr hs

/-- A property that every kind of effect keeps, every step keeps. -/
theorem step {s t : State} (h : step s = .next t) (hs : P s) : P t := by
  cases hq : s.schedule with
  | nil => exact k.engineTurn ((step_idleSchedule s hq).symm.trans h) hs
  | cons m rest => exact k.takeTurn ((step_turn s m rest hq).symm.trans h) (k.schedule s rest hs)

end KeptByMoves

end Sys2Proof.Machine
end

section
/-! Frames: what each command may change (10_state R45, R46; 40_control R187; 41_effect_contract R220; 46_parameter_store R430). Each frame
lemma writes the new state as the old one with the fields that the operation may change. -/

namespace Sys2Proof.Machine

theorem irCommitted_frame (s : State) :
    ∃ er ec n h m cv r0 r1, irCommitted s = { s with
      err := er, errcode := ec, convN := n, convH := h, irLen := m, conv := cv, irvalid := true, irsess := false
      res0 := r0, res1 := r1 } := by
  simp only [irCommitted, warnIf_eq]
  exact ⟨_, _, _, _, _, _, _, _, rfl⟩

theorem ParamWritten.frame {register : Bool} {s u : State} (h : ParamWritten register s u) :
    ∃ st pc px er ec r0 r1, u = { s with pst := st, pchg := pc, pchgIdx := px, err := er, errcode := ec, res0 := r0, res1 := r1 } := by
  cases h <;> exact ⟨_, _, _, _, _, _, _, rfl⟩

theorem ParamRead.frame {s u : State} (h : ParamRead s u) : ∃ r0 r1, u = setRes r0 r1 s := by
  cases h <;> exact ⟨_, _, rfl⟩

/-- One field of the state written under two conditions, one inside the other, is written under both. -/
theorem update_if_if {α : Type} (f : α → State) (b q : Bool) (x y : α) :
    (if b then (if q then f x else f y) else f y) = f (if b && q then x else y) := by
  cases b
  · rfl
  · exact (apply_ite f (q = true) x y).symm

/-- What CLEAR does to each kind of unit, by the bits of its mask (40_control R187, R188). -/
theorem clearUnits_eq (mask : BitVec 5) (s : State) :
    clearUnits mask s = { s with
      dlyl := if mask.getLsbD 0 && s.cfg then s.dlyl.map emptied else s.dlyl
      prer := if mask.getLsbD 1 then s.prer.map emptied else s.prer
      rev := if mask.getLsbD 2 && s.cfg then s.rev.mapIdx fun ch r => if ch < s.nch then revCleared r else r else s.rev
      gps := if mask.getLsbD 3 && s.cfg then s.gps.map fun _ => gpsStart s.grain s.ringB else s.gps
      conv := if mask.getLsbD 4 && s.irvalid then s.conv.map (ringsEmptied s.convH) else s.conv } := by
  have row0 (b : Bool) (s : State) :
      (if b then clearDly s else s) = { s with dlyl := if b && s.cfg then s.dlyl.map emptied else s.dlyl } :=
    update_if_if (fun d => { s with dlyl := d }) b s.cfg _ _
  have row1 (b : Bool) (s : State) : (if b then clearPre s else s) = { s with prer := if b then s.prer.map emptied else s.prer } :=
    (apply_ite (fun d => { s with prer := d }) (b = true) _ _).symm
  have row2 (b : Bool) (s : State) : (if b then clearRev s else s) =
      { s with rev := if b && s.cfg then s.rev.mapIdx fun ch r => if ch < s.nch then revCleared r else r else s.rev } :=
    update_if_if (fun d => { s with rev := d }) b s.cfg _ _
  have row3 (b : Bool) (s : State) : (if b then clearGps s else s) =
      { s with gps := if b && s.cfg then s.gps.map fun _ => gpsStart s.grain s.ringB else s.gps } :=
    update_if_if (fun d => { s with gps := d }) b s.cfg _ _
  have row4 (b : Bool) (s : State) : (if b then clearConv s else s) =
      { s with conv := if b && s.irvalid then s.conv.map (ringsEmptied s.convH) else s.conv } :=
    update_if_if (fun d => { s with conv := d }) b s.irvalid _ _
  simp only [clearUnits, row0, row1, row2, row3, row4]

theorem procDone_onlyUnits (s : State) : ∃ b, OnlyUnits (warnIf b .countAdjusted s) (procDone s) := by
  unfold procDone
  dsimp only
  split
  · exact ⟨_, procFrames_onlyUnits _ _ _ _⟩
  · exact ⟨_, procBypass_onlyUnits _ _ _⟩

theorem procDone_frame (s : State) :
    ∃ er ec m dl pr rv gp cv, procDone s = { s with
      err := er, errcode := ec, mem := m, dlyl := dl, prer := pr, rev := rv, gps := gp, conv := cv } := by
  obtain ⟨b, m, dl, pr, rv, gp, cv, h⟩ := procDone_onlyUnits s
  rw [warnIf_eq] at h
  exact ⟨_, _, m, dl, pr, rv, gp, cv, h⟩

/-- Settles O9: a refusal changes error and completion state only; the next state of every accepted command is explicit, for the
parameter store, CLEAR, IR_COMMIT and PROC_BLOCK by their frame lemmas. -/
theorem whatEachCommandLeaves : Obligations.WhatEachCommandLeaves := by
  intro i s t h hi
  rcases exec_next h with ⟨e, rfl⟩ | ⟨u, hu, rfl⟩
  · simp
  · cases hu with
    | softReset => exact absurd rfl hi
    | config =>
      simp only [warnIf_eq]
      simp [configured]
    | clear =>
      rw [clearUnits_eq]
      simp
    | irCommit =>
      obtain ⟨_, _, _, _, _, _, _, _, hc⟩ := irCommitted_frame s
      rw [hc]
      simp
    | pRegister _ _ hp | pSet _ _ hp =>
      obtain ⟨_, _, _, _, _, _, _, rfl⟩ := hp.frame
      simp
    | pGet _ _ hp =>
      obtain ⟨_, _, rfl⟩ := hp.frame
      simp
    | procBlock =>
      obtain ⟨_, _, _, _, _, _, _, _, hp⟩ := procDone_frame s
      rw [hp]
      simp
    | nop | dlyWrite | dlyRead | dlyReadi | revStep | gpsStep | convStep | irBegin | irOverflow | irPush => simp

/-! ### The synthesis parameters -/

theorem Accepted.inst {i : Instr} {s u : State} (h : Accepted i s u) : u.inst = s.inst := by
  cases h with
  | config =>
    rw [warnIf_eq]
    rfl
  | clear => rw [clearUnits_eq]
  | irCommit =>
    obtain ⟨_, _, _, _, _, _, _, _, hc⟩ := irCommitted_frame s
    rw [hc]
  | pRegister _ _ hp | pSet _ _ hp =>
    obtain ⟨_, _, _, _, _, _, _, rfl⟩ := hp.frame
    rfl
  | pGet _ _ hp =>
    obtain ⟨_, _, rfl⟩ := hp.frame
    rfl
  | procBlock =>
    obtain ⟨_, _, _, _, _, _, _, _, hp⟩ := procDone_frame s
    rw [setRes0_inst, hp]
  | nop | softReset | dlyWrite | dlyRead | dlyReadi | revStep | gpsStep | convStep | irBegin | irOverflow | irPush => rfl

theorem keptByMoves_inst (p : Params) : KeptByMoves fun s => s.inst = p where
  schedule _ _ h := h
  reads _ _ _ h := h
  reset _ _ h := h
  error _ _ _ h := h
  complete _ h := h
  accepted _ _ _ _ hu h := hu.inst.trans h
  written _ _ _ _ hw h := by cases hw <;> exact h

/-- No step changes the synthesis parameters (00_scope R10). -/
theorem step_inst {s t : State} (h : step s = .next t) : t.inst = s.inst := (keptByMoves_inst s.inst).step h rfl

end Sys2Proof.Machine
end

section
/-! The register port, access by access (10_state R40 to R54, 60_exceptions R471). -/

namespace Sys2Proof.Machine

/-! ### CTRL, bit by bit (10_state R43, 41_effect_contract R226) -/

theorem ctrlAfter_getLsbD (old v : Word) (n : Nat) :
    (ctrlAfter old v).getLsbD n =
      ((v.getLsbD n && (0x00000711#32).getLsbD n)
        || ((if ctrlWetsel v < 6 then v.getLsbD n else old.getLsbD n) && (0x0000000E#32).getLsbD n)) := by
  simp only [ctrlAfter, BitVec.getLsbD_or, BitVec.getLsbD_and, apply_ite (BitVec.getLsbD · n)]

/-- A bit of CTRL outside EN, WETSEL, DAMPK and the interrupt enables stays 0. -/
theorem ctrlAfter_reserved (old v : Word) {n : Nat} (hn : n = 5 ∨ n = 6 ∨ n = 7 ∨ 11 ≤ n) : (ctrlAfter old v).getLsbD n = false := by
  rw [ctrlAfter_getLsbD]
  by_cases h32 : n < 32
  · interval_cases n <;> simp at hn ⊢
  · simp [BitVec.getLsbD_of_ge _ n (not_lt.1 h32)]

theorem ctrlAfter_wetselField (old v : Word) :
    (ctrlAfter old v).extractLsb' 1 3 = if ctrlWetsel v < 6 then v.extractLsb' 1 3 else old.extractLsb' 1 3 := by
  apply BitVec.eq_of_getLsbD_eq
  intro i hi
  rw [apply_ite (BitVec.getLsbD · i)]
  simp only [BitVec.getLsbD_extractLsb', ctrlAfter_getLsbD]
  interval_cases i <;> simp

theorem ctrlLegal_reset : ctrlLegal 0x00000001#32 := by unfold ctrlLegal; decide

theorem ctrlLegal_zero : ctrlLegal 0#32 := by unfold ctrlLegal; decide

/-- A CTRL write leaves a legal word, whatever is written (10_state R43, 41_effect_contract R226). -/
theorem ctrlLegal_ctrlAfter {old : Word} (v : Word) (h : ctrlLegal old) : ctrlLegal (ctrlAfter old v) := by
  obtain ⟨-, hold⟩ := h
  constructor
  · apply BitVec.eq_of_getLsbD_eq
    intro n hn
    rw [BitVec.getLsbD_and, BitVec.getLsbD_zero]
    by_cases hr : n = 5 ∨ n = 6 ∨ n = 7 ∨ 11 ≤ n
    · rw [ctrlAfter_reserved old v hr, Bool.false_and]
    · have hmask : (0xFFFFF8E0#32).getLsbD n = false := by
        have : n < 11 := by omega
        interval_cases n <;> simp at hr ⊢
      rw [hmask, Bool.and_false]
  · rw [ctrlWetsel, ctrlAfter_wetselField]
    split
    · exact Nat.lt_succ_iff.1 ‹_›
    · exact hold

/-- Settles O18: the Host write is `ctrlAfter`, whose bits are those of the two masks of R43. -/
theorem controlRegister : Obligations.ControlRegister := by
  refine ⟨fun s u addr v hmove hr haddr => ⟨ctrlAfter u.ctrl v, ?_, ?_, ?_, ?_, ?_, ?_, fun n => ctrlAfter_reserved u.ctrl v,
    ctrlAfter_wetselField u.ctrl v⟩, fun _ => rfl⟩
  · rw [hmove.step_write, hostWrite_register hr (by omega), haddr]
    rfl
  all_goals
    rw [ctrlAfter_getLsbD]
    simp

/-! ### CMD -/

/-- Settles O15: at offset 0x0C a write is `writeCmd` and a read gives 0. -/
theorem commandWrite : Obligations.CommandWrite := by
  constructor
  · intro s u addr v hmove hr haddr
    have hstep : step s = .next (writeCmd v u) := by
      rw [hmove.step_write, hostWrite_register hr (by omega), haddr]
      rfl
    refine ⟨fun hidle => ?_, fun hbusy => ?_⟩
    · rw [hstep, writeCmd, if_neg (by simp [hidle])]
      rfl
    · rw [hstep, writeCmd, if_pos hbusy]
      rfl
  · intro s u addr hmove haddr
    rw [hmove.step_read]
    cases hr : u.inReset with
    | true => simp [hostRead, hr]
    | false =>
      rw [hostRead_register hr (by omega), haddr, ← hr]
      rfl

/-! ### The windows -/

theorem readWord_byte (m : Memory) (a k : Nat) (hk : k < 4) : (readWord m a).extractLsb' (8 * k) 8 = readByte m (a + k) := by
  apply BitVec.eq_of_getLsbD_eq
  intro i hi
  simp only [readWord, BitVec.getLsbD_extractLsb', BitVec.getLsbD_append, hi, decide_true, Bool.true_and]
  interval_cases k <;> interval_cases i <;> simp

theorem writeWord_byte (m : Memory) (a : Nat) (v : Word) {k : Nat} (hk : k < 4) :
    readByte (writeWord m a v) (a + k) = v.extractLsb' (8 * k) 8 := by
  rw [readByte_writeWord]
  interval_cases k <;> simp

/-- Settles O17: an IN write is a word write of the port memory, a window read is a word read of it, and an OUT write reaches no register. -/
theorem windowAccess : Obligations.WindowAccess := by
  refine ⟨?_, ?_, ?_⟩
  · intro s u addr v i hmove hr hidle _ hi haddr
    have ho : portOffset addr = 0x4000 + 4 * i := by rw [portOffset, haddr]; ring
    have hin : inWindow u.inst (0x4000 + 4 * i) = true := inWindow_iff.2 (by omega)
    refine ⟨writeWord u.mem (0x4000 + 4 * i) v, ?_, fun k hk => writeWord_byte _ _ _ hk, fun a ha => readByte_writeWord_other _ _ _ _ ha,
      writeWord_wf _ _⟩
    rw [hmove.step_write]
    simp [hostWrite, hr, portWrite, ho, hin, hidle]
  · intro s u addr i base hmove hr hidle _ hi hbase haddr
    have ho : portOffset addr = base + 4 * i := by rw [portOffset, haddr]; omega
    have hwin : (inWindow u.inst (base + 4 * i) || outWindow u.inst (base + 4 * i)) = true := by
      rw [Bool.or_eq_true, inWindow_iff, outWindow_iff]; omega
    refine ⟨readWord u.mem (base + 4 * i), ?_, fun k hk => readWord_byte _ _ _ hk⟩
    rw [hmove.step_read]
    simp [hostRead, hr, portRead, ho, hwin, hidle]
  · intro s u addr v i hmove hlen hi haddr
    have ho : portOffset addr = 0x8000 + 4 * i := by rw [portOffset, haddr]; ring
    have hin : inWindow u.inst (0x8000 + 4 * i) = false := by
      rw [Bool.eq_false_iff, Ne, inWindow_iff]; omega
    rw [hmove.step_write]
    simp [hostWrite, portWrite, ho, hin, registerWrite_above v u (o := 0x8000 + 4 * i) (by omega)]

/-! ### The map -/

/-- A table of offsets below the windows and the words that stand there is what reads of those offsets return. -/
theorem step_read_of_table {s u : State} {addr : BitVec 16} {v : Word} {table : List (Nat × Word)} (hmove : NextMove (.read addr) s u)
    (hr : u.inReset = false) (htable : ∀ p ∈ table, p.1 < 0x4000 ∧ p.2 = registerWord u p.1) (hv : (4 * (addr.toNat / 4), v) ∈ table) :
    step s = .next { u with reads := v :: u.reads } := by
  obtain ⟨ho, hw⟩ := htable _ hv
  rw [hmove.step_read, hostRead_register hr ho, ← hw]

/-- A table of offsets below the windows and the states that a register write there leaves is what writes of those offsets do. -/
theorem step_write_of_table {s u t : State} {addr : BitVec 16} {v : Word} {table : List (Nat × State)} (hmove : NextMove (.write addr v) s u)
    (hr : u.inReset = false) (htable : ∀ p ∈ table, p.1 < 0x4000 ∧ p.2 = registerWrite v u p.1) (ht : (4 * (addr.toNat / 4), t) ∈ table) :
    step s = .next t := by
  obtain ⟨ho, hw⟩ := htable _ ht
  rw [hmove.step_write, hostWrite_register hr ho, ← hw]

/-- A write of an offset at which a register write has no effect changes nothing, in reset or not. -/
theorem step_write_readOnly {s u : State} {addr : BitVec 16} {v : Word} {offsets : List Nat} (hmove : NextMove (.write addr v) s u)
    (hro : ∀ o ∈ offsets, o < 0x4000 ∧ registerWrite v u o = u) (ho : 4 * (addr.toNat / 4) ∈ offsets) : step s = .next u := by
  obtain ⟨hlow, hw⟩ := hro _ ho
  rw [hmove.step_write]
  cases hr : u.inReset with
  | true => rw [hostWrite_inReset hr]
  | false => rw [hostWrite_register hr hlow, hw]

/-- PCHG_IDX as a word (10_state R48). -/
theorem pchgIdx_word (b : Byte) : 0#24 ++ b = b.setWidth 32 := by
  apply BitVec.eq_of_getLsbD_eq
  intro n hn
  simp only [BitVec.getLsbD_append, BitVec.getLsbD_setWidth, BitVec.getLsbD_zero, hn]
  split
  · simp
  · simp [BitVec.getLsbD_of_ge b n (not_lt.1 ‹_›)]

/-- Settles O13: each row of the tables is a row of `registerWord` or of `registerWrite`. -/
theorem registerMap : Obligations.RegisterMap := by
  refine ⟨fun s u addr v hmove hr hv => step_read_of_table hmove hr ?_ hv,
    fun s u addr v hmove ho => step_write_readOnly hmove ?_ ho,
    fun s u t addr v hmove hr ht => step_write_of_table hmove hr ?_ ht, fun s t => step_inst⟩
  · simp [registerWord, cfgReg, irReg, cap0, cap1, pchgIdx_word]
  · simp [registerWrite]
  · simp [registerWrite]

end Sys2Proof.Machine
end

section
/-! CTRL, its latched copy and ERRCODE stay legal (10_state R43, R47; 41_effect_contract R226; 60_exceptions R470). -/

namespace Sys2Proof.Machine

/-! ### Legal words of ERRCODE -/

theorem errNumber_range (e : ErrCode) : 1 ≤ (errNumber e).toNat ∧ (errNumber e).toNat ≤ 14 := by cases e <;> decide

theorem errWord_getLsbD (e : ErrCode) (o : Byte) (n : Nat) :
    (errWord e o).getLsbD n = if n < 16 then (if n < 8 then (errNumber e).getLsbD n else o.getLsbD (n - 8)) else false := by
  simp only [errWord, BitVec.getLsbD_append, BitVec.getLsbD_zero]

theorem errWord_code (e : ErrCode) (o : Byte) : (errWord e o).extractLsb' 0 8 = errNumber e := by
  apply BitVec.eq_of_getLsbD_eq
  intro n hn
  rw [BitVec.getLsbD_extractLsb', Nat.zero_add, errWord_getLsbD, if_pos (by omega), if_pos hn, decide_eq_true hn, Bool.true_and]

theorem errWord_reserved (e : ErrCode) (o : Byte) : errWord e o &&& 0xFFFE0000#32 = 0#32 := by
  apply BitVec.eq_of_getLsbD_eq
  intro n hn
  rw [BitVec.getLsbD_and, errWord_getLsbD, BitVec.getLsbD_zero]
  by_cases h : n < 16
  · have hmask : (0xFFFE0000#32).getLsbD n = false := by interval_cases n <;> rfl
    rw [hmask, Bool.and_false]
  · rw [if_neg h, Bool.false_and]

/-- Setting OVF leaves the code of the first error (60_exceptions R483). -/
theorem code_setOvf (w : Word) : (w ||| ovfMask).extractLsb' 0 8 = w.extractLsb' 0 8 := by
  rw [BitVec.extractLsb'_or]
  simp [ovfMask]

theorem reserved_setOvf {w : Word} (h : w &&& 0xFFFE0000#32 = 0#32) : (w ||| ovfMask) &&& 0xFFFE0000#32 = 0#32 := by
  rw [BitVec.and_or_distrib_right, h]
  rfl

/-! ### The register invariant -/

/-- The register invariant speaks of CTRL, LCTRL, ERR and ERRCODE only. -/
theorem RegInv.congr {s t : State} (h : RegInv s) (hctrl : t.ctrl = s.ctrl) (hlctrl : t.lctrl = s.lctrl) (herr : t.err = s.err)
    (hcode : t.errcode = s.errcode) : RegInv t where
  ctrl := hctrl ▸ h.ctrl
  lctrl := hlctrl ▸ h.lctrl
  noError := by rw [herr, hcode]; exact h.noError
  reserved := by rw [hcode]; exact h.reserved
  code := by rw [herr, hcode]; exact h.code

/-- Recording an error keeps ERRCODE legal, whether it is the first or a later one (60_exceptions R483). -/
theorem RegInv.recordError {s : State} (h : RegInv s) (e : ErrCode) (o : Byte) : RegInv (recordError e o s) := by
  refine ⟨h.ctrl, h.lctrl, fun herr => by simp at herr, ?_, fun _ => ?_⟩
  all_goals
    rw [recordError_errcode]
    cases herr : s.err
  · exact errWord_reserved e o
  · exact reserved_setOvf h.reserved
  · rw [errcodeAfter_first, errWord_code]
    exact errNumber_range e
  · rw [errcodeAfter_later, code_setOvf]
    exact h.code herr

theorem RegInv.warnIf {s : State} (h : RegInv s) (b : Bool) (e : ErrCode) : RegInv (warnIf b e s) := by
  cases b
  · exact h
  · exact h.recordError e _

theorem RegInv.resetOf (p : Params) : RegInv (State.resetOf p) where
  ctrl := ctrlLegal_reset
  lctrl := ctrlLegal_zero
  noError _ := rfl
  reserved := BitVec.zero_and
  code h := by cases h

/-- Clearing ERR clears ERRCODE with it (10_state R47). -/
theorem RegInv.statusWrite {s : State} (h : RegInv s) (v : Word) : RegInv (statusWrite v s) := by
  cases hv : v.getLsbD 3
  · exact h.congr rfl rfl (by rw [statusWrite_err, hv]; simp) (by rw [statusWrite_errcode, hv]; simp)
  · have herr : (Machine.statusWrite v s).err = false := by rw [statusWrite_err, hv]; simp
    have hcode : (Machine.statusWrite v s).errcode = 0#32 := by rw [statusWrite_errcode, hv]; rfl
    exact ⟨h.ctrl, h.lctrl, fun _ => hcode, by rw [hcode]; rfl, fun h1 => by rw [herr] at h1; cases h1⟩

theorem RegInv.paramWritten {register : Bool} {s u : State} (h : RegInv s) (hu : ParamWritten register s u) : RegInv u := by
  cases hu
  case full => exact (h.recordError .paramFull (cmdOpc s)).congr rfl rfl rfl rfl
  all_goals exact h.congr rfl rfl rfl rfl

theorem RegInv.accepted {i : Instr} {s u : State} (h : RegInv s) (hu : Accepted i s u) : RegInv u := by
  cases hu with
  | softReset => exact (RegInv.resetOf s.inst).congr rfl rfl rfl rfl
  | config => exact (RegInv.congr (t := configured _ _ _ _ s) h rfl rfl rfl rfl).warnIf _ _
  | clear =>
    rw [clearUnits_eq]
    exact h.congr rfl rfl rfl rfl
  | irOverflow => exact h.recordError _ _
  | irCommit => exact ((h.warnIf _ .irShort).warnIf _ .irTrunc).congr rfl rfl rfl rfl
  | pRegister _ _ hp | pSet _ _ hp => exact h.paramWritten hp
  | pGet _ _ hp =>
    obtain ⟨_, _, rfl⟩ := hp.frame
    exact h.congr rfl rfl rfl rfl
  | procBlock =>
    obtain ⟨b, _, _, _, _, _, _, hp⟩ := procDone_onlyUnits s
    rw [hp]
    exact (h.warnIf b .countAdjusted).congr rfl rfl rfl rfl
  | nop | dlyWrite | dlyRead | dlyReadi | revStep | gpsStep | convStep | irBegin | irPush => exact h.congr rfl rfl rfl rfl

theorem RegInv.written {addr : BitVec 16} {v : Word} {s t : State} (h : RegInv s) (hw : Written addr v s t) : RegInv t := by
  cases hw
  case dropped e _ => exact h.recordError e _
  case status => exact h.statusWrite v
  case ctrl => exact ⟨ctrlLegal_ctrlAfter v h.ctrl, h.lctrl, h.noError, h.reserved, h.code⟩
  case command => exact ⟨h.ctrl, h.ctrl, h.noError, h.reserved, h.code⟩
  all_goals exact h.congr rfl rfl rfl rfl

theorem keptByMoves_regInv : KeptByMoves RegInv where
  schedule _ _ h := h.congr rfl rfl rfl rfl
  reads _ _ _ h := h.congr rfl rfl rfl rfl
  reset s _ _ := (RegInv.resetOf s.inst).congr rfl rfl rfl rfl
  error e o _ h := h.recordError e o
  complete _ h := h.congr rfl rfl rfl rfl
  accepted _ _ _ _ hu h := h.accepted hu
  written _ _ _ _ hw h := h.written hw

/-- Settles O56: every kind of effect keeps the register invariant, the recording of an error and the CTRL write by their bits. -/
theorem registerInvariant : Obligations.RegisterInvariant := fun _ _ h hstep => keptByMoves_regInv.step hstep h

end Sys2Proof.Machine
end

section
/-! A command reads the latch and not the live registers (10_state R55). -/

namespace Sys2Proof.Machine

/-- `s` with other words in the live ARG, NAME and CTRL. -/
def withLive (a n : Quad) (c : Word) (s : State) : State := { s with arg := a, name := n, ctrl := c }

/-- The outcome `o` with other words in the live registers of its next state. -/
def nextWithLive (a n : Quad) (c : Word) : Host.Outcome State Fault Refusal → Host.Outcome State Fault Refusal
  | .next t => .next (withLive a n c t)
  | o => o

section
variable (a n : Quad) (c : Word)

@[simp] theorem withLive_pst (s : State) : (withLive a n c s).pst = s.pst := rfl

@[simp] theorem withLive_larg (s : State) : (withLive a n c s).larg = s.larg := rfl

@[simp] theorem withLive_lname (s : State) : (withLive a n c s).lname = s.lname := rfl

theorem wetStage_withLive (k : BlockCoeffs) (ch : Nat) (x : F32) (s : State) :
    wetStage k ch x (withLive a n c s) = ((wetStage k ch x s).1, withLive a n c (wetStage k ch x s).2) := by
  unfold wetStage
  split <;> rfl

theorem procSample_withLive (k : BlockCoeffs) (i ch : Nat) (s : State) :
    procSample k i ch (withLive a n c s) = withLive a n c (procSample k i ch s) := by
  unfold procSample
  dsimp only
  rw [wetStage_withLive]
  rfl

theorem procFrames_withLive (k : BlockCoeffs) (off m : Nat) (s : State) :
    procFrames k off m (withLive a n c s) = withLive a n c (procFrames k off m s) :=
  List.foldl_hom _ fun _ _ => List.foldl_hom _ fun _ _ => procSample_withLive a n c _ _ _ _

theorem procBypass_withLive (off m : Nat) (s : State) :
    procBypass off m (withLive a n c s) = withLive a n c (procBypass off m s) :=
  List.foldl_hom _ fun _ _ => rfl

theorem warnIf_withLive (b : Bool) (e : ErrCode) (s : State) : warnIf b e (withLive a n c s) = withLive a n c (warnIf b e s) := by
  cases b <;> rfl

theorem finish_withLive (s : State) : finish (withLive a n c s) = nextWithLive a n c (finish s) := rfl

/-- A check whose two outcomes do not depend on the live registers. -/
theorem ite_withLive {p : Prop} [Decidable p] {x y x' y' : Host.Outcome State Fault Refusal} (hx : x' = nextWithLive a n c x)
    (hy : y' = nextWithLive a n c y) : (if p then x' else y') = nextWithLive a n c (if p then x else y) := by
  rw [apply_ite (nextWithLive a n c), hx, hy]

theorem writeParam_withLive (register : Bool) (s : State) :
    writeParam register (withLive a n c s) = nextWithLive a n c (writeParam register s) := by
  simp only [writeParam, withLive_pst, withLive_larg, withLive_lname]
  refine ite_withLive a n c rfl ?_
  cases lookupName s.pst (nameOf s.lname) with
  | some e => rfl
  | none => cases freeIndex s.pst <;> rfl

theorem execPGet_withLive (s : State) : execPGet (withLive a n c s) = nextWithLive a n c (execPGet s) := by
  obtain ⟨u, hu, he⟩ := execPGet_cases s
  rw [he]
  cases hu with
  | found e hname hfound => exact execPGet_found (s := withLive a n c s) hname hfound
  | absent h => exact execPGet_absent (s := withLive a n c s) h

theorem irCommitted_withLive (s : State) : irCommitted (withLive a n c s) = withLive a n c (irCommitted s) := by
  simp only [irCommitted, warnIf_withLive]
  rfl

theorem procDone_withLive (s : State) : procDone (withLive a n c s) = withLive a n c (procDone s) := by
  simp only [procDone, warnIf_withLive, procFrames_withLive, procBypass_withLive, apply_ite (withLive a n c)]
  rfl

/-- Every command but SOFT_RESET does the same whatever the live registers hold, and leaves them (10_state R55). -/
theorem exec_withLive (i : Instr) (hi : i ≠ .softReset) (s : State) :
    exec i (withLive a n c s) = nextWithLive a n c (exec i s) := by
  cases i with
  | softReset => exact absurd rfl hi
  | nop => rfl
  | config =>
    refine ite_withLive a n c rfl (ite_withLive a n c rfl ?_)
    rw [← finish_withLive, ← warnIf_withLive]
    rfl
  | clear mask =>
    change finish _ = nextWithLive a n c (finish _)
    rw [clearUnits_eq, clearUnits_eq]
    rfl
  | dlyWrite k | dlyRead k | dlyReadi k | revStep ch | gpsStep ch | convStep ch =>
    exact ite_withLive a n c rfl (ite_withLive a n c rfl rfl)
  | irBegin => exact ite_withLive a n c rfl (ite_withLive a n c rfl rfl)
  | irPush ch => exact ite_withLive a n c rfl (ite_withLive a n c rfl (ite_withLive a n c rfl (ite_withLive a n c rfl rfl)))
  | irCommit =>
    refine ite_withLive a n c rfl (ite_withLive a n c rfl ?_)
    exact congrArg finish (irCommitted_withLive a n c s)
  | pRegister => exact writeParam_withLive a n c true s
  | pSet => exact writeParam_withLive a n c false s
  | pGet => exact execPGet_withLive a n c s
  | procBlock =>
    refine ite_withLive a n c rfl ?_
    exact congrArg (fun t => finish (setRes0 _ t)) (procDone_withLive a n c s)

end

/-- No Host write while BUSY = 1 changes the latch or ends the command (10_state R55). -/
theorem Written.latch_of_busy {addr : BitVec 16} {v : Word} {s t : State} (h : Written addr v s t) (hbusy : s.busy = true) :
    t.lcmd = s.lcmd ∧ t.larg = s.larg ∧ t.lname = s.lname ∧ t.lctrl = s.lctrl ∧ t.busy = true := by
  cases h
  case command hidle => simp [hbusy] at hidle
  all_goals exact ⟨rfl, rfl, rfl, rfl, hbusy⟩

/-- Settles O8: a command commutes with replacing the live registers (`exec_withLive`), and a write while BUSY = 1 reaches no latch. -/
theorem latchIsolatesCommand : Obligations.LatchIsolatesCommand := by
  refine ⟨fun i s t a n c hi h => ?_, fun _ _ _ _ => rfl, fun s u t addr v hmove hbusy hstep => ?_⟩
  · have hlive := exec_withLive a n c i hi s
    rw [h] at hlive
    exact hlive
  · obtain rfl : hostWrite addr v u = t := by simpa using hmove.step_write.symm.trans hstep
    exact (hostWrite_cases addr v u).latch_of_busy hbusy

end Sys2Proof.Machine
end

section
/-! Every unit keeps its shape: first each kind of unit under its own operations, then the state under the writes of its units, then every
command. -/

namespace Sys2Proof.Machine

/-! ### Lists of units -/

theorem getD_mem {α : Type} {l : List α} {k : Nat} (d : α) (hk : k < l.length) : l.getD k d ∈ l := by
  rw [List.getD_eq_getElem l d hk]
  exact List.getElem_mem hk

/-- A property of all units that the written unit has too holds of all units after the write. -/
theorem forall_mem_set {α : Type} {P : α → Prop} {l : List α} (h : ∀ x ∈ l, P x) (k : Nat) {y : α} (hy : P y) : ∀ x ∈ l.set k y, P x := by
  intro x hx
  rcases List.mem_or_eq_of_mem_set hx with hx | rfl
  · exact h x hx
  · exact hy

theorem forall₂_getElem? {α β : Type} {R : α → β → Prop} {l : List α} {l' : List β} (h : List.Forall₂ R l l') {i : Nat} {y : β}
    (hy : l'[i]? = some y) : ∃ x, l[i]? = some x ∧ R x y := by
  obtain ⟨hi, rfl⟩ := List.getElem?_eq_some_iff.1 hy
  have hi' : i < l.length := h.length_eq ▸ hi
  exact ⟨l[i], List.getElem?_eq_getElem hi', h.get hi' hi⟩

/-! ### Delay buffers (10_state R57) -/

theorem BufOk.empty (cap : Nat) : BufOk (DelayBuf.empty cap) cap := by
  refine ⟨rfl, rfl, rfl, ?_⟩
  change 0 < cap ∨ cap = 0 ∧ 0 = 0
  omega

theorem BufOk.emptied {d : DelayBuf} {cap : Nat} (h : BufOk d cap) : BufOk (emptied d) cap := by
  obtain rfl := h.capacity
  exact .empty d.cap

theorem BufOk.write {d : DelayBuf} {cap : Nat} (h : BufOk d cap) (hpos : 0 < cap) (x : F32) : BufOk (dbWrite d x) cap := by
  obtain rfl := h.capacity
  have hw : d.w < d.cap := by have := h.cursor; omega
  exact ⟨rfl, sparseWf_set _ _ h.canonical, sparseBelow_set _ h.inside hw, .inl (dbWrite_cursor d x hpos)⟩

/-- The buffer `d'` is in good order at every capacity but 0 at which `d` is. -/
def BufStep (d d' : DelayBuf) : Prop := ∀ cap, 0 < cap → BufOk d cap → BufOk d' cap

theorem BufStep.write (d : DelayBuf) (x : F32) : BufStep d (dbWrite d x) := fun _ hpos h => h.write hpos x

theorem BufStep.emptied (d : DelayBuf) : BufStep d (emptied d) := fun _ _ h => h.emptied

/-! ### Reverbs (10_state R60, 43_reverb R300) -/

theorem revLength_pos {p : Params} (hp : p.Valid) (fs c b : Nat) : 0 < revLength p fs c b := by
  have := hp.revCapMax
  unfold revLength
  omega

theorem RevOk.congr {s t : State} {c : Nat} {r : RevCh} (h : RevOk s c r) (hinst : t.inst = s.inst) (hfs : t.fs = s.fs)
    (hnch : t.nch = s.nch) : RevOk t c r where
  combCount := h.combCount
  apCount := h.apCount
  combs := by rw [hinst, hfs, hnch]; exact h.combs
  aps := by rw [hinst, hfs, hnch]; exact h.aps

/-- The reverb of a configured channel stays in good order when each of its buffers does. -/
theorem RevOk.step {s : State} {c : Nat} {r r' : RevCh} (h : RevOk s c r) (hp : s.inst.Valid) (hc : c < s.nch)
    (hcombs : List.Forall₂ (fun a b => BufStep a.db b.db) r.combs r'.combs) (haps : List.Forall₂ BufStep r.aps r'.aps) : RevOk s c r' where
  combCount := hcombs.length_eq ▸ h.combCount
  apCount := haps.length_eq ▸ h.apCount
  combs i cb b hcb hb := by
    obtain ⟨a, ha, hab⟩ := forall₂_getElem? hcombs hcb
    have hok := h.combs i a b ha hb
    rw [if_pos hc] at hok ⊢
    exact hab _ (revLength_pos hp _ _ _) hok
  aps j ab b hab hb := by
    obtain ⟨a, ha, hstep⟩ := forall₂_getElem? haps hab
    have hok := h.aps j a b ha hb
    rw [if_pos hc] at hok ⊢
    exact hstep _ (revLength_pos hp _ _ _) hok

theorem combBank_steps (k : RevCoeffs) (x : F32) (l : List Comb) (acc : F32) :
    List.Forall₂ (fun a b => BufStep a.db b.db) l (combBank k x l acc).2 := by
  induction l generalizing acc with
  | nil => exact .nil
  | cons cb rest ih => exact .cons (.write _ _) (ih _)

theorem apChain_steps (l : List DelayBuf) (y : F32) : List.Forall₂ BufStep l (apChain l y).2 := by
  induction l generalizing y with
  | nil => exact .nil
  | cons ab rest ih => exact .cons (.write _ _) (ih _)

theorem RevOk.sample {s : State} {c : Nat} {r : RevCh} (h : RevOk s c r) (hp : s.inst.Valid) (hc : c < s.nch) (k : RevCoeffs) (x : F32) :
    RevOk s c (revSample k r x).2 :=
  h.step hp hc (combBank_steps k x _ _) (apChain_steps _ _)

theorem RevOk.cleared {s : State} {c : Nat} {r : RevCh} (h : RevOk s c r) (hp : s.inst.Valid) (hc : c < s.nch) : RevOk s c (revCleared r) :=
  h.step hp hc (List.forall₂_map_right_iff.2 (List.forall₂_same.2 fun cb _ => .emptied cb.db))
    (List.forall₂_map_right_iff.2 (List.forall₂_same.2 fun ab _ => .emptied ab))

/-- The reverb that CONFIG gives a configured channel (40_control R184). -/
theorem RevOk.empty {s : State} {c : Nat} (hp : s.inst.Valid) (hc : c < s.nch) : RevOk s c (revEmpty s.inst s.fs c) where
  combCount := by simp [revEmpty, hp.combCount]
  apCount := by simp [revEmpty, hp.apCount]
  combs i cb b hcb hb := by
    obtain rfl : Comb.empty (revLength s.inst s.fs c b) = cb := by simpa [revEmpty, hb] using hcb
    rw [if_pos hc]
    exact .empty _
  aps j ab b hab hb := by
    obtain rfl : DelayBuf.empty (revLength s.inst s.fs c b) = ab := by simpa [revEmpty, hb] using hab
    rw [if_pos hc]
    exact .empty _

/-- The reverb of a channel that is not configured has capacity 0 throughout. -/
theorem RevOk.unconfigured {s t : State} {c : Nat} {r : RevCh} (h : RevOk s c r) (hs : s.nch ≤ c) (hinst : t.inst = s.inst) (ht : t.nch ≤ c) :
    RevOk t c r where
  combCount := h.combCount
  apCount := h.apCount
  combs i cb b hcb hb := by
    have hok := h.combs i cb b hcb (hinst ▸ hb)
    rw [if_neg (not_lt.2 hs)] at hok
    rwa [if_neg (not_lt.2 ht)]
  aps j ab b hab hb := by
    have hok := h.aps j ab b hab (hinst ▸ hb)
    rw [if_neg (not_lt.2 hs)] at hok
    rwa [if_neg (not_lt.2 ht)]

/-! ### Pitch shifters (10_state R61) -/

/-- The ring of a pitch shifter is canonical and below the ring length `b`, and its cursor inside it. -/
def GpsRingOk (b : Nat) (g : GpsCh) : Prop :=
  sparseWf g.ring = true ∧ sparseBelow b g.ring = true ∧ (g.gw < b ∨ (b = 0 ∧ g.gw = 0))

theorem GpsRingOk.start (g b : Nat) : GpsRingOk b (gpsStart g b) := by
  refine ⟨rfl, rfl, ?_⟩
  change 0 < b ∨ b = 0 ∧ 0 = 0
  omega

theorem GpsRingOk.sample {b : Nat} {c : GpsCh} (h : GpsRingOk b c) (hpos : 0 < b) (g : Nat) (win : Samples) (x r : F32) :
    GpsRingOk b (gpsSample g b win c x r).2 := by
  obtain ⟨hwf, hbelow, hgw⟩ := h
  exact ⟨sparseWf_set _ _ hwf, sparseBelow_set _ hbelow (by omega), .inl (Nat.mod_lt _ hpos)⟩

/-! ### Convolution engines (10_state R62, 45_convolution R385, R389, R394) -/

theorem overlapAdd_shape {n wr : Nat} {a : Array Cplx} {out : Samples} (h : sparseWf out = true) :
    sparseWf (overlapAdd n wr a out) = true ∧ sparseBelow (2 * n) (overlapAdd n wr a out) = true := by
  refine ⟨sparseWf_ofList _, ?_⟩
  unfold overlapAdd
  have hsize (f : Array F32 → Nat → Array F32) (hf : ∀ r j, (f r j).size = r.size) :
      ((List.range n).foldl f (sparseToArray (2 * n) out)).toList.length = 2 * n := by
    rw [Array.length_toList, size_foldl f hf, sparseToArray_size _ h]
  have hbelow := sparseBelow_ofList ((List.range n).foldl (fun r j =>
    r.setIfInBounds ((wr + j) % (2 * n))
      (F32.add (r.getD ((wr + j) % (2 * n)) 0#32) (F32.mul (a.getD j cZero).1 (F32.rnd32 1 n)))) (sparseToArray (2 * n) out)).toList
  rwa [hsize _ fun r j => by simp] at hbelow

/-- A block whose input is complete is transformed and added, and the next one starts one hop on (45_convolution R385). -/
theorem ConvOk.block {n h : Nat} {v : ConvCh} (hn : 0 < n) (hh : 0 < h) (hrd : v.rd < 2 * n)
    (haligned : (v.rd + h) % (2 * n) = (v.wr + h) % (2 * n)) (hinb : sparseWf v.inb = true ∧ sparseBelow h v.inb = true) (hout : sparseWf v.out = true)
    (hre : sparseWf v.specRe = true ∧ sparseBelow n v.specRe = true) (him : sparseWf v.specIm = true ∧ sparseBelow n v.specIm = true) :
    ConvOk n h (convBlock n h v) where
  ip := hh
  rd := hrd
  wr := Nat.mod_lt _ (by omega)
  aligned := by
    change (v.rd + h) % (2 * n) = ((v.wr + h) % (2 * n) + 0) % (2 * n)
    rw [haligned, Nat.add_zero, Nat.mod_mod]
  inb := hinb
  out := overlapAdd_shape hout
  specRe := hre
  specIm := him

/-- One sample keeps an engine in good order, whether or not it completes a block. -/
theorem ConvOk.sample {n h : Nat} {v : ConvCh} (hv : ConvOk n h v) (hn : 0 < n) (hh : 0 < h) (x : F32) :
    ConvOk n h (convSample true n h v x).2 := by
  have hrd : (v.rd + 1) % (2 * n) < 2 * n := Nat.mod_lt _ (by omega)
  have haligned : ((v.rd + 1) % (2 * n) + h) % (2 * n) = (v.wr + (v.ip + 1)) % (2 * n) := by
    have hstep : v.rd + h + 1 ≡ v.wr + v.ip + 1 [MOD 2 * n] := Nat.ModEq.add_right 1 hv.aligned
    rw [Nat.mod_add_mod, Nat.add_right_comm]
    exact hstep
  have hinb := And.intro (sparseWf_set v.ip x hv.inb.1) (sparseBelow_set x hv.inb.2 hv.ip)
  have hout := And.intro (sparseWf_set v.rd F32.zero hv.out.1) (sparseBelow_set F32.zero hv.out.2 hv.rd)
  unfold convSample
  dsimp only
  rw [if_neg (by simp)]
  split
  case isTrue hfull => exact .block hn hh hrd (hfull ▸ haligned) hinb hout.1 hv.specRe hv.specIm
  case isFalse hfull => exact ⟨by have := hv.ip; dsimp only at hfull ⊢; omega, hrd, hv.wr, haligned, hinb, hout, hv.specRe, hv.specIm⟩

theorem ConvOk.ringsEmptied {n h : Nat} {v : ConvCh} (hv : ConvOk n h v) (hn : h < 2 * n) (hh : 0 < h) : ConvOk n h (ringsEmptied h v) :=
  ⟨hh, by change 0 < 2 * n; omega, hn, by change (0 + h) % _ = (h + 0) % _; rw [Nat.zero_add, Nat.add_zero], ⟨rfl, rfl⟩, ⟨rfl, rfl⟩,
    hv.specRe, hv.specIm⟩

/-! ### The FFT size (45_convolution R380) -/

theorem fftSize_eq (m : Nat) : ∃ j, fftSize m = 2 ^ (j + 1) := ⟨_, rfl⟩

theorem le_fftSize (m : Nat) : max 2 (2 * m) ≤ fftSize m := by
  have : max 2 (2 * m) - 1 < fftSize m := Nat.lt_log2_self
  omega

/-- No power of two that is large enough is smaller. -/
theorem fftSize_le {m j : Nat} (h : max 2 (2 * m) ≤ 2 ^ j) : fftSize m ≤ 2 ^ j := by
  have hne : max 2 (2 * m) - 1 ≠ 0 := by omega
  exact Nat.pow_le_pow_right (by decide) ((Nat.log2_lt hne).2 (by omega))

theorem irSpectrum_size {n : Nat} {l : List F32} (h : l.length ≤ n) : (irSpectrum n l).toList.length = n := by
  rw [irSpectrum, Array.length_toList, fft_size, zeroPadded]
  simp
  omega

/-- The engine that IR_COMMIT gives a channel is in good order (45_convolution R387, R393). -/
theorem ConvOk.committed (s : State) {n m : Nat} (c : Nat) (hn : 2 ≤ n) (hm : m ≤ n) : ConvOk n (n / 2) (committedCh s n m c) := by
  have hspec (f : Cplx → F32) (spec : Array Cplx) (hlen : spec.toList.length ≤ n) :
      sparseWf (sparseOfList (spec.toList.map f)) = true ∧ sparseBelow n (sparseOfList (spec.toList.map f)) = true := by
    refine ⟨sparseWf_ofList _, ?_⟩
    have := sparseBelow_ofList (spec.toList.map f)
    simp only [sparseBelow, List.all_eq_true, decide_eq_true_eq, List.length_map] at this ⊢
    exact fun e he => (this e he).trans_le hlen
  have hlen : (if c < s.nch then irSpectrum n (resampled s.lsrc s.fssrc s.fs m (irAt s c).raw) else #[]).toList.length ≤ n := by
    split
    · exact (irSpectrum_size (by simpa [resampled] using hm)).le
    · exact Nat.zero_le n
  exact ⟨by change 0 < n / 2; omega, by change 0 < 2 * n; omega, by change n / 2 < 2 * n; omega,
    by change (0 + n / 2) % _ = (n / 2 + 0) % _; rw [Nat.zero_add, Nat.add_zero], ⟨rfl, rfl⟩, ⟨rfl, rfl⟩, hspec _ _ hlen, hspec _ _ hlen⟩

end Sys2Proof.Machine
end

section
/-! The shape invariant under the writes of each kind of unit, under every command, and under every move. -/

namespace Sys2Proof.Machine

/-! ### What the invariant speaks of -/

/-- The state that the shape invariant speaks of: the synthesis parameters, the configuration, the units and the load session. -/
def shapePart (s : State) : State :=
  { State.resetOf s.inst with
    cfg := s.cfg, irsess := s.irsess, irvalid := s.irvalid, fs := s.fs, nch := s.nch, dlycap := s.dlycap, grain := s.grain, ringB := s.ringB
    dlyl := s.dlyl, prer := s.prer, rev := s.rev, gps := s.gps, win := s.win, convN := s.convN, convH := s.convH, irLen := s.irLen
    conv := s.conv, lsrc := s.lsrc, fssrc := s.fssrc, ir := s.ir }

theorem ShapeInv.revCongr {s t : State} (h : ShapeInv s) (hrev : t.rev = s.rev) (hinst : t.inst = s.inst) (hfs : t.fs = s.fs)
    (hnch : t.nch = s.nch) : t.rev.length = t.inst.maxCh ∧ ∀ (c : Nat) (r : RevCh), t.rev[c]? = some r → RevOk t c r := by
  rw [hrev, hinst]
  exact ⟨h.rev.1, fun c r hr => (h.rev.2 c r hr).congr hinst hfs hnch⟩

theorem shapeInv_shapePart {s : State} : ShapeInv (shapePart s) ↔ ShapeInv s :=
  ⟨fun h => { h with rev := h.revCongr rfl rfl rfl rfl }, fun h => { h with rev := h.revCongr rfl rfl rfl rfl }⟩

/-- Two states that agree on the shape part meet the invariant together. -/
theorem ShapeInv.congr {s t : State} (h : ShapeInv s) (ht : shapePart t = shapePart s) : ShapeInv t := by
  rw [← shapeInv_shapePart, ht, shapeInv_shapePart]
  exact h

theorem ShapeInv.recordError {s : State} (h : ShapeInv s) (e : ErrCode) (o : Byte) : ShapeInv (recordError e o s) := h.congr rfl

theorem ShapeInv.warnIf {s : State} (h : ShapeInv s) (b : Bool) (e : ErrCode) : ShapeInv (warnIf b e s) := by
  rw [warnIf_eq]
  exact h.congr rfl

theorem warnIf_cfg (b : Bool) (e : ErrCode) (s : State) : (warnIf b e s).cfg = s.cfg := by rw [warnIf_eq]

/-! ### Writes of one unit -/

theorem ShapeInv.setLine {s : State} (h : ShapeInv s) (k : Nat) {d : DelayBuf} (hd : BufOk d s.dlycap) : ShapeInv (setLine k d s) :=
  { h with
    lines := ⟨by rw [setLine_dlyl, List.length_set]; exact h.lines.1, forall_mem_set h.lines.2 k hd⟩
    rev := h.revCongr rfl rfl rfl rfl }

theorem ShapeInv.setPre {s : State} (h : ShapeInv s) (c : Nat) {d : DelayBuf} (hd : BufOk d s.inst.preCap) : ShapeInv (setPre c d s) :=
  { h with
    pre := ⟨by rw [setPre_prer, List.length_set]; exact h.pre.1, forall_mem_set h.pre.2 c hd⟩
    rev := h.revCongr rfl rfl rfl rfl }

theorem ShapeInv.setRev {s : State} (h : ShapeInv s) (c : Nat) {r : RevCh} (hr : RevOk s c r) : ShapeInv (setRev c r s) :=
  { h with
    rev := ⟨by rw [setRev_rev, List.length_set]; exact h.rev.1, fun c' r' hr' => by
      rw [setRev_rev, List.getElem?_set] at hr'
      refine RevOk.congr (s := s) ?_ rfl rfl rfl
      by_cases hc : c = c'
      · subst hc
        rw [if_pos rfl] at hr'
        split at hr' <;> cases hr'
        exact hr
      · rw [if_neg hc] at hr'
        exact h.rev.2 c' r' hr'⟩ }

theorem ShapeInv.setGps {s : State} (h : ShapeInv s) (c : Nat) {g : GpsCh} (hg : GpsRingOk s.ringB g) : ShapeInv (setGps c g s) :=
  { h with
    gps := ⟨by rw [setGps_gps, List.length_set]; exact h.gps.1, forall_mem_set h.gps.2 c hg⟩
    rev := h.revCongr rfl rfl rfl rfl }

theorem ShapeInv.setConv {s : State} (h : ShapeInv s) (c : Nat) {v : ConvCh} (hv : s.irvalid = true → ConvOk s.convN s.convH v) :
    ShapeInv (setConv c v s) :=
  { h with
    conv := by rw [setConv_conv, List.length_set]; exact h.conv
    withIr := fun hir => by
      obtain ⟨hlen, hle, hn, hmax, hpow, hall⟩ := h.withIr hir
      exact ⟨hlen, hle, hn, hmax, hpow, forall_mem_set hall c (hv hir)⟩
    rev := h.revCongr rfl rfl rfl rfl }

theorem ShapeInv.setIr {s : State} (h : ShapeInv s) (c : Nat) {r : IrCh}
    (hr : r.cnt ≤ s.lsrc ∧ sparseWf r.raw = true ∧ sparseBelow r.cnt r.raw = true) : ShapeInv (setIr c r s) :=
  { h with
    raw := ⟨by rw [setIr_ir, List.length_set]; exact h.raw.1, forall_mem_set h.raw.2 c hr⟩
    rev := h.revCongr rfl rfl rfl rfl }

/-! ### The units that a command reaches -/

/-- A configured channel is below MAX_CH. -/
theorem ShapeInv.ch_lt {s : State} (h : ShapeInv s) (hcfg : s.cfg = true) {c : Nat} (hc : c < s.nch) : c < s.inst.maxCh := by
  obtain ⟨-, -, -, hnch, -⟩ := h.set hcfg
  omega

theorem ShapeInv.dlycap_pos {s : State} (h : ShapeInv s) (hcfg : s.cfg = true) : 0 < s.dlycap := by
  obtain ⟨-, -, -, -, hcap, -⟩ := h.set hcfg
  exact hcap

theorem ShapeInv.ringB_pos {s : State} (h : ShapeInv s) (hcfg : s.cfg = true) : 0 < s.ringB := by
  obtain ⟨-, -, -, -, -, -, -, hgrain, -, hring⟩ := h.set hcfg
  omega

theorem ShapeInv.convSizes_pos {s : State} (h : ShapeInv s) (hir : s.irvalid = true) : 0 < s.convH ∧ s.convN = 2 * s.convH := by
  obtain ⟨hlen, hle, hn, -⟩ := h.withIr hir
  exact ⟨by omega, hn⟩

theorem ShapeInv.writeLine {s : State} (h : ShapeInv s) (hcfg : s.cfg = true) {k : Nat} (hk : k < s.inst.maxCh) (x : F32) :
    ShapeInv (Machine.setLine k (dbWrite (lineAt s k) x) s) :=
  h.setLine k ((h.lines.2 _ (getD_mem _ (h.lines.1.symm ▸ hk))).write (h.dlycap_pos hcfg) x)

theorem ShapeInv.writePre {s : State} (h : ShapeInv s) {c : Nat} (hc : c < s.inst.maxCh) (x : F32) :
    ShapeInv (Machine.setPre c (dbWrite (preAt s c) x) s) :=
  h.setPre c ((h.pre.2 _ (getD_mem _ (h.pre.1.symm ▸ hc))).write h.inst.preCap.1 x)

theorem ShapeInv.revSample {s : State} (h : ShapeInv s) (hcfg : s.cfg = true) {c : Nat} (hc : c < s.nch) (k : RevCoeffs) (x : F32) :
    ShapeInv (Machine.setRev c (revSample k (revAt s c) x).2 s) := by
  have hlen : c < s.rev.length := h.rev.1.symm ▸ h.ch_lt hcfg hc
  have hr : s.rev[c]? = some (revAt s c) := by
    rw [revAt, List.getD_eq_getElem _ _ hlen]
    exact List.getElem?_eq_getElem hlen
  exact h.setRev c ((h.rev.2 c _ hr).sample h.inst hc k x)

theorem ShapeInv.gpsSample {s : State} (h : ShapeInv s) (hcfg : s.cfg = true) {c : Nat} (hc : c < s.nch) (x r : F32) :
    ShapeInv (Machine.setGps c (gpsSample s.grain s.ringB s.win (gpsAt s c) x r).2 s) :=
  h.setGps c (GpsRingOk.sample (h.gps.2 _ (getD_mem _ (h.gps.1.symm ▸ h.ch_lt hcfg hc))) (h.ringB_pos hcfg) _ _ x r)

theorem ShapeInv.convSample {s : State} (h : ShapeInv s) (hcfg : s.cfg = true) {c : Nat} (hc : c < s.nch) (x : F32) :
    ShapeInv (Machine.setConv c (convSample s.irvalid s.convN s.convH (convAt s c) x).2 s) := by
  refine h.setConv c fun hir => ?_
  obtain ⟨hpos, hn⟩ := h.convSizes_pos hir
  obtain ⟨-, -, -, -, -, hall⟩ := h.withIr hir
  rw [hir]
  exact (hall _ (getD_mem _ (h.conv.symm ▸ h.ch_lt hcfg hc))).sample (by omega) hpos x

/-! ### PROC_BLOCK -/

/-- Every wet stage of a configured channel keeps the shape. -/
theorem ShapeInv.wetStage {s : State} (h : ShapeInv s) (hcfg : s.cfg = true) {ch : Nat} (hch : ch < s.nch) (k : BlockCoeffs) (x : F32) :
    ShapeInv (wetStage k ch x s).2 := by
  have hpre := h.writePre (h.ch_lt hcfg hch) x
  unfold Machine.wetStage
  split
  case h_1 | h_6 => exact h
  case h_2 => exact h.writeLine hcfg (h.ch_lt hcfg hch) x
  case h_3 => exact hpre.revSample hcfg hch k.rev _
  case h_4 => exact h.gpsSample hcfg hch x k.r
  case h_5 => exact hpre.convSample hcfg hch _

/-- A sample of PROC_BLOCK keeps the shape and the configuration that its loop runs over. -/
theorem ShapeInv.procSample {s : State} (h : ShapeInv s) (hcfg : s.cfg = true) {ch : Nat} (hch : ch < s.nch) (k : BlockCoeffs) (i : Nat) :
    ShapeInv (procSample k i ch s) := (h.wetStage hcfg hch k (inWord s i)).congr rfl

theorem ShapeInv.procFrames {s : State} (h : ShapeInv s) (hcfg : s.cfg = true) (k : BlockCoeffs) (off n : Nat) :
    ShapeInv (procFrames k off n s) := by
  have hloop : ShapeInv (Machine.procFrames k off n s) ∧ OnlyUnits s (Machine.procFrames k off n s) := by
    refine procFrames_induction (P := fun t => ShapeInv t ∧ OnlyUnits s t) off n (fun i ch t hch ⟨ht, hst⟩ => ?_) ⟨h, .refl s⟩
    refine ⟨?_, hst.trans (procSample_onlyUnits k i ch t)⟩
    obtain ⟨_, _, _, _, _, _, rfl⟩ := hst
    exact ht.procSample hcfg hch k i
  exact hloop.1

theorem ShapeInv.procBypass {s : State} (h : ShapeInv s) (off n : Nat) : ShapeInv (procBypass off n s) :=
  procBypass_induction off n (fun _ _ _ ht => ht.congr rfl) h

theorem ShapeInv.procDone {s : State} (h : ShapeInv s) (hcfg : s.cfg = true) : ShapeInv (procDone s) := by
  unfold Machine.procDone
  dsimp only
  split
  · exact (h.warnIf _ _).procFrames ((warnIf_cfg _ _ s).trans hcfg) _ _ _
  · exact (h.warnIf _ _).procBypass _ _

/-! ### CONFIG, CLEAR, IR_COMMIT and reset -/

theorem configValid_iff {p : Params} {fs c cap g : Nat} :
    configValid p fs c cap g = true ↔ 1 ≤ fs ∧ fs ≤ p.fsMax ∧ 1 ≤ c ∧ c ≤ p.maxCh ∧ 1 ≤ cap ∧ cap ≤ p.dlyCapMax ∧ g % 2 = 0 ∧ 8 ≤ g
      ∧ g ≤ p.gpsGMax := by
  simp [configValid, and_assoc]

theorem windowTable_shape (g : Nat) : sparseWf (windowTable g) = true ∧ sparseBelow g (windowTable g) = true := by
  refine ⟨sparseWf_ofList _, ?_⟩
  have := sparseBelow_ofList (hannTable g)
  rwa [hannTable, List.length_map, List.length_range] at this

/-- CONFIG gives every unit its shape; the channels beyond C stay at capacity 0, where no configuration has been (40_control R184). -/
theorem ShapeInv.configured {s : State} (h : ShapeInv s) (hcfg : s.cfg = false) {fs c cap g : Nat}
    (hv : configValid s.inst fs c cap g = true) : ShapeInv (configured fs c cap g s) := by
  obtain ⟨-, hnch, -, -, -, hsess, hir⟩ := h.unset hcfg
  obtain ⟨hfs, hfs', hc, hc', hcap, hcap', heven, hg, hg'⟩ := configValid_iff.1 hv
  exact { h with
    unset := fun hf => by cases hf
    set := fun _ => ⟨hfs, hfs', hc, hc', hcap, hcap', heven, hg, hg', rfl⟩
    lines := ⟨List.length_replicate, fun d hd => by rw [List.eq_of_mem_replicate hd]; exact .empty cap⟩
    pre := ⟨List.length_replicate, fun d hd => by rw [List.eq_of_mem_replicate hd]; exact .empty _⟩
    rev := ⟨by change (List.mapIdx _ s.rev).length = _; rw [List.length_mapIdx]; exact h.rev.1, fun ch r hr => by
      change (List.mapIdx _ s.rev)[ch]? = some r at hr
      rw [List.getElem?_mapIdx] at hr
      obtain ⟨r0, hr0, rfl⟩ := Option.map_eq_some_iff.1 hr
      split
      case isTrue hch => exact .empty (s := Machine.configured fs c cap g s) h.inst hch
      case isFalse hch => exact (h.rev.2 ch r0 hr0).unconfigured (by omega) rfl (not_lt.1 hch)⟩
    gps := ⟨List.length_replicate, fun d hd => by rw [List.eq_of_mem_replicate hd]; exact GpsRingOk.start g (8 * g)⟩
    win := windowTable_shape g
    withIr := fun hir' => by rw [show s.irvalid = true from hir'] at hir; cases hir }

theorem ShapeInv.clearDly {s : State} (h : ShapeInv s) : ShapeInv (clearDly s) := by
  unfold Machine.clearDly
  split
  · exact { h with
      lines := ⟨(List.length_map _).trans h.lines.1, List.forall_mem_map.2 fun d hd => (h.lines.2 d hd).emptied⟩
      rev := h.revCongr rfl rfl rfl rfl }
  · exact h

theorem ShapeInv.clearPre {s : State} (h : ShapeInv s) : ShapeInv (clearPre s) :=
  { h with
    pre := ⟨(List.length_map _).trans h.pre.1, List.forall_mem_map.2 fun d hd => (h.pre.2 d hd).emptied⟩
    rev := h.revCongr rfl rfl rfl rfl }

theorem ShapeInv.clearRev {s : State} (h : ShapeInv s) : ShapeInv (clearRev s) := by
  unfold Machine.clearRev
  split
  · exact { h with
      rev := ⟨List.length_mapIdx.trans h.rev.1, fun c r hr => by
        rw [List.getElem?_mapIdx] at hr
        obtain ⟨r0, hr0, rfl⟩ := Option.map_eq_some_iff.1 hr
        refine RevOk.congr (s := s) ?_ rfl rfl rfl
        split
        case isTrue hc => exact (h.rev.2 c r0 hr0).cleared h.inst hc
        case isFalse => exact h.rev.2 c r0 hr0⟩ }
  · exact h

theorem ShapeInv.clearGps {s : State} (h : ShapeInv s) : ShapeInv (clearGps s) := by
  unfold Machine.clearGps
  split
  · exact { h with
      gps := ⟨(List.length_map _).trans h.gps.1, List.forall_mem_map.2 fun _ _ => GpsRingOk.start s.grain s.ringB⟩
      rev := h.revCongr rfl rfl rfl rfl }
  · exact h

theorem ShapeInv.clearConv {s : State} (h : ShapeInv s) : ShapeInv (clearConv s) := by
  unfold Machine.clearConv
  split
  · exact { h with
      conv := (List.length_map _).trans h.conv
      withIr := fun hir => by
        obtain ⟨hpos, hn⟩ := h.convSizes_pos hir
        obtain ⟨hlen, hle, hn', hmax, hpow, hall⟩ := h.withIr hir
        exact ⟨hlen, hle, hn', hmax, hpow, List.forall_mem_map.2 fun v hv => (hall v hv).ringsEmptied (by omega) hpos⟩
      rev := h.revCongr rfl rfl rfl rfl }
  · exact h

theorem ShapeInv.clearUnits {s : State} (h : ShapeInv s) (mask : BitVec 5) : ShapeInv (clearUnits mask s) := by
  have row (b : Bool) {f : State → State} (hf : ∀ t, ShapeInv t → ShapeInv (f t)) {t : State} (ht : ShapeInv t) :
      ShapeInv (if b then f t else t) := by
    cases b
    · exact ht
    · exact hf t ht
  exact row _ (fun _ => clearConv) (row _ (fun _ => clearGps) (row _ (fun _ => clearRev) (row _ (fun _ => clearPre)
    (row _ (fun _ => clearDly) h))))

/-- Every channel gets an engine for the resampled length `m`, of one size, a power of two up to CONV_N_MAX
(45_convolution R380, R393). -/
theorem ShapeInv.committed {s : State} (h : ShapeInv s) (hcfg : s.cfg = true) {m : Nat} (hm : 1 ≤ m) (hmax : m ≤ s.inst.convNMax / 2) :
    ShapeInv { s with
      convN := fftSize m, convH := fftSize m / 2, irLen := m, conv := (List.range s.inst.maxCh).map (committedCh s (fftSize m) m)
      irvalid := true, irsess := false } := by
  obtain ⟨hmin, -, hpow⟩ := h.inst.convNMax
  obtain ⟨j, hj⟩ := fftSize_eq m
  have hle := le_fftSize m
  have hhalf : fftSize m = 2 * (fftSize m / 2) := by rw [hj, pow_succ]; omega
  have hfits : fftSize m ≤ s.inst.convNMax := by
    rw [hpow]
    exact fftSize_le (by rw [← hpow]; omega)
  have hlog : fftSize m = 2 ^ Nat.log2 (fftSize m) := by rw [hj, Nat.log2_two_pow]
  have hengine (c : Nat) : ConvOk (fftSize m) (fftSize m / 2) (committedCh s (fftSize m) m c) := .committed s c (by omega) (by omega)
  exact { h with
    unset := fun hf => by rw [show s.cfg = false from hf] at hcfg; cases hcfg
    conv := (List.length_map _).trans List.length_range
    noIr := fun hir => by cases hir
    withIr := fun _ => ⟨hm, by change m ≤ fftSize m / 2; omega, hhalf, hfits, hlog,
      List.forall_mem_map.2 fun c _ => hengine c⟩
    session := fun hsess => by cases hsess
    rev := h.revCongr rfl rfl rfl rfl }

theorem ShapeInv.irCommitted {s : State} (h : ShapeInv s) (hcfg : s.cfg = true) : ShapeInv (irCommitted s) := by
  obtain ⟨hmin, -⟩ := h.inst.convNMax
  have hlen : 1 ≤ resampledLength s.lsrc s.fssrc s.fs := Nat.le_add_left 1 _
  have hm : 1 ≤ min (resampledLength s.lsrc s.fssrc s.fs) (s.inst.convNMax / 2) := by omega
  refine (h.committed hcfg hm (Nat.min_le_right _ _)).congr ?_
  simp only [Machine.irCommitted, warnIf_eq]
  rfl

/-- Of valid parameters, the reset values have the shape of no configuration (70_reset R511). -/
theorem ShapeInv.resetOf {p : Params} (hp : p.Valid) : ShapeInv (State.resetOf p) where
  inst := hp
  unset _ := ⟨rfl, rfl, rfl, rfl, rfl, rfl, rfl⟩
  set hcfg := by cases hcfg
  lines := ⟨List.length_replicate, fun d hd => by rw [List.eq_of_mem_replicate hd]; exact .empty 0⟩
  pre := ⟨List.length_replicate, fun d hd => by rw [List.eq_of_mem_replicate hd]; exact .empty _⟩
  rev := ⟨List.length_replicate, fun c r hr => by
    rw [List.eq_of_mem_replicate (List.mem_of_getElem? hr)]
    refine ⟨rfl, rfl, fun i cb b hcb _ => ?_, fun j ab b hab _ => ?_⟩
    · rw [List.eq_of_mem_replicate (List.mem_of_getElem? hcb)]
      exact .empty 0
    · rw [List.eq_of_mem_replicate (List.mem_of_getElem? hab)]
      exact .empty 0⟩
  gps := ⟨List.length_replicate, fun g hg => by rw [List.eq_of_mem_replicate hg]; exact ⟨rfl, rfl, .inr ⟨rfl, rfl⟩⟩⟩
  win := ⟨rfl, rfl⟩
  conv := List.length_replicate
  noIr _ := ⟨rfl, rfl, rfl⟩
  withIr hir := by cases hir
  session hsess := by cases hsess
  raw := ⟨List.length_replicate, fun r hr => by rw [List.eq_of_mem_replicate hr]; exact ⟨Nat.le_refl 0, rfl, rfl⟩⟩

/-! ### Commands and moves -/

theorem ShapeInv.irPush {s : State} (h : ShapeInv s) (hcfg : s.cfg = true) {c : Nat} (hc : c < s.nch)
    (hroom : (irAt s c).cnt < s.lsrc) (x : F32) : ShapeInv (Machine.setIr c ⟨sparseSet (irAt s c).raw (irAt s c).cnt x, (irAt s c).cnt + 1⟩ s) := by
  obtain ⟨-, hwf, hbelow⟩ := h.raw.2 (irAt s c) (getD_mem _ (h.raw.1.symm ▸ h.ch_lt hcfg hc))
  refine h.setIr c ⟨hroom, sparseWf_set _ _ hwf, sparseBelow_set _ ?_ (Nat.lt_succ_self _)⟩
  simp only [sparseBelow, List.all_eq_true, decide_eq_true_eq] at hbelow ⊢
  exact fun e he => (hbelow e he).trans (Nat.lt_succ_self _)

theorem ShapeInv.accepted {i : Instr} {s u : State} (h : ShapeInv s) (hu : Accepted i s u) : ShapeInv u := by
  cases hu with
  | nop => exact h
  | softReset => exact (ShapeInv.resetOf h.inst).congr rfl
  | config _ hcfg hvalid => exact (h.configured hcfg hvalid).warnIf _ _
  | clear mask => exact h.clearUnits mask
  | dlyWrite k _ hcfg hk => exact h.writeLine hcfg hk _
  | dlyRead | dlyReadi => exact h.congr rfl
  | revStep c _ o hcfg hc ho =>
    subst ho
    exact (h.revSample hcfg hc _ _).congr rfl
  | gpsStep c _ o hcfg hc ho =>
    subst ho
    exact (h.gpsSample hcfg hc _ _).congr rfl
  | convStep c _ o hcfg hc ho =>
    subst ho
    exact (h.convSample hcfg hc _).congr rfl
  | irBegin _ hcfg hl hr =>
    exact { h with
      unset := fun hf => by rw [show s.cfg = false from hf] at hcfg; cases hcfg
      session := fun _ => ⟨hl.1, hl.2, hr.1, hr.2⟩
      raw := ⟨List.length_replicate, fun r hr => by rw [List.eq_of_mem_replicate hr]; exact ⟨Nat.zero_le _, rfl, rfl⟩⟩
      rev := h.revCongr rfl rfl rfl rfl }
  | irOverflow => exact h.recordError _ _
  | irPush c _ hcfg hc _ hroom => exact h.irPush hcfg hc hroom _
  | irCommit _ hcfg _ => exact h.irCommitted hcfg
  | pRegister _ _ hp | pSet _ _ hp =>
    obtain ⟨_, _, _, _, _, _, _, rfl⟩ := hp.frame
    exact h.congr rfl
  | pGet _ _ hp =>
    obtain ⟨_, _, rfl⟩ := hp.frame
    exact h.congr rfl
  | procBlock _ hcfg => exact (h.procDone hcfg).congr rfl

theorem keptByMoves_shapeInv : KeptByMoves ShapeInv where
  schedule _ _ h := h.congr rfl
  reads _ _ _ h := h.congr rfl
  reset _ _ h := (ShapeInv.resetOf h.inst).congr rfl
  error e o _ h := h.recordError e o
  complete _ h := h.congr rfl
  accepted _ _ _ _ hu h := h.accepted hu
  written _ _ _ _ hw h := by cases hw <;> exact h.congr rfl

/-- Settles O58: no Host access touches a unit, and every command keeps the units that it reaches in their shape. -/
theorem shapeInvariant : Obligations.ShapeInvariant := fun _ _ h hstep => keptByMoves_shapeInv.step hstep h

end Sys2Proof.Machine
end

section
/-! Accesses that reach neither a register nor a window (20_memory R104). -/

namespace Sys2Proof.Machine

/-- Above the last register a register read gives 0 (20_memory R104). -/
theorem registerWord_above (s : State) {o : Nat} (ho : 0x70 < o) : registerWord s o = 0#32 := by
  unfold registerWord
  split
  case h_30 => rfl
  all_goals omega

theorem hostWrite_unmapped {addr : BitVec 16} (v : Word) {s : State} (ho : 0x74 ≤ portOffset addr)
    (hin : inWindow s.inst (portOffset addr) = false) : hostWrite addr v s = s := by
  cases hr : s.inReset with
  | true => exact hostWrite_inReset hr
  | false => simp [hostWrite, hr, portWrite, hin, registerWrite_above v s (o := portOffset addr) (by omega)]

theorem hostRead_unmapped {addr : BitVec 16} {s : State} (ho : 0x74 ≤ portOffset addr) (hin : inWindow s.inst (portOffset addr) = false)
    (hout : outWindow s.inst (portOffset addr) = false) : hostRead addr s = { s with reads := 0#32 :: s.reads } := by
  cases hr : s.inReset with
  | true => simp [hostRead, hr]
  | false => simp [hostRead, hr, portRead, hin, hout, registerWord_above s (o := portOffset addr) (by omega)]

/-- Settles O14: an offset outside the windows is given to the registers, and from 0x74 on no register stands. -/
theorem unmappedAccess : Obligations.UnmappedAccess := by
  intro s u addr ho hnotIn hnotOut
  have hin : inWindow u.inst (portOffset addr) = false := Bool.eq_false_iff.2 fun h => hnotIn (inWindow_iff.1 h)
  have hout : outWindow u.inst (portOffset addr) = false := Bool.eq_false_iff.2 fun h => hnotOut (outWindow_iff.1 h)
  refine ⟨fun hmove => ?_, fun v hmove => ?_⟩
  · rw [hmove.step_read, hostRead_unmapped ho hin hout]
  · rw [hmove.step_write, hostWrite_unmapped v ho hin]

end Sys2Proof.Machine
end

section
/-! The port memory stays in canonical form and inside the windows (20_memory R102; 10_state R53, R54). -/

namespace Sys2Proof.Machine

/-! ### The invariant as a property of the memory -/

/-- The byte address lies in the IN or the OUT window of `len` words (20_memory R102). -/
def WindowByte (len a : Nat) : Prop := (0x4000 ≤ a ∧ a < 0x4000 + 4 * len) ∨ (0x8000 ≤ a ∧ a < 0x8000 + 4 * len)

/-- `MemInv` as a property of the memory alone, for windows of `len` words; `memInv_iff` ties it to the invariant. -/
structure MemOk (len : Nat) (m : Memory) : Prop where
  canonical : m.wf = true
  inWindows : ∀ c ∈ m, WindowByte len c.1

theorem memInv_iff {s : State} : MemInv s ↔ MemOk s.inst.iobufLen s.mem :=
  ⟨fun h => ⟨h.canonical, h.inWindows⟩, fun h => ⟨h.canonical, h.inWindows⟩⟩

/-- The memory invariant speaks of the windows' contents and of their length only. -/
theorem MemInv.congr {s t : State} (h : MemInv s) (hinst : t.inst = s.inst) (hmem : t.mem = s.mem) : MemInv t := by
  rw [memInv_iff, hinst, hmem]
  exact memInv_iff.1 h

theorem MemOk.nil (len : Nat) : MemOk len [] := ⟨rfl, fun _ hc => nomatch hc⟩

theorem MemOk.writeWord {len : Nat} {m : Memory} (h : MemOk len m) {a : Nat} (ha : ∀ b, a ≤ b → b < a + 4 → WindowByte len b) (v : Word) :
    MemOk len (writeWord m a v) where
  canonical := writeWord_wf a v h.canonical
  inWindows c hc := by
    rcases mem_writeWord hc with ⟨hlo, hhi⟩ | hold
    · exact ha c.1 hlo hhi
    · exact h.inWindows c hold

/-- A write of an IN word (10_state R53): the offset of a word is a multiple of 4, so that all its bytes lie in the window. -/
theorem MemOk.writeIn {p : Params} {m : Memory} (h : MemOk p.iobufLen m) {addr : BitVec 16} (hin : inWindow p (portOffset addr) = true)
    (v : Word) : MemOk p.iobufLen (Machine.writeWord m (portOffset addr) v) := by
  obtain ⟨hlo, hhi⟩ := inWindow_iff.1 hin
  unfold portOffset at hlo hhi ⊢
  exact h.writeWord (fun b _ _ => .inl ⟨by omega, by omega⟩) v

/-- A write of an OUT word (10_state R54). -/
theorem MemOk.writeOut {len : Nat} {m : Memory} (h : MemOk len m) {i : Nat} (hi : i < len) (v : Word) :
    MemOk len (Machine.writeWord m (outAddr i) v) := by
  unfold outAddr
  exact h.writeWord (fun b _ _ => .inr ⟨by omega, by omega⟩) v

/-! ### PROC_BLOCK writes OUT words of its range only -/

/-- The adjusted range of PROC_BLOCK lies in the windows (41_effect_contract R223). -/
theorem lt_iobufLen_of_lt_adjustedCount {len nch off cnt j : Nat} (h : j < adjustedCount len nch off cnt) : off + j < len := by
  unfold adjustedCount at h
  split at h
  · omega
  · dsimp only at h
    omega

/-- What every sample of the range keeps, the block keeps: sample `f * C + ch` of the frames stands in the range. -/
theorem procFrames_rangeInduction {P : State → Prop} {k : BlockCoeffs} {s : State} {off n : Nat}
    (hstep : ∀ j ch t, j < n → P t → P (procSample k (off + j) ch t)) (hs : P s) : P (procFrames k off n s) := by
  refine List.foldlRecOn _ _ hs fun t ht f hf => List.foldlRecOn _ _ ht fun u hu ch hch => ?_
  rw [List.mem_range] at hf hch
  have hj : f * s.nch + ch < n := by
    calc f * s.nch + ch < (f + 1) * s.nch := by rw [Nat.succ_mul]; omega
      _ ≤ n / s.nch * s.nch := Nat.mul_le_mul_right _ hf
      _ ≤ n := Nat.div_mul_le_self n s.nch
  rw [Nat.add_assoc]
  exact hstep _ ch u hj hu

/-- What every write of an OUT word of the range keeps, the bypass copy keeps. -/
theorem procBypass_rangeInduction {P : State → Prop} {s : State} {off n : Nat} (hstep : ∀ j v t, j < n → P t → P (setOut (off + j) v t))
    (hs : P s) : P (procBypass off n s) :=
  List.foldlRecOn _ _ hs fun t ht j hj => hstep j _ t (List.mem_range.1 hj) ht

/-- A wet stage does not reach the windows (41_effect_contract R227). -/
theorem wetStage_mem (k : BlockCoeffs) (ch : Nat) (x : F32) (s : State) : (wetStage k ch x s).2.mem = s.mem := by
  unfold wetStage
  split <;> rfl

theorem procSample_mem (k : BlockCoeffs) (i ch : Nat) (s : State) : ∃ v, (procSample k i ch s).mem = writeWord s.mem (outAddr i) v :=
  ⟨_, congrArg (writeWord · (outAddr i) _) (wetStage_mem k ch (inWord s i) s)⟩

theorem MemOk.procDone {s : State} (h : MemOk s.inst.iobufLen s.mem) : MemOk s.inst.iobufLen (procDone s).mem := by
  have hwarn (b : Bool) : MemOk s.inst.iobufLen (warnIf b .countAdjusted s).mem := by rw [warnIf_eq]; exact h
  unfold Machine.procDone
  dsimp only
  split
  · refine procFrames_rangeInduction (P := fun t => MemOk s.inst.iobufLen t.mem) (fun j ch t hj ht => ?_) (hwarn _)
    obtain ⟨v, hv⟩ := procSample_mem _ _ ch t
    rw [hv]
    exact ht.writeOut (lt_iobufLen_of_lt_adjustedCount hj) v
  · exact procBypass_rangeInduction (P := fun t => MemOk s.inst.iobufLen t.mem)
      (fun j v t hj ht => ht.writeOut (lt_iobufLen_of_lt_adjustedCount hj) v) (hwarn _)

/-! ### Commands and moves -/

/-- No command but PROC_BLOCK and SOFT_RESET writes the windows. -/
theorem Accepted.mem {i : Instr} {s u : State} (h : Accepted i s u) (hreset : i ≠ .softReset) (hproc : i ≠ .procBlock) : u.mem = s.mem := by
  cases h with
  | softReset => exact absurd rfl hreset
  | procBlock => exact absurd rfl hproc
  | config =>
    rw [warnIf_eq]
    rfl
  | clear => rw [clearUnits_eq]
  | irCommit =>
    obtain ⟨_, _, _, _, _, _, _, _, hc⟩ := irCommitted_frame s
    rw [hc]
  | pRegister _ _ hp | pSet _ _ hp =>
    obtain ⟨_, _, _, _, _, _, _, rfl⟩ := hp.frame
    rfl
  | pGet _ _ hp =>
    obtain ⟨_, _, rfl⟩ := hp.frame
    rfl
  | nop | dlyWrite | dlyRead | dlyReadi | revStep | gpsStep | convStep | irBegin | irOverflow | irPush => rfl

theorem MemInv.accepted {i : Instr} {s u : State} (h : MemInv s) (hreset : i ≠ .softReset) (hu : Accepted i s u) : MemInv u := by
  by_cases hproc : i = .procBlock
  · rw [memInv_iff, hu.inst]
    subst hproc
    cases hu
    exact (memInv_iff.1 h).procDone
  · exact h.congr hu.inst (hu.mem hreset hproc)

theorem MemInv.written {addr : BitVec 16} {v : Word} {s t : State} (h : MemInv s) (hw : Written addr v s t) : MemInv t := by
  cases hw
  case window _ hin => exact memInv_iff.2 ((memInv_iff.1 h).writeIn hin v)
  all_goals exact h.congr rfl rfl

theorem keptByMoves_memInv : KeptByMoves MemInv where
  schedule _ _ h := h.congr rfl rfl
  reads _ _ _ h := h.congr rfl rfl
  reset s _ _ := memInv_iff.2 (MemOk.nil s.inst.iobufLen)
  error _ _ _ h := h.congr rfl rfl
  complete _ h := h.congr rfl rfl
  accepted _ _ _ hreset hu h := h.accepted hreset hu
  written _ _ _ _ hw h := h.written hw

/-- Settles O55: the windows are written by an IN write and by PROC_BLOCK, each word inside its window, and emptied by a reset. -/
theorem memoryInvariant : Obligations.MemoryInvariant := fun _ _ h hstep => keptByMoves_memInv.step hstep h

end Sys2Proof.Machine
end

section
/-! The decoder against the encoder (30_encoding R140 to R148): what each operand form of the opcode map accepts, the map row by row, and
from these that decode and encode are inverse to each other and which words are illegal. -/

namespace Sys2Proof

/-! ### The word and its fields (R140) -/

/-- A word is its four fields side by side. -/
theorem fields_append (w : Word) : fieldOpc w ++ (fieldRsv w ++ (fieldUnit w ++ fieldImm w)) = w := by
  unfold fieldOpc fieldRsv fieldUnit fieldImm
  rw [BitVec.extractLsb'_append_extractLsb'_eq_extractLsb' (by rfl), BitVec.extractLsb'_append_extractLsb'_eq_extractLsb' (by rfl)]
  exact BitVec.extractLsb'_append_extractLsb' (w := 8)

theorem encode_eq_of_fields {w : Word} {i : Instr} (hopc : fieldOpc w = i.opcode) (hrsv : fieldRsv w = 0#4)
    (hunit : fieldUnit w = i.unitField) (himm : fieldImm w = i.immField) : encode i = w := by
  rw [encode, cmdw, ← hopc, ← hrsv, ← hunit, ← himm]
  exact fields_append w

/-- IMM of CLEAR is eleven zero bits above the mask (R143). -/
theorem setWidth_mask (m : BitVec 5) : m.setWidth 16 = 0#11 ++ m := BitVec.setWidth_eq_append (by omega)

/-- IMM[15:5] is bits 15:5 of the word. -/
theorem fieldImm_high (w : Word) : (fieldImm w).extractLsb' 5 11 = w.extractLsb' 5 11 :=
  BitVec.extractLsb'_extractLsb'_of_le (by omega)

/-! ### The three operand forms (R142, R143, R146) -/

section
variable {w : Word}

theorem decodePlain_eq_ok_iff {i j : Instr} : decodePlain w i = .ok j ↔ fieldUnit w = 0#4 ∧ fieldImm w = 0#16 ∧ i = j := by
  unfold decodePlain
  split_ifs <;> simp_all

theorem decodePlain_error_iff {i : Instr} : (∃ e, decodePlain w i = .error e) ↔ fieldUnit w ≠ 0#4 ∨ fieldImm w ≠ 0#16 := by
  unfold decodePlain
  split_ifs <;> simp_all

theorem decodeUnit_eq_ok_iff {mk : Nat → Instr} {j : Instr} :
    decodeUnit w mk = .ok j ↔ fieldImm w = 0#16 ∧ mk (fieldUnit w).toNat = j := by
  unfold decodeUnit
  split <;> simp_all

theorem decodeUnit_error_iff {mk : Nat → Instr} : (∃ e, decodeUnit w mk = .error e) ↔ fieldImm w ≠ 0#16 := by
  unfold decodeUnit
  split <;> simp_all

theorem decodeClear_eq_ok_iff {j : Instr} :
    decodeClear w = .ok j ↔ fieldUnit w = 0#4 ∧ ∃ m : BitVec 5, fieldImm w = m.setWidth 16 ∧ .clear m = j := by
  have hmask : (fieldImm w).extractLsb' 5 11 ++ (fieldImm w).extractLsb' 0 5 = fieldImm w := BitVec.extractLsb'_append_extractLsb'
  unfold decodeClear
  constructor
  · intro h
    split_ifs at h with hunit hhigh
    cases h
    rw [not_ne_iff] at hunit hhigh
    exact ⟨hunit, _, by rw [setWidth_mask, ← hhigh, hmask], rfl⟩
  · rintro ⟨hunit, m, himm, rfl⟩
    rw [himm, setWidth_mask, BitVec.extractLsb'_append_eq_left, BitVec.extractLsb'_append_eq_right]
    simp [hunit]

theorem decodeClear_error_iff : (∃ e, decodeClear w = .error e) ↔ fieldUnit w ≠ 0#4 ∨ w.extractLsb' 5 11 ≠ 0#11 := by
  unfold decodeClear
  rw [fieldImm_high]
  split_ifs <;> simp_all

end

/-! ### The opcode map (R145) -/

/-- The opcodes of the map. -/
def mapOpcodes : List (BitVec 8) :=
  [0x00#8, 0x01#8, 0x02#8, 0x03#8, 0x10#8, 0x11#8, 0x12#8, 0x20#8, 0x30#8, 0x40#8, 0x41#8, 0x42#8, 0x43#8, 0x50#8, 0x51#8, 0x52#8, 0x60#8]

/-- The opcodes of the commands that take no unit. -/
def noUnitOpcodes : List (BitVec 8) := [0x00#8, 0x01#8, 0x02#8, 0x03#8, 0x41#8, 0x43#8, 0x50#8, 0x51#8, 0x52#8, 0x60#8]

theorem noUnitOpcodes_subset : noUnitOpcodes ⊆ mapOpcodes := by decide

/-- `r` is what the map's row of the opcode `o` answers for the word `w`, with what the encoder puts into the fields of its command. -/
inductive OpcodeRow (w : Word) (o : BitVec 8) : Except IllegalWord Instr → Prop
  | plain (i : Instr) (hmem : o ∈ noUnitOpcodes) (hclear : o ≠ 0x03#8) (ho : o = i.opcode) (hwf : i.wellFormed = true)
      (hunit : i.unitField = 0#4) (himm : i.immField = 0#16) : OpcodeRow w o (decodePlain w i)
  | unit (mk : Nat → Instr) (hmem : o ∈ mapOpcodes) (htakes : o ∉ noUnitOpcodes) (ho : ∀ u, o = (mk u).opcode)
      (hwf : ∀ u, (mk u).wellFormed = unitFits u) (hunit : ∀ u, (mk u).unitField = BitVec.ofNat 4 u)
      (himm : ∀ u, (mk u).immField = 0#16) : OpcodeRow w o (decodeUnit w mk)
  | clear (ho : o = 0x03#8) : OpcodeRow w o (decodeClear w)
  | reserved (ho : o ∉ mapOpcodes) : OpcodeRow w o (.error .reservedOpcode)

theorem decodeOpc_row (w : Word) (o : BitVec 8) : OpcodeRow w o (decodeOpc w o.toNat) := by
  generalize hn : o.toNat = n
  have ho : o = BitVec.ofNat 8 n := by rw [← hn, BitVec.ofNat_toNat, BitVec.setWidth_eq]
  unfold decodeOpc
  -- Arm 4 is CLEAR, arms 5 to 10 and 12 take a unit, arm 18 is every opcode that is not listed.
  split
  case h_4 => exact .clear ho
  case h_5 | h_6 | h_7 | h_8 | h_9 | h_10 | h_12 =>
    subst ho
    exact .unit _ (by decide) (by decide) (fun _ => rfl) (fun _ => rfl) (fun _ => rfl) fun _ => rfl
  case h_18 =>
    refine .reserved fun hmem => ?_
    have hlisted : n ∈ mapOpcodes.map BitVec.toNat := hn ▸ List.mem_map_of_mem hmem
    simp_all [mapOpcodes]
  all_goals
    subst ho
    exact .plain _ (by decide) (by decide) rfl rfl rfl rfl

namespace OpcodeRow

variable {w : Word} {o : BitVec 8} {r : Except IllegalWord Instr}

/-- A row that answers a command has the fields that the encoder gives that command. -/
theorem fields_of_ok {i : Instr} (row : OpcodeRow w o r) (h : r = .ok i) :
    i.wellFormed = true ∧ o = i.opcode ∧ fieldUnit w = i.unitField ∧ fieldImm w = i.immField := by
  cases row with
  | plain j _ _ ho hwf hunit himm =>
    obtain ⟨hu, hm, rfl⟩ := decodePlain_eq_ok_iff.1 h
    exact ⟨hwf, ho, hu.trans hunit.symm, hm.trans himm.symm⟩
  | unit mk _ _ ho hwf hunit himm =>
    obtain ⟨hm, rfl⟩ := decodeUnit_eq_ok_iff.1 h
    refine ⟨(hwf _).trans (decide_eq_true (fieldUnit w).isLt), ho _, ?_, hm.trans (himm _).symm⟩
    rw [hunit, BitVec.ofNat_toNat, BitVec.setWidth_eq]
  | clear ho =>
    obtain ⟨hu, m, hm, rfl⟩ := decodeClear_eq_ok_iff.1 h
    exact ⟨rfl, ho, hu, hm⟩
  | reserved => cases h

/-- When a row rejects the word (R146). -/
theorem error_iff (row : OpcodeRow w o r) :
    (∃ e, r = .error e) ↔
      o ∉ mapOpcodes ∨ (o ∈ noUnitOpcodes ∧ fieldUnit w ≠ 0#4) ∨ (o ≠ 0x03#8 ∧ fieldImm w ≠ 0#16)
        ∨ (o = 0x03#8 ∧ w.extractLsb' 5 11 ≠ 0#11) := by
  cases row with
  | plain i hmem hclear =>
    simp [decodePlain_error_iff, noUnitOpcodes_subset hmem, hmem, hclear]
  | unit mk hmem htakes =>
    have hclear : o ≠ 0x03#8 := fun ho => htakes (ho ▸ by decide)
    simp [decodeUnit_error_iff, hmem, htakes, hclear]
  | clear ho => simp [decodeClear_error_iff, ho, mapOpcodes, noUnitOpcodes]
  | reserved ho => simp [ho]

end OpcodeRow

/-! ### The obligations on words -/

/-- Settles O4, by running the decoder on each word. -/
theorem sampleWords : Obligations.SampleWords := by
  unfold Obligations.SampleWords
  decide

/-- Settles O1: the fields of the encoded word (`fieldsInPlace_of`) select the command's own row, whose operand form accepts them. -/
theorem decodeEncode : Obligations.DecodeEncode := by
  intro i hwf
  obtain ⟨hopc, hrsv, hunit, himm⟩ := Laws.fieldsInPlace_of i hwf
  rw [decode, if_neg (not_not_intro hrsv), hopc]
  cases i with
  | clear m => exact decodeClear_eq_ok_iff.2 ⟨hunit, m, himm, rfl⟩
  | dlyWrite u | dlyRead u | dlyReadi u | revStep u | gpsStep u | convStep u | irPush u =>
    have hu : (fieldUnit (encode _)).toNat = u := (congrArg BitVec.toNat hunit).trans (Nat.mod_eq_of_lt (of_decide_eq_true hwf))
    exact decodeUnit_eq_ok_iff.2 ⟨himm, congrArg _ hu⟩
  | nop | softReset | config | irBegin | irCommit | pRegister | pSet | pGet | procBlock => exact decodePlain_eq_ok_iff.2 ⟨hunit, himm, rfl⟩

/-- Settles O2: RSV is 0 and the row that answered fixes the other three fields, and a word is its fields. -/
theorem encodeDecode : Obligations.EncodeDecode := by
  intro w i h
  unfold decode at h
  split at h
  · cases h
  · next hrsv =>
    obtain ⟨hwf, hopc, hunit, himm⟩ := (decodeOpc_row w _).fields_of_ok h
    exact ⟨hwf, encode_eq_of_fields hopc (not_ne_iff.1 hrsv) hunit himm⟩

/-- Which words are illegal (R146). -/
theorem decode_error_iff (w : Word) :
    (∃ e, decode w = .error e) ↔
      fieldOpc w ∉ mapOpcodes ∨ fieldRsv w ≠ 0#4 ∨ (fieldOpc w ∈ noUnitOpcodes ∧ fieldUnit w ≠ 0#4)
        ∨ (fieldOpc w ≠ 0x03#8 ∧ fieldImm w ≠ 0#16) ∨ (fieldOpc w = 0x03#8 ∧ w.extractLsb' 5 11 ≠ 0#11) := by
  unfold decode
  split
  · next hrsv => simp [hrsv]
  · next hrsv => rw [(decodeOpc_row w _).error_iff, or_iff_right hrsv]

end Sys2Proof
end

section
/-! The Engine's move on an illegal word: ILLEGAL_CMD, and only the error and completion state changes (30_encoding R146, 60_exceptions
R473, R483). -/

namespace Sys2Proof.Machine

theorem EngineMove.step_eq {s u : State} (h : EngineMove s u) : step s = engineTurn u := by
  rcases h with ⟨hs, rfl⟩ | h
  · exact step_idleSchedule _ hs
  · exact h.step_eq

/-- A refusal leaves the state that the rules of 60_exceptions R473, R483 and R484 write out. -/
theorem refuse_eq_refusedState (e : ErrCode) (s : State) : refuse e s = .next (refusedState (errNumber e) s) := rfl

/-- Settles O3: the words by the decoder's rows (`decode_error_iff`), the Engine's move by the one operation of every refusal. -/
theorem illegalWords : Obligations.IllegalWords := by
  refine ⟨decode_error_iff, fun s u e hmove hbusy hreset herr => ?_⟩
  rw [hmove.step_eq, engineTurn_run u hbusy hreset, runCommand_illegal u e herr]
  exact refuse_eq_refusedState .illegalCmd u

end Sys2Proof.Machine
end

section
/-! The control commands NOP, SOFT_RESET, CONFIG and CLEAR (40_control R180 to R188), each with its whole next state. -/

namespace Sys2Proof.Machine

/-! ### Commands of one legal word -/

/-- If the table has no other command of the opcode of `i`, then every other word of that opcode is illegal (30_encoding R146, R148). -/
theorem decode_error_of_opcode {i : Instr} (hsole : ∀ j : Instr, j.opcode = i.opcode → j = i) {w : Word} (hopc : fieldOpc w = i.opcode)
    (hw : w ≠ encode i) : ∃ e, decode w = .error e := by
  cases h : decode w with
  | error e => exact ⟨e, rfl⟩
  | ok j =>
    obtain ⟨hwf, rfl⟩ := encodeDecode w j h
    obtain ⟨hj, -⟩ := Laws.fieldsInPlace_of j hwf
    exact absurd (congrArg encode (hsole j (hj.symm.trans hopc))) hw

theorem eq_nop_of_opcode (j : Instr) (h : j.opcode = Instr.nop.opcode) : j = .nop := by
  cases j with
  | nop => rfl
  | _ => simp [Instr.opcode] at h

theorem eq_softReset_of_opcode (j : Instr) (h : j.opcode = Instr.softReset.opcode) : j = .softReset := by
  cases j with
  | softReset => rfl
  | _ => simp [Instr.opcode] at h

/-- Settles O21: NOP is its completion and SOFT_RESET the completion of the reset values; each is the only command of its opcode
(`decode_error_of_opcode`). -/
theorem nopAndSoftReset : Obligations.NopAndSoftReset := by
  refine ⟨fun _ => rfl, decodeEncode .nop rfl, fun _ => decode_error_of_opcode eq_nop_of_opcode, fun s => ?_,
    decodeEncode .softReset rfl, fun _ => decode_error_of_opcode eq_softReset_of_opcode⟩
  exact ⟨complete (resetAll s), rfl, rfl, rfl, rfl, rfl⟩

/-! ### CLEAR -/

/-- Settles O23: the rows that the mask selects (`clearUnits_eq`), then the completion. -/
theorem clearCommand : Obligations.ClearCommand := by
  refine ⟨fun m => decodeEncode (.clear m) rfl, fun m s => ?_⟩
  have hexec : exec (.clear m) s = .next (complete (clearUnits m s)) := rfl
  rw [hexec, clearUnits_eq]
  simp only [Bool.and_eq_true]
  rfl

/-! ### CONFIG -/

theorem exec_config_again {s : State} (hcfg : s.cfg = true) : exec .config s = refuse .sequence s := if_pos hcfg

theorem exec_config_invalid {s : State} (hcfg : s.cfg = false)
    (hbad : configValid s.inst (u32 s.larg.w0) (u32 s.larg.w1) (u32 s.larg.w2) (u32 s.larg.w3) = false) :
    exec .config s = refuse .badConfig s :=
  (if_neg (by simp [hcfg])).trans (if_pos hbad)

theorem exec_config_valid {s : State} (hcfg : s.cfg = false)
    (hvalid : configValid s.inst (u32 s.larg.w0) (u32 s.larg.w1) (u32 s.larg.w2) (u32 s.larg.w3) = true) :
    exec .config s = finish (warnIf (anyLengthClamped s.inst (u32 s.larg.w0) (u32 s.larg.w1)) .lenClamped
      (configured (u32 s.larg.w0) (u32 s.larg.w1) (u32 s.larg.w2) (u32 s.larg.w3) s)) :=
  (if_neg (by simp [hcfg])).trans (if_neg (by simp [hvalid]))

/-- LEN_CLAMPED is due exactly when some length before the clamp lies outside [1, REV_CAP_MAX] (43_reverb R300). -/
theorem anyLengthClamped_iff {p : Params} {fs c : Nat} :
    anyLengthClamped p fs c = true ↔
      ∃ ch < c, ∃ b ∈ p.combBase ++ p.apBase, revLengthRaw p fs ch b < 1 ∨ p.revCapMax < revLengthRaw p fs ch b := by
  simp only [anyLengthClamped, revLengthClamped, List.any_eq_true, List.mem_range, Bool.or_eq_true, decide_eq_true_eq]

/-- WIN reads as the Hann table, and as +0.0 past its end (44_pitch_shifter R341). -/
theorem windowTable_get (g n : Nat) : sparseGet (windowTable g) n = if n < g then hannEntry g n else 0#32 := by
  rw [windowTable, sparseGet_ofList, hannTable, List.getD_eq_getElem?_getD, List.getElem?_map]
  split
  case isTrue hn => rw [List.getElem?_range hn]; rfl
  case isFalse hn => rw [List.getElem?_eq_none (by simpa using hn)]; rfl

/-- In a ring of B = 8G samples the read positions start at B − G = 7G (40_control R184, 44_pitch_shifter R342). -/
theorem gpsStart_configured (g : Nat) : gpsStart g (8 * g) = ⟨[], 0, F32.ofNat (7 * g), F32.ofNat (7 * g), 0#32, F32.ofNat (g / 2)⟩ := by
  rw [gpsStart, show 8 * g - g = 7 * g by omega]
  rfl

/-- The reverbs after CONFIG: empty at the lengths of 43_reverb R300 below C, as they were from C on (40_control R184). -/
theorem configured_rev_get {s : State} (fs c cap g : Nat) {ch : Nat} {r : RevCh} (h : s.rev[ch]? = some r) :
    (configured fs c cap g s).rev[ch]? = some (if ch < c then revEmpty s.inst fs ch else r) := by
  rw [configured, List.getElem?_mapIdx, h]
  rfl

/-- Settles O22: the two checks of R183 as refusals, and the warning on top of the configured state, whose reverbs, window and warning
flag the lemmas above read. -/
theorem configCommand : Obligations.ConfigCommand := by
  refine ⟨decodeEncode .config rfl, fun s hcfg => ?_, ?_⟩
  · exact (exec_config_again hcfg).trans (refuse_eq_refusedState .sequence s)
  · rintro s _ _ _ _ hcfg rfl rfl rfl rfl
    refine ⟨fun hbad => ?_, fun hvalid => ?_⟩
    · have hexec := exec_config_invalid hcfg (Bool.eq_false_iff.2 (mt configValid_iff.1 hbad))
      exact hexec.trans (refuse_eq_refusedState .badConfig s)
    · rw [exec_config_valid hcfg (configValid_iff.2 hvalid), finish_next, warnIf_eq, configured, gpsStart_configured]
      exact ⟨_, _, anyLengthClamped s.inst (u32 s.larg.w0) (u32 s.larg.w1), rfl, List.length_mapIdx,
        fun _ _ hr => configured_rev_get _ _ (u32 s.larg.w2) (u32 s.larg.w3) hr, windowTable_get _, anyLengthClamped_iff⟩

end Sys2Proof.Machine
end

section
/-! The mix law at mix = ±0 and mix = 1 (41_effect_contract R225, R233): what a product with 1.0 and with a zero is, what a sum with a zero
is, and from these the one fact behind all three boundaries. -/

namespace Sys2Proof.Machine

/-! ### Exact roundings -/

/-- A word is its sign and its bits 30:0. -/
theorem F32.pack_sign_magBits (a : F32) : F32.pack (F32.sign a) (F32.magBits a) = a := by
  rw [← BitVec.toNat_inj, F32.toNat_pack _ (F32.magBits_lt a), F32.sign_eq, F32.magBits]
  have ha : a.toNat < 2 ^ 32 := a.isLt
  by_cases hs : 2 ^ 31 ≤ a.toNat
  · rw [if_pos (decide_eq_true hs)]
    omega
  · rw [if_neg (by simpa using hs)]
    omega

/-- A magnitude that some word has is rounded to that word's bits. -/
theorem roundBits_magOf (n : Nat) {den : Nat} (hden : 0 < den) : roundBits (magOf n * den) den = n := by
  obtain ⟨hle, -⟩ := roundBits_nearest (magOf n * den) hden n
  rw [Nat.cast_mul, sub_self, abs_zero, abs_nonpos_iff, sub_eq_zero] at hle
  exact magOf_strictMono.injective (Nat.eq_of_mul_eq_mul_right hden (by exact_mod_cast hle))

theorem F32.round_magOf (neg : Bool) {n den : Nat} (hden : 0 < den) (hn : n < 0x7F800000) :
    F32.round neg (magOf n * den) den = F32.pack neg n := by
  rw [F32.round_eq, roundBits_magOf n hden, if_pos hn]

/-- The magnitude of a finite word, rounded under its sign, is the word. -/
theorem F32.round_mag {a : F32} (ha : F32.isFinite a = true) {den : Nat} (hden : 0 < den) :
    F32.round (F32.sign a) (F32.mag a * den) den = a := by
  rw [F32.mag_eq_magOf, F32.round_magOf _ hden (F32.isFinite_iff.1 ha), F32.pack_sign_magBits]

/-! ### The kinds of words -/

theorem F32.isFinite_or_isInf_or_isNaN (a : F32) : F32.isFinite a = true ∨ F32.isInf a = true ∨ F32.isNaN a = true := by
  rw [F32.isFinite_iff, F32.isInf_iff, F32.isNaN_iff]
  omega

theorem F32.isFinite_or_isInf {a : F32} (h : F32.isNaN a = false) : F32.isFinite a = true ∨ F32.isInf a = true := by
  simpa [h] using F32.isFinite_or_isInf_or_isNaN a

theorem F32.isInf_or_isNaN {a : F32} (h : F32.isFinite a = false) : F32.isInf a = true ∨ F32.isNaN a = true := by
  simpa [h] using F32.isFinite_or_isInf_or_isNaN a

/-- An infinity is its sign. -/
theorem F32.pack_sign_of_isInf {a : F32} (h : F32.isInf a = true) : F32.pack (F32.sign a) 0x7F800000 = a := by
  rw [← F32.isInf_iff.1 h, F32.pack_sign_magBits]

theorem F32.isZero_pack_zero (neg : Bool) : F32.isZero (F32.pack neg 0) = true := by cases neg <;> rfl

theorem F32.mag_of_isZero {a : F32} (h : F32.isZero a = true) : F32.mag a = 0 := by
  rw [F32.mag_eq_magOf, F32.isZero_iff.1 h, magOf_zero]

/-! ### Products with 1.0 and with a zero -/

theorem F32.one_sub_of_isZero {z : F32} (h : F32.isZero z = true) : F32.sub 0x3F800000#32 z = 0x3F800000#32 := by
  rcases F32.isZero_iff_word.1 h with rfl | rfl <;> rfl

theorem F32.mul_one_of_not_isNaN {a : F32} (h : F32.isNaN a = false) : F32.mul a 0x3F800000#32 = a := by
  rcases F32.isFinite_or_isInf h with hfin | hinf
  · rw [F32.mul_of_finite hfin rfl, show F32.sign 0x3F800000#32 = false from rfl, Bool.bne_false,
      show F32.mag 0x3F800000#32 = 2 ^ 149 from rfl, F32.round_mag hfin (by positivity)]
  · obtain ⟨-, -, -, -, hmul, -⟩ := F32.inf_finite a 0x3F800000#32 hinf rfl
    rw [hmul, show F32.sign 0x3F800000#32 = false from rfl, Bool.bne_false, ← F32.pack_infinity, F32.pack_sign_of_isInf hinf]
    rfl

theorem F32.mul_zero_of_isFinite {a z : F32} (ha : F32.isFinite a = true) (hz : F32.isZero z = true) :
    F32.mul a z = F32.pack (F32.sign a != F32.sign z) 0 := by
  rw [F32.mul_of_finite ha (F32.isFinite_of_isZero hz), F32.mag_of_isZero hz, Nat.mul_zero]
  have hround := F32.round_magOf (F32.sign a != F32.sign z) (n := 0) (den := 2 ^ 149) (by positivity) (by decide)
  rwa [magOf_zero, Nat.zero_mul] at hround

theorem F32.mul_zero_of_not_isFinite {a z : F32} (ha : F32.isFinite a = false) (hz : F32.isZero z = true) :
    F32.mul a z = 0x7FC00000#32 := by
  rcases F32.isInf_or_isNaN ha with hinf | hnan
  · obtain ⟨-, -, -, -, hmul, -⟩ := F32.inf_finite a z hinf (F32.isFinite_of_isZero hz)
    rw [hmul, if_pos hz]
  · obtain ⟨-, -, hmul, -⟩ := F32.nan_operand a z (.inl hnan)
    exact hmul

/-! ### Sums -/

theorem F32.add_nan_right {a b : F32} (hb : F32.isNaN b = true) : F32.add a b = 0x7FC00000#32 :=
  (F32.nan_operand a b (.inr hb)).1

theorem F32.add_nan_left {a b : F32} (ha : F32.isNaN a = true) : F32.add a b = 0x7FC00000#32 :=
  (F32.nan_operand a b (.inl ha)).1

/-- The sum does not depend on the order of its operands: two infinities of one sign are one word, and every NaN result is canonical. -/
theorem F32.add_symm (a b : F32) : F32.add a b = F32.add b a := by
  rcases F32.isFinite_or_isInf_or_isNaN a with ha | ha | ha
  · rcases F32.isFinite_or_isInf_or_isNaN b with hb | hb | hb
    · rw [F32.add_of_finite ha hb, F32.add_of_finite hb ha, add_comm (F32.fix a), Bool.and_comm]
    · obtain ⟨hba, hab, -⟩ := F32.inf_finite b a hb ha
      rw [hab, hba]
    · rw [F32.add_nan_right hb, F32.add_nan_left hb]
  · rcases F32.isFinite_or_isInf_or_isNaN b with hb | hb | hb
    · obtain ⟨hab, hba, -⟩ := F32.inf_finite a b ha hb
      rw [hab, hba]
    · obtain ⟨hab, -⟩ := F32.inf_inf a b ha hb
      obtain ⟨hba, -⟩ := F32.inf_inf b a hb ha
      rw [hab, hba]
      by_cases hs : F32.sign a = F32.sign b
      · have heq : a = b := by rw [← F32.pack_sign_of_isInf ha, hs, F32.pack_sign_of_isInf hb]
        rw [heq]
      · rw [if_neg hs, if_neg (Ne.symm hs)]
    · rw [F32.add_nan_right hb, F32.add_nan_left hb]
  · rw [F32.add_nan_left ha, F32.add_nan_right ha]

theorem F32.decide_fix_neg {a : F32} (h : F32.fix a ≠ 0) : decide (F32.fix a < 0) = F32.sign a := by
  unfold F32.fix at h ⊢
  cases hs : F32.sign a
  · simp
  · simp only [hs, if_true] at h ⊢
    exact decide_eq_true (by omega)

/-- Adding a zero changes nothing but the sign of a negative zero, which becomes + unless both are negative. -/
theorem F32.add_zero_of_not_isNaN {a z : F32} (ha : F32.isNaN a = false) (hz : F32.isZero z = true) :
    F32.add a z = if a = 0x80000000#32 ∧ F32.sign z = false then 0#32 else a := by
  have hzfin := F32.isFinite_of_isZero hz
  have hkeep (h0 : ¬F32.isZero a = true) : (if a = 0x80000000#32 ∧ F32.sign z = false then 0#32 else a) = a :=
    if_neg fun h => h0 (F32.isZero_iff_word.2 (.inr h.1))
  rcases F32.isFinite_or_isInf ha with hfin | hinf
  · rw [F32.add_of_finite hfin hzfin, F32.fix_eq_zero.2 hz, Int.add_zero]
    by_cases h0 : F32.isZero a = true
    · rw [if_pos (F32.fix_eq_zero.2 h0)]
      rcases F32.isZero_iff_word.1 h0 with rfl | rfl
      · simp [F32.pack_zero, F32.sign]
      · cases F32.sign z <;> rfl
    · have hfix : F32.fix a ≠ 0 := mt F32.fix_eq_zero.1 h0
      rw [if_neg hfix, hkeep h0, F32.decide_fix_neg hfix, F32.natAbs_fix, ← Nat.mul_one (F32.mag a)]
      exact F32.round_mag hfin Nat.one_pos
  · rw [hkeep (by simp [F32.isZero_of_isInf hinf])]
    exact (F32.inf_finite a z hinf hzfin).1

/-! ### The boundaries -/

/-- The key fact of R233: a sample weighted by 1.0 plus another weighted by a zero. The zero that the other one contributes has the sign of
that sample, flipped if the weight is −0.0. -/
theorem F32.add_mul_one_mul_zero {a b z : F32} (ha : F32.isNaN a = false) (hz : F32.isZero z = true) :
    F32.add (F32.mul a 0x3F800000#32) (F32.mul b z) =
      if F32.isFinite b = false then 0x7FC00000#32
      else if a = 0x80000000#32 ∧ F32.sign b = F32.sign z then 0#32 else a := by
  rw [F32.mul_one_of_not_isNaN ha]
  split
  case isTrue hb =>
    rw [F32.mul_zero_of_not_isFinite hb hz]
    exact F32.add_nan_right rfl
  case isFalse hb =>
    rw [F32.mul_zero_of_isFinite (by simpa using hb) hz, F32.add_zero_of_not_isNaN ha (F32.isZero_pack_zero _),
      F32.sign_pack _ (by decide)]
    simp only [bne_eq_false_iff_eq]

/-- Settles O52: at each boundary one weight is 1.0 and the other a zero (`F32.add_mul_one_mul_zero`); at mix = 1 the zero weighs the dry
sample. -/
theorem mixBoundaries : Obligations.MixBoundaries := by
  intro k x w hom
  refine ⟨fun hmix hx => ?_, fun hmix hx => ?_, fun hmix hw => ?_⟩
  · rw [mixSample, hom, hmix, F32.one_sub_of_isZero rfl]
    exact F32.add_mul_one_mul_zero hx rfl
  · rw [mixSample, hom, hmix, F32.one_sub_of_isZero rfl]
    exact F32.add_mul_one_mul_zero hx rfl
  · rw [mixSample, hom, hmix, F32.add_symm]
    exact F32.add_mul_one_mul_zero hw rfl

end Sys2Proof.Machine
end

section
/-! PROC_BLOCK (41_effect_contract R220 to R230): the wet stages, what a block may change, the order of its samples, and the words that a
block without stage state writes. -/

namespace Sys2Proof.Machine

/-! ### The wet stages (R227) -/

section
variable {k : BlockCoeffs} (ch : Nat) (x : F32) (s : State)

theorem wetStage_ident (h : k.ws = 0) : wetStage k ch x s = (x, s) := by
  rw [wetStage, h]
  rfl

theorem wetStage_gain (h : k.ws = 1) : wetStage k ch x s = (F32.mul x k.wg, s) := by
  rw [wetStage, h]
  rfl

theorem wetStage_delay (h : k.ws = 2) : wetStage k ch x s = delayStage k.dt ch x s := by
  rw [wetStage, h]
  rfl

theorem wetStage_rev (h : k.ws = 3) : wetStage k ch x s = revStage k ch x s := by
  rw [wetStage, h]
  rfl

theorem wetStage_gps (h : k.ws = 4) : wetStage k ch x s = gpsStage k ch x s := by
  rw [wetStage, h]
  rfl

theorem wetStage_conv (h : k.ws = 5) : wetStage k ch x s = convStage k ch x s := by
  rw [wetStage, h]
  rfl

end

/-- Settles O48: the arm of each WETSEL, and the updates of the units that its stage makes. -/
theorem wetStages : Obligations.WetStages := fun _ ch x s =>
  ⟨wetStage_ident ch x s, wetStage_gain ch x s, wetStage_delay ch x s, wetStage_rev ch x s, wetStage_gps ch x s, wetStage_conv ch x s⟩

/-! ### The command -/

@[simp] theorem warnIf_mem (b : Bool) (e : ErrCode) (s : State) : (warnIf b e s).mem = s.mem := by rw [warnIf_eq]

/-- The warning of R223, in the words of 60_exceptions R483. -/
theorem warnIf_countAdjusted (s : State) (n cnt : Nat) :
    warnIf (decide (n ≠ cnt)) .countAdjusted s =
      if n = cnt then s else { s with err := true, errcode := errcodeRecorded s (s.lcmd.extractLsb' 24 8) 0x08#8 } := by
  by_cases h : n = cnt
  · simp [h]
  · rw [if_neg h, decide_eq_true h]
    rfl

theorem exec_procBlock_unconfigured {s : State} (hcfg : s.cfg = false) : exec .procBlock s = refuse .notConfigured s := if_pos hcfg

/-- PROC_BLOCK on the range `off`, `n` that R223 gives, from the state `w` that its warning leaves. -/
theorem exec_procBlock_of_range {s w : State} {off cnt n : Nat} (hcfg : s.cfg = true) (hoff : off = u32 s.larg.w0) (hcnt : cnt = u32 s.larg.w1)
    (hn : n = adjustedCount s.inst.iobufLen s.nch off cnt)
    (hw : w = if n = cnt then s else { s with err := true, errcode := errcodeRecorded s (s.lcmd.extractLsb' 24 8) 0x08#8 }) :
    exec .procBlock s = .next (complete (setRes0 (BitVec.ofNat 32 n)
      (if ctrlEn s.lctrl then procFrames (blockCoeffs s) off n w else procBypass off n w))) := by
  rw [← warnIf_countAdjusted] at hw
  subst hoff hcnt hn hw
  exact if_neg (by simp [hcfg])

/-- The warning of R223 leaves the windows and the configuration. -/
theorem countWarned_frame {s w : State} {n cnt : Nat}
    (hw : w = if n = cnt then s else { s with err := true, errcode := errcodeRecorded s (s.lcmd.extractLsb' 24 8) 0x08#8 }) :
    w.mem = s.mem ∧ w.nch = s.nch := by
  subst hw
  split <;> exact ⟨rfl, rfl⟩

/-- The range of R223 holds whole frames. -/
theorem dvd_adjustedCount (len nch off cnt : Nat) : nch ∣ adjustedCount len nch off cnt := by
  unfold adjustedCount
  split
  · exact dvd_zero _
  · exact Nat.dvd_sub_mod _

/-! ### What a block may change (R220, R224, R227) -/

theorem readByte_setOut (i : Nat) (v : Word) (s : State) {a : Nat} (h : a < outAddr i ∨ outAddr i + 4 ≤ a) :
    readByte (setOut i v s).mem a = readByte s.mem a := readByte_writeWord_other _ _ _ _ h

/-- No OUT word of the range holds a byte outside it. -/
theorem outAddr_of_not_outBytes {off n a j : Nat} (ha : ¬outBytes off n a) (hj : j < n) :
    a < outAddr (off + j) ∨ outAddr (off + j) + 4 ≤ a := by
  unfold outBytes at ha
  unfold outAddr
  omega

theorem procFrames_readByte (k : BlockCoeffs) {off n a : Nat} (s : State) (ha : ¬outBytes off n a) :
    readByte (procFrames k off n s).mem a = readByte s.mem a := by
  refine procFrames_rangeInduction (P := fun t => readByte t.mem a = readByte s.mem a) (fun j ch t hj ht => ?_) rfl
  rw [procSample, readByte_setOut _ _ _ (outAddr_of_not_outBytes ha hj), wetStage_mem, ht]

theorem procBypass_readByte {off n a : Nat} (s : State) (ha : ¬outBytes off n a) :
    readByte (procBypass off n s).mem a = readByte s.mem a := by
  refine procBypass_rangeInduction (P := fun t => readByte t.mem a = readByte s.mem a) (fun j v t hj ht => ?_) rfl
  rw [readByte_setOut _ _ _ (outAddr_of_not_outBytes ha hj), ht]

/-- A block leaves every byte outside the OUT words of its range, with EN = 0 and with EN = 1. -/
theorem procDone_readByte {s : State} {a : Nat}
    (ha : ¬outBytes (u32 s.larg.w0) (adjustedCount s.inst.iobufLen s.nch (u32 s.larg.w0) (u32 s.larg.w1)) a) :
    readByte (procDone s).mem a = readByte s.mem a := by
  unfold procDone
  dsimp only
  split
  · rw [procFrames_readByte _ _ ha, warnIf_mem]
  · rw [procBypass_readByte _ ha, warnIf_mem]

/-- `t` has the units of `s` but for those that the wet stage `ws` advances (R227). -/
structure StageFrame (ws : Nat) (s t : State) : Prop where
  dlyl : ws ≠ 2 → t.dlyl = s.dlyl
  prer : ¬(ws = 3 ∨ ws = 5) → t.prer = s.prer
  rev : ws ≠ 3 → t.rev = s.rev
  gps : ws ≠ 4 → t.gps = s.gps
  conv : ws ≠ 5 → t.conv = s.conv

theorem StageFrame.of_kept {ws : Nat} {s t : State} (hdlyl : t.dlyl = s.dlyl) (hprer : t.prer = s.prer) (hrev : t.rev = s.rev)
    (hgps : t.gps = s.gps) (hconv : t.conv = s.conv) : StageFrame ws s t :=
  ⟨fun _ => hdlyl, fun _ => hprer, fun _ => hrev, fun _ => hgps, fun _ => hconv⟩

theorem StageFrame.trans {ws : Nat} {s t u : State} (h : StageFrame ws s t) (h' : StageFrame ws t u) : StageFrame ws s u where
  dlyl hws := (h'.dlyl hws).trans (h.dlyl hws)
  prer hws := (h'.prer hws).trans (h.prer hws)
  rev hws := (h'.rev hws).trans (h.rev hws)
  gps hws := (h'.gps hws).trans (h.gps hws)
  conv hws := (h'.conv hws).trans (h.conv hws)

theorem StageFrame.warnIf (ws : Nat) (b : Bool) (e : ErrCode) (s : State) : StageFrame ws s (warnIf b e s) := by
  rw [warnIf_eq]
  exact .of_kept rfl rfl rfl rfl rfl

theorem StageFrame.setOut (ws i : Nat) (v : Word) (s : State) : StageFrame ws s (setOut i v s) :=
  .of_kept rfl rfl rfl rfl rfl

theorem StageFrame.wetStage (k : BlockCoeffs) (ch : Nat) (x : F32) (s : State) : StageFrame k.ws s (wetStage k ch x s).2 := by
  unfold Machine.wetStage
  split
  case h_2 hws => rw [hws]; exact ⟨absurd rfl, fun _ => rfl, fun _ => rfl, fun _ => rfl, fun _ => rfl⟩
  case h_3 hws => rw [hws]; exact ⟨fun _ => rfl, absurd (.inl rfl), absurd rfl, fun _ => rfl, fun _ => rfl⟩
  case h_4 hws => rw [hws]; exact ⟨fun _ => rfl, fun _ => rfl, fun _ => rfl, absurd rfl, fun _ => rfl⟩
  case h_5 hws => rw [hws]; exact ⟨fun _ => rfl, absurd (.inr rfl), fun _ => rfl, fun _ => rfl, absurd rfl⟩
  all_goals exact .of_kept rfl rfl rfl rfl rfl

theorem StageFrame.procFrames (k : BlockCoeffs) (off n : Nat) (s : State) : StageFrame k.ws s (procFrames k off n s) :=
  procFrames_induction (P := StageFrame k.ws s) off n (fun _ ch _ _ ht => ht.trans ((StageFrame.wetStage k ch _ _).trans (.setOut _ _ _ _)))
    (.of_kept rfl rfl rfl rfl rfl)

/-- The bypass copy changes no unit (R224), so it has the frame of every stage. -/
theorem StageFrame.procBypass (ws off n : Nat) (s : State) : StageFrame ws s (procBypass off n s) :=
  procBypass_induction (P := StageFrame ws s) off n (fun _ _ _ ht => ht.trans (.setOut _ _ _ _))
    (.of_kept rfl rfl rfl rfl rfl)

/-- With EN = 1 a block has the frame of the selected stage; with EN = 0 it has that of every stage. -/
theorem procDone_stageFrame (s : State) {ws : Nat} (hws : ctrlEn s.lctrl = true → ws = ctrlWetsel s.lctrl) :
    StageFrame ws s (procDone s) := by
  unfold procDone
  dsimp only
  split
  case isTrue hen =>
    rw [hws hen]
    exact (StageFrame.warnIf _ _ _ s).trans (.procFrames (blockCoeffs s) _ _ _)
  case isFalse hen => exact (StageFrame.warnIf _ _ _ s).trans (.procBypass _ _ _ _)

/-- Settles O51: a refusal reaches no window and no unit; a block has the byte frame of its range and the frame of its stage, and with EN = 0
the frame of a stage 0, which advances nothing. -/
theorem procFrame : Obligations.ProcFrame := by
  intro s t ws h hws
  rcases exec_next h with ⟨e, rfl⟩ | ⟨u, hu, rfl⟩
  · simp
  · cases hu
    refine ⟨fun a ha => procDone_readByte ha, ?_⟩
    by_cases hen : ctrlEn s.lctrl = true
    · have hframe := procDone_stageFrame s (ws := ws) fun _ => hws
      exact ⟨fun h2 => hframe.dlyl fun hk => h2 ⟨hen, hk⟩, fun h35 => hframe.prer fun hk => h35 ⟨hen, hk⟩,
        fun h3 => hframe.rev fun hk => h3 ⟨hen, hk⟩, fun h4 => hframe.gps fun hk => h4 ⟨hen, hk⟩,
        fun h5 => hframe.conv fun hk => h5 ⟨hen, hk⟩⟩
    · have hframe := procDone_stageFrame s (ws := 0) fun hon => absurd hon hen
      exact ⟨fun _ => hframe.dlyl (by decide), fun _ => hframe.prer (by decide), fun _ => hframe.rev (by decide),
        fun _ => hframe.gps (by decide), fun _ => hframe.conv (by decide)⟩

/-! ### The order of the samples (R222, R230) -/

/-- Frames in order and channels in order within a frame are the indices in order. -/
theorem foldl_range_mul {α : Type} (g : α → Nat → α) (q c : Nat) (a : α) :
    (List.range (q * c)).foldl g a = (List.range q).foldl (fun t f => (List.range c).foldl (fun t ch => g t (f * c + ch)) t) a := by
  induction q with
  | zero => rw [Nat.zero_mul]; rfl
  | succ q ih => rw [Nat.succ_mul, List.range_add, List.foldl_append, ih, List.foldl_map, List.range_succ, List.foldl_append]; rfl

/-- A block of whole frames is its samples in order, sample `j` on channel `j mod C`. -/
theorem procFrames_eq_foldl (k : BlockCoeffs) (off : Nat) {n : Nat} {s : State} (hn : s.nch ∣ n) :
    procFrames k off n s = (List.range n).foldl (fun t j => procSample k (off + j) (j % s.nch) t) s := by
  calc procFrames k off n s
      = (List.range (n / s.nch)).foldl (fun t f => (List.range s.nch).foldl
          (fun t ch => procSample k (off + (f * s.nch + ch)) ((f * s.nch + ch) % s.nch) t) t) s := by
        refine List.foldl_ext _ _ _ fun t f _ => List.foldl_ext _ _ _ fun u ch hch => ?_
        rw [Nat.mul_add_mod_of_lt (List.mem_range.1 hch), Nat.add_assoc]
    _ = (List.range (n / s.nch * s.nch)).foldl (fun t j => procSample k (off + j) (j % s.nch) t) s :=
        (foldl_range_mul (fun t j => procSample k (off + j) (j % s.nch) t) _ _ s).symm
    _ = _ := by rw [Nat.div_mul_cancel hn]

/-! ### Blocks that write each OUT word from its IN word alone -/

/-- OUT[off + j] ← f(IN[off + j]) for j < n in order: the bypass copy (`procBypass_eq_mapOut`), and a block whose stage has no state
(`procFrames_eq_mapOut`). -/
def mapOut (f : Word → Word) (off n : Nat) (s : State) : State :=
  (List.range n).foldl (fun t j => setOut (off + j) (f (inWord t (off + j))) t) s

theorem mapOut_succ (f : Word → Word) (off n : Nat) (s : State) :
    mapOut f off (n + 1) s = setOut (off + n) (f (inWord (mapOut f off n s) (off + n))) (mapOut f off n s) := by
  rw [mapOut, List.range_succ, List.foldl_append]
  rfl

theorem procBypass_eq_mapOut (off n : Nat) (s : State) : procBypass off n s = mapOut id off n s := rfl

theorem procFrames_eq_mapOut {k : BlockCoeffs} {wet : F32 → F32} (hwet : ∀ ch x s, wetStage k ch x s = (wet x, s)) (off : Nat) {n : Nat}
    {s : State} (hn : s.nch ∣ n) : procFrames k off n s = mapOut (fun x => mixSample k x (wet x)) off n s := by
  rw [procFrames_eq_foldl k off hn, mapOut]
  simp only [procSample, hwet]

theorem mapOut_eq (f : Word → Word) (off n : Nat) (s : State) : mapOut f off n s = { s with mem := (mapOut f off n s).mem } := by
  induction n with
  | zero => rfl
  | succ n ih =>
    rw [mapOut_succ]
    generalize f (inWord (mapOut f off n s) (off + n)) = v
    rw [ih]
    rfl

/-- The words still to be read are as they were: OUT does not alias IN (R222). -/
theorem inWord_mapOut (f : Word → Word) (off n : Nat) (s : State) {i : Nat} (hi : i < 4096) : inWord (mapOut f off n s) i = inWord s i := by
  induction n with
  | zero => rfl
  | succ n ih => rw [mapOut_succ, inWord_setOut _ _ _ _ hi, ih]

theorem outWord_mapOut (f : Word → Word) {off n : Nat} (s : State) {j : Nat} (hj : j < n) (hwin : off + j < 4096) :
    outWord (mapOut f off n s) (off + j) = f (inWord s (off + j)) := by
  induction n with
  | zero => omega
  | succ n ih =>
    rw [mapOut_succ]
    by_cases hlast : j = n
    · rw [hlast, outWord_setOut_same, inWord_mapOut _ _ _ _ (hlast ▸ hwin)]
    · rw [outWord_setOut_other _ _ _ _ (by omega), ih (by omega)]

/-- A byte of an OUT word that is a copy of its IN word is the byte 0x4000 below it. -/
theorem readByte_of_outWord_eq {s t : State} {i : Nat} (h : outWord t i = inWord s i) {a : Nat} (hlo : outAddr i ≤ a) (hhi : a < outAddr i + 4) :
    readByte t.mem a = readByte s.mem (a - 0x4000) := by
  have hk : a - outAddr i < 4 := by omega
  have hin : a - 0x4000 = inAddr i + (a - outAddr i) := by unfold inAddr outAddr at *; omega
  calc readByte t.mem a = readByte t.mem (outAddr i + (a - outAddr i)) := by rw [Nat.add_sub_cancel' hlo]
    _ = (outWord t i).extractLsb' (8 * (a - outAddr i)) 8 := (readWord_byte _ _ _ hk).symm
    _ = (inWord s i).extractLsb' (8 * (a - outAddr i)) 8 := by rw [h]
    _ = readByte s.mem (a - 0x4000) := by rw [hin]; exact readWord_byte _ _ _ hk

/-- Every byte of the range of a bypass copy is the IN byte 0x4000 below it (R224). -/
theorem readByte_procBypass {off n : Nat} (s : State) (hwin : ∀ j < n, off + j < 4096) {a : Nat} (ha : outBytes off n a) :
    readByte (procBypass off n s).mem a = readByte s.mem (a - 0x4000) := by
  obtain ⟨hlo, hhi⟩ := ha
  obtain ⟨j, hj, hjlo, hjhi⟩ : ∃ j < n, outAddr (off + j) ≤ a ∧ a < outAddr (off + j) + 4 :=
    ⟨(a - outAddr off) / 4, by unfold outAddr; omega, by unfold outAddr; omega, by unfold outAddr; omega⟩
  exact readByte_of_outWord_eq (outWord_mapOut id s hj (hwin j hj)) hjlo hjhi

/-- The wet sample of IDENT and GAIN, a function of the dry sample alone (R227). -/
def statelessWet (k : BlockCoeffs) (x : F32) : F32 := if k.ws = 0 then x else F32.mul x k.wg

theorem wetStage_stateless {k : BlockCoeffs} (h : k.ws = 0 ∨ k.ws = 1) (ch : Nat) (x : F32) (s : State) :
    wetStage k ch x s = (statelessWet k x, s) := by
  rcases h with h | h
  · rw [wetStage_ident ch x s h, statelessWet, if_pos h]
  · rw [wetStage_gain ch x s h, statelessWet, if_neg (by omega)]

/-! ### PROC_BLOCK -/

/-- The coefficients of a block, with the words of the parameters' entries (R221). -/
theorem blockCoeffs_eq (s : State) :
    blockCoeffs s = ⟨paramValue s 0, F32.sub 0x3F800000#32 (paramValue s 0), revCoeffs s, paramValue s 4, F32.trunc (paramValue s 5),
      paramValue s 6, paramValue s 7, (s.lctrl.extractLsb' 1 3).toNat⟩ := by
  have hone : F32.ofNat 1 = 0x3F800000#32 := rfl
  rw [blockCoeffs, hone]
  rfl

theorem mixSample_blockCoeffs (s : State) (x w : F32) :
    mixSample (blockCoeffs s) x w = F32.add (F32.mul x (F32.sub 0x3F800000#32 (paramValue s 0))) (F32.mul w (paramValue s 0)) := by
  rw [blockCoeffs_eq, mixSample]

theorem statelessWet_blockCoeffs (s : State) (x : F32) :
    statelessWet (blockCoeffs s) x = if s.lctrl.extractLsb' 1 3 = 0#3 then x else F32.mul x (paramValue s 7) := by
  simp only [blockCoeffs_eq, statelessWet, BitVec.toNat_eq (y := 0#3)]
  rfl

/-- Settles O49: the refusal; the bypass copy byte by byte (`readByte_procBypass`); and the frames of a block as its samples in order
(`procFrames_eq_foldl`). -/
theorem procBlockCommand : Obligations.ProcBlockCommand := by
  refine ⟨decodeEncode .procBlock rfl, fun s hcfg => ?_, fun s w off cnt n hcfg _ hlen hoff hcnt hn hw => ?_⟩
  · exact (exec_procBlock_unconfigured hcfg).trans (refuse_eq_refusedState .notConfigured s)
  · obtain ⟨hmem, hnch⟩ := countWarned_frame hw
    have hexec := exec_procBlock_of_range hcfg hoff hcnt hn hw
    refine ⟨fun hen => ?_, fun hen => ?_⟩
    · have hbypass : ¬ctrlEn s.lctrl = true := Bool.eq_false_iff.1 hen
      have hwin (j : Nat) (hj : j < n) : off + j < 4096 := (lt_iobufLen_of_lt_adjustedCount (hn ▸ hj)).trans_le hlen
      refine ⟨(procBypass off n w).mem, ?_, fun a ha => ?_, fun a ha => ?_⟩
      · rw [hexec, if_neg hbypass, procBypass_eq_mapOut, mapOut_eq]
        rfl
      · rw [procBypass_readByte w ha, hmem]
      · rw [readByte_procBypass w hwin ha, hmem]
    · have hon : ctrlEn s.lctrl = true := hen
      have hframes : w.nch ∣ n := by rw [hnch, hn]; exact dvd_adjustedCount _ _ _ _
      rw [hexec, if_pos hon, procFrames_eq_foldl _ _ hframes, hnch, blockCoeffs_eq]
      rfl

/-- Settles O50: with IDENT or GAIN the wet sample depends on the dry one alone (`wetStage_stateless`), so the block writes each OUT word from
its IN word (`outWord_mapOut`). -/
theorem procMix : Obligations.ProcMix := by
  intro s w off cnt n hcfg _ hlen hoff hcnt hn hw hen hws
  have hon : ctrlEn s.lctrl = true := hen
  obtain ⟨hmem, hnch⟩ := countWarned_frame hw
  have hframes : w.nch ∣ n := by rw [hnch, hn]; exact dvd_adjustedCount _ _ _ _
  have hstage : (blockCoeffs s).ws = 0 ∨ (blockCoeffs s).ws = 1 := hws.imp (congrArg BitVec.toNat) (congrArg BitVec.toNat)
  have hblock := procFrames_eq_mapOut (wetStage_stateless hstage) off hframes
  refine ⟨(procFrames (blockCoeffs s) off n w).mem, ?_, fun a ha => ?_, fun j hj => ?_⟩
  · rw [exec_procBlock_of_range hcfg hoff hcnt hn hw, if_pos hon, hblock, mapOut_eq]
    rfl
  · rw [procFrames_readByte _ w ha, hmem]
  · have hwin : off + j < 4096 := (lt_iobufLen_of_lt_adjustedCount (hn ▸ hj)).trans_le hlen
    have hout := outWord_mapOut (fun x => mixSample (blockCoeffs s) x (statelessWet (blockCoeffs s) x)) w hj hwin
    rw [← hblock, mixSample_blockCoeffs, statelessWet_blockCoeffs, inWord, hmem] at hout
    exact hout

end Sys2Proof.Machine
end

section
/-! The delay lines (42_delay_buffer R260 to R268): what a read returns after a write, the interpolated read at an integral delay, and
DLY_WRITE, DLY_READ and DLY_READI with their whole next states. -/

namespace Sys2Proof.Machine

/-! ### The plain read (R260, R261) -/

/-- A delay below the capacity is not clamped, and its slot is counted back from the cursor in natural numbers. -/
theorem dbSlot_of_lt {db : DelayBuf} {d : Nat} (hd : d < db.cap) :
    dbSlot db d = (db.w + (db.cap - 1 - d)) % db.cap := by
  have hclamp : clampi d 0 ((db.cap : Int) - 1) = d := by
    unfold clampi; omega
  have hback : (db.w : Int) - 1 - d = ((db.w + (db.cap - 1 - d) : Nat) : Int) - db.cap := by omega
  rw [dbSlot, hclamp, hback, Int.sub_emod_right, ← Int.natCast_mod, Int.toNat_natCast]

/-- Delay 0 is the slot before the cursor, the one that the last write filled. -/
theorem dbSlot_write_zero (x : F32) {db : DelayBuf} (hw : db.w < db.cap) : dbSlot (dbWrite db x) 0 = db.w := by
  have hpos : 0 < db.cap := by omega
  have hslot := dbSlot_of_lt (db := dbWrite db x) (d := 0) hpos
  rw [Nat.cast_zero] at hslot
  rw [hslot, dbWrite_w, dbWrite_cap, Nat.mod_add_mod, show db.w + 1 + (db.cap - 1 - 0) = db.w + db.cap by omega, Nat.add_mod_right,
    Nat.mod_eq_of_lt hw]

/-- A write moves every sample one delay back: the slot of a delay becomes that of the next one. -/
theorem dbSlot_write_succ (x : F32) {db : DelayBuf} {d : Nat} (hd : d + 1 < db.cap) :
    dbSlot (dbWrite db x) ((d + 1 : Nat) : Int) = dbSlot db d := by
  rw [dbSlot_of_lt (db := dbWrite db x) hd, dbSlot_of_lt (Nat.lt_of_succ_lt hd), dbWrite_w, dbWrite_cap, Nat.mod_add_mod]
  congr 1
  omega

/-- A slot other than that of the greatest delay is not at the cursor. -/
theorem dbSlot_ne_cursor {db : DelayBuf} {d : Nat} (hw : db.w < db.cap) (hd : d + 1 < db.cap) : dbSlot db d ≠ db.w := by
  rw [dbSlot_of_lt (Nat.lt_of_succ_lt hd)]
  rcases Nat.lt_or_ge (db.w + (db.cap - 1 - d)) db.cap with h | h
  · rw [Nat.mod_eq_of_lt h]; omega
  · rw [Nat.mod_eq_sub_mod h, Nat.mod_eq_of_lt (by omega)]; omega

theorem dbRead_write_zero (x : F32) {db : DelayBuf} (hw : db.w < db.cap) : dbRead (dbWrite db x) 0 = x := by
  rw [dbRead, dbSlot_write_zero x hw, dbWrite_get, if_pos rfl]

theorem dbRead_write_succ (x : F32) {db : DelayBuf} {d : Nat} (hw : db.w < db.cap) (hd : d + 1 < db.cap) :
    dbRead (dbWrite db x) ((d + 1 : Nat) : Int) = dbRead db d := by
  rw [dbRead, dbSlot_write_succ x hd, dbWrite_get, if_neg (dbSlot_ne_cursor hw hd), dbRead]

@[simp] theorem foldl_dbWrite_cap (xs : List F32) (db : DelayBuf) : (xs.foldl dbWrite db).cap = db.cap :=
  List.foldlRecOn (motive := fun d : DelayBuf => d.cap = db.cap) xs dbWrite rfl fun _ h _ _ => h

theorem foldl_dbWrite_cursor (xs : List F32) {db : DelayBuf} (hw : db.w < db.cap) :
    (xs.foldl dbWrite db).w < (xs.foldl dbWrite db).cap :=
  List.foldlRecOn (motive := fun d : DelayBuf => d.w < d.cap) xs dbWrite hw fun d h x _ => dbWrite_cursor d x (by omega)

/-- Settles O27, by induction on the samples from the last one back: delay 0 reads the last sample, and a delay d + 1 reads what delay d read
before that sample was written. -/
theorem delayRoundTrip : Obligations.DelayRoundTrip := by
  intro cap d xs hd
  induction xs using List.reverseRecOn generalizing d with
  | nil => simp
  | append_singleton xs x ih =>
    have hw : (xs.foldl dbWrite (DelayBuf.empty cap)).w < (xs.foldl dbWrite (DelayBuf.empty cap)).cap :=
      foldl_dbWrite_cursor xs (Nat.zero_lt_of_lt hd)
    rw [List.foldl_concat, List.reverse_concat]
    cases d with
    | zero => exact dbRead_write_zero x hw
    | succ d =>
      have hcap : d + 1 < (xs.foldl dbWrite (DelayBuf.empty cap)).cap := by rwa [foldl_dbWrite_cap]
      rw [dbRead_write_succ x hw hcap, List.getD_cons_succ]
      exact ih d (by omega)

/-! ### The interpolated read at an integral delay (R262) -/

theorem F32.trunc_of_fix {x : F32} {d : Nat} (hx : F32.isFinite x = true) (hfix : F32.fix x = d * 2 ^ 149) : F32.trunc x = d := by
  obtain ⟨hlow, hhigh⟩ := F32.trunc_floor x hx (by rw [hfix]; positivity)
  rw [hfix] at hlow hhigh
  omega

/-- The difference of two words of one value is a zero, whatever their signs. -/
theorem F32.isZero_sub_of_fix_eq {x y : F32} (hx : F32.isFinite x = true) (hy : F32.isFinite y = true) (h : F32.fix x = F32.fix y) :
    F32.isZero (F32.sub x y) = true := by
  have hzero : F32.fix x - F32.fix y = 0 := sub_eq_zero.2 h
  obtain ⟨-, hword⟩ := (F32.sub_nearest x y hx hy).1 (by rw [hzero, Int.natAbs_zero]; unfold overflowFrom; positivity)
  rw [hword hzero]
  split <;> rfl

/-- A word whose value is an integral delay below the capacity, whatever its sign bit, is not clamped, and its fraction is a zero. -/
theorem dbReadI_of_integral {db : DelayBuf} {x : F32} {d : Nat} (hcap : db.cap ≤ 2 ^ 24) (hd : d < db.cap)
    (hx : F32.isFinite x = true) (hfix : F32.fix x = d * 2 ^ 149) : dbReadI db x = dbRead db d := by
  obtain ⟨htop, hfixtop, -⟩ := F32.ofNat_exact (db.cap - 1) (by omega)
  obtain ⟨hdfin, hdfix, -⟩ := F32.ofNat_exact d (by omega)
  have hlow : F32.ge x F32.zero = true := by
    rw [F32.ge_iff_fix hx rfl, hfix, show F32.fix F32.zero = 0 from rfl]
    omega
  have hhigh : F32.ge (F32.ofNat (db.cap - 1)) x = true := by
    rw [F32.ge_iff_fix htop hx, hfix, hfixtop]
    omega
  have hfrac : F32.isZero (F32.sub x (F32.ofNat d)) = true := F32.isZero_sub_of_fix_eq hx hdfin (hfix.trans hdfix.symm)
  simp only [dbReadI, F32.clamp_of_inside hlow hhigh, F32.trunc_of_fix hx hfix, hfrac, if_true]

/-- Settles O28: float(d) has the value d exactly, and -0.0 has the value 0 (`dbReadI_of_integral`). -/
theorem integralDelay : Obligations.IntegralDelay := by
  intro db d hcap hd
  obtain ⟨hfin, hfix, -⟩ := F32.ofNat_exact d (by omega)
  exact ⟨dbReadI_of_integral hcap hd hfin hfix, dbReadI_of_integral (d := 0) hcap (by omega) rfl rfl⟩

/-! ### The commands (R264 to R266) -/

/-- A command on delay line `k` that makes `u` of the state where it passes its two checks. -/
def lineCommand (k : Nat) (s u : State) : Host.Outcome State Fault Refusal :=
  if s.cfg = false then refuse .notConfigured s else if s.inst.nDly ≤ k then refuse .badUnit s else finish u

theorem exec_dlyWrite (k : Nat) (s : State) :
    exec (.dlyWrite k) s = lineCommand k s (setLine k (dbWrite (lineAt s k) s.larg.w0) s) := rfl

theorem exec_dlyRead (k : Nat) (s : State) : exec (.dlyRead k) s = lineCommand k s (setRes0 (dbRead (lineAt s k) (s32 s.larg.w0)) s) := rfl

theorem exec_dlyReadi (k : Nat) (s : State) : exec (.dlyReadi k) s = lineCommand k s (setRes0 (dbReadI (lineAt s k) s.larg.w0) s) := rfl

section
variable {k : Nat} {s : State} (u : State)

theorem lineCommand_unconfigured (hcfg : s.cfg = false) : lineCommand k s u = .next (refusedState 0x03#8 s) :=
  (if_pos hcfg).trans (refuse_eq_refusedState .notConfigured s)

theorem lineCommand_badUnit (hcfg : s.cfg = true) (hk : s.inst.nDly ≤ k) : lineCommand k s u = .next (refusedState 0x02#8 s) :=
  (if_neg (by simp [hcfg])).trans ((if_pos hk).trans (refuse_eq_refusedState .badUnit s))

theorem lineCommand_accepted (hcfg : s.cfg = true) (hk : k < s.inst.nDly) : lineCommand k s u = .next (complete u) :=
  (if_neg (by simp [hcfg])).trans (if_neg (not_le.2 hk))

end

theorem lineAt_of_getElem? {s : State} {k : Nat} {db : DelayBuf} (h : s.dlyl[k]? = some db) : lineAt s k = db := by
  rw [lineAt, List.getD_eq_getElem?_getD, h, Option.getD_some]

/-- Settles O24: the two checks, then the write of the line's word at its cursor (`dbWrite_get`). -/
theorem dlyWriteCommand : Obligations.DlyWriteCommand := by
  refine ⟨fun k hk => decodeEncode (.dlyWrite k) (decide_eq_true hk), fun k s => ?_⟩
  rw [exec_dlyWrite]
  refine ⟨lineCommand_unconfigured _, lineCommand_badUnit _, fun db hcfg hk hdb => ?_⟩
  rw [lineCommand_accepted _ hcfg hk, lineAt_of_getElem? hdb]
  exact ⟨(dbWrite db s.larg.w0).buf, rfl, dbWrite_get db s.larg.w0⟩

/-- Settles O25: the two checks, then RES0 takes the read of R261. -/
theorem dlyReadCommand : Obligations.DlyReadCommand := by
  refine ⟨fun k hk => decodeEncode (.dlyRead k) (decide_eq_true hk), fun k s => ?_⟩
  rw [exec_dlyRead]
  refine ⟨lineCommand_unconfigured _, lineCommand_badUnit _, fun db hcfg hk hdb => ?_⟩
  rw [lineCommand_accepted _ hcfg hk, lineAt_of_getElem? hdb]
  rfl

/-- Settles O26: the two checks, then RES0 takes the interpolated read of R262. -/
theorem dlyReadiCommand : Obligations.DlyReadiCommand := by
  refine ⟨fun k hk => decodeEncode (.dlyReadi k) (decide_eq_true hk), fun k s => ?_⟩
  rw [exec_dlyReadi]
  refine ⟨lineCommand_unconfigured _, lineCommand_badUnit _, fun db hcfg hk hdb => ?_⟩
  rw [lineCommand_accepted _ hcfg hk, lineAt_of_getElem? hdb]
  rfl

end Sys2Proof.Machine
end

section
/-! The reverb (43_reverb R302 to R312): the two filters on the oldest sample, the network of a channel and REV_STEP, what an emptied
comb and an emptied reverb answer, and the coefficients with their bounds. -/

namespace Sys2Proof.Machine

/-! ### The filters (R302, R303) -/

/-- The greatest delay reads the word at the cursor, the one that the next write replaces. -/
theorem dbRead_oldest {db : DelayBuf} (hw : db.w < db.cap) : dbRead db ((db.cap : Int) - 1) = sparseGet db.buf db.w := by
  have hdelay : (db.cap : Int) - 1 = ((db.cap - 1 : Nat) : Int) := by omega
  rw [dbRead, hdelay, dbSlot_of_lt (by omega), Nat.sub_self, Nat.add_zero, Nat.mod_eq_of_lt hw]

theorem apStep_eq (ab : DelayBuf) (y : F32) :
    apStep ab y = (F32.add (F32.mul (F32.neg y) 0x3F000000#32) (dbRead ab ((ab.cap : Int) - 1)),
      dbWrite ab (F32.add y (F32.mul (dbRead ab ((ab.cap : Int) - 1)) 0x3F000000#32))) := by
  have hhalf : F32.rnd32 5 10 = 0x3F000000#32 := rfl
  rw [apStep, hhalf]

/-- Settles O29: the sample read is the one at the cursor (`dbRead_oldest`), and the write there leaves every other word (`dbWrite_get`). -/
theorem filterSteps : Obligations.FilterSteps := by
  refine ⟨fun k cb x hw => ?_, fun ab y hw => ?_⟩
  · rw [← dbRead_oldest hw]
    exact ⟨(combStep k cb x).2.db.buf, rfl, dbWrite_get cb.db _⟩
  · rw [← dbRead_oldest hw, apStep_eq]
    exact ⟨_, rfl, dbWrite_get ab _⟩

/-! ### The network (R304, R309) and REV_STEP (R310) -/

/-- The bank adds the outputs in index order, and each comb steps on the same input. -/
theorem combBank_eq (k : RevCoeffs) (x : F32) (l : List Comb) (acc : F32) :
    combBank k x l acc = ((l.map fun cb => (combStep k cb x).1).foldl F32.add acc, l.map fun cb => (combStep k cb x).2) := by
  induction l generalizing acc with
  | nil => rfl
  | cons cb rest ih => rw [combBank, ih]; rfl

/-- The chain as a fold that collects the buffers behind those in `done`. -/
theorem foldl_apStep (l done : List DelayBuf) (y : F32) :
    l.foldl (fun (o : F32 × List DelayBuf) ab => ((apStep ab o.1).1, o.2 ++ [(apStep ab o.1).2])) (y, done)
      = ((apChain l y).1, done ++ (apChain l y).2) := by
  induction l generalizing y done with
  | nil => simp [apChain]
  | cons ab rest ih => simp [apChain, ih]

theorem revSample_eq (k : RevCoeffs) (r : RevCh) (x : F32) :
    revSample k r x =
      let acc := (r.combs.map fun cb => (combStep k cb x).1).foldl F32.add 0#32
      let chain := r.aps.foldl (fun (o : F32 × List DelayBuf) ab => ((apStep ab o.1).1, o.2 ++ [(apStep ab o.1).2]))
        (F32.mul acc 0x3E000000#32, [])
      (chain.1, ⟨r.combs.map fun cb => (combStep k cb x).2, chain.2⟩) := by
  have heighth : F32.rnd32 125 1000 = 0x3E000000#32 := rfl
  simp only [revSample, combBank_eq, heighth, foldl_apStep, List.nil_append, F32.zero]

/-- A command on channel `c` that makes `u` of the state where it passes its two checks. -/
def channelCommand (c : Nat) (s u : State) : Host.Outcome State Fault Refusal :=
  if s.cfg = false then refuse .notConfigured s else if s.nch ≤ c then refuse .badUnit s else finish u

theorem exec_revStep (c : Nat) (s : State) :
    exec (.revStep c) s = channelCommand c s
      (setRes0 (revSample (revCoeffs s) (revAt s c) s.larg.w0).1 (setRev c (revSample (revCoeffs s) (revAt s c) s.larg.w0).2 s)) := rfl

section
variable {c : Nat} {s : State} (u : State)

theorem channelCommand_unconfigured (hcfg : s.cfg = false) : channelCommand c s u = .next (refusedState 0x03#8 s) :=
  (if_pos hcfg).trans (refuse_eq_refusedState .notConfigured s)

theorem channelCommand_badUnit (hcfg : s.cfg = true) (hc : s.nch ≤ c) : channelCommand c s u = .next (refusedState 0x02#8 s) :=
  (if_neg (by simp [hcfg])).trans ((if_pos hc).trans (refuse_eq_refusedState .badUnit s))

theorem channelCommand_accepted (hcfg : s.cfg = true) (hc : c < s.nch) : channelCommand c s u = .next (complete u) :=
  (if_neg (by simp [hcfg])).trans (if_neg (not_le.2 hc))

end

theorem revAt_of_getElem? {s : State} {c : Nat} {r : RevCh} (h : s.rev[c]? = some r) : revAt s c = r := by
  rw [revAt, List.getD_eq_getElem?_getD, h, Option.getD_some]

/-- Settles O30: the two checks, then the network of the channel as folds over its filters (`revSample_eq`). -/
theorem revStepCommand : Obligations.RevStepCommand := by
  refine ⟨fun c hc => decodeEncode (.revStep c) (decide_eq_true hc), fun c s => ?_⟩
  rw [exec_revStep]
  refine ⟨channelCommand_unconfigured _, channelCommand_badUnit _, fun r hcfg hc hr => ?_⟩
  rw [channelCommand_accepted _ hcfg hc, revAt_of_getElem? hr, revSample_eq]
  rfl

/-! ### An emptied comb (R312) -/

theorem CoeffOk.zero_mul {c : F32} (h : CoeffOk c) : F32.mul 0#32 c = 0#32 := by
  obtain ⟨hfin, hsign⟩ := h
  rw [F32.mul_of_finite rfl hfin, hsign, show F32.mag 0#32 = 0 from rfl, Nat.zero_mul]
  rfl

/-- What a word becomes when +0.0 is added to it: -0.0 becomes +0.0, a NaN the canonical NaN, every other word stays. -/
theorem F32.add_zero_word (x : F32) :
    F32.add x 0#32 = if F32.isNaN x then 0x7FC00000#32 else if x = 0x80000000#32 then 0#32 else x := by
  cases hx : F32.isNaN x
  · rw [F32.add_zero_of_not_isNaN hx rfl]
    simp [F32.sign]
  · rw [F32.add_nan_left hx, if_pos rfl]

/-- The comb after the samples `xs`. -/
def combAfter (k : RevCoeffs) (cb : Comb) (xs : List F32) : Comb := xs.foldl (fun cb x => (combStep k cb x).2) cb

theorem combOutputs_getElem? (k : RevCoeffs) (cb : Comb) {xs : List F32} {n : Nat} (hn : n < xs.length) :
    (combOutputs k cb xs)[n]? = some (dbRead (combAfter k cb (xs.take n)).db ((cb.db.cap : Int) - 1)) := by
  induction xs generalizing cb n with
  | nil => exact absurd hn (Nat.not_lt_zero n)
  | cons x xs ih =>
    cases n with
    | zero => rfl
    | succ n => exact ih (combStep k cb x).2 (Nat.lt_of_succ_lt_succ hn)

/-- The round trip of R267 at the greatest delay: +0.0 until `len` samples were written to the emptied buffer. -/
theorem dbRead_oldest_of_written {len : Nat} (hlen : 1 ≤ len) (ys : List F32) :
    dbRead (ys.foldl dbWrite (DelayBuf.empty len)) ((len : Int) - 1) = ys.reverse.getD (len - 1) 0#32 := by
  have hdelay : (len : Int) - 1 = ((len - 1 : Nat) : Int) := by omega
  rw [hdelay]
  exact delayRoundTrip len (len - 1) ys (by omega)

section
variable {k : RevCoeffs} (hfb : CoeffOk k.fb) (hdk : CoeffOk k.dk) (hodk : CoeffOk k.odk)
include hfb hdk hodk

/-- A comb whose oldest sample and damping store are +0.0 answers +0.0, stores its input plus +0.0 and keeps its damping store. -/
theorem combStep_silent {db : DelayBuf} (hold : dbRead db ((db.cap : Int) - 1) = 0#32) (x : F32) :
    combStep k ⟨db, 0#32⟩ x = (0#32, ⟨dbWrite db (F32.add x 0#32), 0#32⟩) := by
  have hfilt : F32.add 0#32 0#32 = 0#32 := rfl
  simp only [combStep, hold, hodk.zero_mul, hdk.zero_mul, hfilt, hfb.zero_mul]

/-- The samples stored in a comb of length `len` are its inputs plus +0.0 as long as none of them has come round. -/
theorem combAfter_empty {len : Nat} {xs : List F32} (hxs : xs.length ≤ len) :
    combAfter k (Comb.empty len) xs = ⟨(xs.map (F32.add · 0#32)).foldl dbWrite (DelayBuf.empty len), 0#32⟩ := by
  induction xs using List.reverseRecOn with
  | nil => rfl
  | append_singleton xs x ih =>
    rw [List.length_append, List.length_singleton] at hxs
    have hold : dbRead ((xs.map (F32.add · 0#32)).foldl dbWrite (DelayBuf.empty len)) ((len : Int) - 1) = 0#32 := by
      rw [dbRead_oldest_of_written (by omega)]
      exact List.getD_eq_default _ _ (by rw [List.length_reverse, List.length_map]; omega)
    rw [combAfter, List.foldl_concat, ← combAfter, ih (by omega), combStep_silent hfb hdk hodk (by rwa [foldl_dbWrite_cap]), List.map_append,
      List.map_singleton, List.foldl_concat]

theorem combOutputs_empty {len n : Nat} (hlen : 1 ≤ len) {xs : List F32} (hn : n < xs.length) (hle : n ≤ len) :
    (combOutputs k (Comb.empty len) xs)[n]? = some (((xs.take n).map (F32.add · 0#32)).reverse.getD (len - 1) 0#32) := by
  rw [combOutputs_getElem? k _ hn, combAfter_empty hfb hdk hodk ((List.length_take_le n xs).trans hle)]
  exact congrArg some (dbRead_oldest_of_written hlen _)

end

/-! ### An emptied reverb (R310) -/

theorem dbRead_of_nil {db : DelayBuf} (h : db.buf = []) (d : Int) : dbRead db d = 0#32 := by
  rw [dbRead, h, sparseGet_nil]

theorem combBank_of_nil (k : RevCoeffs) (x : F32) {l : List Comb} (h : ∀ cb ∈ l, cb.db.buf = []) : (combBank k x l 0#32).1 = 0#32 := by
  induction l with
  | nil => rfl
  | cons cb rest ih =>
    rw [List.forall_mem_cons] at h
    rw [combBank, combStep_output, dbRead_of_nil h.1]
    exact ih h.2

theorem apChain_of_nil {l : List DelayBuf} (h : ∀ ab ∈ l, ab.buf = []) : (apChain l 0#32).1 = 0#32 := by
  induction l with
  | nil => rfl
  | cons ab rest ih =>
    rw [List.forall_mem_cons] at h
    rw [apChain, apStep_eq, dbRead_of_nil h.1]
    exact ih h.2

/-- Settles O31: until a sample has come round the comb is a plain delay line (`combOutputs_empty`), whose oldest sample is +0.0 before
index `len` and the first input plus +0.0 there; in an emptied reverb the bank and the chain both answer +0.0. -/
theorem combLag : Obligations.CombLag := by
  refine ⟨fun k len x xs hfb hdk hodk hlen => ⟨fun n hn hlt => ?_, fun hlt => ?_⟩, fun k r x hcombs haps => ?_⟩
  · rw [combOutputs_empty hfb hdk hodk hlen hlt hn.le]
    exact congrArg some (List.getD_eq_default _ _ (by rw [List.length_reverse, List.length_map, List.length_take]; omega))
  · obtain ⟨m, rfl⟩ : ∃ m, len = m + 1 := ⟨len - 1, by omega⟩
    have hm : m ≤ xs.length := by simpa using hlt.le
    rw [combOutputs_empty hfb hdk hodk hlen hlt le_rfl, ← F32.add_zero_word]
    simp [List.getD_eq_getElem?_getD, hm]
  · have hbank : (combBank k x r.combs F32.zero).1 = 0#32 := combBank_of_nil k x hcombs
    rw [revSample, hbank]
    exact apChain_of_nil haps

/-! ### The coefficients (R306 to R308) -/

/-- The coefficients with their constants as words. -/
theorem revCoeffs_eq (s : State) :
    revCoeffs s =
      let dk := F32.mul (paramValue s 2) (if s.lctrl.getLsbD 4 then 0x3F000000#32 else 0x3ECCCCCD#32)
      ⟨F32.clamp (F32.mul (F32.add 0x3E8F5C29#32 (F32.mul (paramValue s 1) 0x3F333333#32)) (paramValue s 3)) 0x3DCCCCCD#32 0x3F7AE148#32,
        dk, F32.sub 0x3F800000#32 dk⟩ := by
  have hbase : F32.rnd32 28 100 = 0x3E8F5C29#32 := rfl
  have hroom : F32.rnd32 7 10 = 0x3F333333#32 := rfl
  have hlow : F32.rnd32 1 10 = 0x3DCCCCCD#32 := rfl
  have hhigh : F32.rnd32 98 100 = 0x3F7AE148#32 := rfl
  have hhalf : F32.rnd32 5 10 = 0x3F000000#32 := rfl
  have hdamp : F32.rnd32 4 10 = 0x3ECCCCCD#32 := rfl
  have hone : F32.ofNat 1 = 0x3F800000#32 := rfl
  rw [revCoeffs, combFeedback, dampCoeff, hbase, hroom, hlow, hhigh, hhalf, hdamp, hone]
  rfl

/-! ### The bounds of the coefficients (section 5) -/

/-- A word between two finite words is finite. -/
theorem F32.isFinite_of_between {x lo hi : F32} (hlo : F32.isFinite lo = true) (hhi : F32.isFinite hi = true) (hlow : F32.ge x lo = true)
    (hhigh : F32.ge hi x = true) : F32.isFinite x = true := by
  obtain ⟨hx, hlo'⟩ := F32.not_isNaN_of_ge hlow
  obtain ⟨hhi', -⟩ := F32.not_isNaN_of_ge hhigh
  obtain ⟨hbelow, -⟩ := F32.key_bounds_of_isFinite hlo
  obtain ⟨-, habove⟩ := F32.key_bounds_of_isFinite hhi
  rw [F32.ge_iff hx hlo'] at hlow
  rw [F32.ge_iff hhi' hx] at hhigh
  have habs : F32.magBits x = (F32.key x).natAbs := by
    unfold F32.key
    split <;> simp
  rw [F32.isFinite_iff]
  omega

/-- Rounding to nearest keeps a lower bound that is itself a finite value. -/
theorem IsNearestEven.le_fix {r y : F32} {v : Int} {den : Nat} (h : IsNearestEven r v den) (hden : 0 < den) (hy : F32.isFinite y = true)
    (hle : F32.fix y * den ≤ v) : F32.fix y ≤ F32.fix r := by
  obtain ⟨hnear, -⟩ := h.2 y hy
  by_contra! hlt
  have hstep : F32.fix r * den < F32.fix y * den := Int.mul_lt_mul_of_pos_right hlt (by exact_mod_cast hden)
  rw [abs_of_nonpos (by linarith), abs_of_nonpos (by linarith)] at hnear
  linarith

/-- Rounding to nearest keeps an upper bound that is itself a finite value. -/
theorem IsNearestEven.fix_le {r y : F32} {v : Int} {den : Nat} (h : IsNearestEven r v den) (hden : 0 < den) (hy : F32.isFinite y = true)
    (hle : v ≤ F32.fix y * den) : F32.fix r ≤ F32.fix y := by
  obtain ⟨hnear, -⟩ := h.2 y hy
  by_contra! hlt
  have hstep : F32.fix y * den < F32.fix r * den := Int.mul_lt_mul_of_pos_right hlt (by exact_mod_cast hden)
  rw [abs_of_nonneg (by linarith), abs_of_nonneg (by linarith)] at hnear
  linarith

/-- Lying between two finite words is a fact about values. -/
theorem F32.between_iff_fix {x lo hi : F32} (hlo : F32.isFinite lo = true) (hhi : F32.isFinite hi = true) :
    (F32.ge x lo = true ∧ F32.ge hi x = true) ↔ F32.isFinite x = true ∧ F32.fix lo ≤ F32.fix x ∧ F32.fix x ≤ F32.fix hi := by
  constructor
  · rintro ⟨hlow, hhigh⟩
    have hx := F32.isFinite_of_between hlo hhi hlow hhigh
    exact ⟨hx, (F32.ge_iff_fix hx hlo).1 hlow, (F32.ge_iff_fix hhi hx).1 hhigh⟩
  · rintro ⟨hx, hlow, hhigh⟩
    exact ⟨(F32.ge_iff_fix hx hlo).2 hlow, (F32.ge_iff_fix hhi hx).2 hhigh⟩

/-- DAMP lies in [0, 1] while the parameter store is in order. -/
theorem StoreInv.damp_between {s : State} (h : StoreInv s) :
    F32.ge (paramValue s 2) 0#32 = true ∧ F32.ge 0x3F800000#32 (paramValue s 2) = true := by
  obtain ⟨e, he, -, -, hlow, hhigh⟩ := h.builtins 2 _ rfl
  rw [paramValue, List.getD_eq_getElem?_getD, he, Option.getD_some]
  exact ⟨hlow, hhigh⟩

theorem dampFactor_between (dampk : Bool) :
    F32.ge (if dampk then 0x3F000000#32 else 0x3ECCCCCD#32) 0#32 = true
      ∧ F32.ge 0x3F000000#32 (if dampk then 0x3F000000#32 else 0x3ECCCCCD#32) = true := by
  cases dampk <;> exact ⟨rfl, rfl⟩

theorem F32.fix_one : F32.fix 0x3F800000#32 = 2 ^ 149 := rfl

theorem F32.fix_half : F32.fix 0x3F000000#32 = 2 ^ 148 := rfl

/-- A value in [0, 1] times a factor in [0, 0.5] is in [0, 0.5]. -/
theorem F32.mul_between {d f : F32} (hd : F32.ge d 0#32 = true ∧ F32.ge 0x3F800000#32 d = true)
    (hf : F32.ge f 0#32 = true ∧ F32.ge 0x3F000000#32 f = true) :
    F32.ge (F32.mul d f) 0#32 = true ∧ F32.ge 0x3F000000#32 (F32.mul d f) = true := by
  obtain ⟨hdfin, hd0, hd1⟩ := (F32.between_iff_fix rfl rfl).1 hd
  obtain ⟨hffin, hf0, hf1⟩ := (F32.between_iff_fix rfl rfl).1 hf
  have hzero : F32.fix 0#32 = 0 := rfl
  rw [hzero] at hd0 hf0
  have hprod0 : 0 ≤ F32.fix d * F32.fix f := mul_nonneg hd0 hf0
  have hprod1 : F32.fix d * F32.fix f ≤ F32.fix 0x3F800000#32 * F32.fix 0x3F000000#32 := mul_le_mul hd1 hf1 hf0 (hd0.trans hd1)
  rw [F32.fix_one] at hprod1
  obtain ⟨hnear, -⟩ := (F32.mul_nearest d f hdfin hffin).1 (by rw [F32.fix_half] at hprod1; unfold overflowFrom; omega)
  refine (F32.between_iff_fix rfl rfl).2 ⟨hnear.1, hnear.le_fix (by positivity) rfl ?_, hnear.fix_le (by positivity) rfl ?_⟩
  · rwa [hzero, zero_mul]
  · rw [mul_comm (F32.fix 0x3F000000#32)]
    exact_mod_cast hprod1

/-- 1 minus a value in [0, 0.5] is in [0.5, 1]. -/
theorem F32.one_sub_between {d : F32} (hd : F32.ge d 0#32 = true ∧ F32.ge 0x3F000000#32 d = true) :
    F32.ge (F32.sub 0x3F800000#32 d) 0x3F000000#32 = true ∧ F32.ge 0x3F800000#32 (F32.sub 0x3F800000#32 d) = true := by
  obtain ⟨hdfin, hd0, hd1⟩ := (F32.between_iff_fix rfl rfl).1 hd
  have hzero : F32.fix 0#32 = 0 := rfl
  rw [hzero] at hd0
  rw [F32.fix_half] at hd1
  obtain ⟨hnear, -⟩ := (F32.sub_nearest 0x3F800000#32 d rfl hdfin).1 (by rw [F32.fix_one]; unfold overflowFrom; omega)
  refine (F32.between_iff_fix rfl rfl).2 ⟨hnear.1, hnear.le_fix one_pos rfl ?_, hnear.fix_le one_pos rfl ?_⟩
  · rw [F32.fix_half, F32.fix_one]; omega
  · rw [F32.fix_one]; omega

/-- Settles O32: the words by `revCoeffs_eq`; fb is a clamped value; and every rounding keeps the bounds of the exact DAMP product and of
the difference from 1. -/
theorem reverbCoefficients : Obligations.ReverbCoefficients := by
  refine ⟨revCoeffs_eq, fun s => ?_, fun s hs => ?_⟩
  · rw [revCoeffs_eq]
    exact F32.clamp_in_range _ rfl rfl rfl
  · have hdk := F32.mul_between hs.damp_between (dampFactor_between (s.lctrl.getLsbD 4))
    obtain ⟨hodk0, hodk1⟩ := F32.one_sub_between hdk
    rw [revCoeffs_eq]
    exact ⟨hdk.1, hdk.2, hodk0, hodk1⟩

end Sys2Proof.Machine
end

section
/-! Non-negative binary32 values (00_scope R17, R20): the range of `trunc` as a bound on the value, and the sign and the bound of a sum. -/

namespace Sys2Proof.Machine

theorem F32.fix_nonneg {x : F32} (h : F32.sign x = false) : 0 ≤ F32.fix x := by
  rw [F32.fix, h]
  exact Int.natCast_nonneg _

/-- `PosBelow` as a bound on the value. -/
theorem posBelow_iff_fix {x : F32} {n : Nat} :
    PosBelow x n ↔ F32.isFinite x = true ∧ F32.sign x = false ∧ F32.fix x < n * 2 ^ 149 := by
  unfold PosBelow
  refine and_congr_right fun hx => and_congr_right fun hs => ?_
  obtain ⟨hlow, hhigh⟩ := F32.trunc_floor x hx (F32.fix_nonneg hs)
  omega

theorem PosBelow.ofNat {m n : Nat} (h : m < n) (hm : m < 2 ^ 24) : PosBelow (F32.ofNat m) n := by
  obtain ⟨hfin, hfix, hsign⟩ := F32.ofNat_exact m hm
  exact posBelow_iff_fix.2 ⟨hfin, hsign, by rw [hfix]; omega⟩

/-- A sum that is not negative, of a first operand that is not, has sign + (an exact zero sum included). -/
theorem F32.sign_add_of_nonneg {a b : F32} (ha : F32.isFinite a = true) (hb : F32.isFinite b = true) (hs : F32.sign a = false)
    (h : 0 ≤ F32.fix a + F32.fix b) : F32.sign (F32.add a b) = false := by
  rw [F32.add_of_finite ha hb, hs]
  split
  · exact F32.sign_pack _ (by decide)
  · rw [F32.sign_round]
    exact decide_eq_false (not_lt.2 h)

/-- A sum between 0 and an integer below 2^24 is rounded to a value between them. -/
theorem F32.add_between {a b : F32} {m : Nat} (ha : F32.isFinite a = true) (hb : F32.isFinite b = true) (hs : F32.sign a = false)
    (h : 0 ≤ F32.fix a + F32.fix b) (hle : F32.fix a + F32.fix b ≤ m * 2 ^ 149) (hm : m < 2 ^ 24) :
    F32.isFinite (F32.add a b) = true ∧ F32.sign (F32.add a b) = false ∧ F32.fix (F32.add a b) ≤ m * 2 ^ 149 := by
  obtain ⟨hfin, hfix, -⟩ := F32.ofNat_exact m hm
  obtain ⟨hnear, -⟩ := (F32.add_nearest a b ha hb).1 (by unfold overflowFrom; omega)
  refine ⟨hnear.1, F32.sign_add_of_nonneg ha hb hs h, ?_⟩
  rw [← hfix]
  exact hnear.fix_le one_pos hfin (by rw [hfix]; omega)

end Sys2Proof.Machine
end

section
/-! The read positions and the phases of the pitch shifter stay in their ranges (10_state R61; 44_pitch_shifter R343, R344, R346): first one
advance, then one sample of a channel, then every command and every move. -/

namespace Sys2Proof.Machine

/-! ### One advance (R344) -/

/-- A ratio in [0, 4], all that the ranges need of R343. -/
def RatioOk (r : F32) : Prop := F32.isFinite r = true ∧ 0 ≤ F32.fix r ∧ F32.fix r ≤ 4 * 2 ^ 149

/-- A position below `n` stays below `n`: the advanced value is below n + 4, and from n on the difference from n is at most 4. -/
theorem PosBelow.advance {pos r : F32} {n : Nat} (hpos : PosBelow pos n) (hr : RatioOk r) (hn : 8 ≤ n) (hmax : n ≤ 2 ^ 16) :
    PosBelow (advance pos r n) n := by
  obtain ⟨hfin, hsign, hlt⟩ := posBelow_iff_fix.1 hpos
  obtain ⟨hrfin, hr0, hr4⟩ := hr
  have hpos0 := F32.fix_nonneg hsign
  obtain ⟨hsum, hsumsign, hle⟩ := F32.add_between (m := n + 4) hfin hrfin hsign (by omega) (by omega) (by omega)
  obtain ⟨hnfin, hnfix, -⟩ := F32.ofNat_exact n (by omega)
  have hwrap := F32.ge_iff_fix hsum hnfin
  rw [hnfix] at hwrap
  rw [posBelow_iff_fix, Machine.advance]
  split
  case isTrue hge =>
    have hge' := hwrap.1 hge
    obtain ⟨hd, hdsign, hdle⟩ := F32.add_between (b := F32.neg (F32.ofNat n)) (m := 4) hsum (by rwa [F32.isFinite_neg]) hsumsign
      (by rw [F32.fix_neg, hnfix]; omega) (by rw [F32.fix_neg, hnfix]; omega) (by decide)
    refine ⟨hd, hdsign, ?_⟩
    rw [F32.sub]
    omega
  case isFalse hlt => exact ⟨hsum, hsumsign, not_le.1 (mt hwrap.2 hlt)⟩

/-! ### One channel -/

/-- The read positions of the channel lie in [0, b) and its phases in [0, g). -/
def GpsPosOk (g b : Nat) (c : GpsCh) : Prop := PosBelow c.rp1 b ∧ PosBelow c.rp2 b ∧ PosBelow c.ph1 g ∧ PosBelow c.ph2 g

theorem gpsInv_iff {s : State} : GpsInv s ↔ (s.cfg = true → ∀ c ∈ s.gps, GpsPosOk s.grain s.ringB c) := Iff.rfl

/-- The lengths that CONFIG gives a pitch shifter (40_control R183, R184). -/
def GpsSizes (g b : Nat) : Prop := 8 ≤ g ∧ g ≤ 2 ^ 13 ∧ b = 8 * g

theorem GpsPosOk.start {g b : Nat} (h : GpsSizes g b) : GpsPosOk g b (gpsStart g b) := by
  obtain ⟨hg, hmax, rfl⟩ := h
  exact ⟨.ofNat (by omega) (by omega), .ofNat (by omega) (by omega), .ofNat (m := 0) (by omega) (by decide),
    .ofNat (by omega) (by omega)⟩

/-- One sample: a read position is advanced or anchored anew inside the ring, a phase is advanced. -/
theorem GpsPosOk.sample {g b : Nat} {c : GpsCh} (h : GpsPosOk g b c) (hsz : GpsSizes g b) (win : Samples) (x : F32) {r : F32}
    (hr : RatioOk r) : GpsPosOk g b (gpsSample g b win c x r).2 := by
  obtain ⟨hg, hmax, rfl⟩ := hsz
  obtain ⟨hrp1, hrp2, hph1, hph2⟩ := h
  have hread (wraps : Bool) {pos : F32} (hpos : PosBelow pos (8 * g)) (k : Nat) :
      PosBelow (if wraps then F32.ofNat (k % (8 * g)) else Machine.advance pos r (8 * g)) (8 * g) := by
    have hk : k % (8 * g) < 8 * g := Nat.mod_lt _ (by omega)
    split
    · exact PosBelow.ofNat hk (by omega)
    · exact hpos.advance hr (by omega) (by omega)
  have hphase {ph : F32} (hph : PosBelow ph g) : PosBelow (Machine.advance ph r g) g := hph.advance hr hg (by omega)
  rw [gpsSample]
  exact ⟨hread _ hrp1 _, hread _ hrp2 _, hphase hph1, hphase hph2⟩

/-! ### PITCH (R343) -/

/-- PITCH lies in [0.25, 4.0]: what the ranges need of the parameter store (46_parameter_store R431). -/
def PitchOk (s : State) : Prop := F32.ge (pitchOf s) 0x3E800000#32 = true ∧ F32.ge 0x40800000#32 (pitchOf s) = true

theorem StoreInv.pitchOk {s : State} (h : StoreInv s) : PitchOk s := by
  obtain ⟨e, he, -, -, hlow, hhigh⟩ := h.builtins 4 _ rfl
  rw [PitchOk, pitchOf, paramValue, List.getD_eq_getElem?_getD, he, Option.getD_some]
  exact ⟨hlow, hhigh⟩

theorem PitchOk.ratioOk {s : State} (h : PitchOk s) : RatioOk (pitchOf s) := by
  obtain ⟨hfin, hlow, hhigh⟩ := (F32.between_iff_fix rfl rfl).1 h
  have hquarter : F32.fix 0x3E800000#32 = 2 ^ 147 := rfl
  have hfour : F32.fix 0x40800000#32 = 4 * 2 ^ 149 := rfl
  rw [hquarter] at hlow
  exact ⟨hfin, by omega, hfour ▸ hhigh⟩

theorem PitchOk.resetOf (p : Params) : PitchOk (State.resetOf p) := by
  have hrst : pitchOf (State.resetOf p) = 0x3F800000#32 := rfl
  rw [PitchOk, hrst]
  exact ⟨rfl, rfl⟩

theorem PitchOk.congr {s t : State} (h : PitchOk s) (hpst : t.pst = s.pst) : PitchOk t := by
  rw [PitchOk, pitchOf, paramValue, hpst]
  exact h

/-- An entry write keeps the range if what it writes to entry 4 lies in it. -/
theorem PitchOk.setEntry {s : State} (h : PitchOk s) {e : Nat} {x : PEntry}
    (hx : e = 4 → F32.ge x.value 0x3E800000#32 = true ∧ F32.ge 0x40800000#32 x.value = true) : PitchOk (setEntry e x s) := by
  have hentry : pitchOf (Machine.setEntry e x s) = (entryAt (Machine.setEntry e x s) 4).value := rfl
  rw [PitchOk, hentry, entryAt_setEntry]
  split
  case isTrue he => exact hx he.1
  case isFalse => exact h

theorem PitchOk.allocEntry {s : State} (h : PitchOk s) (e : Nat) (n : Name8) : PitchOk (allocEntry e n s) :=
  h.setEntry fun he => he ▸ h

/-- A value stored in entry 4 is clamped to the range (46_parameter_store R434). -/
theorem PitchOk.storeEntry {s : State} (h : PitchOk s) (register created : Bool) (e : Nat) (v : F32) :
    PitchOk (storeEntry register created e v s) := by
  refine (h.setEntry (e := e) (x := { entryAt s e with value := storedValue s.inst e v, dflt := _ }) fun he => ?_).congr rfl
  subst he
  exact F32.clamp_in_range v rfl rfl rfl

theorem PitchOk.paramWritten {register : Bool} {s u : State} (h : PitchOk s) (hu : ParamWritten register s u) : PitchOk u := by
  cases hu with
  | noName | full => exact h.congr rfl
  | found e => exact h.storeEntry register false e _
  | created e => exact (h.allocEntry e _).storeEntry register true e _

theorem PitchOk.accepted {i : Instr} {s u : State} (h : PitchOk s) (hreset : i ≠ .softReset) (hu : Accepted i s u) : PitchOk u := by
  cases hu with
  | softReset => exact absurd rfl hreset
  | pRegister _ _ hp | pSet _ _ hp => exact h.paramWritten hp
  | config =>
    rw [warnIf_eq]
    exact h.congr rfl
  | clear =>
    rw [clearUnits_eq]
    exact h.congr rfl
  | irCommit =>
    obtain ⟨_, _, _, _, _, _, _, _, hc⟩ := irCommitted_frame s
    rw [hc]
    exact h.congr rfl
  | pGet _ _ hp =>
    obtain ⟨_, _, rfl⟩ := hp.frame
    exact h.congr rfl
  | procBlock =>
    obtain ⟨_, _, _, _, _, _, _, _, hp⟩ := procDone_frame s
    rw [hp]
    exact h.congr rfl
  | nop | dlyWrite | dlyRead | dlyReadi | revStep | gpsStep | convStep | irBegin | irOverflow | irPush => exact h.congr rfl

/-! ### The pitch shifters of a state -/

theorem GpsInv.congr {s t : State} (h : GpsInv s) (hcfg : t.cfg = s.cfg) (hgps : t.gps = s.gps) (hgrain : t.grain = s.grain)
    (hring : t.ringB = s.ringB) : GpsInv t := by
  rw [gpsInv_iff, hcfg, hgps, hgrain, hring]
  exact h

theorem GpsInv.warnIf {s : State} (h : GpsInv s) (b : Bool) (e : ErrCode) : GpsInv (warnIf b e s) := by
  rw [warnIf_eq]
  exact h.congr rfl rfl rfl rfl

theorem ShapeInv.gpsSizes {s : State} (h : ShapeInv s) (hcfg : s.cfg = true) : GpsSizes s.grain s.ringB := by
  obtain ⟨-, -, -, -, -, -, -, hg, hmax, hring⟩ := h.set hcfg
  exact ⟨hg, hmax.trans h.inst.gpsGMax.2.2, hring⟩

/-- One sample on a channel of a configured state. -/
theorem GpsInv.sample {s : State} (h : GpsInv s) (hcfg : s.cfg = true) (hsz : GpsSizes s.grain s.ringB) (c : Nat) (x : F32) {r : F32}
    (hr : RatioOk r) : GpsInv (setGps c (gpsSample s.grain s.ringB s.win (gpsAt s c) x r).2 s) := by
  intro _
  by_cases hc : c < s.gps.length
  · exact forall_mem_set (P := GpsPosOk s.grain s.ringB) (h hcfg) c (GpsPosOk.sample (h hcfg _ (getD_mem _ hc)) hsz s.win x hr)
  · rw [setGps_gps, List.set_eq_of_length_le (not_lt.1 hc)]
    exact h hcfg

/-- Only the GPS stage reaches the pitch shifters (41_effect_contract R227). -/
theorem GpsInv.wetStage {s : State} (h : GpsInv s) (hcfg : s.cfg = true) (hsz : GpsSizes s.grain s.ringB) {k : BlockCoeffs}
    (hr : RatioOk k.r) (ch : Nat) (x : F32) : GpsInv (wetStage k ch x s).2 := by
  unfold Machine.wetStage
  split
  case h_4 => exact h.sample hcfg hsz ch x hr
  all_goals exact h.congr rfl rfl rfl rfl

theorem GpsInv.procFrames {s : State} (h : GpsInv s) (hcfg : s.cfg = true) (hsz : GpsSizes s.grain s.ringB) {k : BlockCoeffs}
    (hr : RatioOk k.r) (off n : Nat) : GpsInv (procFrames k off n s) := by
  have hloop : GpsInv (Machine.procFrames k off n s) ∧ OnlyUnits s (Machine.procFrames k off n s) := by
    refine procFrames_induction (P := fun t => GpsInv t ∧ OnlyUnits s t) off n (fun i ch t _ ⟨ht, hst⟩ => ?_) ⟨h, .refl s⟩
    refine ⟨?_, hst.trans (procSample_onlyUnits k i ch t)⟩
    obtain ⟨_, _, _, _, _, _, rfl⟩ := hst
    exact (ht.wetStage hcfg hsz hr ch _).congr rfl rfl rfl rfl
  exact hloop.1

theorem GpsInv.procDone {s : State} (h : GpsInv s) (hcfg : s.cfg = true) (hsz : GpsSizes s.grain s.ringB) (hpitch : PitchOk s) :
    GpsInv (procDone s) := by
  unfold Machine.procDone
  dsimp only
  split
  · refine GpsInv.procFrames (k := blockCoeffs s) (h.warnIf _ _) ?_ ?_ hpitch.ratioOk _ _
    all_goals rw [warnIf_eq]
    exacts [hcfg, hsz]
  · exact procBypass_induction (P := GpsInv) _ _ (fun _ _ _ ht => ht.congr rfl rfl rfl rfl) (h.warnIf _ _)

/-- CONFIG puts every channel at its start state (40_control R184). -/
theorem GpsInv.configured {s : State} (hinst : s.inst.Valid) {fs c cap g : Nat} (hv : configValid s.inst fs c cap g = true) :
    GpsInv (configured fs c cap g s) := by
  obtain ⟨-, -, -, -, -, -, -, hg, hmax⟩ := configValid_iff.1 hv
  intro _ d hd
  rw [List.eq_of_mem_replicate hd]
  exact GpsPosOk.start ⟨hg, hmax.trans hinst.gpsGMax.2.2, rfl⟩

/-- Row 3 of CLEAR puts every channel at its start state (40_control R187). -/
theorem GpsInv.clearUnits {s : State} (h : GpsInv s) (hs : ShapeInv s) (mask : BitVec 5) : GpsInv (clearUnits mask s) := by
  rw [clearUnits_eq]
  intro hcfg
  dsimp only
  split
  · exact List.forall_mem_map.2 fun _ _ => GpsPosOk.start (hs.gpsSizes hcfg)
  · exact h hcfg

/-! ### Commands and moves -/

theorem GpsInv.accepted {i : Instr} {s u : State} (h : GpsInv s) (hs : ShapeInv s) (hpitch : PitchOk s) (hreset : i ≠ .softReset)
    (hu : Accepted i s u) : GpsInv u := by
  cases hu with
  | softReset => exact absurd rfl hreset
  | config _ _ hvalid => exact (GpsInv.configured hs.inst hvalid).warnIf _ _
  | clear mask => exact h.clearUnits hs mask
  | gpsStep c _ o hcfg _ ho =>
    subst ho
    exact (h.sample hcfg (hs.gpsSizes hcfg) c _ hpitch.ratioOk).congr rfl rfl rfl rfl
  | procBlock _ hcfg => exact (h.procDone hcfg (hs.gpsSizes hcfg) hpitch).congr rfl rfl rfl rfl
  | irCommit =>
    obtain ⟨_, _, _, _, _, _, _, _, hc⟩ := irCommitted_frame s
    rw [hc]
    exact h.congr rfl rfl rfl rfl
  | pRegister _ _ hp | pSet _ _ hp =>
    obtain ⟨_, _, _, _, _, _, _, rfl⟩ := hp.frame
    exact h.congr rfl rfl rfl rfl
  | pGet _ _ hp =>
    obtain ⟨_, _, rfl⟩ := hp.frame
    exact h.congr rfl rfl rfl rfl
  | nop | dlyWrite | dlyRead | dlyReadi | revStep | convStep | irBegin | irOverflow | irPush => exact h.congr rfl rfl rfl rfl

/-- The shape gives the lengths and PITCH the ratio that the ranges need, so the three are kept together. -/
theorem keptByMoves_pitch : KeptByMoves fun s => ShapeInv s ∧ PitchOk s ∧ GpsInv s where
  schedule s q h := ⟨keptByMoves_shapeInv.schedule s q h.1, h.2.1.congr rfl, h.2.2.congr rfl rfl rfl rfl⟩
  reads s r n h := ⟨keptByMoves_shapeInv.reads s r n h.1, h.2.1.congr rfl, h.2.2.congr rfl rfl rfl rfl⟩
  reset s b h := ⟨keptByMoves_shapeInv.reset s b h.1, (PitchOk.resetOf s.inst).congr rfl, fun hcfg => nomatch hcfg⟩
  error e o s h := ⟨keptByMoves_shapeInv.error e o s h.1, h.2.1.congr rfl, h.2.2.congr rfl rfl rfl rfl⟩
  complete s h := ⟨keptByMoves_shapeInv.complete s h.1, h.2.1.congr rfl, h.2.2.congr rfl rfl rfl rfl⟩
  accepted _ _ _ hreset hu h := ⟨h.1.accepted hu, h.2.1.accepted hreset hu, h.2.2.accepted h.1 h.2.1 hreset hu⟩
  written addr v s t hw h := by
    refine ⟨keptByMoves_shapeInv.written addr v s t hw h.1, ?_⟩
    cases hw <;> exact ⟨h.2.1.congr rfl, h.2.2.congr rfl rfl rfl rfl⟩

/-- Settles O59: one advance keeps a position below its length (`PosBelow.advance`), a re-anchor is below B, and every other effect leaves the
pitch shifters or puts them at their start state. -/
theorem pitchInvariant : Obligations.PitchInvariant := fun _ _ hshape hstore hgps hstep =>
  (keptByMoves_pitch.step hstep ⟨hshape, hstore.pitchOk, hgps⟩).2.2

end Sys2Proof.Machine
end

section
/-! The constant tables (44_pitch_shifter R341, 45_convolution R381): the fixed-point cosine and sine at the special angles, at scaled and at
mirrored arguments, and their range; from these the words of the window and of the twiddles. -/

namespace Sys2Proof.Machine

/-! ### The Taylor sum -/

/-- The sum alternates from its first term down. -/
theorem taylorAlt_le (xx fuel n t : Nat) : taylorAlt xx fuel n t ≤ t := by
  cases fuel with
  | zero => exact Nat.le_refl t
  | succ fuel => exact Nat.sub_le t _

/-- At the angle 0 only the first term is left. -/
theorem taylorAlt_of_square_zero (fuel n t : Nat) : taylorAlt 0 (fuel + 1) n t = t := by
  have hrest := taylorAlt_le 0 fuel (n + 2) 0
  rw [taylorAlt, Nat.mul_zero, Nat.zero_div]
  omega

/-! ### The first eighth of a turn -/

theorem angleFix_zero (den : Nat) : angleFix 0 den = 0 := by rw [angleFix, Nat.mul_zero, Nat.zero_div]

theorem angleFix_mul (num den : Nat) {k : Nat} (hk : 0 < k) : angleFix (num * k) (den * k) = angleFix num den := by
  rw [angleFix, angleFix, ← Nat.mul_assoc, Nat.mul_div_mul_right _ _ hk]

/-- An eighth of a turn is below 1. -/
theorem angleFix_le {num den : Nat} (h : 8 * num ≤ den) : angleFix num den ≤ 2 ^ 128 := by
  refine Nat.div_le_of_le_mul ?_
  unfold piFix
  omega

theorem cosEighth_zero (den : Nat) : cosEighth 0 den = 2 ^ 128 := by
  rw [cosEighth, angleFix_zero]
  exact taylorAlt_of_square_zero 19 0 (2 ^ trigBits)

theorem sinEighth_zero (den : Nat) : sinEighth 0 den = 0 := by
  rw [sinEighth, angleFix_zero]
  exact taylorAlt_of_square_zero 19 1 0

theorem cosEighth_le (num den : Nat) : cosEighth num den ≤ 2 ^ 128 := taylorAlt_le _ _ _ _

theorem sinEighth_le {num den : Nat} (h : 8 * num ≤ den) : sinEighth num den ≤ 2 ^ 128 := (taylorAlt_le _ _ _ _).trans (angleFix_le h)

/-! ### A quarter, a half and a whole turn -/

theorem cosQuarter_zero (den : Nat) : cosQuarter 0 den = 2 ^ 128 := by
  rw [cosQuarter, if_pos (by omega), cosEighth_zero]

/-- The cosine of a quarter turn is the sine of nothing. -/
theorem cosQuarter_quarter {num : Nat} (h : 1 ≤ num) : cosQuarter num (4 * num) = 0 := by
  rw [cosQuarter, if_neg (by omega), Nat.sub_self, sinEighth_zero]

theorem cosQuarter_le {num den : Nat} (h : 4 * num ≤ den) : cosQuarter num den ≤ 2 ^ 128 := by
  unfold cosQuarter
  split
  · exact cosEighth_le num den
  · exact sinEighth_le (by omega)

theorem cosTurns_of_le_half {num den : Nat} (h : 2 * num ≤ den) : cosTurns num den = cosHalf num den := if_pos h

theorem cosTurns_zero (den : Nat) : cosTurns 0 den = 2 ^ 128 := by
  rw [cosTurns_of_le_half (by omega), cosHalf, if_pos (by omega), cosQuarter_zero]
  rfl

theorem cosTurns_quarter {num : Nat} (h : 1 ≤ num) : cosTurns num (4 * num) = 0 := by
  rw [cosTurns_of_le_half (by omega), cosHalf, if_pos le_rfl, cosQuarter_quarter h]
  rfl

theorem cosTurns_half {num : Nat} (h : 1 ≤ num) : cosTurns num (2 * num) = -2 ^ 128 := by
  rw [cosTurns_of_le_half le_rfl, cosHalf, if_neg (by omega), Nat.sub_self, cosQuarter_zero]
  rfl

/-- The cosine is even around the half turn. -/
theorem cosTurns_sub {num den : Nat} (h : num ≤ den) : cosTurns (den - num) den = cosTurns num den := by
  rcases Nat.lt_trichotomy (2 * num) den with hlt | heq | hgt
  · rw [cosTurns, if_neg (by omega), Nat.sub_sub_self h, cosTurns_of_le_half hlt.le]
  · rw [show den - num = num by omega]
  · rw [cosTurns_of_le_half (by omega), cosTurns, if_neg (by omega)]

theorem cosHalf_bounds {num den : Nat} (h : 2 * num ≤ den) : -2 ^ 128 ≤ cosHalf num den ∧ cosHalf num den ≤ 2 ^ 128 := by
  unfold cosHalf
  split
  case isTrue hq =>
    have := cosQuarter_le hq
    omega
  case isFalse =>
    have := cosQuarter_le (num := den - 2 * num) (den := 2 * den) (by omega)
    omega

/-- Every fixed-point cosine lies in [-1, 1]. -/
theorem cosTurns_bounds {num den : Nat} (h : num ≤ den) : -2 ^ 128 ≤ cosTurns num den ∧ cosTurns num den ≤ 2 ^ 128 := by
  unfold cosTurns
  split
  · exact cosHalf_bounds ‹_›
  · exact cosHalf_bounds (by omega)

/-! ### The argument is a quotient -/

section
variable (num den : Nat) {k : Nat} (hk : 0 < k)
include hk

theorem cosEighth_mul : cosEighth (num * k) (den * k) = cosEighth num den := by rw [cosEighth, cosEighth, angleFix_mul _ _ hk]

theorem sinEighth_mul : sinEighth (num * k) (den * k) = sinEighth num den := by rw [sinEighth, sinEighth, angleFix_mul _ _ hk]

/-- A comparison of a multiple of the numerator with the denominator does not see a common factor. -/
theorem mul_factor_le_iff (c : Nat) : c * (num * k) ≤ den * k ↔ c * num ≤ den := by
  rw [← Nat.mul_assoc, Nat.mul_le_mul_right_iff hk]

theorem cosQuarter_mul : cosQuarter (num * k) (den * k) = cosQuarter num den := by
  have hrest : den * k - 4 * (num * k) = (den - 4 * num) * k := by rw [← Nat.mul_assoc, Nat.sub_mul]
  rw [cosQuarter, cosQuarter, hrest, ← Nat.mul_assoc 4 den, cosEighth_mul num den hk, sinEighth_mul _ _ hk]
  simp only [mul_factor_le_iff num den hk]

theorem cosHalf_mul : cosHalf (num * k) (den * k) = cosHalf num den := by
  have hrest : den * k - 2 * (num * k) = (den - 2 * num) * k := by rw [← Nat.mul_assoc, Nat.sub_mul]
  rw [cosHalf, cosHalf, hrest, ← Nat.mul_assoc 2 den, cosQuarter_mul num den hk, cosQuarter_mul _ _ hk]
  simp only [mul_factor_le_iff num den hk]

theorem cosTurns_mul : cosTurns (num * k) (den * k) = cosTurns num den := by
  rw [cosTurns, cosTurns, ← Nat.sub_mul, cosHalf_mul num den hk, cosHalf_mul _ _ hk]
  simp only [mul_factor_le_iff num den hk]

theorem sinTurns_mul : sinTurns (num * k) (den * k) = sinTurns num den := by
  rw [sinTurns, sinTurns, ← Nat.mul_assoc, ← Nat.mul_assoc, ← Nat.sub_mul, ← Nat.sub_mul, ← Nat.add_mul, cosTurns_mul _ _ hk]

end

/-! ### The sine at the special angles -/

theorem sinTurns_zero {den : Nat} (h : 1 ≤ den) : sinTurns 0 den = 0 := by
  rw [sinTurns, show 4 * 0 - den + (den - 4 * 0) = den by omega, cosTurns_quarter h]

theorem sinTurns_quarter (num : Nat) : sinTurns num (4 * num) = 2 ^ 128 := by
  rw [sinTurns, Nat.sub_self, cosTurns_zero]

/-! ### The window (44_pitch_shifter R341) -/

/-- A window entry as the rounding of the magnitude of 1 - cos, which is not negative. -/
theorem hannEntry_eq {g n : Nat} (h : n ≤ g) :
    hannEntry g n = F32.round false (((2 : Int) ^ 128 - cosTurns n g).natAbs * 2 ^ 149) (2 ^ 129)
      ∧ ((2 : Int) ^ 128 - cosTurns n g).natAbs ≤ 2 ^ 129 := by
  obtain ⟨hlow, hhigh⟩ := cosTurns_bounds h
  refine ⟨?_, by omega⟩
  have hsign : decide ((2 : Int) ^ 128 - cosTurns n g < 0) = false := decide_eq_false (by omega)
  rw [← hsign]
  rfl

theorem sign_hannEntry {g n : Nat} (h : n ≤ g) : F32.sign (hannEntry g n) = false := by
  rw [(hannEntry_eq h).1, F32.sign_round]

/-- The entries lie in [0, 1]: a rounding keeps bounds that are binary32 values. -/
theorem hannEntry_between {g n : Nat} (h : n ≤ g) :
    F32.ge (hannEntry g n) 0#32 = true ∧ F32.ge 0x3F800000#32 (hannEntry g n) = true := by
  obtain ⟨heq, hle⟩ := hannEntry_eq h
  have hzero : F32.fix 0#32 = 0 := rfl
  have hnear := F32.isNearestEven_round false (num := ((2 : Int) ^ 128 - cosTurns n g).natAbs * 2 ^ 149) (den := 2 ^ 129) (by positivity)
    (by unfold overflowFrom; omega)
  rw [← heq] at hnear
  refine (F32.between_iff_fix rfl rfl).2 ⟨hnear.1, hnear.le_fix (by positivity) rfl ?_, hnear.fix_le (by positivity) rfl ?_⟩
  · rw [hzero, Int.zero_mul]
    exact Int.natCast_nonneg _
  · rw [F32.fix_one]
    unfold signedNum
    rw [if_neg Bool.false_ne_true]
    omega

theorem isFinite_hannEntry {g n : Nat} (h : n ≤ g) : F32.isFinite (hannEntry g n) = true := by
  obtain ⟨hlow, hhigh⟩ := hannEntry_between h
  exact F32.isFinite_of_between rfl rfl hlow hhigh

theorem hannEntry_of_cosTurns {g n : Nat} {c : Int} (h : cosTurns n g = c) :
    hannEntry g n = F32.round (decide (2 ^ 128 - c < 0)) ((2 ^ 128 - c).natAbs * 2 ^ 149) (2 ^ 129) := by
  subst h
  rfl

theorem hannEntry_zero (g : Nat) : hannEntry g 0 = 0#32 := (hannEntry_of_cosTurns (cosTurns_zero g)).trans rfl

theorem hannEntry_half {m : Nat} (h : 1 ≤ m) : hannEntry (2 * m) m = 0x3F800000#32 := (hannEntry_of_cosTurns (cosTurns_half h)).trans rfl

theorem hannEntry_quarter {m : Nat} (h : 1 ≤ m) : hannEntry (4 * m) m = 0x3F000000#32 :=
  (hannEntry_of_cosTurns (cosTurns_quarter h)).trans rfl

theorem hannEntry_sub {g n : Nat} (h : n ≤ g) : hannEntry g (g - n) = hannEntry g n := hannEntry_of_cosTurns (cosTurns_sub h)

/-! ### The twiddles (45_convolution R381) -/

theorem rndFix_zero : rndFix 0 = 0#32 := rfl

theorem rndFix_one : rndFix (2 ^ 128) = 0x3F800000#32 := rfl

/-- Settles O35: the window by the cosine's special values, range and mirror image (`cosTurns_bounds`, `cosTurns_sub`), the twiddles by its
special values and by its invariance under a common factor (`cosTurns_mul`). -/
theorem constantTables : Obligations.ConstantTables := by
  refine ⟨fun g heven hg => ⟨hannEntry_zero g, ?_, fun hfour => ?_, fun n hn => hannEntry_between hn.le, fun n _ hn => hannEntry_sub hn.le⟩,
    fun n hn => ?_, fun n hn hfour => ?_, fun n t k _ hk => ?_⟩
  · obtain ⟨m, rfl⟩ : ∃ m, g = 2 * m := ⟨g / 2, by omega⟩
    rw [Nat.mul_div_cancel_left m two_pos]
    exact hannEntry_half (by omega)
  · obtain ⟨m, rfl⟩ : ∃ m, g = 4 * m := ⟨g / 4, by omega⟩
    rw [show 3 * (4 * m) / 4 = 4 * m - m by omega, show 4 * m / 4 = m by omega, hannEntry_sub (by omega)]
    exact ⟨hannEntry_quarter (by omega), hannEntry_quarter (by omega)⟩
  · rw [twiddleCos, twiddleSin, cosTurns_zero, sinTurns_zero (by omega)]
    exact ⟨rndFix_one, rndFix_zero⟩
  · obtain ⟨m, rfl⟩ : ∃ m, n = 4 * m := ⟨n / 4, by omega⟩
    rw [show 4 * m / 4 = m by omega, twiddleCos, twiddleSin, cosTurns_quarter (by omega), sinTurns_quarter]
    exact ⟨rndFix_zero, rndFix_one⟩
  · rw [twiddleCos, twiddleCos, twiddleSin, twiddleSin, cosTurns_mul t n hk, sinTurns_mul t n hk]
    exact ⟨rfl, rfl⟩

end Sys2Proof.Machine
end

section
/-! The pitch shifter at the ratio 1.0 (44_pitch_shifter R342, R344, R348): positions and phases count samples, the ring is a delay buffer, and
both grains read one grain length back. Then GPS_STEP with its whole next state (R345). -/

namespace Sys2Proof.Machine

/-! ### Counting in binary32 -/

theorem F32.ofNat_succ {m : Nat} (h : m + 1 < 2 ^ 24) : F32.add (F32.ofNat m) 0x3F800000#32 = F32.ofNat (m + 1) := by
  obtain ⟨hfin, hfix, -⟩ := F32.ofNat_exact m (by omega)
  have hsum : F32.fix (F32.ofNat m) + F32.fix 0x3F800000#32 = ((m + 1) * 2 ^ 149 : Nat) := by
    rw [hfix, F32.fix_one]
    push_cast
    ring
  rw [F32.add_of_finite hfin rfl, hsum, if_neg (by omega), Int.natAbs_natCast, decide_eq_false (by omega)]
  rfl

theorem F32.ge_ofNat_iff {m n : Nat} (hm : m < 2 ^ 24) (hn : n < 2 ^ 24) : F32.ge (F32.ofNat m) (F32.ofNat n) = true ↔ n ≤ m := by
  obtain ⟨hmfin, hmfix, -⟩ := F32.ofNat_exact m hm
  obtain ⟨hnfin, hnfix, -⟩ := F32.ofNat_exact n hn
  rw [F32.ge_iff_fix hmfin hnfin, hmfix, hnfix]
  omega

theorem F32.sub_ofNat_self {n : Nat} (hn : n < 2 ^ 24) : F32.sub (F32.ofNat n) (F32.ofNat n) = F32.ofNat 0 := by
  obtain ⟨hfin, -, hsign⟩ := F32.ofNat_exact n hn
  rw [F32.sub, F32.add_of_finite hfin (by rwa [F32.isFinite_neg]), F32.fix_neg, F32.sign_neg, if_pos (add_neg_cancel _), hsign]
  rfl

theorem F32.trunc_ofNat {n : Nat} (hn : n < 2 ^ 24) : F32.trunc (F32.ofNat n) = n := by
  obtain ⟨hfin, hfix, -⟩ := F32.ofNat_exact n hn
  exact F32.trunc_of_fix hfin hfix

/-- At the ratio 1.0 an advance counts modulo the length. -/
theorem advance_ofNat {m n : Nat} (hm : m < n) (hn : n < 2 ^ 24) : advance (F32.ofNat m) 0x3F800000#32 n = F32.ofNat ((m + 1) % n) := by
  rw [advance, F32.ofNat_succ (by omega)]
  rcases Nat.lt_or_ge (m + 1) n with hlt | hge
  · rw [if_neg (by rw [F32.ge_ofNat_iff (by omega) hn]; omega), Nat.mod_eq_of_lt hlt]
  · obtain rfl : m + 1 = n := by omega
    rw [if_pos ((F32.ge_ofNat_iff hn hn).2 le_rfl), F32.sub_ofNat_self hn, Nat.mod_self]

/-! ### The state after some samples (R344) -/

/-- The channel after the samples `xs`. -/
def gpsAfter (g b : Nat) (win : Samples) (r : F32) (c : GpsCh) (xs : List F32) : GpsCh :=
  xs.foldl (fun c x => (gpsSample g b win c x r).2) c

theorem gpsOutputs_getElem? (g b : Nat) (win : Samples) (r : F32) (c : GpsCh) {xs : List F32} {n : Nat} (hn : n < xs.length) :
    (gpsOutputs g b win r c xs)[n]? = some (gpsSample g b win (gpsAfter g b win r c (xs.take n)) xs[n] r).1 := by
  induction xs generalizing c n with
  | nil => exact absurd hn (Nat.not_lt_zero n)
  | cons x xs ih =>
    cases n with
    | zero => rfl
    | succ n => exact ih (gpsSample g b win c x r).2 (Nat.lt_of_succ_lt_succ hn)

/-- The channel at the ratio 1.0 after `n` samples that stand in the delay buffer `db`: the read positions are n + 7G in the ring of 8G, the
phases n and n + G/2 in the grain. -/
def gpsUnity (g n : Nat) (db : DelayBuf) : GpsCh :=
  ⟨db.buf, db.w, F32.ofNat ((n + 7 * g) % (8 * g)), F32.ofNat ((n + 7 * g) % (8 * g)), F32.ofNat (n % g), F32.ofNat ((n + g / 2) % g)⟩

theorem foldl_dbWrite_count (cap : Nat) (xs : List F32) : (xs.foldl dbWrite (DelayBuf.empty cap)).w = xs.length % cap := by
  induction xs using List.reverseRecOn with
  | nil => exact (Nat.zero_mod cap).symm
  | append_singleton xs x ih =>
    rw [List.foldl_concat, dbWrite_w, ih, foldl_dbWrite_cap, List.length_append, List.length_singleton]
    exact Nat.mod_add_mod _ _ _

/-- A re-anchored position is where the advance leads anyway, so whether the phase wraps makes no difference. -/
theorem gpsSample_unity {g n : Nat} (hg : 8 ≤ g) (hmax : g ≤ 2 ^ 13) (win : Samples) {db : DelayBuf} (hcap : db.cap = 8 * g)
    (hw : db.w = n % (8 * g)) (x : F32) :
    (gpsSample g (8 * g) win (gpsUnity g n db) x 0x3F800000#32).2 = gpsUnity g (n + 1) (dbWrite db x) := by
  have hphase (m : Nat) : advance (F32.ofNat (m % g)) 0x3F800000#32 g = F32.ofNat ((m + 1) % g) := by
    rw [advance_ofNat (Nat.mod_lt _ (by omega)) (by omega), Nat.mod_add_mod]
  have hread : advance (F32.ofNat ((n + 7 * g) % (8 * g))) 0x3F800000#32 (8 * g) = F32.ofNat ((n + 1 + 7 * g) % (8 * g)) := by
    rw [advance_ofNat (Nat.mod_lt _ (by omega)) (by omega), Nat.mod_add_mod, Nat.add_right_comm]
  have hanchor : ((db.w + 1) % (8 * g) + 8 * g - g) % (8 * g) = (n + 1 + 7 * g) % (8 * g) := by
    rw [hw, Nat.mod_add_mod, show (n + 1) % (8 * g) + 8 * g - g = (n + 1) % (8 * g) + 7 * g by omega, Nat.mod_add_mod]
  simp only [gpsSample, gpsUnity, hphase, hread, hanchor, ite_self, dbWrite, hcap, Nat.add_right_comm n (g / 2) 1]

theorem gpsStart_unity {g : Nat} (hg : 8 ≤ g) : gpsStart g (8 * g) = gpsUnity g 0 (DelayBuf.empty (8 * g)) := by
  rw [gpsStart_configured, gpsUnity, Nat.zero_mod, Nat.zero_add, Nat.mod_eq_of_lt (by omega), Nat.zero_add, Nat.mod_eq_of_lt (by omega)]
  rfl

theorem gpsAfter_unity {g : Nat} (hg : 8 ≤ g) (hmax : g ≤ 2 ^ 13) (win : Samples) (xs : List F32) :
    gpsAfter g (8 * g) win 0x3F800000#32 (gpsStart g (8 * g)) xs
      = gpsUnity g xs.length (xs.foldl dbWrite (DelayBuf.empty (8 * g))) := by
  induction xs using List.reverseRecOn with
  | nil => exact gpsStart_unity hg
  | append_singleton xs x ih =>
    rw [gpsAfter, List.foldl_concat, ← gpsAfter, ih, List.foldl_concat, List.length_append, List.length_singleton]
    exact gpsSample_unity hg hmax win (foldl_dbWrite_cap xs _) (foldl_dbWrite_count _ xs) x

/-! ### The output (R348) -/

/-- After the write of sample n, the slot n + 7G of the ring of 8G is the delay G of the buffer. -/
theorem dbRead_grain {g n : Nat} (hg : 8 ≤ g) {db : DelayBuf} (hcap : db.cap = 8 * g) (hw : db.w = n % (8 * g)) (x : F32) :
    sparseGet (dbWrite db x).buf ((n + 7 * g) % (8 * g)) = dbRead (dbWrite db x) g := by
  have hlt : g < (dbWrite db x).cap := by
    rw [dbWrite_cap]
    omega
  rw [dbRead, dbSlot_of_lt hlt, dbWrite_w, dbWrite_cap, hcap, hw, Nat.mod_add_mod, Nat.add_assoc, Nat.mod_add_mod]
  congr 2
  omega

/-- The sample G back, +0.0 while there is none. -/
theorem getD_reverse_take (xs : List F32) {g n : Nat} (hn : n < xs.length) :
    (xs.take (n + 1)).reverse.getD g 0#32 = if n < g then 0#32 else xs.getD (n - g) 0#32 := by
  rw [List.getD_eq_getElem?_getD, List.getD_eq_getElem?_getD]
  split
  case isTrue hlt =>
    rw [List.getElem?_eq_none (by rw [List.length_reverse, List.length_take]; omega), Option.getD_none]
  case isFalse hge =>
    rw [List.getElem?_reverse (by rw [List.length_take]; omega), List.length_take, List.getElem?_take]
    rw [if_pos (by omega), show min (n + 1) xs.length - 1 - g = n - g by omega]

/-- The output of the channel at the ratio 1.0, for any buffer behind it. -/
theorem gpsSample_unity_output {g n : Nat} (hg : 8 ≤ g) (hmax : g ≤ 2 ^ 13) {db : DelayBuf} (hcap : db.cap = 8 * g)
    (hw : db.w = n % (8 * g)) (x : F32) :
    (gpsSample g (8 * g) (windowTable g) (gpsUnity g n db) x 0x3F800000#32).1 =
      F32.mul (F32.add (F32.mul (dbRead (dbWrite db x) g) (hannEntry g (n % g)))
        (F32.mul (dbRead (dbWrite db x) g) (hannEntry g ((n % g + g / 2) % g)))) 0x3F000000#32 := by
  have hpos : (n + 7 * g) % (8 * g) < 8 * g := Nat.mod_lt _ (by omega)
  have hph1 : n % g < g := Nat.mod_lt _ (by omega)
  have hph2 : (n + g / 2) % g < g := Nat.mod_lt _ (by omega)
  have hring : sparseSet db.buf db.w x = (dbWrite db x).buf := rfl
  have hhalf : F32.rnd32 5 10 = 0x3F000000#32 := rfl
  simp only [gpsSample, gpsUnity]
  rw [F32.trunc_ofNat (by omega), F32.trunc_ofNat (by omega), F32.trunc_ofNat (by omega), hring, dbRead_grain hg hcap hw, windowTable_get,
    windowTable_get, if_pos hph1, if_pos hph2, hhalf, Nat.mod_add_mod]

/-- A zero through both windows is +0.0: their entries are not negative. -/
theorem windowed_zero {a b : F32} (ha : F32.isFinite a = true) (hb : F32.isFinite b = true) (hsa : F32.sign a = false)
    (hsb : F32.sign b = false) : F32.mul (F32.add (F32.mul 0#32 a) (F32.mul 0#32 b)) 0x3F000000#32 = 0#32 := by
  rw [CoeffOk.zero_mul ⟨ha, hsa⟩, CoeffOk.zero_mul ⟨hb, hsb⟩]
  rfl

/-- Settles O34: before sample n the channel is `gpsUnity` (`gpsAfter_unity`), whose output reads the ring one grain length back; there the
ring holds the input G samples before, or +0.0, by the round trip of the delay buffer. -/
theorem gpsUnityPitch : Obligations.GpsUnityPitch := by
  intro g xs n _ hg hmax hn
  have hlen : (xs.take n).length = n := by rw [List.length_take]; omega
  have hcount := foldl_dbWrite_count (8 * g) (xs.take n)
  rw [hlen] at hcount
  have hdelay : dbRead (dbWrite ((xs.take n).foldl dbWrite (DelayBuf.empty (8 * g))) xs[n]) g
      = if n < g then 0#32 else xs.getD (n - g) 0#32 := by
    rw [← List.foldl_concat (f := dbWrite), ← List.take_succ_eq_append_getElem hn, delayRoundTrip _ _ _ (by omega), getD_reverse_take xs hn]
  rw [gpsOutputs_getElem? _ _ _ _ _ hn, gpsAfter_unity hg hmax, hlen,
    gpsSample_unity_output hg hmax (foldl_dbWrite_cap _ _) hcount, hdelay]
  have hph1 : n % g ≤ g := (Nat.mod_lt _ (by omega)).le
  have hph2 : (n % g + g / 2) % g ≤ g := (Nat.mod_lt _ (by omega)).le
  split
  · rw [windowed_zero (isFinite_hannEntry hph1) (isFinite_hannEntry hph2) (sign_hannEntry hph1) (sign_hannEntry hph2)]
  · rfl

/-! ### GPS_STEP (R345) -/

theorem exec_gpsStep (c : Nat) (s : State) :
    exec (.gpsStep c) s = channelCommand c s
      (setRes0 (gpsSample s.grain s.ringB s.win (gpsAt s c) s.larg.w0 (pitchOf s)).1
        (setGps c (gpsSample s.grain s.ringB s.win (gpsAt s c) s.larg.w0 (pitchOf s)).2 s)) := rfl

theorem gpsAt_of_getElem? {s : State} {c : Nat} {g : GpsCh} (h : s.gps[c]? = some g) : gpsAt s c = g := by
  rw [gpsAt, List.getD_eq_getElem?_getD, h, Option.getD_some]

/-- Settles O33: the two checks, then the pseudocode of R344 on the channel of the list, half being the word 0x3F000000; a phase that has
reached G is the same test as its wrap. -/
theorem gpsStepCommand : Obligations.GpsStepCommand := by
  refine ⟨fun c hc => decodeEncode (.gpsStep c) (decide_eq_true hc), fun c s => ?_⟩
  rw [exec_gpsStep]
  refine ⟨channelCommand_unconfigured _, channelCommand_badUnit _, fun g hcfg hc hg => ?_⟩
  have hhalf : F32.rnd32 5 10 = 0x3F000000#32 := rfl
  rw [channelCommand_accepted _ hcfg hc, gpsAt_of_getElem? hg, gpsSample, hhalf]
  rfl

end Sys2Proof.Machine
end

section
/-! The fixed-point cosine and sine against the real functions (44_pitch_shifter R341, 45_convolution R381): the Taylor sum over the reals and
its distance to cos and sin, the fixed-point sum and angle against the real ones, and the reduction to the first eighth of a turn. -/

namespace Sys2Proof.Machine

/-! ### The Taylor sum over the reals -/

/-- What `taylorAlt` computes, over the reals and for the first term 1, with `ξ` the square of the angle. -/
noncomputable def taylorFactor (ξ : ℝ) : ℕ → ℕ → ℝ
  | 0, _ => 1
  | fuel + 1, n => 1 - ξ / ((n + 1) * (n + 2)) * taylorFactor ξ fuel (n + 2)

/-- The weight of the rest of the sum: at most half of the square of the angle. -/
theorem taylorWeight_bounds {ξ : ℝ} (h0 : 0 ≤ ξ) (n : ℕ) : 0 ≤ ξ / ((n + 1) * (n + 2)) ∧ ξ / ((n + 1) * (n + 2)) ≤ ξ / 2 := by
  have hn : (0 : ℝ) ≤ n := n.cast_nonneg
  exact ⟨by positivity, div_le_div_of_nonneg_left h0 two_pos (by nlinarith)⟩

theorem taylorFactor_bounds {ξ : ℝ} (h0 : 0 ≤ ξ) (h1 : ξ ≤ 1) (fuel n : ℕ) : 0 ≤ taylorFactor ξ fuel n ∧ taylorFactor ξ fuel n ≤ 1 := by
  induction fuel generalizing n with
  | zero => exact ⟨zero_le_one, le_rfl⟩
  | succ fuel ih =>
    obtain ⟨hr0, hr1⟩ := ih (n + 2)
    obtain ⟨hw0, hw1⟩ := taylorWeight_bounds h0 n
    rw [taylorFactor]
    constructor <;> nlinarith

/-- The sum moves no more than the square of the angle does. -/
theorem taylorFactor_lipschitz {ξ η : ℝ} (hξ0 : 0 ≤ ξ) (hξ1 : ξ ≤ 1) (hη0 : 0 ≤ η) (hη1 : η ≤ 1) (fuel n : ℕ) :
    |taylorFactor ξ fuel n - taylorFactor η fuel n| ≤ |ξ - η| := by
  induction fuel generalizing n with
  | zero => simp [taylorFactor]
  | succ fuel ih =>
    have hn : (0 : ℝ) ≤ n := n.cast_nonneg
    have hD : (2 : ℝ) ≤ (n + 1) * (n + 2) := by nlinarith
    have hrest := ih (n + 2)
    obtain ⟨hr0, hr1⟩ := taylorFactor_bounds hξ0 hξ1 fuel (n + 2)
    have hsplit : taylorFactor ξ (fuel + 1) n - taylorFactor η (fuel + 1) n
        = ((η - ξ) * taylorFactor ξ fuel (n + 2) + η * (taylorFactor η fuel (n + 2) - taylorFactor ξ fuel (n + 2))) / ((n + 1) * (n + 2)) := by
      simp only [taylorFactor]
      ring
    rw [hsplit, abs_div, abs_of_pos (by linarith : (0 : ℝ) < (n + 1) * (n + 2)), div_le_iff₀ (by linarith)]
    calc |(η - ξ) * taylorFactor ξ fuel (n + 2) + η * (taylorFactor η fuel (n + 2) - taylorFactor ξ fuel (n + 2))|
        ≤ |ξ - η| * taylorFactor ξ fuel (n + 2) + η * |taylorFactor ξ fuel (n + 2) - taylorFactor η fuel (n + 2)| := by
          refine (abs_add_le _ _).trans (le_of_eq ?_)
          rw [abs_mul, abs_mul, abs_of_nonneg hr0, abs_of_nonneg hη0, abs_sub_comm η ξ, abs_sub_comm (taylorFactor η fuel (n + 2))]
      _ ≤ |ξ - η| * 1 + 1 * |ξ - η| := by gcongr
      _ = |ξ - η| * 2 := by ring
      _ ≤ |ξ - η| * ((n + 1) * (n + 2)) := by gcongr

/-- The terms of the sum. -/
theorem taylorFactor_eq_sum (ξ : ℝ) (fuel n : ℕ) :
    taylorFactor ξ fuel n = ∑ k ∈ Finset.range (fuel + 1), (-ξ) ^ k * (n.factorial / (n + 2 * k).factorial) := by
  have hne (m : ℕ) : (m.factorial : ℝ) ≠ 0 := Nat.cast_ne_zero.2 m.factorial_ne_zero
  induction fuel generalizing n with
  | zero => simp [taylorFactor, hne]
  | succ fuel ih =>
    rw [taylorFactor, ih, Finset.sum_range_succ' _ (fuel + 1), Finset.mul_sum, sub_eq_neg_add, ← Finset.sum_neg_distrib]
    congr 1
    · refine Finset.sum_congr rfl fun k _ => ?_
      have hfac : ((n + 2).factorial : ℝ) = (n + 2) * ((n + 1) * n.factorial) := by
        rw [Nat.factorial_succ, Nat.factorial_succ]
        push_cast
        ring
      rw [show n + 2 + 2 * k = n + 2 * (k + 1) by ring, hfac]
      have hn : (n : ℝ) + 1 ≠ 0 := by positivity
      have hn' : (n : ℝ) + 2 ≠ 0 := by positivity
      field_simp
      ring
    · simp [hne]

/-! ### The Taylor sum against cos and sin -/

/-- The partial sums of the exponential series at iθ, by real and imaginary part. -/
theorem sum_exp_I (θ : ℝ) (m : ℕ) :
    ∑ k ∈ Finset.range (2 * m), ((θ : ℂ) * Complex.I) ^ k / k.factorial
      = ((∑ k ∈ Finset.range m, (-θ ^ 2) ^ k / (2 * k).factorial : ℝ) : ℂ)
        + ((∑ k ∈ Finset.range m, θ * (-θ ^ 2) ^ k / (2 * k + 1).factorial : ℝ) : ℂ) * Complex.I := by
  induction m with
  | zero => simp
  | succ m ih =>
    have heven : ((θ : ℂ) * Complex.I) ^ (2 * m) = ((-θ ^ 2) ^ m : ℝ) := by
      rw [pow_mul, mul_pow, Complex.I_sq]
      push_cast
      ring
    have hodd : ((θ : ℂ) * Complex.I) ^ (2 * m + 1) = ((-θ ^ 2) ^ m : ℝ) * (θ * Complex.I) := by rw [pow_succ, heven]
    rw [show 2 * (m + 1) = 2 * m + 1 + 1 by ring, Finset.sum_range_succ, Finset.sum_range_succ, ih, Finset.sum_range_succ,
      Finset.sum_range_succ, heven, hodd]
    push_cast
    ring

/-- The bound on the rest of the series after 42 terms. -/
theorem taylor_rest {θ : ℝ} (h0 : 0 ≤ θ) (h1 : θ ≤ 1) :
    |Real.cos θ - taylorFactor (θ ^ 2) 20 0| ≤ 1 / 2 ^ 128 ∧ |Real.sin θ - θ * taylorFactor (θ ^ 2) 20 1| ≤ 1 / 2 ^ 128 := by
  have hnorm : ‖(θ : ℂ) * Complex.I‖ = θ := by simp [abs_of_nonneg h0]
  have hrest := Complex.exp_bound' (x := (θ : ℂ) * Complex.I) (n := 2 * 21) (by rw [hnorm]; norm_num; linarith)
  have hsmall : θ ^ (2 * 21) / (2 * 21).factorial * 2 ≤ 1 / 2 ^ 128 := by
    have hpow : θ ^ 42 ≤ 1 := pow_le_one₀ h0 h1
    norm_num [Nat.factorial]
    linarith
  rw [hnorm, sum_exp_I, Complex.exp_mul_I, ← Complex.ofReal_cos, ← Complex.ofReal_sin] at hrest
  have hcos : taylorFactor (θ ^ 2) 20 0 = ∑ k ∈ Finset.range 21, (-θ ^ 2) ^ k / (2 * k).factorial := by
    rw [taylorFactor_eq_sum]
    refine Finset.sum_congr rfl fun k _ => ?_
    rw [Nat.zero_add, Nat.factorial_zero, Nat.cast_one, mul_one_div]
  have hsin : θ * taylorFactor (θ ^ 2) 20 1 = ∑ k ∈ Finset.range 21, θ * (-θ ^ 2) ^ k / (2 * k + 1).factorial := by
    rw [taylorFactor_eq_sum, Finset.mul_sum]
    refine Finset.sum_congr rfl fun k _ => ?_
    rw [Nat.add_comm 1, Nat.factorial_one, Nat.cast_one, mul_one_div, mul_div_assoc]
  have hre := (Complex.abs_re_le_norm _).trans (hrest.trans hsmall)
  have him := (Complex.abs_im_le_norm _).trans (hrest.trans hsmall)
  rw [← hcos, ← hsin] at hre him
  exact ⟨by simpa [-Complex.ofReal_cos, -Complex.ofReal_sin] using hre, by simpa [-Complex.ofReal_cos, -Complex.ofReal_sin] using him⟩

/-! ### The fixed-point sum against the real one -/

/-- A natural quotient is within 1 of the real one. -/
theorem abs_natDiv_sub_le (a b : ℕ) : |((a / b : ℕ) : ℝ) - a / b| ≤ 1 := by
  have hle : ((a / b : ℕ) : ℝ) ≤ a / b := Nat.cast_div_le
  have hlt : (a : ℝ) / b < ((a / b : ℕ) : ℝ) + 1 := by
    rw [← Nat.floor_div_eq_div (K := ℝ)]
    exact Nat.lt_floor_add_one _
  rw [abs_le]
  constructor <;> linarith

/-- Every division adds at most one unit, and no later step makes it larger. -/
theorem abs_taylorAlt_sub_le {xx : ℕ} (hxx : xx ≤ 2 ^ 128) (fuel n t : ℕ) :
    |(taylorAlt xx fuel n t : ℝ) - t * taylorFactor (xx / 2 ^ 128) fuel n| ≤ fuel := by
  have hξ1 : (xx : ℝ) / 2 ^ 128 ≤ 1 := by
    rw [div_le_one (by positivity)]
    exact_mod_cast hxx
  induction fuel generalizing n t with
  | zero => simp [taylorAlt, taylorFactor]
  | succ fuel ih =>
    obtain ⟨t', ht'⟩ : ∃ t', t' = t * xx / ((n + 1) * (n + 2) * 2 ^ trigBits) := ⟨_, rfl⟩
    have hle : t' ≤ t := by
      rw [ht', trigBits]
      refine Nat.div_le_of_le_mul ?_
      calc t * xx ≤ t * 2 ^ 128 := Nat.mul_le_mul_left t hxx
        _ ≤ t * ((n + 1) * (n + 2) * 2 ^ 128) := Nat.mul_le_mul_left t (Nat.le_mul_of_pos_left _ (by positivity))
        _ = (n + 1) * (n + 2) * 2 ^ 128 * t := Nat.mul_comm _ _
    have hsub : (taylorAlt xx (fuel + 1) n t : ℝ) = t - taylorAlt xx fuel (n + 2) t' := by
      rw [taylorAlt, ← ht', Nat.cast_sub ((taylorAlt_le _ _ _ _).trans hle)]
    have hfloor : |(t' : ℝ) - t * (xx / 2 ^ 128 / ((n + 1) * (n + 2)))| ≤ 1 := by
      have hq := abs_natDiv_sub_le (t * xx) ((n + 1) * (n + 2) * 2 ^ 128)
      rw [trigBits] at ht'
      rw [← ht'] at hq
      simp only [Nat.cast_mul, Nat.cast_add, Nat.cast_one, Nat.cast_pow, Nat.cast_ofNat] at hq
      have hn : (0 : ℝ) < (n + 1) * (n + 2) := by positivity
      rwa [show (t : ℝ) * (xx / 2 ^ 128 / ((n + 1) * (n + 2))) = t * xx / ((n + 1) * (n + 2) * 2 ^ 128) by field_simp]
    obtain ⟨hr0, hr1⟩ := taylorFactor_bounds (by positivity) hξ1 fuel (n + 2)
    have hrest := ih (n + 2) t'
    rw [hsub, taylorFactor]
    generalize taylorFactor (xx / 2 ^ 128) fuel (n + 2) = r at *
    generalize (taylorAlt xx fuel (n + 2) t' : ℝ) = v at *
    have hsplit : (t : ℝ) - v - t * (1 - xx / 2 ^ 128 / ((n + 1) * (n + 2)) * r)
        = -((v - t' * r) + (t' - t * (xx / 2 ^ 128 / ((n + 1) * (n + 2)))) * r) := by ring
    rw [hsplit, abs_neg, Nat.cast_succ]
    refine (abs_add_le _ _).trans (add_le_add hrest ?_)
    rw [abs_mul, abs_of_nonneg hr0]
    exact mul_le_one₀ hfloor hr0 hr1

/-! ### The angle -/

/-- The angle of `num / den` turns. -/
noncomputable def turnAngle (num den : ℕ) : ℝ := 2 * Real.pi * num / den

/-- π is known to 20 decimal places. -/
theorem abs_piFix_sub_le : |(piFix : ℝ) / 2 ^ 128 - Real.pi| ≤ 1 / 10 ^ 20 := by
  have hlow := Real.pi_gt_d20
  have hhigh := Real.pi_lt_d20
  rw [abs_le, piFix]
  constructor <;> norm_num at * <;> linarith

theorem turnAngle_bounds {num den : ℕ} (h : 8 * num ≤ den) : 0 ≤ turnAngle num den ∧ turnAngle num den ≤ 1 := by
  have hpi := Real.pi_pos
  refine ⟨by unfold turnAngle; positivity, div_le_one_of_le₀ ?_ den.cast_nonneg⟩
  have hle : (8 : ℝ) * num ≤ den := by exact_mod_cast h
  have hpi4 := Real.pi_le_four
  have hnum : (0 : ℝ) ≤ num := num.cast_nonneg
  nlinarith

theorem abs_angleFix_sub_le {num den : ℕ} (h : 8 * num ≤ den) : |(angleFix num den : ℝ) / 2 ^ 128 - turnAngle num den| ≤ 1 / 10 ^ 20 := by
  have hq : (num : ℝ) / den ≤ 1 / 8 := by
    refine div_le_of_le_mul₀ den.cast_nonneg (by norm_num) ?_
    have hle : (8 : ℝ) * num ≤ den := by exact_mod_cast h
    linarith
  have hq0 : 0 ≤ (num : ℝ) / den := by positivity
  have hfloor := abs_natDiv_sub_le (2 * piFix * num) den
  have hpi := abs_piFix_sub_le
  push_cast at hfloor
  have hsplit : (angleFix num den : ℝ) / 2 ^ 128 - turnAngle num den
      = (angleFix num den - 2 * piFix * num / den) / 2 ^ 128 + 2 * (num / den) * (piFix / 2 ^ 128 - Real.pi) := by
    rw [turnAngle]
    ring
  rw [hsplit]
  calc |(angleFix num den - 2 * piFix * num / den : ℝ) / 2 ^ 128 + 2 * (num / den) * (piFix / 2 ^ 128 - Real.pi)|
      ≤ |(angleFix num den - 2 * piFix * num / den : ℝ)| / 2 ^ 128 + 2 * (num / den) * |(piFix : ℝ) / 2 ^ 128 - Real.pi| := by
        refine (abs_add_le _ _).trans (le_of_eq ?_)
        rw [abs_div, abs_mul, abs_of_nonneg (by positivity : (0 : ℝ) ≤ 2 * (num / den)), abs_of_pos (by positivity : (0 : ℝ) < 2 ^ 128)]
    _ ≤ 1 / 2 ^ 128 + 2 * (1 / 8) * (1 / 10 ^ 20) := by
        gcongr
        exact hfloor
    _ ≤ 1 / 10 ^ 20 := by norm_num

/-- The fixed-point square of the angle, the first argument of the Taylor sums of `cosEighth` and `sinEighth`. -/
def squareFix (num den : ℕ) : ℕ := angleFix num den * angleFix num den / 2 ^ 128

theorem cosEighth_eq (num den : ℕ) : cosEighth num den = taylorAlt (squareFix num den) 20 0 (2 ^ 128) := rfl

theorem sinEighth_eq (num den : ℕ) : sinEighth num den = taylorAlt (squareFix num den) 20 1 (angleFix num den) := rfl

section
variable {num den : ℕ} (h : 8 * num ≤ den)
include h

/-- The fixed-point angle over the reals. -/
theorem angleFix_bounds : 0 ≤ (angleFix num den : ℝ) / 2 ^ 128 ∧ (angleFix num den : ℝ) / 2 ^ 128 ≤ 1 := by
  refine ⟨by positivity, ?_⟩
  rw [div_le_one (by positivity)]
  exact_mod_cast angleFix_le h

theorem squareFix_le : squareFix num den ≤ 2 ^ 128 := Nat.div_le_of_le_mul (Nat.mul_le_mul (angleFix_le h) (angleFix_le h))

/-- A square moves at most twice as far as a value in [0, 1] does. -/
theorem abs_squareFix_sub_le : |(squareFix num den : ℝ) / 2 ^ 128 - turnAngle num den ^ 2| ≤ 21 / 10 ^ 21 := by
  obtain ⟨hθ0, hθ1⟩ := turnAngle_bounds h
  obtain ⟨hy0, hy1⟩ := angleFix_bounds h
  have hx := abs_angleFix_sub_le h
  have hfloor := abs_natDiv_sub_le (angleFix num den * angleFix num den) (2 ^ 128)
  rw [Nat.cast_mul, Nat.cast_pow, Nat.cast_ofNat] at hfloor
  have hsplit : (squareFix num den : ℝ) / 2 ^ 128 - turnAngle num den ^ 2
      = (squareFix num den - angleFix num den * angleFix num den / 2 ^ 128) / 2 ^ 128
        + (angleFix num den / 2 ^ 128 - turnAngle num den) * (angleFix num den / 2 ^ 128 + turnAngle num den) := by ring
  rw [hsplit]
  calc |(squareFix num den - angleFix num den * angleFix num den / 2 ^ 128 : ℝ) / 2 ^ 128
        + (angleFix num den / 2 ^ 128 - turnAngle num den) * (angleFix num den / 2 ^ 128 + turnAngle num den)|
      ≤ |(squareFix num den - angleFix num den * angleFix num den / 2 ^ 128 : ℝ)| / 2 ^ 128
        + |(angleFix num den : ℝ) / 2 ^ 128 - turnAngle num den| * (angleFix num den / 2 ^ 128 + turnAngle num den) := by
        refine (abs_add_le _ _).trans (le_of_eq ?_)
        rw [abs_div, abs_mul, abs_of_nonneg (add_nonneg hy0 hθ0), abs_of_pos (by positivity : (0 : ℝ) < 2 ^ 128)]
    _ ≤ 1 / 2 ^ 128 + 1 / 10 ^ 20 * (1 + 1) := by
        gcongr
        exact hfloor
    _ ≤ 21 / 10 ^ 21 := by norm_num

/-! ### The first eighth of a turn -/

/-- The Taylor sum at the fixed-point square is close to that at the square of the angle. -/
theorem abs_taylorFactor_squareFix_sub_le (n : ℕ) :
    |taylorFactor (squareFix num den / 2 ^ 128) 20 n - taylorFactor (turnAngle num den ^ 2) 20 n| ≤ 21 / 10 ^ 21 := by
  obtain ⟨hθ0, hθ1⟩ := turnAngle_bounds h
  have hξ1 : (squareFix num den : ℝ) / 2 ^ 128 ≤ 1 := by
    rw [div_le_one (by positivity)]
    exact_mod_cast squareFix_le h
  exact (taylorFactor_lipschitz (by positivity) hξ1 (sq_nonneg _) (pow_le_one₀ hθ0 hθ1) 20 n).trans (abs_squareFix_sub_le h)

/-- The fixed-point sum, brought to the scale of the reals. -/
theorem abs_taylorAlt_div_sub_le (n t : ℕ) :
    |(taylorAlt (squareFix num den) 20 n t : ℝ) / 2 ^ 128 - t / 2 ^ 128 * taylorFactor (squareFix num den / 2 ^ 128) 20 n| ≤ 20 / 2 ^ 128 := by
  have hsum := abs_taylorAlt_sub_le (squareFix_le h) 20 n t
  rw [div_mul_eq_mul_div, ← sub_div, abs_div, abs_of_pos (by positivity : (0 : ℝ) < 2 ^ 128)]
  gcongr
  exact hsum

end

/-- The fixed-point value `v` is within 2^-64 of the real `y`. -/
def TrigClose (v : Int) (y : ℝ) : Prop := |(v : ℝ) / 2 ^ 128 - y| ≤ 1 / 2 ^ 64

theorem abs_sub_le_of_three {a b c d e₁ e₂ e₃ : ℝ} (h₁ : |a - b| ≤ e₁) (h₂ : |b - c| ≤ e₂) (h₃ : |c - d| ≤ e₃) :
    |a - d| ≤ e₁ + e₂ + e₃ := (abs_sub_le a c d).trans (add_le_add ((abs_sub_le a b c).trans (add_le_add h₁ h₂)) h₃)

/-- Three steps: the fixed-point sum, its argument, the rest of the series. -/
theorem cosEighth_close {num den : ℕ} (h : 8 * num ≤ den) : TrigClose (cosEighth num den) (Real.cos (turnAngle num den)) := by
  obtain ⟨hθ0, hθ1⟩ := turnAngle_bounds h
  have hsum := abs_taylorAlt_div_sub_le h 0 (2 ^ 128)
  rw [← cosEighth_eq, Nat.cast_pow, Nat.cast_ofNat, div_self (by positivity), one_mul] at hsum
  obtain ⟨hrest, -⟩ := taylor_rest hθ0 hθ1
  rw [abs_sub_comm] at hrest
  refine (abs_sub_le_of_three hsum (abs_taylorFactor_squareFix_sub_le h 0) hrest).trans ?_
  norm_num

/-- As for the cosine, with the angle as the first term of the sum. -/
theorem sinEighth_close {num den : ℕ} (h : 8 * num ≤ den) : TrigClose (sinEighth num den) (Real.sin (turnAngle num den)) := by
  obtain ⟨hθ0, hθ1⟩ := turnAngle_bounds h
  obtain ⟨hy0, hy1⟩ := angleFix_bounds h
  obtain ⟨hr0, hr1⟩ := taylorFactor_bounds (sq_nonneg (turnAngle num den)) (pow_le_one₀ hθ0 hθ1) 20 1
  have hsum := abs_taylorAlt_div_sub_le h 1 (angleFix num den)
  rw [← sinEighth_eq] at hsum
  obtain ⟨-, hrest⟩ := taylor_rest hθ0 hθ1
  rw [abs_sub_comm] at hrest
  have hx := abs_angleFix_sub_le h
  have hsq := abs_taylorFactor_squareFix_sub_le h 1
  have harg : |(angleFix num den : ℝ) / 2 ^ 128 * taylorFactor (squareFix num den / 2 ^ 128) 20 1
      - turnAngle num den * taylorFactor (turnAngle num den ^ 2) 20 1| ≤ 1 * (21 / 10 ^ 21) + 1 / 10 ^ 20 * 1 := by
    refine (abs_sub_le _ ((angleFix num den : ℝ) / 2 ^ 128 * taylorFactor (turnAngle num den ^ 2) 20 1) _).trans ?_
    rw [← mul_sub, ← sub_mul, abs_mul, abs_mul, abs_of_nonneg hy0, abs_of_nonneg hr0]
    gcongr
  refine (abs_sub_le_of_three hsum harg hrest).trans ?_
  norm_num

/-! ### The reduction to the first eighth -/

theorem TrigClose.neg {v : Int} {y : ℝ} (h : TrigClose v y) : TrigClose (-v) (-y) := by
  unfold TrigClose at h ⊢
  rwa [Int.cast_neg, neg_div, ← neg_sub', abs_neg]

theorem turnAngle_sub {a b : ℕ} (h : b ≤ a) (den : ℕ) : turnAngle (a - b) den = turnAngle a den - turnAngle b den := by
  rw [turnAngle, turnAngle, turnAngle, Nat.cast_sub h, mul_sub, sub_div]

theorem turnAngle_mul {k : ℕ} (hk : 1 ≤ k) (num den : ℕ) : turnAngle (k * num) (k * den) = turnAngle num den := by
  have hne : (k : ℝ) ≠ 0 := Nat.cast_ne_zero.2 (by omega)
  rw [turnAngle, turnAngle, Nat.cast_mul, Nat.cast_mul, mul_left_comm, mul_div_mul_left _ _ hne]

/-- A whole turn divided by `k`. -/
theorem turnAngle_part {den : ℕ} (hden : 1 ≤ den) (k : ℕ) : turnAngle den (k * den) = 2 * Real.pi / k := by
  have hne : (den : ℝ) ≠ 0 := Nat.cast_ne_zero.2 (by omega)
  rw [turnAngle, Nat.cast_mul, mul_div_mul_right _ _ hne]

theorem turnAngle_quarter {den : ℕ} (hden : 1 ≤ den) : turnAngle den (4 * den) = Real.pi / 2 := by
  rw [turnAngle_part hden, Nat.cast_ofNat]
  ring

theorem turnAngle_half {den : ℕ} (hden : 1 ≤ den) : turnAngle den (2 * den) = Real.pi := by
  rw [turnAngle_part hden, Nat.cast_ofNat]
  ring

theorem turnAngle_whole {den : ℕ} (hden : 1 ≤ den) : turnAngle den den = 2 * Real.pi := by
  simpa using turnAngle_part hden 1

theorem cosQuarter_close {num den : ℕ} (hden : 1 ≤ den) (h : 4 * num ≤ den) :
    TrigClose (cosQuarter num den) (Real.cos (turnAngle num den)) := by
  unfold cosQuarter
  split
  · exact cosEighth_close ‹_›
  · rw [← Real.sin_pi_div_two_sub, ← turnAngle_quarter hden, ← turnAngle_mul (k := 4) (by decide) num den, ← turnAngle_sub h]
    exact sinEighth_close (by omega)

theorem cosHalf_close {num den : ℕ} (hden : 1 ≤ den) (h : 2 * num ≤ den) : TrigClose (cosHalf num den) (Real.cos (turnAngle num den)) := by
  unfold cosHalf
  split
  · exact cosQuarter_close hden ‹_›
  · rw [← neg_neg (Real.cos _), ← Real.cos_pi_sub, ← turnAngle_half hden, ← turnAngle_mul (k := 2) (by decide) num den, ← turnAngle_sub h]
    exact (cosQuarter_close (by omega) (by omega)).neg

theorem cosTurns_close {num den : ℕ} (hden : 1 ≤ den) (h : num ≤ den) : TrigClose (cosTurns num den) (Real.cos (turnAngle num den)) := by
  unfold cosTurns
  split
  · exact cosHalf_close hden ‹_›
  · rw [← Real.cos_two_pi_sub, ← turnAngle_whole hden, ← turnAngle_sub h]
    exact cosHalf_close hden (by omega)

/-- The sine is the cosine of the distance to a quarter turn, on either side of it. -/
theorem sinTurns_close {num den : ℕ} (hden : 1 ≤ den) (h : 2 * num ≤ den) : TrigClose (sinTurns num den) (Real.sin (turnAngle num den)) := by
  rw [sinTurns]
  rcases Nat.le_total (4 * num) den with hle | hge
  · rw [Nat.sub_eq_zero_of_le hle, Nat.zero_add, ← Real.cos_pi_div_two_sub, ← turnAngle_quarter hden,
      ← turnAngle_mul (k := 4) (by decide) num den, ← turnAngle_sub hle]
    exact cosTurns_close (by omega) (by omega)
  · rw [Nat.sub_eq_zero_of_le hge, Nat.add_zero, ← Real.cos_sub_pi_div_two, ← turnAngle_quarter hden,
      ← turnAngle_mul (k := 4) (by decide) num den, ← turnAngle_sub hge]
    exact cosTurns_close (by omega) (by omega)

/-- Settles O36: on the first eighth of a turn the errors of π, of the fixed-point sum and of the rest of the series add up to less than
2^-64 (`cosEighth_close`, `sinEighth_close`); everywhere else the model reduces the angle exactly. -/
theorem trigAccuracy : Obligations.TrigAccuracy :=
  ⟨fun _ _ hn ht => cosTurns_close hn ht, fun _ _ hn ht => sinTurns_close hn ht⟩

end Sys2Proof.Machine
end

section
/-! The FFT size, the load session and the resampler (45_convolution R380, R390 to R392), and the silence of the first hop (R388). -/

namespace Sys2Proof.Machine

/-! ### The FFT size (R380) -/

/-- Settles O37: a power of two by its definition, large enough by `le_fftSize`, least by `fftSize_le`; the rest is its half. -/
theorem fftSize_spec : Obligations.FftSize := by
  intro m hm
  obtain ⟨j, hj⟩ := fftSize_eq m
  have hle := le_fftSize m
  have hhalf : fftSize m = 2 * (fftSize m / 2) := by rw [hj, pow_succ]; omega
  refine ⟨⟨_, hj⟩, by omega, by omega, fun l h2m h2 => fftSize_le (max_le h2 h2m), by omega, by omega, hhalf, fun l hl hml => ?_⟩
  have h2 : 2 ^ 1 ≤ 2 ^ l := Nat.pow_le_pow_right two_pos hl
  exact fftSize_le (by omega)

/-! ### The first hop (R387, R388) -/

/-- An engine whose ring is empty answers +0.0 to every sample before the one that follows a completed hop. -/
theorem convOutputs_of_empty (n h : Nat) {v : ConvCh} (hout : v.out = []) {xs : List F32} {m : Nat} (hlen : m < xs.length) (hm : v.ip + m < h) :
    (convOutputs n h v xs)[m]? = some 0#32 := by
  induction xs generalizing v m with
  | nil => exact absurd hlen (Nat.not_lt_zero m)
  | cons x xs ih =>
    cases m with
    | zero => simp [convOutputs, convSample, hout]
    | succ m =>
      have hip : v.ip + 1 ≠ h := by omega
      have hnext : (convSample true n h v x).2.out = [] ∧ (convSample true n h v x).2.ip = v.ip + 1 := by
        simp [convSample, hip, hout, sparseSet, sparseErase, F32.zero]
      obtain ⟨hout', hip'⟩ := hnext
      exact ih hout' (Nat.lt_of_succ_lt_succ hlen) (by omega)

/-- Settles O39: `convOutputs_of_empty` from the emptied rings, whose fill count is 0. -/
theorem firstHopSilent : Obligations.FirstHopSilent := fun h v _ m _ hm hlen =>
  convOutputs_of_empty (2 * h) h (v := ringsEmptied h v) rfl hlen ((Nat.zero_add m).trans_lt hm)

/-! ### The load session (R391, R392) -/

theorem exec_irBegin_bad {s : State} (hcfg : s.cfg = true) (hbad : s.larg.w0.toNat < 1 ∨ s.inst.irRawMax < s.larg.w0.toNat
    ∨ s.larg.w1.toNat < 1 ∨ s.inst.fsMax < s.larg.w1.toNat) : exec .irBegin s = refuse .irBad s :=
  (if_neg (by simp [hcfg])).trans (if_pos hbad)

theorem exec_irBegin_good {s : State} (hcfg : s.cfg = true) (hgood : ¬(s.larg.w0.toNat < 1 ∨ s.inst.irRawMax < s.larg.w0.toNat
    ∨ s.larg.w1.toNat < 1 ∨ s.inst.fsMax < s.larg.w1.toNat)) :
    exec .irBegin s = finish { s with
      lsrc := u32 s.larg.w0, fssrc := u32 s.larg.w1, ir := List.replicate s.inst.maxCh ⟨[], 0⟩, irsess := true } :=
  (if_neg (by simp [hcfg])).trans (if_neg hgood)

/-- Settles O40: the two checks as refusals, then the new session. -/
theorem irBeginCommand : Obligations.IrBeginCommand := by
  refine ⟨decodeEncode .irBegin rfl, fun s => ⟨fun hcfg => ?_, fun hcfg hbad => ?_, fun hcfg _ _ _ _ => ?_⟩⟩
  · exact (if_pos hcfg).trans (refuse_eq_refusedState .notConfigured s)
  · exact (exec_irBegin_bad hcfg hbad).trans (refuse_eq_refusedState .irBad s)
  · exact exec_irBegin_good hcfg (by omega)

theorem irAt_of_getElem? {s : State} {c : Nat} {r : IrCh} (h : s.ir[c]? = some r) : irAt s c = r := by
  rw [irAt, List.getD_eq_getElem?_getD, h, Option.getD_some]

/-- IR_PUSH past its two channel checks (R392). -/
def pushOutcome (c : Nat) (s : State) : Host.Outcome State Fault Refusal :=
  if s.irsess = false then refuse .sequence s
  else if s.lsrc ≤ (irAt s c).cnt then finish (recordError .irOverflow (cmdOpc s) s)
  else finish (setIr c ⟨sparseSet (irAt s c).raw (irAt s c).cnt s.larg.w0, (irAt s c).cnt + 1⟩ s)

theorem exec_irPush_configured {c : Nat} {s : State} (hcfg : s.cfg = true) (hc : c < s.nch) : exec (.irPush c) s = pushOutcome c s :=
  (if_neg (by simp [hcfg])).trans (if_neg (not_le.2 hc))

/-- Settles O41: the three checks as refusals; a full channel only records its warning, and the sample goes to the index of the count
(`sparseGet_set`). -/
theorem irPushCommand : Obligations.IrPushCommand := by
  refine ⟨fun c hc => decodeEncode (.irPush c) (decide_eq_true hc), fun c s => ⟨fun hcfg => ?_, fun hcfg hc => ?_, fun hcfg hc hsess => ?_,
    fun r hcfg hc hsess hr hfull => ?_, fun r hcfg hc hsess hr hroom => ?_⟩⟩
  · exact (if_pos hcfg).trans (refuse_eq_refusedState .notConfigured s)
  · exact (if_neg (by simp [hcfg])).trans ((if_pos hc).trans (refuse_eq_refusedState .badUnit s))
  · exact (exec_irPush_configured hcfg hc).trans ((if_pos hsess).trans (refuse_eq_refusedState .sequence s))
  · rw [exec_irPush_configured hcfg hc, pushOutcome, irAt_of_getElem? hr, if_neg (by simp [hsess]), if_pos hfull]
    rfl
  · rw [exec_irPush_configured hcfg hc, pushOutcome, irAt_of_getElem? hr, if_neg (by simp [hsess]), if_neg (not_le.2 hroom)]
    exact ⟨_, rfl, fun j => sparseGet_set r.raw r.cnt j s.larg.w0⟩

/-! ### The resampler (R390) -/

/-- The place of a resampled sample lies inside the raw samples: with j·FS' ≤ (L − 1)·FS the quotient by FS is at most L − 1. -/
theorem resample_index_le {l r f j : Nat} (hj : j < resampledLength l r f) : j * r / f ≤ l - 1 := by
  have hle : j ≤ (l - 1) * f / r := Nat.le_of_lt_succ hj
  have hmul : j * r ≤ (l - 1) * f := (Nat.mul_le_mul_right r hle).trans (Nat.div_mul_le_self _ r)
  exact Nat.div_le_of_le_mul (by rwa [mul_comm f])

theorem sparseToArray_getD {n i : Nat} {m : Samples} (h : sparseWf m = true) (hi : i < n) : (sparseToArray n m).getD i 0#32 = sparseGet m i := by
  rw [Array.getD_eq_getD_getElem?, sparseToArray_get h hi, Option.getD_some]

/-- A rounded fraction is never −0.0, so it is a zero only as the word 0. -/
theorem isZero_rnd32_iff (num den : Nat) : F32.isZero (F32.rnd32 num den) = true ↔ F32.rnd32 num den = 0#32 := by
  rw [F32.isZero_iff_word]
  refine ⟨fun h => h.resolve_right fun hneg => ?_, .inl⟩
  have hsign : F32.sign (F32.rnd32 num den) = false := F32.sign_round _ _ _
  rw [hneg] at hsign
  exact absurd hsign (by decide)

theorem resampleAt_eq {l r f j : Nat} {raw : Samples} (hl : 1 ≤ l) (hraw : sparseWf raw = true) (hj : j < resampledLength l r f) :
    resampleAt (sparseToArray l raw) l r f j =
      let a := sparseGet raw (j * r / f)
      let b := sparseGet raw (min (j * r / f + 1) (l - 1))
      let frac := F32.rnd32 (j * r % f) f
      if frac = 0#32 then a else F32.add a (F32.mul (F32.sub b a) frac) := by
  have hi := resample_index_le hj
  simp only [resampleAt, isZero_rnd32_iff]
  rw [sparseToArray_getD hraw (by omega), sparseToArray_getD hraw (by omega)]

theorem resampled_length (l r f m : Nat) (raw : Samples) : (resampled l r f m raw).length = m :=
  (List.length_map _).trans List.length_range

theorem resampledLength_same {l f : Nat} (hl : 1 ≤ l) (hf : 1 ≤ f) : resampledLength l f f = l := by
  rw [resampledLength, Nat.mul_div_cancel _ hf]
  omega

/-- At equal rates every sample is copied: j·FS mod FS is 0. -/
theorem resampled_same {l f m : Nat} {raw : Samples} (hl : 1 ≤ l) (hf : 1 ≤ f) (hraw : sparseWf raw = true) (hm : m ≤ l) :
    resampled l f f m raw = (List.range m).map (sparseGet raw) := by
  refine List.map_congr_left fun j hj => ?_
  rw [List.mem_range] at hj
  have hzero : F32.rnd32 0 f = 0#32 := by
    have hround := F32.round_magOf false (n := 0) hf (by decide)
    rw [magOf_zero, Nat.zero_mul] at hround
    rw [F32.rnd32, Nat.zero_mul, hround, F32.pack_zero]
    rfl
  rw [resampleAt_eq hl hraw (by rw [resampledLength_same hl hf]; omega), Nat.mul_mod_left, hzero, Nat.mul_div_cancel _ hf]
  exact if_pos rfl

/-- Settles O43: every place lies inside the raw samples (`resample_index_le`), so the arrays read as the sparse samples do; at equal rates
every fraction is 0. -/
theorem resampling : Obligations.Resampling := by
  refine ⟨fun l r f j _ _ _ hj => resample_index_le hj, fun l r f m j raw hl _ _ hraw _ hm hj => ⟨resampled_length l r f m raw, ?_⟩,
    fun l f raw hl hf hraw _ => ⟨resampledLength_same hl hf, fun m hm => resampled_same hl hf hraw hm⟩⟩
  rw [resampled, List.getElem?_map, List.getElem?_range hj, Option.map_some, resampleAt_eq hl hraw (hj.trans_le hm)]

end Sys2Proof.Machine
end

section
/-! Folds whose steps each act on indices of their own, the bit reversal, and the stages of the transform (45_convolution R382). -/

namespace Sys2Proof.Machine

/-! ### Steps that act on some indices only -/

/-- `f` keeps the size of an array of `n` values, leaves every value at an index outside `T`, and what it makes of those in `T` depends on
those in `T` alone. -/
structure ActsOn {α : Type} (n : Nat) (T : Nat → Prop) (f : Array α → Array α) : Prop where
  size : ∀ a, a.size = n → (f a).size = n
  frame : ∀ a j, a.size = n → ¬T j → (f a)[j]? = a[j]?
  congr : ∀ a b, a.size = n → b.size = n → (∀ j, T j → a[j]? = b[j]?) → ∀ j, T j → (f a)[j]? = (f b)[j]?

section
variable {α : Type} {n : Nat} {f : Array α → Nat → Array α} {T : Nat → Nat → Prop}

theorem foldl_range_succ (f : Array α → Nat → Array α) (m : Nat) (a : Array α) :
    (List.range (m + 1)).foldl f a = f ((List.range m).foldl f a) m := by
  rw [List.range_succ, List.foldl_concat]

/-- Arrays that agree on `T` agree on it after the step, and so they do on any larger set of indices on which they agree. -/
theorem ActsOn.congr_of_subset {g : Array α → Array α} {S S' : Nat → Prop} (h : ActsOn n S g) (hsub : ∀ j, S j → S' j) {a b : Array α}
    (ha : a.size = n) (hb : b.size = n) (hab : ∀ j, S' j → a[j]? = b[j]?) {j : Nat} (hj : S' j) : (g a)[j]? = (g b)[j]? := by
  by_cases hS : S j
  · exact h.congr a b ha hb (fun i hi => hab i (hsub i hi)) j hS
  · rw [h.frame a j ha hS, h.frame b j hb hS, hab j hj]

/-- Steps that each act on some indices together act on the union of them. -/
theorem ActsOn.foldl_range {m : Nat} (h : ∀ b < m, ActsOn n (T b) fun a => f a b) :
    ActsOn n (fun j => ∃ b < m, T b j) fun a => (List.range m).foldl f a := by
  induction m with
  | zero => exact ⟨fun _ ha => ha, fun _ _ _ _ => rfl, fun _ _ _ _ hab j hj => hab j hj⟩
  | succ m ih =>
    have hrest : ∀ b < m, ActsOn n (T b) fun a => f a b := fun b hb => h b (Nat.lt_succ_of_lt hb)
    have hlast := h m (Nat.lt_succ_self m)
    have hfold := ih hrest
    simp only [foldl_range_succ]
    refine ⟨fun a ha => hlast.size _ (hfold.size a ha), fun a j ha hj => ?_, fun a b ha hb hab j hj => ?_⟩
    · rw [hlast.frame _ j (hfold.size a ha) fun hT => hj ⟨m, Nat.lt_succ_self m, hT⟩]
      exact hfold.frame a j ha fun ⟨b, hb, hT⟩ => hj ⟨b, Nat.lt_succ_of_lt hb, hT⟩
    · refine hlast.congr_of_subset (S' := fun j => ∃ b < m + 1, T b j) (fun j hT => ⟨m, Nat.lt_succ_self m, hT⟩) (hfold.size a ha)
        (hfold.size b hb) (fun i hi => ?_) hj
      exact hfold.congr_of_subset (fun j ⟨b, hb, hT⟩ => ⟨b, Nat.lt_succ_of_lt hb, hT⟩) ha hb hab hi

/-- The key fact: where no two steps share an index, what the loop leaves at an index of a step is what this step alone leaves. -/
theorem ActsOn.foldl_range_get {m : Nat} (h : ∀ b < m, ActsOn n (T b) fun a => f a b)
    (hdisjoint : ∀ b < m, ∀ c < m, ∀ j, T b j → T c j → b = c) {a : Array α} (ha : a.size = n) {b j : Nat} (hb : b < m) (hj : T b j) :
    ((List.range m).foldl f a)[j]? = (f a b)[j]? := by
  induction m with
  | zero => exact absurd hb (Nat.not_lt_zero b)
  | succ m ih =>
    have hrest : ∀ b < m, ActsOn n (T b) fun a => f a b := fun b hb => h b (Nat.lt_succ_of_lt hb)
    have hfold := ActsOn.foldl_range hrest
    rw [foldl_range_succ]
    rcases Nat.lt_succ_iff_lt_or_eq.1 hb with hlt | rfl
    · have hnot : ¬T m j := fun hT => hlt.ne (hdisjoint b hb m (Nat.lt_succ_self m) j hj hT)
      rw [(h m (Nat.lt_succ_self m)).frame _ j (hfold.size a ha) hnot]
      exact ih hrest (fun b hb c hc => hdisjoint b (Nat.lt_succ_of_lt hb) c (Nat.lt_succ_of_lt hc)) hlt
    · refine (h b hb).congr _ a (hfold.size a ha) ha (fun i hi => hfold.frame a i ha ?_) j hj
      rintro ⟨c, hc, hT⟩
      exact hc.ne (hdisjoint c (Nat.lt_succ_of_lt hc) b hb i hT hi)

end

/-! ### The bit reversal -/

theorem bitReverse_lt (l i : Nat) : bitReverse l i < 2 ^ l := by
  induction l generalizing i with
  | zero => exact one_pos
  | succ l ih =>
    have hrest := ih (i / 2)
    have htop : i % 2 * 2 ^ l ≤ 1 * 2 ^ l := Nat.mul_le_mul_right _ (by omega)
    rw [bitReverse, pow_succ]
    omega

/-- The reversed index holds the low `l` bits in reverse order (R382). -/
theorem testBit_bitReverse {l k : Nat} (i : Nat) (hk : k < l) : (bitReverse l i).testBit k = i.testBit (l - 1 - k) := by
  induction l generalizing i k with
  | zero => exact absurd hk (Nat.not_lt_zero k)
  | succ l ih =>
    rw [bitReverse, mul_comm, Nat.testBit_two_pow_mul_add _ (bitReverse_lt l _)]
    rcases Nat.lt_succ_iff_lt_or_eq.1 hk with hlt | rfl
    · rw [if_pos hlt, ih (i / 2) hlt, Nat.testBit_div_two]
      congr 1
      omega
    · rw [if_neg (lt_irrefl k), Nat.sub_self, Nat.add_sub_cancel, Nat.sub_self]
      simp [Nat.testBit_zero]

theorem bitReverse_bitReverse {l i : Nat} (hi : i < 2 ^ l) : bitReverse l (bitReverse l i) = i := by
  apply Nat.eq_of_testBit_eq
  intro k
  by_cases hk : k < l
  · rw [testBit_bitReverse _ hk, testBit_bitReverse _ (by omega)]
    congr 1
    omega
  · have hpow : 2 ^ l ≤ 2 ^ k := Nat.pow_le_pow_right two_pos (not_lt.1 hk)
    rw [Nat.testBit_lt_two_pow ((bitReverse_lt l _).trans_le hpow), Nat.testBit_lt_two_pow (hi.trans_le hpow)]

theorem swapIfInBounds_get {α : Type} {a : Array α} {p q : Nat} (hp : p < a.size) (hq : q < a.size) (j : Nat) :
    (a.swapIfInBounds p q)[j]? = if q = j then a[p]? else if p = j then a[q]? else a[j]? := by
  rw [Array.swapIfInBounds_def, dif_pos hp, dif_pos hq, Array.getElem?_swap, Array.getElem?_eq_getElem hp, Array.getElem?_eq_getElem hq]

/-- The indices that the swap of index `i` exchanges; the swap is made once, from the smaller of the two. -/
def SwapPair (l i j : Nat) : Prop := i < bitReverse l i ∧ (j = i ∨ j = bitReverse l i)

theorem SwapPair.actsOn {α : Type} {l i : Nat} (hi : i < 2 ^ l) :
    ActsOn (2 ^ l) (SwapPair l i) fun a : Array α => if i < bitReverse l i then a.swapIfInBounds i (bitReverse l i) else a := by
  have hrev := bitReverse_lt l i
  by_cases hlt : i < bitReverse l i
  · simp only [if_pos hlt]
    refine ⟨fun a ha => by simpa using ha, fun a j ha hj => ?_, fun a b ha hb hab j hj => ?_⟩
    · rw [swapIfInBounds_get (by omega) (by omega), if_neg fun h => hj ⟨hlt, .inr h.symm⟩, if_neg fun h => hj ⟨hlt, .inl h.symm⟩]
    · rw [swapIfInBounds_get (by omega) (by omega), swapIfInBounds_get (by omega) (by omega), hab i ⟨hlt, .inl rfl⟩,
        hab _ ⟨hlt, .inr rfl⟩, hab j hj]
  · simp only [if_neg hlt]
    exact ⟨fun _ ha => ha, fun _ _ _ _ => rfl, fun _ _ _ _ hab j hj => hab j hj⟩

/-- An index belongs to the swap of one index only, since the reversal undoes itself. -/
theorem SwapPair.unique {l i c j : Nat} (hi : i < 2 ^ l) (hc : c < 2 ^ l) (h : SwapPair l i j) (h' : SwapPair l c j) : i = c := by
  obtain ⟨hlt, hj⟩ := h
  obtain ⟨hlt', hj'⟩ := h'
  have hii := bitReverse_bitReverse hi
  have hcc := bitReverse_bitReverse hc
  rcases hj with rfl | rfl <;> rcases hj' with hj' | hj'
  · exact hj'
  · rw [hj', hcc] at hlt; omega
  · rw [← hj', hii] at hlt'; omega
  · rw [← hii, hj', hcc]

/-- The permutation puts at each index the value of the reversed index (R382). -/
theorem bitReversed_get {l : Nat} {a : Array Cplx} (ha : a.size = 2 ^ l) {j : Nat} (hj : j < 2 ^ l) :
    (bitReversed l (2 ^ l) a)[j]? = a[bitReverse l j]? := by
  have hrev := bitReverse_lt l j
  have hjj := bitReverse_bitReverse hj
  have hstep (i : Nat) (hi : i < 2 ^ l) := SwapPair.actsOn (α := Cplx) hi
  have hget {i : Nat} (hi : i < 2 ^ l) (hij : SwapPair l i j) :=
    ActsOn.foldl_range_get hstep (fun b hb c hc _ => SwapPair.unique hb hc) ha hi hij
  rw [bitReversed]
  rcases Nat.lt_trichotomy j (bitReverse l j) with hlt | heq | hgt
  · rw [hget hj ⟨hlt, .inl rfl⟩, if_pos hlt, swapIfInBounds_get (by omega) (by omega), if_neg hlt.ne', if_pos rfl]
  · rw [← heq, (ActsOn.foldl_range hstep).frame a j ha]
    rintro ⟨i, hi, hlt, rfl | rfl⟩
    · omega
    · rw [bitReverse_bitReverse hi] at heq; omega
  · rw [hget hrev ⟨by omega, .inr hjj.symm⟩, hjj, if_pos hgt, swapIfInBounds_get (by omega) (by omega), if_pos rfl]

/-! ### The stages -/

theorem butterfly_actsOn (wr wi : F32) {n p q : Nat} (hp : p < n) (hq : q < n) (hpq : p ≠ q) :
    ActsOn n (fun j => j = p ∨ j = q) (butterfly wr wi p q) where
  size a ha := by rw [butterfly_size, ha]
  frame a j ha hj := by
    rw [butterfly_get wr wi a (ha ▸ hp) (ha ▸ hq) hpq]
    exact (if_neg fun h => hj (.inl h)).trans (if_neg fun h => hj (.inr h))
  congr a b ha hb hab j hj := by
    rw [butterfly_get wr wi a (ha ▸ hp) (ha ▸ hq) hpq, butterfly_get wr wi b (hb ▸ hp) (hb ▸ hq) hpq]
    simp only [Array.getD_eq_getD_getElem?, hab p (.inl rfl), hab q (.inr rfl), hab j hj]

/-- The two results of a butterfly (R382). -/
theorem butterfly_pair (wr wi : F32) {p q : Nat} {a : Array Cplx} (hp : p < a.size) (hq : q < a.size) (hpq : p ≠ q) :
    let u := a.getD p cZero
    let v := a.getD q cZero
    let tr := F32.sub (F32.mul v.1 wr) (F32.mul v.2 wi)
    let ti := F32.add (F32.mul v.1 wi) (F32.mul v.2 wr)
    (butterfly wr wi p q a)[p]? = some (F32.add u.1 tr, F32.add u.2 ti)
      ∧ (butterfly wr wi p q a)[q]? = some (F32.sub u.1 tr, F32.sub u.2 ti) := by
  rw [butterfly_get wr wi a hp hq hpq, butterfly_get wr wi a hp hq hpq]
  exact ⟨if_pos rfl, (if_neg hpq.symm).trans (if_pos rfl)⟩

/-- The two indices of butterfly `k` of block `blk` in the stage of block length 2·half. -/
def PairOf (half blk k j : Nat) : Prop := j = blk * (2 * half) + k ∨ j = blk * (2 * half) + k + half

/-- The place of an index in a stage: block `blk`, and `k` behind the start of one of its halves. -/
theorem PairOf.place {half blk k j : Nat} (hk : k < half) (h : PairOf half blk k j) :
    j / (2 * half) = blk ∧ j % (2 * half) % half = k := by
  have hplace (r : Nat) (hr : r < 2 * half) : (blk * (2 * half) + r) / (2 * half) = blk ∧ (blk * (2 * half) + r) % (2 * half) = r := by
    rw [mul_comm blk, Nat.mul_add_div (by omega), Nat.mul_add_mod, Nat.div_eq_of_lt hr, Nat.mod_eq_of_lt hr]
    exact ⟨rfl, rfl⟩
  rcases h with rfl | rfl
  · obtain ⟨hblk, hr⟩ := hplace k (by omega)
    exact ⟨hblk, by rw [hr, Nat.mod_eq_of_lt hk]⟩
  · obtain ⟨hblk, hr⟩ := hplace (k + half) (by omega)
    rw [add_assoc]
    exact ⟨hblk, by rw [hr, Nat.add_mod_right, Nat.mod_eq_of_lt hk]⟩

/-- Every pair lies inside the blocks of the array. -/
theorem PairOf.inside {n half blk k : Nat} (hblk : blk < n / (2 * half)) (hk : k < half) : blk * (2 * half) + k + half < n := by
  have hblocks : (blk + 1) * (2 * half) ≤ n := (Nat.mul_le_mul_right _ hblk).trans (Nat.div_mul_le_self n _)
  rw [Nat.succ_mul] at hblocks
  omega

section
variable (cosT sinT : Array F32) (inverse : Bool) {n half : Nat}

/-- Butterfly `k` of block `blk` with its twiddle from the tables (R382). -/
def stageButterfly (n half blk k : Nat) (a : Array Cplx) : Array Cplx :=
  let wr := cosT.getD (k * (n / (2 * half))) 0#32
  let sn := sinT.getD (k * (n / (2 * half))) 0#32
  butterfly wr (if inverse then sn else F32.neg sn) (blk * (2 * half) + k) (blk * (2 * half) + k + half) a

theorem fftStage_eq (n half : Nat) (a : Array Cplx) :
    fftStage cosT sinT inverse n (2 * half) a = (List.range (n / (2 * half))).foldl
      (fun a blk => (List.range half).foldl (fun a k => stageButterfly cosT sinT inverse n half blk k a) a) a := by
  simp only [fftStage, Nat.mul_div_cancel_left half two_pos]
  rfl

theorem stageButterfly_actsOn {blk k : Nat} (hblk : blk < n / (2 * half)) (hk : k < half) :
    ActsOn n (PairOf half blk k) (stageButterfly cosT sinT inverse n half blk k) := by
  have hin := PairOf.inside hblk hk
  exact butterfly_actsOn _ _ (by omega) hin (by omega)

/-- What a stage leaves at the two indices of a butterfly is what that butterfly leaves there. -/
theorem fftStage_get {a : Array Cplx} (ha : a.size = n) {blk k j : Nat} (hblk : blk < n / (2 * half)) (hk : k < half)
    (hj : PairOf half blk k j) :
    (fftStage cosT sinT inverse n (2 * half) a)[j]? = (stageButterfly cosT sinT inverse n half blk k a)[j]? := by
  have hstep (b : Nat) (hb : b < n / (2 * half)) (c : Nat) (hc : c < half) := stageButterfly_actsOn cosT sinT inverse hb hc
  have hblocks : ∀ b < n / (2 * half), ∀ c < n / (2 * half), ∀ j,
      (∃ k < half, PairOf half b k j) → (∃ k < half, PairOf half c k j) → b = c := by
    rintro b - c - j ⟨k, hk, hj⟩ ⟨k', hk', hj'⟩
    rw [← (hj.place hk).1, (hj'.place hk').1]
  have hpairs : ∀ c < half, ∀ d < half, ∀ j, PairOf half blk c j → PairOf half blk d j → c = d := by
    intro c hc d hd j hj hj'
    rw [← (hj.place hc).2, (hj'.place hd).2]
  rw [fftStage_eq, ActsOn.foldl_range_get (fun b hb => ActsOn.foldl_range (hstep b hb)) hblocks ha hblk ⟨k, hk, hj⟩]
  exact ActsOn.foldl_range_get (hstep blk hblk) hpairs ha hk hj

end

/-! ### The transform (R382) -/

theorem cosTable_get {n t : Nat} (ht : t < n / 2) : (cosTable n).getD t 0#32 = twiddleCos n t := by
  simp [cosTable, Array.getD_eq_getD_getElem?, ht]

theorem sinTable_get {n t : Nat} (ht : t < n / 2) : (sinTable n).getD t 0#32 = twiddleSin n t := by
  simp [sinTable, Array.getD_eq_getD_getElem?, ht]

/-- A stage with the model's tables is the stage of R382. -/
theorem isFftStage_fftStage (inverse : Bool) {l st : Nat} (hst : st < l) {a : Array Cplx} (ha : a.size = 2 ^ l) :
    IsFftStage inverse l st a (fftStage (cosTable (2 ^ l)) (sinTable (2 ^ l)) inverse (2 ^ l) (2 ^ (st + 1)) a) := by
  intro blk hblk k hk
  obtain ⟨d, rfl⟩ : ∃ d, l = d + st + 1 := ⟨l - st - 1, by omega⟩
  have hlen : 2 ^ (st + 1) = 2 * 2 ^ st := pow_succ' 2 st
  have hsplit : 2 ^ (d + st + 1) = 2 ^ d * (2 * 2 ^ st) := by rw [add_assoc, pow_add, hlen]
  have hnum : 2 ^ (d + st + 1) / (2 * 2 ^ st) = 2 ^ d := by rw [hsplit, Nat.mul_div_cancel _ (by positivity)]
  have hd : d + st + 1 - 1 - st = d := by omega
  rw [hd] at hblk ⊢
  have htable : k * 2 ^ d < 2 ^ (d + st + 1) / 2 := by
    rw [pow_succ, Nat.mul_div_cancel _ two_pos, add_comm d, pow_add]
    exact Nat.mul_lt_mul_of_pos_right hk (by positivity)
  have hblk' : blk < 2 ^ (d + st + 1) / (2 * 2 ^ st) := by rwa [hnum]
  have hin := PairOf.inside hblk' hk
  have hget (j : Nat) := fftStage_get (cosTable (2 ^ (d + st + 1))) (sinTable (2 ^ (d + st + 1))) inverse ha hblk' hk (j := j)
  dsimp only
  rw [hlen, hget _ (.inl rfl), hget _ (.inr rfl), stageButterfly, hnum, cosTable_get htable, sinTable_get htable]
  exact butterfly_pair _ _ (by omega) (by omega) (by omega)

/-- The values after the bit reversal and the first `st` stages of the transform on 2^l values. -/
def fftAfter (inverse : Bool) (l : Nat) (a : Array Cplx) (st : Nat) : Array Cplx :=
  (List.range st).foldl (fun a st => fftStage (cosTable (2 ^ l)) (sinTable (2 ^ l)) inverse (2 ^ l) (2 ^ (st + 1)) a) (bitReversed l (2 ^ l) a)

theorem fftAfter_size (inverse : Bool) (l : Nat) (a : Array Cplx) (st : Nat) : (fftAfter inverse l a st).size = a.size :=
  (size_foldl _ (fun a _ => fftStage_size _ _ _ _ _ a) _ _).trans (bitReversed_size _ _ a)

theorem fftAfter_succ (inverse : Bool) (l : Nat) (a : Array Cplx) (st : Nat) :
    fftAfter inverse l a (st + 1)
      = fftStage (cosTable (2 ^ l)) (sinTable (2 ^ l)) inverse (2 ^ l) (2 ^ (st + 1)) (fftAfter inverse l a st) := by
  rw [fftAfter, List.range_succ, List.foldl_concat, fftAfter]

theorem fft_eq_fftAfter (inverse : Bool) (l : Nat) (a : Array Cplx) : fft inverse (2 ^ l) a = fftAfter inverse l a l := by
  rw [fft, fftAfter, Nat.log2_two_pow]

theorem isFft_fft (inverse : Bool) {l : Nat} {a : Array Cplx} (ha : a.size = 2 ^ l) : IsFft inverse l a (fft inverse (2 ^ l) a) := by
  refine ⟨ha, fftAfter inverse l a, (fft_eq_fftAfter inverse l a).symm, fun st _ => (fftAfter_size inverse l a st).trans ha,
    fun i hi => ⟨bitReverse l i, bitReverse_lt l i, fun k hk => testBit_bitReverse i hk, bitReversed_get ha hi⟩, fun st hst => ?_⟩
  rw [fftAfter_succ]
  exact isFftStage_fftStage inverse hst ((fftAfter_size inverse l a st).trans ha)

end Sys2Proof.Machine
end

section
/-! CONV_STEP with the block transform (45_convolution R383, R385, R394 to R396) and IR_COMMIT (R384, R387, R393). -/

namespace Sys2Proof.Machine

/-! ### The scale 1/N (R383) -/

theorem magOf_two_pow {l : Nat} (hl : l ≤ 126) : magOf ((127 - l) * 2 ^ 23) = 2 ^ (149 - l) := by
  rw [show (127 - l) * 2 ^ 23 = (126 - l) * 2 ^ 23 + 2 ^ 23 by omega, magOf_encode (by omega) (.inr le_rfl), ← pow_add]
  congr 1
  omega

/-- 1/2^l is a binary32 value. -/
theorem rnd32_inv_two_pow {l : Nat} (hl : l ≤ 126) : F32.rnd32 1 (2 ^ l) = F32.pack false ((127 - l) * 2 ^ 23) := by
  have hnum : 1 * 2 ^ 149 = magOf ((127 - l) * 2 ^ 23) * 2 ^ l := by
    rw [magOf_two_pow hl, ← pow_add, Nat.sub_add_cancel (by omega), one_mul]
  rw [F32.rnd32, hnum, F32.round_magOf false (by positivity) (by omega)]

/-- A magnitude that stays in the range of full precision can be divided by 2^l exactly. -/
theorem exists_magOf_mul_two_pow (b l : Nat) (h : magOf b = 0 ∨ 2 ^ (23 + l) ≤ magOf b) : ∃ c ≤ b, magOf c * 2 ^ l = magOf b := by
  obtain ⟨c, hc⟩ : ∃ c, magOf c * 2 ^ l = magOf b := by
    rcases h with h | h
    · exact ⟨0, by rw [h, magOf_zero, Nat.zero_mul]⟩
    · obtain ⟨j, m, rfl, hm, hj⟩ := exists_encode b
      rw [magOf_encode hm.le hj] at h ⊢
      have hlj : l ≤ j := by
        have hlt : 2 ^ (23 + l) < 2 ^ (24 + j) := h.trans_lt (by rw [pow_add]; exact Nat.mul_lt_mul_of_pos_right hm (by positivity))
        have := (Nat.pow_lt_pow_iff_right one_lt_two).1 hlt
        omega
      obtain ⟨m', hm'⟩ := exists_magOf_eq hm (j - l)
      exact ⟨m', by rw [hm', mul_assoc, ← pow_add, Nat.sub_add_cancel hlj]⟩
  refine ⟨c, magOf_strictMono.le_iff_le.1 ?_, hc⟩
  rw [← hc]
  exact Nat.le_mul_of_pos_right _ (by positivity)

/-- Scaling by 1/2^l is exact above the subnormal range. -/
theorem fix_mul_inv_two_pow {l : Nat} (hl : l ≤ 126) {x : F32} (hx : F32.isFinite x = true)
    (h : F32.fix x = 0 ∨ 2 ^ (23 + l) ≤ (F32.fix x).natAbs) : F32.fix (F32.mul x (F32.rnd32 1 (2 ^ l))) * 2 ^ l = F32.fix x := by
  rw [← Int.natAbs_eq_zero, F32.natAbs_fix, F32.mag_eq_magOf] at h
  obtain ⟨c, hcle, hc⟩ := exists_magOf_mul_two_pow _ l h
  have hcfin : c < 0x7F800000 := hcle.trans_lt (F32.isFinite_iff.1 hx)
  have hbits : (127 - l) * 2 ^ 23 < 2 ^ 31 := by omega
  have hscale : F32.isFinite (F32.pack false ((127 - l) * 2 ^ 23)) = true := by
    rw [F32.isFinite_iff, F32.magBits_pack false hbits]
    omega
  have hproduct : magOf (F32.magBits x) * 2 ^ (149 - l) = magOf c * 2 ^ 149 := by
    rw [← hc, mul_assoc, ← pow_add, Nat.add_sub_cancel' (by omega)]
  rw [rnd32_inv_two_pow hl, F32.mul_of_finite hx hscale, F32.mag_eq_magOf, F32.mag_eq_magOf, F32.magBits_pack false hbits,
    magOf_two_pow hl, hproduct, F32.round_magOf _ (by positivity) hcfin, F32.sign_pack false hbits, Bool.bne_false,
    F32.fix_eq, F32.sign_pack _ (by omega), F32.magBits_pack _ (by omega), F32.fix_eq x, ← hc]
  cases F32.sign x <;> simp [signedNum]

/-! ### The block transform (R385) -/

theorem zeroPadded_size {n : Nat} {l : List F32} (h : l.length ≤ n) : (zeroPadded n l).size = n := by
  rw [zeroPadded, List.size_toArray, List.length_append, List.length_map, List.length_replicate, Nat.add_sub_cancel' h]

theorem sparseToArray_toList_getD {h i : Nat} {m : Samples} (hm : sparseWf m = true) :
    (sparseToArray h m).toList.getD i 0#32 = if i < h then sparseGet m i else 0#32 := by
  rw [List.getD_eq_getElem?_getD, Array.getElem?_toList]
  split
  case isTrue hi => rw [sparseToArray_get hm hi, Option.getD_some]
  case isFalse hi => rw [Array.getElem?_eq_none (by rw [sparseToArray_size h hm]; omega), Option.getD_none]

theorem cplxArray_get {n k : Nat} {re im : Samples} (hre : sparseWf re = true) (him : sparseWf im = true) (hk : k < n) :
    (cplxArray n re im)[k]? = some (sparseGet re k, sparseGet im k) := by
  simp [cplxArray, List.zip, List.getElem?_zipWith, sparseToArray_get hre hk, sparseToArray_get him hk]

theorem cplxArray_size {n : Nat} {re im : Samples} (hre : sparseWf re = true) (him : sparseWf im = true) : (cplxArray n re im).size = n := by
  simp [cplxArray, sparseToArray_size n hre, sparseToArray_size n him]

/-- The spectrum of the input block, the padded samples transformed. -/
def blockSpectrum (n h : Nat) (c : ConvCh) : Array Cplx := fft false n (zeroPadded n (sparseToArray h c.inb).toList)

/-- The product of the two spectra, value by value (R383). -/
def spectrumProduct (n : Nat) (a : Array Cplx) (c : ConvCh) : Array Cplx :=
  (List.zipWith cMul a.toList (cplxArray n c.specRe c.specIm).toList).toArray

theorem convTransform_eq (n h : Nat) (c : ConvCh) : convTransform n h c = fft true n (spectrumProduct n (blockSpectrum n h c) c) := rfl

section
variable {n h : Nat} {v : ConvCh} (hre : sparseWf v.specRe = true) (him : sparseWf v.specIm = true)
include hre him

theorem spectrumProduct_size {a : Array Cplx} (ha : a.size = n) : (spectrumProduct n a v).size = n := by
  simp [spectrumProduct, ha, cplxArray_size hre him]

theorem spectrumProduct_get {a : Array Cplx} (ha : a.size = n) {k : Nat} (hk : k < n) :
    (spectrumProduct n a v)[k]? = some (cMul (a.getD k cZero) (sparseGet v.specRe k, sparseGet v.specIm k)) := by
  have hak : k < a.size := by omega
  simp [spectrumProduct, List.getElem?_zipWith, cplxArray_get hre him hk, hak]

end

/-- The block transform is R385: pad, transform, multiply by the spectrum, transform back. -/
theorem convTransform_spec (l h : Nat) (v : ConvCh) (hle : h ≤ 2 ^ l) (hinb : sparseWf v.inb = true) (hre : sparseWf v.specRe = true)
    (him : sparseWf v.specIm = true) :
    ∃ p q r : Array Cplx,
      (∀ i < 2 ^ l, p[i]? = some (if i < h then sparseGet v.inb i else 0#32, 0#32))
      ∧ IsFft false l p q
      ∧ (∀ k < 2 ^ l, r[k]? = some (cMul (q.getD k cZero) (sparseGet v.specRe k, sparseGet v.specIm k)))
      ∧ IsFft true l r (convTransform (2 ^ l) h v) := by
  rw [convTransform_eq]
  have hpad : (zeroPadded (2 ^ l) (sparseToArray h v.inb).toList).size = 2 ^ l :=
    zeroPadded_size (by rwa [Array.length_toList, sparseToArray_size h hinb])
  have hspec : (blockSpectrum (2 ^ l) h v).size = 2 ^ l := (fft_size _ _ _).trans hpad
  refine ⟨_, blockSpectrum (2 ^ l) h v, spectrumProduct (2 ^ l) (blockSpectrum (2 ^ l) h v) v, fun i hi => ?_, isFft_fft false hpad,
    fun k hk => spectrumProduct_get hre him hspec hk, isFft_fft true (spectrumProduct_size hre him hspec)⟩
  rw [zeroPadded_get _ hi, sparseToArray_toList_getD hinb]

/-! ### The overlap-add (R383, R385) -/

/-- The step of the overlap-add for the block value `j` acts on one ring word. -/
theorem overlapAdd_step_actsOn (a : Array Cplx) (wr n j : Nat) :
    ActsOn (2 * n) (fun q => q = (wr + j) % (2 * n)) fun r : Array F32 => r.setIfInBounds ((wr + j) % (2 * n))
      (F32.add (r.getD ((wr + j) % (2 * n)) 0#32) (F32.mul (a.getD j cZero).1 (F32.rnd32 1 n))) where
  size r hr := by rw [Array.size_setIfInBounds, hr]
  frame r q _ hq := by rw [Array.getElem?_setIfInBounds, if_neg (Ne.symm hq)]
  congr r r' hr hr' hrr q hq := by
    have hword : r.getD ((wr + j) % (2 * n)) 0#32 = r'.getD ((wr + j) % (2 * n)) 0#32 := by
      rw [Array.getD_eq_getD_getElem?, Array.getD_eq_getD_getElem?, hrr _ rfl]
    rw [Array.getElem?_setIfInBounds, Array.getElem?_setIfInBounds, hr, hr', hword, hrr q hq]

/-- The ring words that a block reaches are different words, since N < 2N. -/
theorem ring_index_inj {wr n j k : Nat} (hj : j < n) (hk : k < n) (h : (wr + j) % (2 * n) = (wr + k) % (2 * n)) : j = k := by
  have hmod : j ≡ k [MOD 2 * n] := Nat.ModEq.add_left_cancel' wr h
  exact Nat.ModEq.eq_of_lt_of_lt hmod (by omega) (by omega)

theorem sparseGet_of_below {m : Samples} {n q : Nat} (h : sparseBelow n m = true) (hq : n ≤ q) : sparseGet m q = 0#32 := by
  induction m with
  | nil => rfl
  | cons c rest ih =>
    simp only [sparseBelow, List.all_cons, Bool.and_eq_true, decide_eq_true_eq] at h
    obtain ⟨hc, hrest⟩ := h
    rw [sparseGet_cons, if_neg (by omega)]
    exact ih hrest

/-- The N ring words from WR on each take their block value, and every other ring word stays. -/
theorem overlapAdd_get {n wr : Nat} {out : Samples} (a : Array Cplx) (hwf : sparseWf out = true) :
    (∀ j < n, sparseGet (overlapAdd n wr a out) ((wr + j) % (2 * n))
      = F32.add (sparseGet out ((wr + j) % (2 * n))) (F32.mul (a.getD j cZero).1 (F32.rnd32 1 n)))
    ∧ ∀ q < 2 * n, (∀ j < n, q ≠ (wr + j) % (2 * n)) → sparseGet (overlapAdd n wr a out) q = sparseGet out q := by
  have hstep (j : Nat) (_ : j < n) := overlapAdd_step_actsOn a wr n j
  have hsize := sparseToArray_size (2 * n) hwf
  refine ⟨fun j hj => ?_, fun q hq hother => ?_⟩
  · have hq : (wr + j) % (2 * n) < 2 * n := Nat.mod_lt _ (by omega)
    rw [overlapAdd, sparseGet_ofList, List.getD_eq_getElem?_getD, Array.getElem?_toList]
    dsimp only
    rw [ActsOn.foldl_range_get hstep (fun j hj k hk q hqj hqk => ring_index_inj hj hk (hqj.symm.trans hqk)) hsize hj rfl,
      Array.getElem?_setIfInBounds, if_pos rfl, if_pos (hsize.symm ▸ hq), sparseToArray_getD hwf hq, Option.getD_some]
  · rw [overlapAdd, sparseGet_ofList, List.getD_eq_getElem?_getD, Array.getElem?_toList]
    dsimp only
    rw [(ActsOn.foldl_range hstep).frame _ q hsize fun ⟨j, hj, heq⟩ => hother j hj heq, sparseToArray_get hwf hq, Option.getD_some]

/-! ### CONV_STEP (R394 to R396) -/

theorem exec_convStep (c : Nat) (s : State) :
    exec (.convStep c) s = channelCommand c s
      (setRes0 (convSample s.irvalid s.convN s.convH (convAt s c) s.larg.w0).1
        (setConv c (convSample s.irvalid s.convN s.convH (convAt s c) s.larg.w0).2 s)) := rfl

theorem convAt_of_getElem? {s : State} {c : Nat} {v : ConvCh} (h : s.conv[c]? = some v) : convAt s c = v := by
  rw [convAt, List.getD_eq_getElem?_getD, h, Option.getD_some]

/-- The engine with one sample read and cleared, and one stored (R394). -/
def convStored (n : Nat) (v : ConvCh) (x : F32) : ConvCh :=
  { v with out := sparseSet v.out v.rd 0#32, rd := (v.rd + 1) % (2 * n), inb := sparseSet v.inb v.ip x, ip := v.ip + 1 }

theorem convSample_within {n h : Nat} {v : ConvCh} (hip : v.ip + 1 ≠ h) (x : F32) :
    convSample true n h v x = (sparseGet v.out v.rd, convStored n v x) := by
  simp [convSample, convStored, hip, F32.zero]

theorem convSample_full {n h : Nat} {v : ConvCh} (hip : v.ip + 1 = h) (x : F32) :
    convSample true n h v x = (sparseGet v.out v.rd, convBlock n h (convStored n v x)) := by
  simp [convSample, convStored, hip, F32.zero]

/-- CONV_STEP without an impulse response. -/
theorem exec_convStep_noIr {c : Nat} {s : State} (hcfg : s.cfg = true) (hc : c < s.nch) (hir : s.irvalid = false) :
    exec (.convStep c) s = .next { s with busy := false, done := true, res0 := 0#32 } := by
  have hsample : convSample s.irvalid s.convN s.convH (convAt s c) s.larg.w0 = (0#32, convAt s c) := if_pos hir
  rw [exec_convStep, channelCommand_accepted _ hcfg hc, hsample, setConv_self]
  rfl

/-- CONV_STEP with an impulse response, from what the sample makes of the channel. -/
theorem exec_convStep_ir {c : Nat} {s : State} {v v' : ConvCh} {y : F32} (hcfg : s.cfg = true) (hc : c < s.nch) (hir : s.irvalid = true)
    (hv : s.conv[c]? = some v) (hsample : convSample true s.convN s.convH v s.larg.w0 = (y, v')) :
    exec (.convStep c) s = .next { s with busy := false, done := true, res0 := y, conv := s.conv.set c v' } := by
  have hstep : convSample s.irvalid s.convN s.convH (convAt s c) s.larg.w0 = (y, v') := by rw [hir, convAt_of_getElem? hv, hsample]
  rw [exec_convStep, channelCommand_accepted _ hcfg hc, hstep]
  rfl

/-- The ring after a completed hop, word by word; past its 2N words both rings read +0.0. -/
theorem convBlock_out {n h : Nat} {v : ConvCh} (x : F32) (hwf : sparseWf v.out = true) (hbelow : sparseBelow (2 * n) v.out = true) :
    (∀ j < n, sparseGet (convBlock n h (convStored n v x)).out ((v.wr + j) % (2 * n))
      = F32.add (sparseGet (convStored n v x).out ((v.wr + j) % (2 * n)))
          (F32.mul ((convTransform n h (convStored n v x)).getD j (0#32, 0#32)).1 (F32.rnd32 1 n)))
    ∧ ∀ q, (∀ j < n, q ≠ (v.wr + j) % (2 * n)) →
      sparseGet (convBlock n h (convStored n v x)).out q = sparseGet (convStored n v x).out q := by
  have hcleared : sparseWf (convStored n v x).out = true := sparseWf_set v.rd 0#32 hwf
  obtain ⟨hblock, hother⟩ := overlapAdd_get (n := n) (wr := v.wr) (convTransform n h (convStored n v x)) hcleared
  refine ⟨hblock, fun q hq => ?_⟩
  rcases Nat.lt_or_ge q (2 * n) with hlt | hge
  · exact hother q hlt hq
  · have hring : sparseGet (convBlock n h (convStored n v x)).out q = 0#32 := sparseGet_of_below (overlapAdd_shape hcleared).2 hge
    rw [hring, convStored, sparseGet_set, sparseGet_of_below hbelow hge, ite_self]

/-- Settles O38: the two checks; the sample by whether it completes the hop, with the ring after a block word by word (`convBlock_out`); the
transform and the block transform by their own lemmas (`isFft_fft`, `convTransform_spec`), and the scale by exact rounding. -/
theorem convStepCommand : Obligations.ConvStepCommand := by
  refine ⟨fun c hc => decodeEncode (.convStep c) (decide_eq_true hc), fun c s => ⟨channelCommand_unconfigured _, channelCommand_badUnit _,
    exec_convStep_noIr, fun v hcfg hc hir hv => ⟨fun hip => ?_, fun hip _ hwf hbelow => ?_⟩⟩, fun inverse l a ha => isFft_fft inverse ha,
    convTransform_spec, fun l hl => ⟨?_, fun x hx => fix_mul_inv_two_pow (by omega) hx⟩⟩
  · exact exec_convStep_ir hcfg hc hir hv (convSample_within hip _)
  · exact ⟨_, exec_convStep_ir hcfg hc hir hv (convSample_full hip _), convBlock_out s.larg.w0 hwf hbelow⟩
  · rw [rnd32_inv_two_pow (by omega), F32.pack]
    simp

/-! ### IR_COMMIT (R393) -/

theorem exec_irCommit_session {s : State} (hcfg : s.cfg = true) (hsess : s.irsess = true) : exec .irCommit s = finish (irCommitted s) :=
  (if_neg (by simp [hcfg])).trans (if_neg (by simp [hsess]))

/-- The short channels below C, as the model finds them. -/
theorem anyShort_iff {s : State} :
    ((List.range s.nch).any fun c => decide ((irAt s c).cnt < s.lsrc)) = true ↔ ∃ c < s.nch, (irAt s c).cnt < s.lsrc := by
  simp only [List.any_eq_true, List.mem_range, decide_eq_true_eq]

/-- The two warnings of R393 in their order, in the words of 60_exceptions R483. -/
theorem commitWarnings (s : State) (short cut : Bool) {e1 e2 : Word}
    (he1 : e1 = if short then errcodeRecorded s (s.lcmd.extractLsb' 24 8) 0x0C#8 else s.errcode)
    (he2 : e2 = if cut then errcodeRecorded { s with err := s.err || short, errcode := e1 } (s.lcmd.extractLsb' 24 8) 0x0D#8 else e1) :
    warnIf cut .irTrunc (warnIf short .irShort s) = { s with err := s.err || short || cut, errcode := e2 } := by
  subst he1 he2
  rw [warnIf_eq, warnIf_eq]
  rfl

/-- IR_COMMIT past its checks: the sizes, the channels, the results and what the warnings leave in ERR and ERRCODE. -/
theorem exec_irCommit_next {s : State} {m0 m n : Nat} {short : Bool} {e1 e2 : Word} (hcfg : s.cfg = true) (hsess : s.irsess = true)
    (hm0 : m0 = resampledLength s.lsrc s.fssrc s.fs) (hm : m = min m0 (s.inst.convNMax / 2)) (hn : n = fftSize m)
    (hshort : short = true ↔ ∃ c < s.nch, (irAt s c).cnt < s.lsrc)
    (he1 : e1 = if short then errcodeRecorded s (s.lcmd.extractLsb' 24 8) 0x0C#8 else s.errcode)
    (he2 : e2 = if m < m0 then errcodeRecorded { s with err := s.err || short, errcode := e1 } (s.lcmd.extractLsb' 24 8) 0x0D#8 else e1) :
    exec .irCommit s = .next { s with
      busy := false
      done := true
      irvalid := true
      irsess := false
      convN := n
      convH := n / 2
      irLen := m
      conv := (List.range s.inst.maxCh).map (committedCh s n m)
      res0 := BitVec.ofNat 32 n
      res1 := BitVec.ofNat 32 m
      err := s.err || short || decide (m < m0)
      errcode := e2 } := by
  have hany : ((List.range s.nch).any fun c => decide ((irAt s c).cnt < s.lsrc)) = short :=
    Bool.eq_iff_iff.2 (anyShort_iff.trans hshort.symm)
  have hwarned := commitWarnings s short (decide (m < m0)) he1 (by simpa only [decide_eq_true_eq] using he2)
  subst hm0 hm hn
  simp only [exec_irCommit_session hcfg hsess, irCommitted, hany, hwarned]
  rfl

/-- The spectrum of a response is the transform of the padded response (R384). -/
theorem isFft_irSpectrum {l : Nat} {ir : List F32} (hle : ir.length ≤ 2 ^ l) : IsFft false l (zeroPadded (2 ^ l) ir) (irSpectrum (2 ^ l) ir) :=
  isFft_fft false (zeroPadded_size hle)

theorem committedCh_specGet {s : State} {n m c : Nat} (hc : c < s.nch) (j : Nat) :
    sparseGet (committedCh s n m c).specRe j = ((irSpectrum n (resampled s.lsrc s.fssrc s.fs m (irAt s c).raw)).getD j cZero).1
      ∧ sparseGet (committedCh s n m c).specIm j = ((irSpectrum n (resampled s.lsrc s.fssrc s.fs m (irAt s c).raw)).getD j cZero).2 := by
  simp only [committedCh, if_pos hc, sparseGet_ofList, List.getD_eq_getElem?_getD, List.getElem?_map, Array.getElem?_toList,
    Array.getD_eq_getD_getElem?]
  cases (irSpectrum n (resampled s.lsrc s.fssrc s.fs m (irAt s c).raw))[j]? <;> exact ⟨rfl, rfl⟩

/-- The spectrum that a commit gives a channel below C. -/
theorem committedCh_spectrum {s : State} {m c : Nat} (hc : c < s.nch) :
    ∃ (l : Nat) (p z : Array Cplx), fftSize m = 2 ^ l
      ∧ (∀ i < fftSize m,
        p[i]? = some (if i < m then (resampled s.lsrc s.fssrc s.fs m (irAt s c).raw).getD i 0#32 else 0#32, 0#32))
      ∧ IsFft false l p z
      ∧ ∀ j, sparseGet (committedCh s (fftSize m) m c).specRe j = (z.getD j (0#32, 0#32)).1
        ∧ sparseGet (committedCh s (fftSize m) m c).specIm j = (z.getD j (0#32, 0#32)).2 := by
  obtain ⟨j, hj⟩ := fftSize_eq m
  have hlen := resampled_length s.lsrc s.fssrc s.fs m (irAt s c).raw
  have hle := le_fftSize m
  rw [hj] at hle ⊢
  refine ⟨j + 1, zeroPadded (2 ^ (j + 1)) (resampled s.lsrc s.fssrc s.fs m (irAt s c).raw), _, rfl, fun i hi => ?_,
    isFft_irSpectrum (by omega), committedCh_specGet hc⟩
  rw [zeroPadded_get _ hi]
  split
  · rfl
  · rw [List.getD_eq_default _ _ (by omega)]

/-- The channels after a commit: empty rings with WR = H, and no spectrum from C on (R387, R393). -/
theorem committedCh_rings (s : State) (n m c : Nat) :
    (committedCh s n m c).inb = [] ∧ (committedCh s n m c).ip = 0 ∧ (committedCh s n m c).out = [] ∧ (committedCh s n m c).rd = 0
      ∧ (committedCh s n m c).wr = n / 2
      ∧ (s.nch ≤ c → (committedCh s n m c).specRe = [] ∧ (committedCh s n m c).specIm = []) := by
  refine ⟨rfl, rfl, rfl, rfl, rfl, fun hc => ?_⟩
  simp [committedCh, not_lt.2 hc, sparseOfList, sparseFrom]

/-- Settles O42: the two checks; then the warnings as changes of ERR and ERRCODE (`warnIf_eq`), and the channels by their rings and spectra. -/
theorem irCommitCommand : Obligations.IrCommitCommand := by
  refine ⟨decodeEncode .irCommit rfl, fun s => ⟨fun hcfg => ?_, fun hcfg hsess => ?_, ?_⟩⟩
  · exact (if_pos hcfg).trans (refuse_eq_refusedState .notConfigured s)
  · exact (if_neg (by simp [hcfg])).trans ((if_pos hsess).trans (refuse_eq_refusedState .sequence s))
  · intro hcfg hsess m0 m n short hm0 hm hn hshort
    refine ⟨_, _, _, rfl, rfl, exec_irCommit_next hcfg hsess hm0 hm hn hshort rfl rfl, (List.length_map _).trans List.length_range,
      fun c v hv => ?_⟩
    obtain ⟨hinb, hip, hout, hrd, hwr, habove⟩ := committedCh_rings s n m c
    obtain rfl : committedCh s n m c = v := by
      rw [List.getElem?_map, Option.map_eq_some_iff] at hv
      obtain ⟨c', hc', rfl⟩ := hv
      obtain ⟨-, rfl⟩ := List.getElem?_eq_some_iff.1 hc'
      rw [List.getElem_range]
    subst hn
    exact ⟨hinb, hip, hout, hrd, hwr, habove, committedCh_spectrum⟩

end Sys2Proof.Machine
end

section
/-! The parameter store (46_parameter_store R430 to R437, 10_state R49): names and their matching, LOOKUP and ALLOC as first entries of the
store, what P_REGISTER, P_SET and P_GET make of the state, and that what was stored is found again. -/

namespace Sys2Proof.Machine

/-! ### Lists: the first element with a property, and the elements before the first without it -/

/-- `List.findIdx?` answers the first index at which the property holds. -/
theorem findIdx?_eq_some_iff_first {α : Type} {l : List α} {p : α → Bool} {i : Nat} :
    l.findIdx? p = some i ↔ ∃ x, l[i]? = some x ∧ p x = true ∧ ∀ j < i, ∀ y, l[j]? = some y → ¬p y = true := by
  rw [List.findIdx?_eq_some_iff_getElem]
  constructor
  · rintro ⟨hi, hx, hfirst⟩
    refine ⟨_, List.getElem?_eq_getElem hi, hx, fun j hj y hy => ?_⟩
    obtain ⟨_, rfl⟩ := List.getElem?_eq_some_iff.1 hy
    exact hfirst j hj
  · rintro ⟨_, hi, hx, hfirst⟩
    obtain ⟨hlt, rfl⟩ := List.getElem?_eq_some_iff.1 hi
    exact ⟨hlt, hx, fun j hj => hfirst j hj _ (List.getElem?_eq_getElem (hj.trans hlt))⟩

/-- Element `k` of a list against the leading elements that have the property: one of them, or the one that ends them. -/
theorem takeWhile_at {α : Type} {l : List α} {p : α → Bool} {k : Nat} {x : α} (hx : l[k]? = some x) :
    (k < (l.takeWhile p).length → (l.takeWhile p)[k]? = some x ∧ p x = true) ∧ (k = (l.takeWhile p).length → p x = false) := by
  constructor
  · intro hk
    have hsame := List.prefix_iff_getElem?.1 (List.takeWhile_prefix p) k hk
    obtain rfl : x = (l.takeWhile p)[k] := Option.some.inj (hx.symm.trans hsame)
    exact ⟨List.getElem?_eq_getElem hk, List.mem_takeWhile_imp (List.getElem_mem hk)⟩
  · rintro rfl
    have hhead : (l.dropWhile p).head? = some x := by
      rw [← hx, List.head?_eq_getElem?]
      conv_rhs => rw [← List.takeWhile_append_dropWhile (p := p) (l := l)]
      rw [List.getElem?_append_right (by simp), List.takeWhile_append_dropWhile, Nat.sub_self]
    have hstop := List.head?_dropWhile_not p l
    rw [hhead] at hstop
    exact hstop

/-- What stands at index `k` of a list after a write at `e`. -/
theorem getElem?_set_cases {α : Type} {l : List α} {e k : Nat} {x y : α} (h : (l.set e x)[k]? = some y) :
    (e = k ∧ y = x) ∨ (e ≠ k ∧ l[k]? = some y) := by
  rw [List.getElem?_set] at h
  split_ifs at h with hk hl
  · exact .inl ⟨hk, (Option.some.inj h).symm⟩
  · exact .inr ⟨hk, h⟩

/-! ### Names (R432, 10_state R49) -/

/-- `fold` on the numbers of the bytes (R432). -/
theorem toNat_foldByte (b : Byte) : (foldByte b).toNat = if 0x41 ≤ b.toNat ∧ b.toNat ≤ 0x5A then b.toNat + 0x20 else b.toNat := by
  have hrange : (0x41#8 ≤ b ∧ b ≤ 0x5A#8) ↔ (0x41 ≤ b.toNat ∧ b.toNat ≤ 0x5A) := Iff.rfl
  rw [foldByte, apply_ite BitVec.toNat, if_congr hrange rfl rfl]
  split_ifs with h
  · rw [BitVec.toNat_add, BitVec.toNat_ofNat]
    omega
  · rfl

theorem namesMatch_iff_map {a b : Name8} : namesMatch a b = true ↔ a.map foldByte = b.map foldByte := beq_iff_eq

theorem namesMatch_comm (a b : Name8) : namesMatch a b = namesMatch b a := by
  rw [Bool.eq_iff_iff, namesMatch_iff_map, namesMatch_iff_map, eq_comm]

/-- Matching names match the same names. -/
theorem namesMatch_congr_right {a b : Name8} (h : namesMatch a b = true) (n : Name8) : namesMatch n a = namesMatch n b := by
  rw [namesMatch, namesMatch, namesMatch_iff_map.1 h]

theorem length_eq_of_namesMatch {a b : Name8} (h : namesMatch a b = true) : a.length = b.length := by
  simpa using congrArg List.length (namesMatch_iff_map.1 h)

theorem namesMatch_iff (a b : Name8) :
    namesMatch a b = true ↔ a.length = b.length ∧ ∀ (i : Nat) (x y : Byte), a[i]? = some x → b[i]? = some y →
      (foldByte x).toNat = (foldByte y).toNat := by
  refine ⟨fun h => ⟨length_eq_of_namesMatch h, fun i x y hx hy => ?_⟩, fun ⟨hlen, hbytes⟩ => ?_⟩
  · have hi := congrArg (·[i]?) (namesMatch_iff_map.1 h)
    simp only [List.getElem?_map, hx, hy, Option.map_some, Option.some.injEq] at hi
    rw [hi]
  · refine namesMatch_iff_map.2 (List.ext_getElem (by simpa using hlen) fun i ha hb => ?_)
    rw [List.length_map] at ha hb
    rw [List.getElem_map, List.getElem_map]
    exact BitVec.eq_of_toNat_eq (hbytes i _ _ (List.getElem?_eq_getElem ha) (List.getElem?_eq_getElem hb))

/-- The sixteen bytes of NAME0 to NAME3, byte 0 of NAME0 first (10_state R49). -/
def quadBytes (q : Quad) : List Byte := wordBytes q.w0 ++ wordBytes q.w1 ++ wordBytes q.w2 ++ wordBytes q.w3

theorem nameOf_eq (q : Quad) : nameOf q = (quadBytes q).takeWhile fun b => b != 0#8 := rfl

/-- Byte `k` of the sixteen is byte `k % 4` of word `k / 4` (20_memory R103). -/
theorem quadBytes_get (q : Quad) {k : Nat} (hk : k < 16) {w : Word} (hw : [q.w0, q.w1, q.w2, q.w3][k / 4]? = some w) :
    (quadBytes q)[k]? = some (w.extractLsb' (8 * (k % 4)) 8) := by
  interval_cases k <;> exact congrArg some (congrArg (BitVec.extractLsb' _ 8) (Option.some.inj hw))

theorem length_nameOf_le (q : Quad) : (nameOf q).length ≤ 16 := (List.takeWhile_prefix _).length_le

theorem zero_notMem_nameOf (q : Quad) : 0#8 ∉ nameOf q := fun h => absurd (List.mem_takeWhile_imp h) (by decide)

/-! ### LOOKUP and ALLOC (R432, R435) -/

theorem lookupName_eq_some_iff {s : State} {n : Name8} {e : Nat} : lookupName s.pst n = some e ↔ ∃ x, FirstMatch s n e x := by
  rw [lookupName, findIdx?_eq_some_iff_first]
  simp only [FirstMatch, Bool.and_eq_true, and_assoc]

theorem lookupName_eq_none_iff {s : State} {n : Name8} : lookupName s.pst n = none ↔ NoMatch s n := by
  simp only [lookupName, List.findIdx?_eq_none_iff, NoMatch, Bool.eq_false_iff, Ne, Bool.and_eq_true]

theorem freeIndex_eq_some_iff {s : State} {e : Nat} : freeIndex s.pst = some e ↔ FirstFree s e := by
  simp only [freeIndex, Option.map_eq_some_iff, findIdx?_eq_some_iff_first, List.getElem?_drop, Bool.not_eq_true',
    Bool.not_eq_false]
  constructor
  · rintro ⟨i, ⟨x, hx, hinvalid, hfirst⟩, rfl⟩
    refine ⟨Nat.le_add_left 8 i, ⟨x, by rwa [Nat.add_comm], hinvalid⟩, fun j h8 hj y hy => hfirst (j - 8) (by omega) y ?_⟩
    rwa [Nat.add_sub_cancel' h8]
  · rintro ⟨h8, ⟨x, hx, hinvalid⟩, hfirst⟩
    refine ⟨e - 8, ⟨x, by rwa [Nat.add_sub_cancel' h8], hinvalid, fun j hj y hy => ?_⟩, Nat.sub_add_cancel h8⟩
    exact hfirst (8 + j) (Nat.le_add_right 8 j) (by omega) y hy

theorem freeIndex_eq_none_iff {s : State} : freeIndex s.pst = none ↔ StoreFull s := by
  simp only [freeIndex, Option.map_eq_none_iff, List.findIdx?_eq_none_iff, Bool.not_eq_false', List.mem_iff_getElem?,
    List.getElem?_drop, forall_exists_index]
  refine ⟨fun h j h8 y hy => h y (j - 8) ?_, fun h y i hy => h (8 + i) (Nat.le_add_right 8 i) y hy⟩
  rwa [Nat.add_sub_cancel' h8]

/-- Settles O44: matching by the folded bytes (`toNat_foldByte`), LOOKUP as the first match, and the name as the leading ones of the
sixteen bytes (`takeWhile_at`). -/
theorem nameMatching : Obligations.NameMatching := by
  refine ⟨fun a b => ?_, fun s a b h => ?_, fun s n => ⟨fun e => lookupName_eq_some_iff, lookupName_eq_none_iff⟩,
    fun q => ⟨length_nameOf_le q, fun k hk w hw => ?_⟩⟩
  · simp only [← toNat_foldByte]
    exact namesMatch_iff a b
  · simp only [lookupName, namesMatch_congr_right h]
  · simpa [nameOf_eq] using takeWhile_at (p := fun b => b != 0#8) (quadBytes_get q hk hw)

/-! ### Entries -/

theorem entryAt_of_get {s : State} {e : Nat} {x : PEntry} (h : s.pst[e]? = some x) : entryAt s e = x := by
  rw [entryAt, List.getD_eq_getElem?_getD, h, Option.getD_some]

/-- Matching names have the same first match. -/
theorem FirstMatch.of_namesMatch {s : State} {a b : Name8} {e : Nat} {x : PEntry} (h : FirstMatch s a e x)
    (hab : namesMatch a b = true) : FirstMatch s b e x := by
  simpa only [FirstMatch, namesMatch_congr_right hab] using h

/-- An entry that matches is the first match if no entry before it matched. -/
theorem firstMatch_setEntry {s : State} {n : Name8} {e : Nat} {x : PEntry} (he : e < s.pst.length) (hvalid : x.valid = true)
    (hname : namesMatch x.name n = true) (hfirst : ∀ j < e, ∀ y, s.pst[j]? = some y → ¬(y.valid = true ∧ namesMatch y.name n = true)) :
    FirstMatch (setEntry e x s) n e x := by
  refine ⟨List.getElem?_set_self he, hvalid, hname, fun j hj y hy => hfirst j hj y ?_⟩
  rwa [setEntry_pst, List.getElem?_set_ne hj.ne'] at hy

/-- Storing a value in the entry of a name leaves it the entry of that name. -/
theorem FirstMatch.storeEntry {s : State} {n : Name8} {e : Nat} {x : PEntry} (h : FirstMatch s n e x) (register created : Bool) (v : F32) :
    ∃ y, FirstMatch (storeEntry register created e v s) n e y ∧ y.value = storedValue s.inst e v := by
  obtain ⟨hx, hvalid, hname, hfirst⟩ := h
  obtain rfl := entryAt_of_get hx
  exact ⟨_, firstMatch_setEntry (List.getElem?_eq_some_iff.1 hx).1 hvalid hname hfirst, rfl⟩

/-- The entry that ALLOC makes for a new name is the entry of that name. -/
theorem firstMatch_allocEntry {s : State} {n : Name8} {e : Nat} (hnew : NoMatch s n) (hfree : FirstFree s e) :
    ∃ x, FirstMatch (allocEntry e n s) n e x := by
  obtain ⟨-, ⟨x, hx, -⟩, -⟩ := hfree
  exact ⟨_, firstMatch_setEntry (List.getElem?_eq_some_iff.1 hx).1 rfl (namesMatch_iff_map.2 rfl)
    fun j _ y hy => hnew y (List.mem_of_getElem? hy)⟩

/-! ### P_GET (R442) -/

/-- Settles O45: LOOKUP finds the first match or none, and the two outcomes are those of `execPGet_found` and `execPGet_absent`. -/
theorem parameterGet : Obligations.ParameterGet := by
  refine ⟨decodeEncode .pGet rfl, fun s => ⟨fun h => execPGet_absent (h.imp_right lookupName_eq_none_iff.2), fun e x hname hx => ?_⟩⟩
  have hvalue : paramValue s e = x.value := congrArg PEntry.value (entryAt_of_get hx.1)
  rw [← hvalue]
  exact execPGet_found hname (lookupName_eq_some_iff.2 ⟨x, hx⟩)

/-! ### P_REGISTER and P_SET (R440, R441) -/

theorem storedValue_above (p : Params) (v : F32) {e : Nat} (he : 8 ≤ e) : storedValue p e v = v := by
  rw [storedValue, List.getElem?_eq_none (show (builtinTable p).length ≤ e from he)]

theorem exec_writeParam (register : Bool) (s : State) : exec (if register then .pRegister else .pSet) s = writeParam register s := by
  cases register <;> rfl

theorem writeParam_noName {register : Bool} {s : State} (hname : nameOf s.lname = []) :
    writeParam register s = finish (setRes 0#32 0#32 s) := if_pos hname

theorem writeParam_found {register : Bool} {s : State} {e : Nat} {x : PEntry} (hname : nameOf s.lname ≠ [])
    (h : FirstMatch s (nameOf s.lname) e x) : writeParam register s = finish (storeEntry register false e s.larg.w0 s) := by
  simp [writeParam, hname, lookupName_eq_some_iff.2 ⟨x, h⟩]

theorem writeParam_created {register : Bool} {s : State} {e : Nat} (hname : nameOf s.lname ≠ []) (hnew : NoMatch s (nameOf s.lname))
    (hfree : FirstFree s e) :
    writeParam register s = finish (storeEntry register true e s.larg.w0 (allocEntry e (nameOf s.lname) s)) := by
  simp [writeParam, hname, lookupName_eq_none_iff.2 hnew, freeIndex_eq_some_iff.2 hfree]

theorem writeParam_full {register : Bool} {s : State} (hname : nameOf s.lname ≠ []) (hnew : NoMatch s (nameOf s.lname))
    (hfull : StoreFull s) : writeParam register s = finish (setRes 0#32 0#32 (recordError .paramFull (cmdOpc s) s)) := by
  simp [writeParam, hname, lookupName_eq_none_iff.2 hnew, freeIndex_eq_none_iff.2 hfull]

/-- Storing in the entry just allocated is one write of the whole entry. -/
theorem storeEntry_allocEntry {s : State} {e : Nat} (he : FirstFree s e) (register : Bool) (n : Name8) (v : F32) :
    storeEntry register true e v (allocEntry e n s)
      = setRes v (paramStatus true e) (notify e (setEntry e ⟨true, n, v, if register then v else F32.zero⟩ s)) := by
  obtain ⟨h8, ⟨x, hx, -⟩, -⟩ := he
  have hentry : entryAt (allocEntry e n s) e = { entryAt s e with valid := true, name := n } := by
    rw [allocEntry, entryAt_setEntry, if_pos ⟨rfl, (List.getElem?_eq_some_iff.1 hx).1⟩]
  simp only [storeEntry, hentry, storedValue_above _ _ h8, if_true]
  simp only [allocEntry, setEntry, List.set_set]

/-- Settles O46: the four cases of the common text of the two commands, each with its whole next state. -/
theorem parameterWrite : Obligations.ParameterWrite := by
  refine ⟨decodeEncode .pRegister rfl, decodeEncode .pSet rfl,
    fun p v => ⟨rfl, rfl, rfl, rfl, rfl, rfl, rfl, rfl, fun e he => storedValue_above p v he⟩, ?_⟩
  rintro register i s rfl
  rw [exec_writeParam]
  refine ⟨writeParam_noName, fun e x hname hx => ?_, fun e hname hnew hfree => ?_, writeParam_full⟩
  · obtain rfl := entryAt_of_get hx.1
    exact writeParam_found hname hx
  · rw [writeParam_created hname hnew hfree, storeEntry_allocEntry hfree]
    rfl

/-! ### What was stored is found again (R443) -/

theorem paramStatus_getLsbD (created : Bool) (e k : Nat) (hk : k < 2) :
    (paramStatus created e).getLsbD k = (1 + 2 * created.toNat).testBit k := by
  rw [paramStatus, BitVec.getLsbD_ofNat, decide_eq_true (by omega), Bool.true_and, show 256 * e = 2 ^ 8 * e from rfl, Nat.add_comm,
    Nat.testBit_two_pow_mul_add _ (by cases created <;> decide), if_pos (by omega)]

/-- The index in RES1 does not depend on CREATED (R436). -/
theorem paramStatus_index (created : Bool) (e : Nat) : (paramStatus created e).extractLsb' 8 8 = BitVec.ofNat 8 e := by
  apply BitVec.eq_of_toNat_eq
  rw [BitVec.extractLsb'_toNat, paramStatus, BitVec.toNat_ofNat, BitVec.toNat_ofNat, Nat.shiftRight_eq_div_pow]
  cases created <;> simp only [Bool.toNat_true, Bool.toNat_false] <;> omega

/-- A P_REGISTER or P_SET that reports FOUND leaves the name an entry, whose value is in RES0 and whose index is in RES1. -/
theorem ParamWritten.firstMatch {register : Bool} {s u : State} (h : ParamWritten register s u) (hfound : u.res1.getLsbD 0 = true) :
    ∃ created e x, FirstMatch u (nameOf s.lname) e x ∧ u.res0 = x.value ∧ u.res1 = paramStatus created e := by
  cases h with
  | noName | full => simp at hfound
  | found e _ hlookup =>
    obtain ⟨x, hx⟩ := lookupName_eq_some_iff.1 hlookup
    obtain ⟨y, hy, hvalue⟩ := hx.storeEntry register false s.larg.w0
    exact ⟨_, e, y, hy, hvalue.symm, rfl⟩
  | created e _ hnew hfree =>
    obtain ⟨x, hx⟩ := firstMatch_allocEntry (lookupName_eq_none_iff.1 hnew) (freeIndex_eq_some_iff.1 hfree)
    obtain ⟨y, hy, hvalue⟩ := hx.storeEntry register true s.larg.w0
    exact ⟨_, e, y, hy, hvalue.symm, rfl⟩

theorem exec_next_paramWritten {i : Instr} {s t : State} (hi : i = .pRegister ∨ i = .pSet) (h : exec i s = .next t) :
    ∃ register u, ParamWritten register s u ∧ t = complete u := by
  obtain ⟨register, rfl⟩ : ∃ register : Bool, i = if register then .pRegister else .pSet :=
    hi.elim (fun hi => ⟨true, hi⟩) fun hi => ⟨false, hi⟩
  obtain ⟨u, hu, hwrite⟩ := writeParam_cases register s
  rw [exec_writeParam, hwrite] at h
  exact ⟨register, u, hu, by simpa using h.symm⟩

/-- Settles O47: the written entry is the first match of the name (`ParamWritten.firstMatch`), hence of every matching name, and P_GET reads
the first match. -/
theorem parameterRoundTrip : Obligations.ParameterRoundTrip := by
  intro i s t q hi hexec hname hfound hmatch
  obtain ⟨register, u, hu, rfl⟩ := exec_next_paramWritten hi hexec
  obtain ⟨created, e, x, hx, hres0, hres1⟩ := hu.firstMatch hfound
  have hq : nameOf q ≠ [] := by
    rw [← List.length_pos_iff, ← length_eq_of_namesMatch hmatch]
    exact List.length_pos_iff.2 hname
  have hget := (parameterGet.2 { complete u with lname := q, busy := true }).2 e x hq (hx.of_namesMatch hmatch)
  refine ⟨_, hget, hres0.symm, paramStatus_getLsbD false e 0 (by omega), paramStatus_getLsbD false e 1 (by omega), ?_, rfl⟩
  rw [complete_res1, hres1, paramStatus_index]
  exact paramStatus_index false e

end Sys2Proof.Machine
end

section
/-! The parameter store stays in order (46_parameter_store R430 to R435). -/

namespace Sys2Proof.Machine

/-! ### The built-in parameters (R431, R434) -/

/-- The names of the built-ins do not depend on the synthesis parameters. -/
theorem builtinTable_names (p : Params) : (builtinTable p).map Builtin.name = (builtinTable Params.reference).map Builtin.name := by
  simp only [builtinTable, List.map_cons, List.map_nil]

theorem length_builtinTable (p : Params) : (builtinTable p).length = 8 := rfl

theorem builtin_name_legal {p : Params} {b : Builtin} (hb : b ∈ builtinTable p) :
    1 ≤ b.name.length ∧ b.name.length ≤ 16 ∧ 0#8 ∉ b.name := by
  have hall : ∀ n ∈ (builtinTable Params.reference).map Builtin.name, 1 ≤ n.length ∧ n.length ≤ 16 ∧ 0#8 ∉ n := by decide
  exact hall _ (builtinTable_names p ▸ List.mem_map_of_mem hb)

/-- No two built-ins have matching names. -/
theorem builtin_eq_of_namesMatch {p : Params} {i j : Nat} {b c : Builtin} (hb : (builtinTable p)[i]? = some b)
    (hc : (builtinTable p)[j]? = some c) (h : namesMatch b.name c.name = true) : i = j := by
  have hnodup : (((builtinTable p).map Builtin.name).map (List.map foldByte)).Nodup := by
    rw [builtinTable_names]
    decide
  refine (List.getElem?_inj (by simpa using (List.getElem?_eq_some_iff.1 hb).1) hnodup).1 ?_
  simp only [List.getElem?_map, hb, hc, Option.map_some, namesMatch_iff_map.1 h]

/-- The range of a built-in holds its reset value; the upper end of PREDLY depends on PRE_CAP. -/
theorem builtin_range {p : Params} (hp : p.preCap ≤ 2 ^ 24) {b : Builtin} (hb : b ∈ builtinTable p) :
    F32.ge b.hi b.lo = true ∧ F32.ge b.rst b.lo = true ∧ F32.ge b.hi b.rst = true := by
  have hpredly : F32.ge (F32.ofNat (p.preCap - 1)) 0#32 = true := by
    obtain ⟨hfin, hfix, -⟩ := F32.ofNat_exact (p.preCap - 1) (by omega)
    rw [F32.ge_iff_fix hfin rfl, hfix, show F32.fix 0#32 = 0 from rfl]
    positivity
  simp only [builtinTable, List.mem_cons, List.not_mem_nil, or_false] at hb
  rcases hb with rfl | rfl | rfl | rfl | rfl | rfl | rfl | rfl
  case inr.inr.inr.inr.inr.inl => exact ⟨hpredly, F32.ge_refl rfl, hpredly⟩
  all_goals exact ⟨rfl, rfl, rfl⟩

/-- What is stored in a built-in lies in its range (R434). -/
theorem storedValue_between {p : Params} (hp : p.preCap ≤ 2 ^ 24) {e : Nat} {b : Builtin} (hb : (builtinTable p)[e]? = some b) (v : F32) :
    F32.ge (storedValue p e v) b.lo = true ∧ F32.ge b.hi (storedValue p e v) = true := by
  obtain ⟨hle, -, -⟩ := builtin_range hp (List.mem_of_getElem? hb)
  obtain ⟨hhi, hlo⟩ := F32.not_isNaN_of_ge hle
  rw [storedValue, hb]
  exact F32.clamp_in_range v hlo hhi hle

/-! ### The invariant under a write of an entry -/

/-- The invariant speaks of the synthesis parameters and the store only. -/
theorem StoreInv.congr {s t : State} (h : StoreInv s) (hinst : t.inst = s.inst) (hpst : t.pst = s.pst) : StoreInv t where
  inst := hinst ▸ h.inst
  size := by rw [hinst, hpst]; exact h.size
  builtins := by rw [hinst, hpst]; exact h.builtins
  names := by rw [hpst]; exact h.names
  unused := by rw [hpst]; exact h.unused
  unique := by rw [hpst]; exact h.unique

/-- `x` is in order as a valid entry at index `e` of the store of `s`. -/
structure EntryFits (s : State) (e : Nat) (x : PEntry) : Prop where
  valid : x.valid = true
  name : 1 ≤ x.name.length ∧ x.name.length ≤ 16 ∧ 0#8 ∉ x.name
  builtin : ∀ b, (builtinTable s.inst)[e]? = some b → x.name = b.name ∧ F32.ge x.value b.lo = true ∧ F32.ge b.hi x.value = true
  unique : ∀ (j : Nat) (y : PEntry), s.pst[j]? = some y → y.valid = true → namesMatch x.name y.name = true → e = j

/-- A valid entry of a store in order fits where it stands. -/
theorem StoreInv.entryFits {s : State} (h : StoreInv s) {e : Nat} {x : PEntry} (hx : s.pst[e]? = some x) (hvalid : x.valid = true) :
    EntryFits s e x where
  valid := hvalid
  name := h.names x (List.mem_of_getElem? hx) hvalid
  builtin b hb := by
    obtain ⟨y, hy, -, hname, hrange⟩ := h.builtins e b hb
    obtain rfl : x = y := Option.some.inj (hx.symm.trans hy)
    exact ⟨hname, hrange⟩
  unique j y hy hyvalid hmatch := h.unique e j x y hx hy hvalid hyvalid hmatch

theorem StoreInv.setEntry {s : State} (h : StoreInv s) {e : Nat} {x : PEntry} (hx : EntryFits s e x) : StoreInv (setEntry e x s) where
  inst := h.inst
  size := List.length_set.trans h.size
  builtins k b hb := by
    obtain ⟨y, hy, hold⟩ := h.builtins k b hb
    by_cases hk : e = k
    · subst hk
      exact ⟨x, List.getElem?_set_self (List.getElem?_eq_some_iff.1 hy).1, hx.valid, hx.builtin b hb⟩
    · exact ⟨y, (List.getElem?_set_ne hk).trans hy, hold⟩
  names := forall_mem_set h.names e fun _ => hx.name
  unused := forall_mem_set h.unused e fun hinvalid => absurd (hx.valid.symm.trans hinvalid) (by decide)
  unique i j y z hy hz hyvalid hzvalid hmatch := by
    rcases getElem?_set_cases hy with ⟨rfl, rfl⟩ | ⟨-, hy'⟩ <;> rcases getElem?_set_cases hz with ⟨rfl, rfl⟩ | ⟨-, hz'⟩
    · rfl
    · exact hx.unique j z hz' hzvalid hmatch
    · exact (hx.unique i y hy' hyvalid (namesMatch_comm _ _ ▸ hmatch)).symm
    · exact h.unique i j y z hy' hz' hyvalid hzvalid hmatch

/-- Storing a value in a valid entry: the name stays, and the value of a built-in is clamped. -/
theorem StoreInv.storeEntry {s : State} (h : StoreInv s) {e : Nat} {x : PEntry} (hx : s.pst[e]? = some x) (hvalid : x.valid = true)
    (register created : Bool) (v : F32) : StoreInv (storeEntry register created e v s) := by
  have hfits := h.entryFits hx hvalid
  obtain rfl := entryAt_of_get hx
  refine (h.setEntry (x := { entryAt s e with value := storedValue s.inst e v, dflt := _ }) ?_).congr rfl rfl
  exact { hfits with builtin := fun b hb => ⟨(hfits.builtin b hb).1, storedValue_between h.inst.preCap.2 hb v⟩ }

/-- ALLOC takes an entry above the built-ins for a name that no entry has (R435). -/
theorem StoreInv.allocEntry {s : State} (h : StoreInv s) {e : Nat} {n : Name8} (hname : 1 ≤ n.length ∧ n.length ≤ 16 ∧ 0#8 ∉ n)
    (hnew : NoMatch s n) (hfree : FirstFree s e) : StoreInv (allocEntry e n s) := by
  refine h.setEntry ⟨rfl, hname, fun b hb => ?_, fun j y hy hyvalid hmatch => ?_⟩
  · have hlt : e < 8 := (List.getElem?_eq_some_iff.1 hb).1
    exact absurd hfree.1 (not_le.2 hlt)
  · exact absurd ⟨hyvalid, namesMatch_comm _ _ ▸ hmatch⟩ (hnew y (List.mem_of_getElem? hy))

/-! ### The reset store (R431, 70_reset R511) -/

/-- An entry of the reset store is a built-in at its reset value, or unused at its reset contents. -/
theorem resetStore_cases {p : Params} {k : Nat} {x : PEntry} (h : (resetStore p)[k]? = some x) :
    (∃ b, (builtinTable p)[k]? = some b ∧ x = ⟨true, b.name, b.rst, b.rst⟩) ∨ x = ⟨false, [], 0#32, 0#32⟩ := by
  rw [resetStore, List.getElem?_append] at h
  split at h
  · rw [List.getElem?_map, Option.map_eq_some_iff] at h
    obtain ⟨b, hb, rfl⟩ := h
    exact .inl ⟨b, hb, rfl⟩
  · exact .inr (List.eq_of_mem_replicate (List.mem_of_getElem? h))

theorem resetStore_builtin {p : Params} {k : Nat} {b : Builtin} (hb : (builtinTable p)[k]? = some b) :
    (resetStore p)[k]? = some ⟨true, b.name, b.rst, b.rst⟩ := by
  rw [resetStore, List.getElem?_append_left (by simpa using (List.getElem?_eq_some_iff.1 hb).1), List.getElem?_map, hb, Option.map_some]

/-- A valid entry of the reset store is a built-in. -/
theorem resetStore_valid {p : Params} {k : Nat} {x : PEntry} (h : (resetStore p)[k]? = some x) (hvalid : x.valid = true) :
    ∃ b, (builtinTable p)[k]? = some b ∧ x.name = b.name := by
  rcases resetStore_cases h with ⟨b, hb, rfl⟩ | rfl
  · exact ⟨b, hb, rfl⟩
  · cases hvalid

theorem StoreInv.resetOf {p : Params} (hp : p.Valid) : StoreInv (State.resetOf p) where
  inst := hp
  size := by
    have h8 := hp.pMax.1
    change (resetStore p).length = p.pMax
    rw [resetStore, List.length_append, List.length_map, List.length_replicate, length_builtinTable]
    omega
  builtins k b hb := by
    obtain ⟨-, hrange⟩ := builtin_range hp.preCap.2 (List.mem_of_getElem? hb)
    exact ⟨_, resetStore_builtin hb, rfl, rfl, hrange⟩
  names x hx hvalid := by
    obtain ⟨k, hk⟩ := List.mem_iff_getElem?.1 hx
    obtain ⟨b, hb, hname⟩ := resetStore_valid hk hvalid
    exact hname ▸ builtin_name_legal (List.mem_of_getElem? hb)
  unused x hx hinvalid := by
    obtain ⟨k, hk⟩ := List.mem_iff_getElem?.1 hx
    rcases resetStore_cases hk with ⟨b, -, rfl⟩ | rfl
    · cases hinvalid
    · exact ⟨rfl, rfl, rfl⟩
  unique i j x y hx hy hxvalid hyvalid hmatch := by
    obtain ⟨b, hb, hxname⟩ := resetStore_valid hx hxvalid
    obtain ⟨c, hc, hyname⟩ := resetStore_valid hy hyvalid
    exact builtin_eq_of_namesMatch hb hc (hxname ▸ hyname ▸ hmatch)

/-! ### Commands and moves -/

/-- No command but P_REGISTER, P_SET and SOFT_RESET writes the store (R430). -/
theorem Accepted.pst {i : Instr} {s u : State} (h : Accepted i s u) (hreset : i ≠ .softReset) (hregister : i ≠ .pRegister)
    (hset : i ≠ .pSet) : u.pst = s.pst := by
  cases h with
  | softReset => exact absurd rfl hreset
  | pRegister => exact absurd rfl hregister
  | pSet => exact absurd rfl hset
  | config =>
    rw [warnIf_eq]
    rfl
  | clear => rw [clearUnits_eq]
  | irCommit =>
    obtain ⟨_, _, _, _, _, _, _, _, hc⟩ := irCommitted_frame s
    rw [hc]
  | pGet _ _ hp =>
    obtain ⟨_, _, rfl⟩ := hp.frame
    rfl
  | procBlock =>
    obtain ⟨_, _, _, _, _, _, _, _, hp⟩ := procDone_frame s
    rw [setRes0_pst, hp]
  | nop | dlyWrite | dlyRead | dlyReadi | revStep | gpsStep | convStep | irBegin | irOverflow | irPush => rfl

theorem StoreInv.paramWritten {register : Bool} {s u : State} (h : StoreInv s) (hu : ParamWritten register s u) : StoreInv u := by
  cases hu with
  | noName | full => exact h.congr rfl rfl
  | found e _ hlookup =>
    obtain ⟨x, hx, hvalid, -, -⟩ := lookupName_eq_some_iff.1 hlookup
    exact h.storeEntry hx hvalid register false _
  | created e hname hlookup hindex =>
    have hnew := lookupName_eq_none_iff.1 hlookup
    have hfree := freeIndex_eq_some_iff.1 hindex
    obtain ⟨x, hx, hvalid, -, -⟩ := firstMatch_allocEntry hnew hfree
    have hlegal := And.intro (List.length_pos_iff.2 hname) (And.intro (length_nameOf_le s.lname) (zero_notMem_nameOf s.lname))
    exact (h.allocEntry hlegal hnew hfree).storeEntry hx hvalid register true _

theorem StoreInv.accepted {i : Instr} {s u : State} (h : StoreInv s) (hreset : i ≠ .softReset) (hu : Accepted i s u) : StoreInv u := by
  by_cases hregister : i = .pRegister
  · subst hregister
    cases hu with
    | pRegister _ _ hp => exact h.paramWritten hp
  · by_cases hset : i = .pSet
    · subst hset
      cases hu with
      | pSet _ _ hp => exact h.paramWritten hp
    · exact h.congr hu.inst (hu.pst hreset hregister hset)

theorem keptByMoves_storeInv : KeptByMoves StoreInv where
  schedule _ _ h := h.congr rfl rfl
  reads _ _ _ h := h.congr rfl rfl
  reset _ _ h := (StoreInv.resetOf h.inst).congr rfl rfl
  error _ _ _ h := h.congr rfl rfl
  complete _ h := h.congr rfl rfl
  accepted _ _ _ hreset hu h := h.accepted hreset hu
  written _ _ _ _ hw h := by cases hw <;> exact h.congr rfl rfl

/-- Settles O57: the store is written by P_REGISTER and P_SET, in an entry that exists or in one that ALLOC makes for a new name, and by a
reset. -/
theorem storeInvariant : Obligations.StoreInvariant := fun _ _ h hstep => keptByMoves_storeInv.step hstep h

end Sys2Proof.Machine
end

section
/-! The Engine's move: every command completes in the one step that runs it, no step stops the machine (60_exceptions R484, R488), and an
accepted command gets its step however the Host's accesses are interleaved (70_reset_and_hazards R526). -/

namespace Sys2Proof.Machine

/-! ### Completion -/

theorem Accepted.schedule_reads {i : Instr} {s u : State} (h : Accepted i s u) : u.schedule = s.schedule ∧ u.reads = s.reads := by
  cases h with
  | config =>
    rw [warnIf_eq]
    exact ⟨rfl, rfl⟩
  | clear => simp [clearUnits_eq]
  | irCommit =>
    obtain ⟨_, _, _, _, _, _, _, _, hc⟩ := irCommitted_frame s
    simp [hc]
  | pRegister _ _ hp | pSet _ _ hp =>
    obtain ⟨_, _, _, _, _, _, _, rfl⟩ := hp.frame
    exact ⟨rfl, rfl⟩
  | pGet _ _ hp =>
    obtain ⟨_, _, rfl⟩ := hp.frame
    exact ⟨rfl, rfl⟩
  | procBlock =>
    obtain ⟨_, _, _, _, _, _, _, _, hp⟩ := procDone_frame s
    simp [hp]
  | nop | softReset | dlyWrite | dlyRead | dlyReadi | revStep | gpsStep | convStep | irBegin | irOverflow | irPush => exact ⟨rfl, rfl⟩

/-- Every command answers a completed state, refused or not, and leaves the parameters, the schedule and the read log (R484). -/
theorem exec_completes (i : Instr) (s : State) :
    ∃ u, exec i s = .next (complete u) ∧ u.inst = s.inst ∧ u.schedule = s.schedule ∧ u.reads = s.reads := by
  rcases exec_cases i s with ⟨e, he⟩ | ⟨u, hu, he⟩
  · exact ⟨recordError e (cmdOpc s) s, he, rfl, rfl, rfl⟩
  · exact ⟨u, he, hu.inst, hu.schedule_reads⟩

/-- The latched word completes as a command or as an illegal word (R484, 30_encoding R146). -/
theorem runCommand_completes (s : State) : ∃ u, runCommand s = .next (complete u) := by
  cases hd : decode s.lcmd with
  | ok i =>
    obtain ⟨u, hu, -⟩ := exec_completes i s
    exact ⟨u, (runCommand_ok s i hd).trans hu⟩
  | error e => exact ⟨recordError .illegalCmd (cmdOpc s) s, runCommand_illegal s e hd⟩

theorem engineTurn_next (s : State) : ∃ t, engineTurn s = .next t := by
  unfold engineTurn
  split
  · obtain ⟨u, hu⟩ := runCommand_completes s
    exact ⟨_, hu⟩
  · exact ⟨s, rfl⟩

theorem takeTurn_next (m : Turn) (s : State) : ∃ t, takeTurn m s = .next t := by
  cases m with
  | engine => exact engineTurn_next s
  | write | read | rstLow | rstHigh | cutWrite | cutRead => exact ⟨_, rfl⟩

/-- Nothing stops the machine (R488). -/
theorem step_next (s : State) : ∃ t, step s = .next t := by
  cases hq : s.schedule with
  | nil =>
    rw [step_idleSchedule s hq]
    exact engineTurn_next s
  | cons m rest =>
    rw [step_turn s m rest hq]
    exact takeTurn_next m _

/-- Settles O6: a command ends in a completion, refused or accepted (`exec_completes`), and every kind of turn has a next state. -/
theorem everyCommandCompletes : Obligations.EveryCommandCompletes := by
  refine ⟨fun i s => ?_, fun s => ?_⟩
  · obtain ⟨u, hu, hframe⟩ := exec_completes i s
    exact ⟨complete u, hu, rfl, rfl, hframe⟩
  · obtain ⟨t, ht⟩ := step_next s
    exact ⟨t, ht, step_inst ht⟩

/-! ### The Engine's move -/

theorem EngineMove.step_run {s u : State} {i : Instr} (h : EngineMove s u) (hbusy : u.busy = true) (hreset : u.inReset = false)
    (hdecode : decode u.lcmd = .ok i) : step s = exec i u := by
  rw [h.step_eq, engineTurn_run u hbusy hreset, runCommand_ok u i hdecode]

/-- While it is idle or in reset the Engine waits (R495, 70_reset_and_hazards R510). -/
theorem EngineMove.step_wait {s u : State} (h : EngineMove s u) (hwait : u.busy = false ∨ u.inReset = true) : step s = .next u := by
  rw [h.step_eq]
  exact hwait.elim (engineTurn_idle u) (engineTurn_reset u)

/-- A placed word has the Engine's move next, in the state with the word and the live operands latched (log 10). -/
theorem withFetchWord_engineMove (s : State) (w : Word) :
    EngineMove (s.withFetchWord 32 w.toNat)
      { s with lcmd := w, larg := s.arg, lname := s.name, lctrl := s.ctrl, busy := true, inReset := false } := by
  have hword : BitVec.ofNat 32 (w.toNat % 2 ^ 32) = w := by
    rw [Nat.mod_eq_of_lt w.isLt, BitVec.ofNat_toNat, BitVec.setWidth_eq]
  refine .inr ⟨s.schedule, rfl, ?_⟩
  rw [State.withFetchWord, hword]
  rfl

/-- Settles O5: the Engine's turn with BUSY = 1 and out of reset is `exec` of the decoded latch, and otherwise waits. -/
theorem stepRunsTheCommand : Obligations.StepRunsTheCommand :=
  ⟨fun _ _ _ => EngineMove.step_run, fun _ _ => EngineMove.step_wait,
    fun s w _ hdecode => (withFetchWord_engineMove s w).step_run rfl rfl hdecode⟩

/-! ### The accepted command gets its step -/

theorem run_succ {s t : State} (h : step s = .next t) (n : Nat) : Host.Core.run core (n + 1) s = Host.Core.run core n t := by
  have hcore : core.step s = .next t := h
  simp only [Host.Core.run, hcore]

/-- The Engine's move on an accepted command is one step to its completion. -/
theorem EngineMove.completes {s u : State} (h : EngineMove s u) (hbusy : u.busy = true) (hreset : u.inReset = false) :
    ∃ t : State, Host.Core.run core 1 s = .next t ∧ t.busy = false ∧ t.done = true := by
  obtain ⟨v, hv⟩ := runCommand_completes u
  have hstep : step s = .next (complete v) := by rw [h.step_eq, engineTurn_run u hbusy hreset, hv]
  exact ⟨complete v, run_succ hstep 0, rfl, rfl⟩

theorem Written.schedule_inReset {addr : BitVec 16} {v : Word} {s t : State} (h : Written addr v s t) :
    t.schedule = s.schedule ∧ t.inReset = s.inReset := by
  cases h <;> exact ⟨rfl, rfl⟩

/-- A Host write while BUSY = 1 leaves the command pending. -/
theorem hostWrite_pending {addr : BitVec 16} {v : Word} {s : State} (hbusy : s.busy = true) :
    (hostWrite addr v s).busy = true ∧ (hostWrite addr v s).inReset = s.inReset ∧ (hostWrite addr v s).schedule = s.schedule := by
  have hwritten := hostWrite_cases addr v s
  obtain ⟨-, -, -, -, hbusy'⟩ := hwritten.latch_of_busy hbusy
  obtain ⟨hschedule, hreset⟩ := hwritten.schedule_inReset
  exact ⟨hbusy', hreset, hschedule⟩

/-- A Host read leaves the command pending. -/
theorem hostRead_pending (addr : BitVec 16) (s : State) :
    (hostRead addr s).busy = s.busy ∧ (hostRead addr s).inReset = s.inReset ∧ (hostRead addr s).schedule = s.schedule := by
  rcases hostRead_cases addr s with ⟨r, h⟩ | ⟨r, h⟩ <;> rw [h] <;> exact ⟨rfl, rfl, rfl⟩

/-- Settles O7, by induction on the pending moves: an Engine's turn completes the command, and a Host access leaves it pending with one move
fewer; once the schedule is used up the Engine has the turn (log 2). -/
theorem acceptedCommandCompletes : Obligations.AcceptedCommandCompletes := by
  intro s hbusy hreset hmoves
  induction hq : s.schedule generalizing s with
  | nil => exact ⟨1, le_rfl, EngineMove.completes (.inl ⟨hq, rfl⟩) hbusy hreset⟩
  | cons m rest ih =>
    have hmove : NextMove m s { s with schedule := rest } := ⟨rest, hq, rfl⟩
    rw [hq, List.forall_mem_cons] at hmoves
    obtain ⟨hm, hrest⟩ := hmoves
    have later {t : State} (hstep : step s = .next t) (hpending : t.busy = true ∧ t.inReset = s.inReset ∧ t.schedule = rest) :
        ∃ n ≤ (m :: rest).length + 1, ∃ t : State, Host.Core.run core n s = .next t ∧ t.busy = false ∧ t.done = true := by
      obtain ⟨htbusy, htreset, htschedule⟩ := hpending
      obtain ⟨n, hn, hrun⟩ := ih t htbusy (htreset.trans hreset) (htschedule ▸ hrest) htschedule
      exact ⟨n + 1, Nat.succ_le_succ hn, by rwa [run_succ hstep]⟩
    rcases hm with rfl | ⟨addr, v, rfl⟩ | ⟨addr, rfl⟩
    · exact ⟨1, Nat.le_add_left 1 _, EngineMove.completes (.inr hmove) hbusy hreset⟩
    · exact later hmove.step_write (hostWrite_pending hbusy)
    · have hpending := hostRead_pending addr { s with schedule := rest }
      exact later hmove.step_read (hbusy ▸ hpending)

end Sys2Proof.Machine
end

section
/-! Refused commands (60_exceptions R473, R482): each check of a command and the code it refuses with. -/

namespace Sys2Proof.Machine

/-- The outcome `o` in the state `s` is the refusal with the code `r`, if `r` is one. `refusesWith_firstRefusal` ties it to the commands. -/
def RefusesWith (s : State) (r : Option Byte) (o : Host.Outcome State Fault Refusal) : Prop :=
  ∀ code, r = some code → o = .next (refusedState code s)

namespace RefusesWith

variable {s : State} {p : Prop} [Decidable p] {r : Option Byte} {o : Host.Outcome State Fault Refusal}

theorem accepted : RefusesWith s none o := fun _ h => nomatch h

theorem refuse (e : ErrCode) : RefusesWith s (some (errNumber e)) (refuse e s) := by
  rintro _ ⟨⟩
  exact refuse_eq_refusedState e s

/-- One check: both sides refuse where it fails, and otherwise go on to the next check. -/
theorem check (e : ErrCode) (h : RefusesWith s r o) :
    RefusesWith s (if p then some (errNumber e) else r) (if p then Machine.refuse e s else o) := by
  split
  · exact .refuse e
  · exact h

/-- The last check, stated once as what must hold and once as what must not. -/
theorem checkValid (e : ErrCode) {q : Prop} [Decidable q] (h : p ↔ ¬q) :
    RefusesWith s (if q then none else some (errNumber e)) (if p then Machine.refuse e s else o) := by
  by_cases hq : q
  · rw [if_pos hq]
    exact accepted
  · rw [if_neg hq, if_pos (h.2 hq)]
    exact .refuse e

end RefusesWith

/-- Each command refuses with the first of its checks that fails, in the order of R482. -/
theorem refusesWith_firstRefusal (i : Instr) (s : State) : RefusesWith s (firstRefusal i s) (exec i s) := by
  cases i with
  | nop | softReset | clear | pRegister | pSet | pGet => exact .accepted
  | config =>
    refine .check .sequence (.checkValid .badConfig ?_)
    rw [← Bool.not_eq_true]
    exact not_congr configValid_iff
  | dlyWrite | dlyRead | dlyReadi | revStep | gpsStep | convStep => exact .check .notConfigured (.check .badUnit .accepted)
  | irBegin =>
    refine .check .notConfigured (.checkValid .irBad ?_)
    simp only [u32]
    omega
  | irPush => exact .check .notConfigured (.check .badUnit (.check .sequence .accepted))
  | irCommit => exact .check .notConfigured (.check .sequence .accepted)
  | procBlock => exact .check .notConfigured .accepted

/-- Settles O11: the checks of each command in order, and the one refusal of every illegal word. -/
theorem refusedCommandChangesNothing : Obligations.RefusedCommandChangesNothing := by
  refine ⟨refusesWith_firstRefusal, fun s e herr => ?_⟩
  rw [runCommand_illegal s e herr]
  exact refuse_eq_refusedState .illegalCmd s

end Sys2Proof.Machine
end

section
/-! STATUS, the interrupt line, and the windows while a command runs (10_state R42, R47; 60_exceptions R472, R486). -/

namespace Sys2Proof.Machine

/-! ### STATUS, bit by bit (10_state R42) -/

/-- Bits put together, bit 0 first, read back one by one. -/
theorem testBit_foldr_bit (l : List Bool) (n : Nat) : (l.foldr Nat.bit 0).testBit n = l.getD n false := by
  induction l generalizing n with
  | nil => simp
  | cons b l ih =>
    cases n with
    | zero => rw [List.foldr_cons, Nat.testBit_bit_zero, List.getD_cons_zero]
    | succ n => rw [List.foldr_cons, Nat.testBit_bit_succ, ih, List.getD_cons_succ]

theorem statusWord_eq (s : State) :
    statusWord s = BitVec.ofNat 32 ([s.busy, s.cfg, s.done, s.err, s.pchg, s.irsess, s.irvalid].foldr Nat.bit 0) := by
  rw [statusWord]
  congr 1
  simp only [List.foldr_cons, List.foldr_nil, Nat.bit_val]
  ring

theorem statusWord_getLsbD (s : State) {n : Nat} (hn : n < 32) :
    (statusWord s).getLsbD n = [s.busy, s.cfg, s.done, s.err, s.pchg, s.irsess, s.irvalid].getD n false := by
  rw [statusWord_eq, BitVec.getLsbD_ofNat, decide_eq_true hn, Bool.true_and, testBit_foldr_bit]

/-! ### A STATUS write (R42, R47) -/

/-- A 1 in a W1C bit clears it and a 0 leaves it (R42). -/
theorem and_not_eq_ite (a b : Bool) : (a && !b) = if b then false else a := by cases b <;> simp

theorem statusWrite_eq (v : Word) (s : State) :
    statusWrite v s = { s with
      done := if v.getLsbD 2 then false else s.done
      err := if v.getLsbD 3 then false else s.err
      errcode := if v.getLsbD 3 then 0#32 else s.errcode
      pchg := if v.getLsbD 4 then false else s.pchg } := by
  simp only [statusWrite, and_not_eq_ite]

/-- STATUS stands at the word offset 1 of the port (10_state R40). -/
theorem NextMove.step_statusWrite {s u : State} {addr : BitVec 16} {v : Word} (h : NextMove (.write addr v) s u) (hr : u.inReset = false)
    (haddr : addr.toNat / 4 = 1) : step s = .next (statusWrite v u) := by
  rw [h.step_write, hostWrite_register hr (by omega), haddr]
  rfl

/-- Settles O12: the bits of STATUS are those of its list of flags, and the Host write is `statusWrite`. -/
theorem statusAndInterrupt : Obligations.StatusAndInterrupt := by
  refine ⟨fun s => ?_, fun _ => rfl, fun s n hn => statusWord_getLsbD s hn, fun s u addr v hmove hr haddr => ?_⟩
  · rw [statusWord_getLsbD s (by decide), statusWord_getLsbD s (by decide), statusWord_getLsbD s (by decide)]
    rfl
  · rw [hmove.step_statusWrite hr haddr, statusWrite_eq]

/-! ### Accesses inside and outside the windows -/

theorem hostRead_inReset {addr : BitVec 16} {s : State} (hr : s.inReset = true) : hostRead addr s = { s with reads := 0#32 :: s.reads } := by
  simp [hostRead, hr]

/-- While BUSY = 1 an IN write is dropped and recorded (R472). -/
theorem hostWrite_inWindow_busy {addr : BitVec 16} {v : Word} {s : State} (hr : s.inReset = false) (hbusy : s.busy = true)
    (hin : inWindow s.inst (portOffset addr) = true) : hostWrite addr v s = busyAccess s := by
  simp [hostWrite, hr, portWrite, hin, hbusy]

/-- While BUSY = 0 an IN write stores its word (10_state R53). -/
theorem hostWrite_inWindow_idle {addr : BitVec 16} {v : Word} {s : State} (hr : s.inReset = false) (hidle : s.busy = false)
    (hin : inWindow s.inst (portOffset addr) = true) :
    hostWrite addr v s = { s with mem := writeWord s.mem (portOffset addr) v } := by
  simp [hostWrite, hr, portWrite, hin, hidle]

/-- While BUSY = 1 a read of either window returns 0 and is recorded (R472). -/
theorem hostRead_window_busy {addr : BitVec 16} {s : State} (hr : s.inReset = false) (hbusy : s.busy = true)
    (hwin : (inWindow s.inst (portOffset addr) || outWindow s.inst (portOffset addr)) = true) :
    hostRead addr s = { busyAccess s with reads := 0#32 :: s.reads } := by
  simp [hostRead, hr, portRead, hwin, hbusy]

/-- Outside IN a write is a write of a register (20_memory R101). -/
theorem hostWrite_outside {addr : BitVec 16} {v : Word} {s : State} (hr : s.inReset = false)
    (hin : inWindow s.inst (portOffset addr) = false) : hostWrite addr v s = registerWrite v s (portOffset addr) := by
  simp [hostWrite, hr, portWrite, hin]

/-- Outside the windows a read returns a word and has no other effect (20_memory R107). -/
theorem hostRead_outside {addr : BitVec 16} {s : State} (hin : inWindow s.inst (portOffset addr) = false)
    (hout : outWindow s.inst (portOffset addr) = false) : ∃ v, hostRead addr s = { s with reads := v :: s.reads } := by
  by_cases hr : s.inReset = true
  · exact ⟨_, hostRead_inReset hr⟩
  · exact ⟨registerWord s (portOffset addr), by simp [hostRead, hr, portRead, hin, hout]⟩

/-- The registers other than STATUS and CMD: a write sets CTRL, ARG or NAME at most (10_state R40). -/
theorem registerWrite_operands (v : Word) (s : State) {o : Nat} (hstatus : o ≠ 0x04) (hcmd : o ≠ 0x0C) :
    ∃ c a n, registerWrite v s o = { s with ctrl := c, arg := a, name := n } := by
  unfold registerWrite
  split
  case h_1 => exact absurd rfl hstatus
  case h_3 => exact absurd rfl hcmd
  all_goals exact ⟨_, _, _, rfl⟩

/-- A write outside IN, STATUS and CMD sets CTRL, ARG or NAME at most, in reset or not. -/
theorem hostWrite_operands {addr : BitVec 16} (v : Word) {s : State} (hin : inWindow s.inst (portOffset addr) = false)
    (hstatus : addr.toNat / 4 ≠ 1) (hcmd : addr.toNat / 4 ≠ 3) :
    ∃ c a n, hostWrite addr v s = { s with ctrl := c, arg := a, name := n } := by
  by_cases hr : s.inReset = true
  · exact ⟨s.ctrl, s.arg, s.name, hostWrite_inReset hr⟩
  · rw [hostWrite_outside (Bool.eq_false_iff.2 hr) hin]
    exact registerWrite_operands v s (o := 4 * (addr.toNat / 4)) (by omega) (by omega)

end Sys2Proof.Machine

namespace Sys2Proof

open Machine

/-- Settles O16: the accesses by whether they reach a window, STATUS, CMD or another register. -/
theorem busyAccess : Obligations.BusyAccess := by
  refine ⟨fun s u addr v hmove hr hbusy hlo hhi => ?_, fun s u addr hmove hr hbusy hwin => ?_, fun s u t addr hmove hstep hin hout => ?_,
    fun s u t addr v hmove hstep hin hstatus hcmd => ?_, fun s u t addr v hmove hr haddr hstep => ?_⟩
  · rw [hmove.step_write, hostWrite_inWindow_busy hr hbusy (inWindow_iff.2 ⟨hlo, hhi⟩)]
    rfl
  · rw [hmove.step_read, hostRead_window_busy hr hbusy (Bool.or_eq_true_iff.2 (hwin.imp inWindow_iff.2 outWindow_iff.2))]
    rfl
  · obtain ⟨v, hv⟩ := hostRead_outside (Bool.eq_false_iff.2 (mt inWindow_iff.1 hin)) (Bool.eq_false_iff.2 (mt outWindow_iff.1 hout))
    rw [hmove.step_read, hv] at hstep
    cases hstep
    exact ⟨v, rfl⟩
  · obtain ⟨c, a, n, hw⟩ := hostWrite_operands v (Bool.eq_false_iff.2 (mt inWindow_iff.1 hin)) hstatus hcmd
    rw [hmove.step_write, hw] at hstep
    cases hstep
    exact ⟨rfl, rfl, rfl, rfl, rfl, rfl, rfl⟩
  · rw [hmove.step_statusWrite hr haddr] at hstep
    cases hstep
    exact ⟨rfl, rfl, rfl⟩

end Sys2Proof
end

section
/-! Error recording (60_exceptions R483): ERR, the code and the opcode of the first error and a set OVF stay until the Host clears them or a
reset does. -/

namespace Sys2Proof.Machine

/-! ### One recording -/

/-- The first error leaves OVF at 0. -/
theorem errWord_ovf (e : ErrCode) (o : Byte) : errWord e o = 0#15 ++ (0#1 ++ (o ++ errNumber e)) := by
  have hzero : 0#16 = 0#15 ++ 0#1 := rfl
  rw [errWord, hzero]
  exact BitVec.append_assoc

theorem recordError_first {s : State} (e : ErrCode) (o : Byte) (h : s.err = false) :
    recordError e o s = { s with err := true, errcode := 0#15 ++ (0#1 ++ (o ++ errNumber e)) } := by
  rw [recordError, h, errcodeAfter_first, errWord_ovf]

theorem recordError_later {s : State} (e : ErrCode) (o : Byte) (h : s.err = true) :
    recordError e o s = { s with errcode := s.errcode ||| ovfMask } := by
  rw [recordError, h, errcodeAfter_later, ← h]

/-! ### The error state under a Host write -/

/-- Away from STATUS a register write leaves the error state, or records an error of the port. -/
theorem registerWrite_error_cases (v : Word) (s : State) {o : Nat} (hstatus : o ≠ 0x04) :
    (∃ e, registerWrite v s o = recordError e 0xFF#8 s)
      ∨ ((registerWrite v s o).err = s.err ∧ (registerWrite v s o).errcode = s.errcode) := by
  by_cases hcmd : o = 0x0C
  · subst hcmd
    change (∃ e, writeCmd v s = _) ∨ (writeCmd v s).err = _ ∧ (writeCmd v s).errcode = _
    unfold writeCmd
    split
    · exact .inl ⟨_, rfl⟩
    · exact .inr ⟨rfl, rfl⟩
  · obtain ⟨c, a, n, h⟩ := registerWrite_operands v s hstatus hcmd
    rw [h]
    exact .inr ⟨rfl, rfl⟩

/-- A Host write reaches STATUS, records an error of the port, or leaves the error state. -/
theorem hostWrite_error_cases (addr : BitVec 16) (v : Word) (s : State) :
    (addr.toNat / 4 = 1 ∧ hostWrite addr v s = statusWrite v s) ∨ (∃ e, hostWrite addr v s = recordError e 0xFF#8 s)
      ∨ ((hostWrite addr v s).err = s.err ∧ (hostWrite addr v s).errcode = s.errcode) := by
  by_cases hr : s.inReset = true
  · rw [hostWrite_inReset hr]
    exact .inr (.inr ⟨rfl, rfl⟩)
  have hr' : s.inReset = false := Bool.eq_false_iff.2 hr
  by_cases hin : inWindow s.inst (portOffset addr) = true
  · cases hbusy : s.busy with
    | true => exact .inr (.inl ⟨_, hostWrite_inWindow_busy hr' hbusy hin⟩)
    | false =>
      rw [hostWrite_inWindow_idle hr' hbusy hin]
      exact .inr (.inr ⟨rfl, rfl⟩)
  · rw [hostWrite_outside hr' (Bool.eq_false_iff.2 hin)]
    by_cases haddr : addr.toNat / 4 = 1
    · rw [portOffset, haddr]
      exact .inl ⟨rfl, rfl⟩
    · exact .inr (registerWrite_error_cases v s (o := 4 * (addr.toNat / 4)) (by omega))

/-! ### What stays recorded -/

/-- The error whose ERRCODE was `w` is still recorded in `s`: ERR is set, CODE and OPC are those of `w`, and OVF is set if it was. -/
structure StillRecorded (w : Word) (s : State) : Prop where
  err : s.err = true
  first : s.errcode.extractLsb' 0 16 = w.extractLsb' 0 16
  ovf : w.getLsbD 16 = true → s.errcode.getLsbD 16 = true

namespace StillRecorded

variable {w : Word} {s t : State}

theorem congr (h : StillRecorded w s) (herr : t.err = s.err) (hcode : t.errcode = s.errcode) : StillRecorded w t where
  err := herr.trans h.err
  first := hcode ▸ h.first
  ovf := hcode ▸ h.ovf

/-- A later error sets OVF only. -/
theorem recordError (h : StillRecorded w s) (e : ErrCode) (o : Byte) : StillRecorded w (recordError e o s) := by
  rw [recordError_later e o h.err]
  refine ⟨h.err, ?_, fun _ => ?_⟩
  · change (s.errcode ||| ovfMask).extractLsb' 0 16 = _
    rw [BitVec.extractLsb'_or, h.first]
    simp [ovfMask]
  · change (s.errcode ||| ovfMask).getLsbD 16 = true
    simp [ovfMask]

theorem warnIf (h : StillRecorded w s) (b : Bool) (e : ErrCode) : StillRecorded w (warnIf b e s) := by
  cases b
  · exact h
  · exact h.recordError e _

theorem paramWritten {register : Bool} (h : StillRecorded w s) (ht : ParamWritten register s t) : StillRecorded w t := by
  cases ht
  case full => exact (h.recordError .paramFull (cmdOpc s)).congr rfl rfl
  all_goals exact h.congr rfl rfl

/-- A command changes ERR and ERRCODE by recording errors only; SOFT_RESET alone clears them. -/
theorem accepted {i : Instr} (h : StillRecorded w s) (hi : i ≠ .softReset) (ht : Accepted i s t) : StillRecorded w t := by
  cases ht with
  | softReset => exact absurd rfl hi
  | config => exact (h.congr (t := configured _ _ _ _ s) rfl rfl).warnIf _ _
  | clear =>
    rw [clearUnits_eq]
    exact h.congr rfl rfl
  | irOverflow => exact h.recordError _ _
  | irCommit => exact ((h.warnIf _ .irShort).warnIf _ .irTrunc).congr rfl rfl
  | pRegister _ _ hp | pSet _ _ hp => exact h.paramWritten hp
  | pGet _ _ hp =>
    obtain ⟨_, _, rfl⟩ := hp.frame
    exact h.congr rfl rfl
  | procBlock =>
    obtain ⟨b, _, _, _, _, _, _, hp⟩ := procDone_onlyUnits s
    rw [hp]
    exact (h.warnIf b .countAdjusted).congr rfl rfl
  | nop | dlyWrite | dlyRead | dlyReadi | revStep | gpsStep | convStep | irBegin | irPush => exact h.congr rfl rfl

theorem engineTurn (h : StillRecorded w s) (hreset : decode s.lcmd ≠ .ok .softReset) (ht : engineTurn s = .next t) : StillRecorded w t := by
  unfold Machine.engineTurn at ht
  split at ht
  case isFalse => cases ht; exact h
  case isTrue =>
    cases hd : decode s.lcmd with
    | error e =>
      rw [runCommand_illegal s e hd] at ht
      cases ht
      exact (h.recordError _ _).congr rfl rfl
    | ok i =>
      rw [runCommand_ok s i hd] at ht
      rcases exec_next ht with ⟨e, rfl⟩ | ⟨u, hu, rfl⟩
      · exact (h.recordError e _).congr rfl rfl
      · exact (h.accepted (fun hi => hreset (hi ▸ hd)) hu).congr rfl rfl

theorem hostRead (h : StillRecorded w s) (addr : BitVec 16) : StillRecorded w (hostRead addr s) := by
  rcases hostRead_cases addr s with ⟨r, hr⟩ | ⟨r, hr⟩ <;> rw [hr]
  · exact h.congr rfl rfl
  · exact (h.recordError .busyAccess 0xFF#8).congr rfl rfl

/-- A Host write of 1 to ERR clears the error at STATUS only; every other write leaves it or records a later one. -/
theorem hostWrite {addr : BitVec 16} {v : Word} (h : StillRecorded w s) (hkeep : ¬(addr.toNat / 4 = 1 ∧ v.getLsbD 3 = true)) :
    StillRecorded w (hostWrite addr v s) := by
  rcases hostWrite_error_cases addr v s with ⟨haddr, hw⟩ | ⟨e, hw⟩ | ⟨herr, hcode⟩
  · have hv : v.getLsbD 3 = false := Bool.eq_false_iff.2 fun hv => hkeep ⟨haddr, hv⟩
    rw [hw]
    exact h.congr (by rw [statusWrite_err, hv, Bool.not_false, Bool.and_true]) (by rw [statusWrite_errcode, hv]; rfl)
  · rw [hw]
    exact h.recordError e _
  · exact h.congr herr hcode

/-- Every move but those of `mayClearError` keeps the error (R483). -/
theorem step (h : StillRecorded w s) (hkeep : ¬mayClearError s) (ht : step s = .next t) : StillRecorded w t := by
  unfold mayClearError at hkeep
  cases hq : s.schedule with
  | nil =>
    rw [hq] at hkeep
    exact h.engineTurn hkeep ((step_idleSchedule s hq).symm.trans ht)
  | cons m rest =>
    have hturn : takeTurn m { s with schedule := rest } = .next t := (step_turn s m rest hq).symm.trans ht
    have hs : StillRecorded w { s with schedule := rest } := h.congr rfl rfl
    rw [hq] at hkeep
    cases m with
    | engine => exact hs.engineTurn hkeep hturn
    | write addr v => cases hturn; exact hs.hostWrite hkeep
    | read addr => cases hturn; exact hs.hostRead addr
    | rstLow | rstHigh | cutWrite | cutRead => exact absurd trivial hkeep

end StillRecorded

/-- Settles O10: the recording by its two cases, what it leaves along every kind of move (`StillRecorded.step`), and the STATUS write. -/
theorem errorRecording : Obligations.ErrorRecording := by
  refine ⟨fun e o s => recordError_first e o, fun e o s => recordError_later e o, fun _ _ => rfl, fun _ _ => rfl,
    fun s t herr hstep hkeep => ?_, fun s u t addr v hmove hr haddr hv hstep => ?_⟩
  · obtain ⟨herr', hfirst, hovf⟩ := StillRecorded.step ⟨herr, rfl, id⟩ hkeep hstep
    exact ⟨herr', hfirst, hovf⟩
  · rw [hmove.step_statusWrite hr haddr] at hstep
    cases hstep
    simp [hv]

end Sys2Proof.Machine
end

section
/-! Reset: by `rst_n`, between accesses and in the middle of one, and by SOFT_RESET (70_reset_and_hazards R510, R530), the reset values
(R511), and that they meet every invariant. -/

namespace Sys2Proof.Machine

/-! ### Events of `rst_n` -/

theorem resetHigh_inReset {s : State} (h : s.inReset = true) : resetHigh s = { resetAll s with inReset := false } := if_pos h

/-- `s` with the free value in the read log that a read cut short by `rst_n` returns (log 5). -/
def withCutWord (s : State) : State :=
  { s with reads := Config.interruptedRead s.freeCount :: s.reads, freeCount := s.freeCount + 1 }

theorem cutRead_running {s : State} (h : s.inReset = false) (addr : BitVec 16) : cutRead addr s = resetLow (withCutWord s) :=
  if_neg (by simp [h])

theorem cutRead_inReset {s : State} (h : s.inReset = true) (addr : BitVec 16) : cutRead addr s = hostRead addr s := if_pos h

/-- Two moves of the schedule are two steps. -/
theorem run_two_of_schedule {s t u : State} {m m' : Turn} {rest : List Turn} (hs : s.schedule = m :: m' :: rest)
    (ht : takeTurn m { s with schedule := m' :: rest } = .next t) (htschedule : t.schedule = m' :: rest)
    (hu : takeTurn m' { t with schedule := rest } = .next u) : Host.Core.run core 2 s = .next u := by
  rw [run_succ ((step_turn s m _ hs).trans ht), run_succ ((step_turn t m' rest htschedule).trans hu)]
  rfl

/-- The fall of `rst_n` in the state `v`, whatever led to it, and the rise give the reset state (R510, R530). -/
theorem run_two_of_fall_rise {s v : State} {m : Turn} {rest : List Turn} (hs : s.schedule = m :: .rstHigh :: rest)
    (hfall : takeTurn m { s with schedule := .rstHigh :: rest } = .next (resetLow v)) (hv : v.schedule = .rstHigh :: rest) :
    Host.Core.run core 2 s
      = .next { State.resetOf v.inst with schedule := rest, reads := v.reads, freeCount := v.freeCount } :=
  run_two_of_schedule hs hfall hv rfl

/-- Settles O20: each event of `rst_n` by its one equation, a cut access as a fall in a state of its own. -/
theorem hardwareReset : Obligations.HardwareReset := by
  refine ⟨fun s u t hmove hstep => ?_, fun s u addr hr hmove => ?_, fun s u addr v hr hmove => ?_, fun s u hr hmove => ?_,
    fun s u hr hmove => ?_, fun _ => rfl, fun s u addr hr hmove => ?_, fun s u addr hr hmove => ?_, fun s u addr v hmove => ?_,
    fun s addr rest hr hs => ?_, fun s addr v rest hs => ?_⟩
  · cases hmove.step_eq.symm.trans hstep
    exact ⟨rfl, rfl⟩
  · rw [hmove.step_read, hostRead_inReset hr]
  · rw [hmove.step_write, hostWrite_inReset hr]
  · exact hmove.step_wait (.inr hr)
  · rw [hmove.step_eq, takeTurn_rstHigh, resetHigh_inReset hr]
    rfl
  · rw [hmove.step_eq, takeTurn_cutRead, cutRead_running hr]
    exact ⟨_, rfl, rfl, rfl, rfl, rfl, rfl⟩
  · rw [hmove.step_eq, takeTurn_cutRead, cutRead_inReset hr, hostRead_inReset hr]
  · exact ⟨_, hmove.step_eq, rfl, rfl, rfl, rfl, rfl⟩
  · have hcut := cutRead_running (s := { s with schedule := .rstHigh :: rest }) hr addr
    exact run_two_of_fall_rise hs (congrArg Host.Outcome.next hcut) rfl
  · exact run_two_of_fall_rise hs rfl rfl (v := { s with schedule := .rstHigh :: rest })

/-! ### The reset values -/

/-- A synthesis parameter is read the same in every state that has it (10_state R52). -/
theorem registerWord_capability {s t : State} (h : s.inst = t.inst) {o : Nat} (ho : o ∈ [0x58, 0x5C, 0x60, 0x64, 0x68, 0x6C, 0x70]) :
    registerWord s o = registerWord t o := by
  simp only [List.mem_cons, List.not_mem_nil, or_false] at ho
  rcases ho with rfl | rfl | rfl | rfl | rfl | rfl | rfl <;> simp only [registerWord, h]

/-- Before any write every word of the windows is 0 (10_state R53, R54). -/
theorem readWord_nil (a : Nat) : readWord [] a = 0#32 := by simp [readWord, readByte, sparseGet]

/-- The names and reset values of 46_parameter_store R431 as text. -/
def builtinNames : List (String × F32) :=
  [("mix", 0x3F000000#32), ("roomsize", 0x3F000000#32), ("damping", 0x3F000000#32), ("decay", 0x3F800000#32), ("pitch", 0x3F800000#32),
    ("predelay", 0#32), ("delaytime", 0#32), ("wetgain", 0x3F800000#32)]

/-- The bytes of a name given as text. -/
def nameBytes (n : String) : Name8 := n.toList.map fun c => BitVec.ofNat 8 c.toNat

/-- The table of built-ins has the names and the reset values of R431. -/
theorem builtinTable_texts (p : Params) :
    (builtinTable p).map (fun b => (b.name, b.rst)) = builtinNames.map fun x => (nameBytes x.1, x.2) := by
  rfl

theorem resetStore_named {p : Params} {e : Nat} {x : String × F32} (hx : builtinNames[e]? = some x) :
    (resetStore p)[e]? = some ⟨true, nameBytes x.1, x.2, x.2⟩ := by
  have hrow := congrArg (·[e]?) (builtinTable_texts p)
  simp only [List.getElem?_map, hx, Option.map_some] at hrow
  obtain ⟨b, hb, hname⟩ := Option.map_eq_some_iff.1 hrow
  obtain ⟨hn, hr⟩ := Prod.mk.inj hname
  rw [resetStore_builtin hb, hn, hr]

theorem resetStore_unused {p : Params} {e : Nat} (hlo : 8 ≤ e) (hhi : e < p.pMax) :
    (resetStore p)[e]? = some ⟨false, [], 0#32, 0#32⟩ := by
  have hlen : ((builtinTable p).map fun b => (⟨true, b.name, b.rst, b.rst⟩ : PEntry)).length = 8 := rfl
  rw [resetStore, List.getElem?_append_right (hlen ▸ hlo), hlen, List.getElem?_replicate_of_lt (by omega)]

/-- Settles O19: the reset state row by row, the parameter store by the lemmas on `resetStore`. -/
theorem resetValues : Obligations.ResetValues := by
  intro p hp r
  have hcap : ∀ o ∈ [0x58, 0x5C, 0x60, 0x64, 0x68, 0x6C, 0x70], ∀ s : State, s.inst = p → registerWord s o = registerWord r o :=
    fun o ho s hs => registerWord_capability hs ho
  have hsize : r.pst.length = p.pMax := (StoreInv.resetOf hp).size
  have hunset : ∀ o ∈ [0x40, 0x44, 0x48, 0x4C, 0x50, 0x54], registerWord r o = 0#32 := by
    simp [r, registerWord, cfgReg, irReg, State.resetOf]
  exact ⟨rfl, rfl, rfl, rfl, rfl, rfl, rfl, rfl, hunset, rfl, hcap, fun i => ⟨readWord_nil (inAddr i), readWord_nil (outAddr i)⟩,
    -- the latch, the configuration, the units, the convolution engine, the load session
    rfl, rfl, rfl, rfl, rfl, rfl, rfl, rfl, rfl, rfl, rfl, rfl, rfl, rfl, rfl, rfl, rfl, rfl, rfl, rfl, rfl, rfl, rfl, rfl,
    hsize, fun _ _ => resetStore_builtin, fun _ _ => resetStore_named, fun _ => resetStore_unused, rfl⟩

/-! ### The invariants at reset -/

/-- The suggested parameters of 00_scope R10 meet its constraints. -/
theorem reference_valid : Params.reference.Valid := by
  constructor <;> decide

theorem invariants_resetOf {p : Params} (hp : p.Valid) :
    MemInv (State.resetOf p) ∧ RegInv (State.resetOf p) ∧ StoreInv (State.resetOf p) ∧ ShapeInv (State.resetOf p) ∧ GpsInv (State.resetOf p) :=
  ⟨memInv_iff.2 (.nil _), .resetOf p, .resetOf hp, .resetOf hp, fun hcfg => nomatch hcfg⟩

/-- Settles O60: the reset state of each invariant's own lemma; the suggested parameters are valid. -/
theorem resetMeetsInvariants : Obligations.ResetMeetsInvariants := ⟨fun _ => invariants_resetOf, invariants_resetOf reference_valid⟩

end Sys2Proof.Machine
end
